-- ==== Sys2Proof/Word.lean ====
section
/-! DEFINITION. The word types of the machine and their plainest arithmetic (spec/00_scope.md section 7). -/

namespace Sys2Proof

/-- One 8-bit byte. -/
abbrev Byte := BitVec 8

/-- One 16-bit word: a general register, a segment register, an offset, a port number. -/
abbrev Word := BitVec 16

/-- The operand width of an instruction, `w` of the spec: byte (`N = 8`) or word (`N = 16`). -/
inductive Width where
  | byte
  | word
deriving DecidableEq, Repr

/-- `N`, the operand width in bits (00_scope.md section 7). -/
@[reducible] def Width.bits : Width → Nat
  | .byte => 8
  | .word => 16

/-- Bits 7:0 of a word. -/
def loByte (v : Word) : Byte := v.setWidth 8

/-- Bits 15:8 of a word. -/
def hiByte (v : Word) : Byte := (v >>> 8).setWidth 8

/-- The word `hi ++ lo` (20_memory.md R78: the low byte is bits 7:0). -/
def mkWord (lo hi : Byte) : Word := hi ++ lo

end Sys2Proof
end

