-- ==== Sys2Proof/Syntax.lean ====
section
/-! DEFINITION. The instructions: one constructor per rule and operand shape of spec/30_encoding.md section 6.
The fields carry the rest of a table row (the width bit, the register fields, which alias of an opcode is meant),
so every row is a term of its own. -/

namespace Sys2Proof

/-- The eight 16-bit general registers, in the order of their numbers 0..7 (10_state.md R21). The byte register
numbered `i` is a half of one of the first four (R22). -/
inductive GReg where
  | ax | cx | dx | bx | sp | bp | si | di
deriving DecidableEq, Repr

/-- The four segment registers, in the order of their numbers 0..3 (10_state.md R24). -/
inductive SReg where
  | es | cs | ss | ds
deriving DecidableEq, Repr

/-- The register part of a memory ModR/M operand, `rm` = 0..7 (30_encoding.md R140). -/
inductive Base where
  | bxsi | bxdi | bpsi | bpdi | si | di | bp | bx
deriving DecidableEq, Repr

/-- A memory ModR/M operand (R140). `noDisp bp` has no encoding: its place in the table is the direct address. -/
inductive Mem where
  | direct (d16 : Word)
  | noDisp (b : Base)
  | disp8  (b : Base) (d8 : Byte)
  | disp16 (b : Base) (d16 : Word)
deriving DecidableEq, Repr

/-- The operand `E`: a register (mod = 3) or memory. -/
inductive RM where
  | reg (g : GReg)
  | mem (m : Mem)
deriving DecidableEq, Repr

/-- The count of a shift or rotate: 1 (D0, D1) or CL (D2, D3) (42_shift_rotate.md R250). -/
inductive Count where
  | one
  | cl
deriving DecidableEq, Repr

/-- The ten rows of each of the eight two-operand ALU operations (40_alu.md R184). `rmImm8Alias` is opcode 82
(46_processor_control.md R409). -/
inductive AluForm where
  | rmReg   (w : Width) (e : RM) (g : GReg)
  | regRm   (w : Width) (g : GReg) (e : RM)
  | accImm8  (i : Byte)
  | accImm16 (i : Word)
  | rmImm8   (e : RM) (i : Byte)
  | rmImm16  (e : RM) (i : Word)
  | rmImm8Alias (e : RM) (i : Byte)
  | rmImm8Sext  (e : RM) (i : Byte)
deriving DecidableEq, Repr

/-- The rows of TEST (40_alu.md R196); the aliases are F6 /1 and F7 /1 (R410). -/
inductive TestForm where
  | rmReg (w : Width) (e : RM) (g : GReg)
  | accImm8  (i : Byte)
  | accImm16 (i : Word)
  | rmImm8   (e : RM) (i : Byte)
  | rmImm16  (e : RM) (i : Word)
  | rmImm8Alias  (e : RM) (i : Byte)
  | rmImm16Alias (e : RM) (i : Word)
deriving DecidableEq, Repr

/-- The instructions and the prefix bytes. A Bool field `low` or `high` is `true` for the undocumented twin of an
encoding: a conditional jump at 60..6F (R406), a return at C0, C1, C8, C9 (R407), a segment register field of 4..7
(R156), `FF /7` (R412). `ext` is the ignored reg field of 8F, C6, C7 (R157). -/
inductive Instr where
  -- 40_alu.md
  | add (f : AluForm)
  | or  (f : AluForm)
  | adc (f : AluForm)
  | sbb (f : AluForm)
  | and (f : AluForm)
  | sub (f : AluForm)
  | xor (f : AluForm)
  | cmp (f : AluForm)
  | test (f : TestForm)
  | incReg (g : GReg)
  | incRm (w : Width) (e : RM)
  | decReg (g : GReg)
  | decRm (w : Width) (e : RM)
  | not (w : Width) (e : RM)
  | neg (w : Width) (e : RM)
  -- 41_muldiv_bcd.md
  | mul  (w : Width) (e : RM)
  | imul (w : Width) (e : RM)
  | div  (w : Width) (e : RM)
  | idiv (w : Width) (e : RM)
  | daa
  | das
  | aaa
  | aas
  | aam (base : Byte)
  | aad (base : Byte)
  -- 42_shift_rotate.md
  | rol (w : Width) (e : RM) (c : Count)
  | ror (w : Width) (e : RM) (c : Count)
  | rcl (w : Width) (e : RM) (c : Count)
  | rcr (w : Width) (e : RM) (c : Count)
  | shl (w : Width) (e : RM) (c : Count)
  | shr (w : Width) (e : RM) (c : Count)
  | setmo (w : Width) (e : RM) (c : Count)
  | sar (w : Width) (e : RM) (c : Count)
  -- 43_data_transfer.md
  | movRmReg (w : Width) (e : RM) (g : GReg)
  | movRegRm (w : Width) (g : GReg) (e : RM)
  | movRmImm8  (ext : BitVec 3) (e : RM) (i : Byte)
  | movRmImm16 (ext : BitVec 3) (e : RM) (i : Word)
  | movRegImm8  (g : GReg) (i : Byte)
  | movRegImm16 (g : GReg) (i : Word)
  | movAccMem (w : Width) (off : Word)
  | movMemAcc (w : Width) (off : Word)
  | movRmSeg (high : Bool) (e : RM) (r : SReg)
  | movSegRm (high : Bool) (r : SReg) (e : RM)
  | pushReg (g : GReg)
  | pushRm (high : Bool) (e : RM)
  | pushSeg (r : SReg)
  | popReg (g : GReg)
  | popRm (ext : BitVec 3) (e : RM)
  | popSeg (r : SReg)
  | pushf
  | popf
  | xchgRm (w : Width) (e : RM) (g : GReg)
  | xchgAx (g : GReg)
  | lea (g : GReg) (e : RM)
  | lds (g : GReg) (e : RM)
  | les (g : GReg) (e : RM)
  | xlat
  | lahf
  | sahf
  | cbw
  | cwd
  | inImm (w : Width) (port : Byte)
  | inDx  (w : Width)
  | outImm (w : Width) (port : Byte)
  | outDx  (w : Width)
  -- 44_string.md
  | movsb
  | movsw
  | cmpsb
  | cmpsw
  | stosb
  | stosw
  | lodsb
  | lodsw
  | scasb
  | scasw
  -- 45_control_transfer.md
  | jo  (low : Bool) (d : Byte)
  | jno (low : Bool) (d : Byte)
  | jb  (low : Bool) (d : Byte)
  | jnb (low : Bool) (d : Byte)
  | jz  (low : Bool) (d : Byte)
  | jnz (low : Bool) (d : Byte)
  | jbe (low : Bool) (d : Byte)
  | ja  (low : Bool) (d : Byte)
  | js  (low : Bool) (d : Byte)
  | jns (low : Bool) (d : Byte)
  | jp  (low : Bool) (d : Byte)
  | jnp (low : Bool) (d : Byte)
  | jl  (low : Bool) (d : Byte)
  | jge (low : Bool) (d : Byte)
  | jle (low : Bool) (d : Byte)
  | jg  (low : Bool) (d : Byte)
  | loopnz (d : Byte)
  | loopz  (d : Byte)
  | loop   (d : Byte)
  | jcxz   (d : Byte)
  | jmpShort (d : Byte)
  | jmpNear  (d : Word)
  | jmpFar   (off seg : Word)
  | jmpRm    (e : RM)
  | jmpFarRm (e : RM)
  | callNear  (d : Word)
  | callFar   (off seg : Word)
  | callRm    (e : RM)
  | callFarRm (e : RM)
  | ret     (low : Bool)
  | retImm  (low : Bool) (i : Word)
  | retf    (low : Bool)
  | retfImm (low : Bool) (i : Word)
  | int3
  | intN (n : Byte)
  | into
  | iret
  -- 46_processor_control.md
  | salc
  | nop
  | hlt
  | wait
  | cmc
  | clc
  | stc
  | cli
  | sti
  | cld
  | std
  | esc (op reg : BitVec 3) (e : RM)
  | segEs
  | segCs
  | segSs
  | segDs
  | lock
  | lockAlias
  | repnz
  | rep
  | fe2 (e : RM)
  | fe3 (e : RM)
  | fe4 (e : RM)
  | fe5 (e : RM)
  | fe6 (e : RM)
  | fe7 (e : RM)
deriving DecidableEq, Repr

end Sys2Proof
end

