-- ==== Sys2Proof/WellFormed.lean ====
section
/-! DEFINITION. Which terms of `Instr` have an encoding (30_encoding.md sections 3 and 6). -/

namespace Sys2Proof

/-- `[BP]` without a displacement has no encoding: mod = 00, rm = 110 is the direct address (R140). -/
def Mem.wf : Mem → Bool
  | .noDisp b => b != .bp
  | _ => true

def RM.wf : RM → Bool
  | .reg _ => true
  | .mem m => m.wf

def AluForm.wf : AluForm → Bool
  | .rmReg _ e _ => e.wf
  | .regRm _ _ e => e.wf
  | .accImm8 _ => true
  | .accImm16 _ => true
  | .rmImm8 e _ => e.wf
  | .rmImm16 e _ => e.wf
  | .rmImm8Alias e _ => e.wf
  | .rmImm8Sext e _ => e.wf

def TestForm.wf : TestForm → Bool
  | .rmReg _ e _ => e.wf
  | .accImm8 _ => true
  | .accImm16 _ => true
  | .rmImm8 e _ => e.wf
  | .rmImm16 e _ => e.wf
  | .rmImm8Alias e _ => e.wf
  | .rmImm16Alias e _ => e.wf

/-- The instruction has an encoding. `XCHG AX,AX` in the register-in-opcode form is NOP (R291), a constructor of
its own. -/
def Instr.wf : Instr → Bool
  | .add f | .or f | .adc f | .sbb f | .and f | .sub f | .xor f | .cmp f => f.wf
  | .test f => f.wf
  | .incRm _ e | .decRm _ e | .not _ e | .neg _ e | .mul _ e | .imul _ e | .div _ e | .idiv _ e => e.wf
  | .rol _ e _ | .ror _ e _ | .rcl _ e _ | .rcr _ e _ | .shl _ e _ | .shr _ e _ | .setmo _ e _ | .sar _ e _ => e.wf
  | .movRmReg _ e _ | .movRegRm _ _ e | .movRmImm8 _ e _ | .movRmImm16 _ e _ => e.wf
  | .movRmSeg _ e _ | .movSegRm _ _ e | .pushRm _ e | .popRm _ e => e.wf
  | .xchgRm _ e _ | .lea _ e | .lds _ e | .les _ e => e.wf
  | .xchgAx g => g != .ax
  | .jmpRm e | .jmpFarRm e | .callRm e | .callFarRm e => e.wf
  | .esc _ _ e => e.wf
  | .fe2 e | .fe3 e | .fe4 e | .fe5 e | .fe6 e | .fe7 e => e.wf
  | .incReg _ | .decReg _ | .daa | .das | .aaa | .aas | .aam _ | .aad _ => true
  | .movRegImm8 _ _ | .movRegImm16 _ _ | .movAccMem _ _ | .movMemAcc _ _ => true
  | .pushReg _ | .pushSeg _ | .popReg _ | .popSeg _ | .pushf | .popf => true
  | .xlat | .lahf | .sahf | .cbw | .cwd | .inImm _ _ | .inDx _ | .outImm _ _ | .outDx _ => true
  | .movsb | .movsw | .cmpsb | .cmpsw | .stosb | .stosw | .lodsb | .lodsw | .scasb | .scasw => true
  | .jo _ _ | .jno _ _ | .jb _ _ | .jnb _ _ | .jz _ _ | .jnz _ _ | .jbe _ _ | .ja _ _ => true
  | .js _ _ | .jns _ _ | .jp _ _ | .jnp _ _ | .jl _ _ | .jge _ _ | .jle _ _ | .jg _ _ => true
  | .loopnz _ | .loopz _ | .loop _ | .jcxz _ => true
  | .jmpShort _ | .jmpNear _ | .jmpFar _ _ | .callNear _ | .callFar _ _ => true
  | .ret _ | .retImm _ _ | .retf _ | .retfImm _ _ | .int3 | .intN _ | .into | .iret => true
  | .salc | .nop | .hlt | .wait | .cmc | .clc | .stc | .cli | .sti | .cld | .std => true
  | .segEs | .segCs | .segSs | .segDs | .lock | .lockAlias | .repnz | .rep => true

end Sys2Proof
end

