-- ==== Sys2Proof/Decode.lean ====
section
/-! DEFINITION. Bytes to instructions (`decode`, total) and back (`encode`), written from spec/30_encoding.md. An
opcode byte is read as its two octal parts: bits 7:3 select a row of eight, bits 2:0 the entry in it. -/

namespace Sys2Proof

/-- `sext_16` of a byte (00_scope.md section 7). -/
def sext16 (b : Byte) : Word := b.signExtend 16

/-- Why a byte list is no instruction. Every opcode byte has a row (R165), so bytes can only be missing. -/
inductive DecodeError where
  | truncated
deriving DecidableEq, Repr

/-- The instruction and the bytes after it. -/
abbrev DecodeResult := Except DecodeError (Instr × List Byte)

/-! ### Register fields -/

/-- R21: the register numbered by a 3-bit field. -/
def GReg.ofBits (b : BitVec 3) : GReg :=
  match b.toNat with
  | 0 => .ax | 1 => .cx | 2 => .dx | 3 => .bx | 4 => .sp | 5 => .bp | 6 => .si | _ => .di

/-- R21: the number of a register. -/
def GReg.bits : GReg → BitVec 3
  | .ax => 0 | .cx => 1 | .dx => 2 | .bx => 3 | .sp => 4 | .bp => 5 | .si => 6 | .di => 7

/-- R24, R156: the segment register of the low two bits of a field. -/
def SReg.ofBits (b : BitVec 3) : SReg :=
  match b.toNat % 4 with
  | 0 => .es | 1 => .cs | 2 => .ss | _ => .ds

/-- R24: the number of a segment register. -/
def SReg.bits : SReg → BitVec 3
  | .es => 0 | .cs => 1 | .ss => 2 | .ds => 3

/-- R140: the base registers of an `rm` field. -/
def Base.ofBits (b : BitVec 3) : Base :=
  match b.toNat with
  | 0 => .bxsi | 1 => .bxdi | 2 => .bpsi | 3 => .bpdi | 4 => .si | 5 => .di | 6 => .bp | _ => .bx

/-- R140: the `rm` field of base registers. -/
def Base.bits : Base → BitVec 3
  | .bxsi => 0 | .bxdi => 1 | .bpsi => 2 | .bpdi => 3 | .si => 4 | .di => 5 | .bp => 6 | .bx => 7

/-- `w`: bit 0 of an opcode (R136). -/
def Width.ofLow (lo : Nat) : Width := if lo % 2 = 0 then .byte else .word

def Width.bit : Width → Nat
  | .byte => 0
  | .word => 1

/-- D0, D1 count 1; D2, D3 count CL (R152). -/
def Count.ofLow (lo : Nat) : Count := if lo < 2 then .one else .cl

def Count.bit : Count → Nat
  | .one => 0
  | .cl => 2

/-! ### Taking bytes -/

/-- One byte, then `k`. -/
def takeByte (k : Byte → List Byte → DecodeResult) : List Byte → DecodeResult
  | [] => .error .truncated
  | b :: bs => k b bs

/-- Two bytes, low byte first (R145), then `k`. -/
def takeWord (k : Word → List Byte → DecodeResult) : List Byte → DecodeResult :=
  takeByte fun lo => takeByte fun hi => k (mkWord lo hi)

/-- The operand `E` of `mod` and `rm` with its displacement bytes (R138, R140). -/
def takeRM (mod rm : Nat) (k : RM → List Byte → DecodeResult) (bs : List Byte) : DecodeResult :=
  match mod with
  | 0 => if rm = 6 then takeWord (fun d => k (.mem (.direct d))) bs
         else k (.mem (.noDisp (Base.ofBits (BitVec.ofNat 3 rm)))) bs
  | 1 => takeByte (fun d => k (.mem (.disp8 (Base.ofBits (BitVec.ofNat 3 rm)) d))) bs
  | 2 => takeWord (fun d => k (.mem (.disp16 (Base.ofBits (BitVec.ofNat 3 rm)) d))) bs
  | _ => k (.reg (GReg.ofBits (BitVec.ofNat 3 rm))) bs

/-- A ModR/M byte (R137): `k` receives the reg field and the operand `E`. -/
def takeModRM (k : BitVec 3 → RM → List Byte → DecodeResult) : List Byte → DecodeResult :=
  takeByte fun m => takeRM (m.toNat / 64) (m.toNat % 8) (k (BitVec.ofNat 3 (m.toNat / 8)))

/-- The instruction is complete. -/
def yield (i : Instr) (bs : List Byte) : DecodeResult := .ok (i, bs)

/-! ### Groups (30_encoding.md section 7) -/

/-- The eight ALU operations by number (R151). -/
def aluInstr (k : Nat) (f : AluForm) : Instr :=
  match k with
  | 0 => .add f | 1 => .or f | 2 => .adc f | 3 => .sbb f | 4 => .and f | 5 => .sub f | 6 => .xor f | _ => .cmp f

/-- The six rows `base+0 .. base+5` of ALU operation `k` (R184). -/
def aluRow (k lo : Nat) : List Byte → DecodeResult :=
  match lo with
  | 0 | 1 => takeModRM fun r e => yield (aluInstr k (.rmReg (Width.ofLow lo) e (GReg.ofBits r)))
  | 2 | 3 => takeModRM fun r e => yield (aluInstr k (.regRm (Width.ofLow lo) (GReg.ofBits r) e))
  | 4 => takeByte fun i => yield (aluInstr k (.accImm8 i))
  | _ => takeWord fun i => yield (aluInstr k (.accImm16 i))

/-- Group 2 (R152). -/
def shiftInstr (k : Nat) (w : Width) (e : RM) (c : Count) : Instr :=
  match k with
  | 0 => .rol w e c | 1 => .ror w e c | 2 => .rcl w e c | 3 => .rcr w e c
  | 4 => .shl w e c | 5 => .shr w e c | 6 => .setmo w e c | _ => .sar w e c

/-- Group 3 (R153). -/
def group3 (w : Width) (r : BitVec 3) (e : RM) : List Byte → DecodeResult :=
  match r.toNat, w with
  | 0, .byte => takeByte fun i => yield (.test (.rmImm8 e i))
  | 0, .word => takeWord fun i => yield (.test (.rmImm16 e i))
  | 1, .byte => takeByte fun i => yield (.test (.rmImm8Alias e i))
  | 1, .word => takeWord fun i => yield (.test (.rmImm16Alias e i))
  | 2, _ => yield (.not w e)
  | 3, _ => yield (.neg w e)
  | 4, _ => yield (.mul w e)
  | 5, _ => yield (.imul w e)
  | 6, _ => yield (.div w e)
  | _, _ => yield (.idiv w e)

/-- Group 4 (R154). -/
def group4 (r : BitVec 3) (e : RM) : Instr :=
  match r.toNat with
  | 0 => .incRm .byte e | 1 => .decRm .byte e | 2 => .fe2 e | 3 => .fe3 e
  | 4 => .fe4 e | 5 => .fe5 e | 6 => .fe6 e | _ => .fe7 e

/-- Group 5 (R155). -/
def group5 (r : BitVec 3) (e : RM) : Instr :=
  match r.toNat with
  | 0 => .incRm .word e | 1 => .decRm .word e | 2 => .callRm e | 3 => .callFarRm e
  | 4 => .jmpRm e | 5 => .jmpFarRm e | 6 => .pushRm false e | _ => .pushRm true e

/-- The sixteen conditional jumps (R354). -/
def jccInstr (x : Nat) (low : Bool) (d : Byte) : Instr :=
  match x with
  | 0 => .jo low d | 1 => .jno low d | 2 => .jb low d | 3 => .jnb low d
  | 4 => .jz low d | 5 => .jnz low d | 6 => .jbe low d | 7 => .ja low d
  | 8 => .js low d | 9 => .jns low d | 10 => .jp low d | 11 => .jnp low d
  | 12 => .jl low d | 13 => .jge low d | 14 => .jle low d | _ => .jg low d

/-! ### The primary table (30_encoding.md R150) -/

/-- Entries 6 and 7 of rows 00..3F: segment pushes and pops, segment prefixes, decimal adjusts. -/
def lowMisc (k lo : Nat) : Instr :=
  match k, lo with
  | 0, 6 => .pushSeg .es | 0, _ => .popSeg .es
  | 1, 6 => .pushSeg .cs | 1, _ => .popSeg .cs
  | 2, 6 => .pushSeg .ss | 2, _ => .popSeg .ss
  | 3, 6 => .pushSeg .ds | 3, _ => .popSeg .ds
  | 4, 6 => .segEs       | 4, _ => .daa
  | 5, 6 => .segCs       | 5, _ => .das
  | 6, 6 => .segSs       | 6, _ => .aaa
  | _, 6 => .segDs       | _, _ => .aas

/-- Row 80..87. -/
def row80 (lo : Nat) : List Byte → DecodeResult :=
  match lo with
  | 0 => takeModRM fun r e => takeByte fun i => yield (aluInstr r.toNat (.rmImm8 e i))
  | 1 => takeModRM fun r e => takeWord fun i => yield (aluInstr r.toNat (.rmImm16 e i))
  | 2 => takeModRM fun r e => takeByte fun i => yield (aluInstr r.toNat (.rmImm8Alias e i))
  | 3 => takeModRM fun r e => takeByte fun i => yield (aluInstr r.toNat (.rmImm8Sext e i))
  | 4 | 5 => takeModRM fun r e => yield (.test (.rmReg (Width.ofLow lo) e (GReg.ofBits r)))
  | _ => takeModRM fun r e => yield (.xchgRm (Width.ofLow lo) e (GReg.ofBits r))

/-- Row 88..8F. -/
def row88 (lo : Nat) : List Byte → DecodeResult :=
  match lo with
  | 0 | 1 => takeModRM fun r e => yield (.movRmReg (Width.ofLow lo) e (GReg.ofBits r))
  | 2 | 3 => takeModRM fun r e => yield (.movRegRm (Width.ofLow lo) (GReg.ofBits r) e)
  | 4 => takeModRM fun r e => yield (.movRmSeg (r.getLsbD 2) e (SReg.ofBits r))
  | 5 => takeModRM fun r e => yield (.lea (GReg.ofBits r) e)
  | 6 => takeModRM fun r e => yield (.movSegRm (r.getLsbD 2) (SReg.ofBits r) e)
  | _ => takeModRM fun r e => yield (.popRm r e)

/-- Row 90..97. -/
def row90 (lo : Nat) : Instr := if lo = 0 then .nop else .xchgAx (GReg.ofBits (BitVec.ofNat 3 lo))

/-- Row 98..9F. -/
def row98 (lo : Nat) : List Byte → DecodeResult :=
  match lo with
  | 0 => yield .cbw
  | 1 => yield .cwd
  | 2 => takeWord fun off => takeWord fun seg => yield (.callFar off seg)
  | 3 => yield .wait
  | 4 => yield .pushf
  | 5 => yield .popf
  | 6 => yield .sahf
  | _ => yield .lahf

/-- Row A0..A7. -/
def rowA0 (lo : Nat) : List Byte → DecodeResult :=
  match lo with
  | 0 | 1 => takeWord fun off => yield (.movAccMem (Width.ofLow lo) off)
  | 2 | 3 => takeWord fun off => yield (.movMemAcc (Width.ofLow lo) off)
  | 4 => yield .movsb
  | 5 => yield .movsw
  | 6 => yield .cmpsb
  | _ => yield .cmpsw

/-- Row A8..AF. -/
def rowA8 (lo : Nat) : List Byte → DecodeResult :=
  match lo with
  | 0 => takeByte fun i => yield (.test (.accImm8 i))
  | 1 => takeWord fun i => yield (.test (.accImm16 i))
  | 2 => yield .stosb
  | 3 => yield .stosw
  | 4 => yield .lodsb
  | 5 => yield .lodsw
  | 6 => yield .scasb
  | _ => yield .scasw

/-- Row C0..C7. -/
def rowC0 (lo : Nat) : List Byte → DecodeResult :=
  match lo with
  | 0 => takeWord fun i => yield (.retImm true i)
  | 1 => yield (.ret true)
  | 2 => takeWord fun i => yield (.retImm false i)
  | 3 => yield (.ret false)
  | 4 => takeModRM fun r e => yield (.les (GReg.ofBits r) e)
  | 5 => takeModRM fun r e => yield (.lds (GReg.ofBits r) e)
  | 6 => takeModRM fun r e => takeByte fun i => yield (.movRmImm8 r e i)
  | _ => takeModRM fun r e => takeWord fun i => yield (.movRmImm16 r e i)

/-- Row C8..CF. -/
def rowC8 (lo : Nat) : List Byte → DecodeResult :=
  match lo with
  | 0 => takeWord fun i => yield (.retfImm true i)
  | 1 => yield (.retf true)
  | 2 => takeWord fun i => yield (.retfImm false i)
  | 3 => yield (.retf false)
  | 4 => yield .int3
  | 5 => takeByte fun n => yield (.intN n)
  | 6 => yield .into
  | _ => yield .iret

/-- Row D0..D7. -/
def rowD0 (lo : Nat) : List Byte → DecodeResult :=
  match lo with
  | 0 | 1 | 2 | 3 => takeModRM fun r e => yield (shiftInstr r.toNat (Width.ofLow lo) e (Count.ofLow lo))
  | 4 => takeByte fun i => yield (.aam i)
  | 5 => takeByte fun i => yield (.aad i)
  | 6 => yield .salc
  | _ => yield .xlat

/-- Row E0..E7. -/
def rowE0 (lo : Nat) : List Byte → DecodeResult :=
  match lo with
  | 0 => takeByte fun d => yield (.loopnz d)
  | 1 => takeByte fun d => yield (.loopz d)
  | 2 => takeByte fun d => yield (.loop d)
  | 3 => takeByte fun d => yield (.jcxz d)
  | 4 | 5 => takeByte fun p => yield (.inImm (Width.ofLow lo) p)
  | _ => takeByte fun p => yield (.outImm (Width.ofLow lo) p)

/-- Row E8..EF. -/
def rowE8 (lo : Nat) : List Byte → DecodeResult :=
  match lo with
  | 0 => takeWord fun d => yield (.callNear d)
  | 1 => takeWord fun d => yield (.jmpNear d)
  | 2 => takeWord fun off => takeWord fun seg => yield (.jmpFar off seg)
  | 3 => takeByte fun d => yield (.jmpShort d)
  | 4 | 5 => yield (.inDx (Width.ofLow lo))
  | _ => yield (.outDx (Width.ofLow lo))

/-- Row F0..F7. -/
def rowF0 (lo : Nat) : List Byte → DecodeResult :=
  match lo with
  | 0 => yield .lock
  | 1 => yield .lockAlias
  | 2 => yield .repnz
  | 3 => yield .rep
  | 4 => yield .hlt
  | 5 => yield .cmc
  | _ => takeModRM fun r e => group3 (Width.ofLow lo) r e

/-- Row F8..FF. -/
def rowF8 (lo : Nat) : List Byte → DecodeResult :=
  match lo with
  | 0 => yield .clc
  | 1 => yield .stc
  | 2 => yield .cli
  | 3 => yield .sti
  | 4 => yield .cld
  | 5 => yield .std
  | 6 => takeModRM fun r e => yield (group4 r e)
  | _ => takeModRM fun r e => yield (group5 r e)

/-- The primary table (R150), by bits 7:3 and bits 2:0 of the opcode byte. -/
def decodeOpcode (hi lo : Nat) : List Byte → DecodeResult :=
  match hi with
  | 0 | 1 | 2 | 3 | 4 | 5 | 6 | 7 => if lo < 6 then aluRow hi lo else yield (lowMisc hi lo)
  | 8 => yield (.incReg (GReg.ofBits (BitVec.ofNat 3 lo)))
  | 9 => yield (.decReg (GReg.ofBits (BitVec.ofNat 3 lo)))
  | 10 => yield (.pushReg (GReg.ofBits (BitVec.ofNat 3 lo)))
  | 11 => yield (.popReg (GReg.ofBits (BitVec.ofNat 3 lo)))
  | 12 => takeByte fun d => yield (jccInstr lo true d)
  | 13 => takeByte fun d => yield (jccInstr (8 + lo) true d)
  | 14 => takeByte fun d => yield (jccInstr lo false d)
  | 15 => takeByte fun d => yield (jccInstr (8 + lo) false d)
  | 16 => row80 lo
  | 17 => row88 lo
  | 18 => yield (row90 lo)
  | 19 => row98 lo
  | 20 => rowA0 lo
  | 21 => rowA8 lo
  | 22 => takeByte fun i => yield (.movRegImm8 (GReg.ofBits (BitVec.ofNat 3 lo)) i)
  | 23 => takeWord fun i => yield (.movRegImm16 (GReg.ofBits (BitVec.ofNat 3 lo)) i)
  | 24 => rowC0 lo
  | 25 => rowC8 lo
  | 26 => rowD0 lo
  | 27 => takeModRM fun r e => yield (.esc (BitVec.ofNat 3 lo) r e)
  | 28 => rowE0 lo
  | 29 => rowE8 lo
  | 30 => rowF0 lo
  | _ => rowF8 lo

/-- One instruction, or one prefix byte, from the front of a byte list (R162). -/
def decode : List Byte → DecodeResult :=
  takeByte fun b => decodeOpcode (b.toNat / 8) (b.toNat % 8)

/-! ### The encoder -/

/-- A ModR/M byte and its displacement bytes (R137, R140). -/
def modRM (r : BitVec 3) : RM → List Byte
  | .reg g => [BitVec.ofNat 8 (192 + 8 * r.toNat + g.bits.toNat)]
  | .mem (.direct d) => [BitVec.ofNat 8 (8 * r.toNat + 6), loByte d, hiByte d]
  | .mem (.noDisp b) => [BitVec.ofNat 8 (8 * r.toNat + b.bits.toNat)]
  | .mem (.disp8 b d) => [BitVec.ofNat 8 (64 + 8 * r.toNat + b.bits.toNat), d]
  | .mem (.disp16 b d) => [BitVec.ofNat 8 (128 + 8 * r.toNat + b.bits.toNat), loByte d, hiByte d]

/-- Two bytes, low byte first. -/
def wordBytes (v : Word) : List Byte := [loByte v, hiByte v]

/-- The opcode byte of row `hi`, entry `lo`. -/
def opc (hi lo : Nat) : Byte := BitVec.ofNat 8 (8 * hi + lo)

/-- The bytes of ALU operation `k` (R184). -/
def encodeAlu (k : Nat) : AluForm → List Byte
  | .rmReg w e g => opc k w.bit :: modRM g.bits e
  | .regRm w g e => opc k (2 + w.bit) :: modRM g.bits e
  | .accImm8 i => [opc k 4, i]
  | .accImm16 i => opc k 5 :: wordBytes i
  | .rmImm8 e i => 0x80 :: modRM (BitVec.ofNat 3 k) e ++ [i]
  | .rmImm16 e i => 0x81 :: modRM (BitVec.ofNat 3 k) e ++ wordBytes i
  | .rmImm8Alias e i => 0x82 :: modRM (BitVec.ofNat 3 k) e ++ [i]
  | .rmImm8Sext e i => 0x83 :: modRM (BitVec.ofNat 3 k) e ++ [i]

/-- The bytes of TEST (R196, R410). -/
def encodeTest : TestForm → List Byte
  | .rmReg w e g => opc 16 (4 + w.bit) :: modRM g.bits e
  | .accImm8 i => [0xA8, i]
  | .accImm16 i => 0xA9 :: wordBytes i
  | .rmImm8 e i => 0xF6 :: modRM 0 e ++ [i]
  | .rmImm16 e i => 0xF7 :: modRM 0 e ++ wordBytes i
  | .rmImm8Alias e i => 0xF6 :: modRM 1 e ++ [i]
  | .rmImm16Alias e i => 0xF7 :: modRM 1 e ++ wordBytes i

/-- Group 2, selector `k` (R152). -/
def encodeShift (k : BitVec 3) (w : Width) (e : RM) (c : Count) : List Byte := opc 26 (c.bit + w.bit) :: modRM k e

/-- A conditional jump with condition number `x` (R354, R406). -/
def encodeJcc (x : Nat) (low : Bool) (d : Byte) : List Byte :=
  [if low then BitVec.ofNat 8 (0x60 + x) else BitVec.ofNat 8 (0x70 + x), d]

/-- The reg field of a segment register; `high` sets the ignored bit 2 (R156). -/
def segField (high : Bool) (r : SReg) : BitVec 3 := if high then r.bits ||| 4 else r.bits

/-- The bytes of an instruction. -/
def encode : Instr → List Byte
  | .add f => encodeAlu 0 f
  | .or f => encodeAlu 1 f
  | .adc f => encodeAlu 2 f
  | .sbb f => encodeAlu 3 f
  | .and f => encodeAlu 4 f
  | .sub f => encodeAlu 5 f
  | .xor f => encodeAlu 6 f
  | .cmp f => encodeAlu 7 f
  | .test f => encodeTest f
  | .incReg g => [opc 8 g.bits.toNat]
  | .incRm w e => opc 31 (6 + w.bit) :: modRM 0 e
  | .decReg g => [opc 9 g.bits.toNat]
  | .decRm w e => opc 31 (6 + w.bit) :: modRM 1 e
  | .not w e => opc 30 (6 + w.bit) :: modRM 2 e
  | .neg w e => opc 30 (6 + w.bit) :: modRM 3 e
  | .mul w e => opc 30 (6 + w.bit) :: modRM 4 e
  | .imul w e => opc 30 (6 + w.bit) :: modRM 5 e
  | .div w e => opc 30 (6 + w.bit) :: modRM 6 e
  | .idiv w e => opc 30 (6 + w.bit) :: modRM 7 e
  | .daa => [0x27]
  | .das => [0x2F]
  | .aaa => [0x37]
  | .aas => [0x3F]
  | .aam i => [0xD4, i]
  | .aad i => [0xD5, i]
  | .rol w e c => encodeShift 0 w e c
  | .ror w e c => encodeShift 1 w e c
  | .rcl w e c => encodeShift 2 w e c
  | .rcr w e c => encodeShift 3 w e c
  | .shl w e c => encodeShift 4 w e c
  | .shr w e c => encodeShift 5 w e c
  | .setmo w e c => encodeShift 6 w e c
  | .sar w e c => encodeShift 7 w e c
  | .movRmReg w e g => opc 17 w.bit :: modRM g.bits e
  | .movRegRm w g e => opc 17 (2 + w.bit) :: modRM g.bits e
  | .movRmImm8 ext e i => 0xC6 :: modRM ext e ++ [i]
  | .movRmImm16 ext e i => 0xC7 :: modRM ext e ++ wordBytes i
  | .movRegImm8 g i => [opc 22 g.bits.toNat, i]
  | .movRegImm16 g i => opc 23 g.bits.toNat :: wordBytes i
  | .movAccMem w off => opc 20 w.bit :: wordBytes off
  | .movMemAcc w off => opc 20 (2 + w.bit) :: wordBytes off
  | .movRmSeg high e r => 0x8C :: modRM (segField high r) e
  | .movSegRm high r e => 0x8E :: modRM (segField high r) e
  | .pushReg g => [opc 10 g.bits.toNat]
  | .pushRm high e => 0xFF :: modRM (if high then 7 else 6) e
  | .pushSeg r => [opc r.bits.toNat 6]
  | .popReg g => [opc 11 g.bits.toNat]
  | .popRm ext e => 0x8F :: modRM ext e
  | .popSeg r => [opc r.bits.toNat 7]
  | .pushf => [0x9C]
  | .popf => [0x9D]
  | .xchgRm w e g => opc 16 (6 + w.bit) :: modRM g.bits e
  | .xchgAx g => [opc 18 g.bits.toNat]
  | .lea g e => 0x8D :: modRM g.bits e
  | .lds g e => 0xC5 :: modRM g.bits e
  | .les g e => 0xC4 :: modRM g.bits e
  | .xlat => [0xD7]
  | .lahf => [0x9F]
  | .sahf => [0x9E]
  | .cbw => [0x98]
  | .cwd => [0x99]
  | .inImm w p => [opc 28 (4 + w.bit), p]
  | .inDx w => [opc 29 (4 + w.bit)]
  | .outImm w p => [opc 28 (6 + w.bit), p]
  | .outDx w => [opc 29 (6 + w.bit)]
  | .movsb => [0xA4]
  | .movsw => [0xA5]
  | .cmpsb => [0xA6]
  | .cmpsw => [0xA7]
  | .stosb => [0xAA]
  | .stosw => [0xAB]
  | .lodsb => [0xAC]
  | .lodsw => [0xAD]
  | .scasb => [0xAE]
  | .scasw => [0xAF]
  | .jo low d => encodeJcc 0 low d
  | .jno low d => encodeJcc 1 low d
  | .jb low d => encodeJcc 2 low d
  | .jnb low d => encodeJcc 3 low d
  | .jz low d => encodeJcc 4 low d
  | .jnz low d => encodeJcc 5 low d
  | .jbe low d => encodeJcc 6 low d
  | .ja low d => encodeJcc 7 low d
  | .js low d => encodeJcc 8 low d
  | .jns low d => encodeJcc 9 low d
  | .jp low d => encodeJcc 10 low d
  | .jnp low d => encodeJcc 11 low d
  | .jl low d => encodeJcc 12 low d
  | .jge low d => encodeJcc 13 low d
  | .jle low d => encodeJcc 14 low d
  | .jg low d => encodeJcc 15 low d
  | .loopnz d => [0xE0, d]
  | .loopz d => [0xE1, d]
  | .loop d => [0xE2, d]
  | .jcxz d => [0xE3, d]
  | .jmpShort d => [0xEB, d]
  | .jmpNear d => 0xE9 :: wordBytes d
  | .jmpFar off seg => 0xEA :: wordBytes off ++ wordBytes seg
  | .jmpRm e => 0xFF :: modRM 4 e
  | .jmpFarRm e => 0xFF :: modRM 5 e
  | .callNear d => 0xE8 :: wordBytes d
  | .callFar off seg => 0x9A :: wordBytes off ++ wordBytes seg
  | .callRm e => 0xFF :: modRM 2 e
  | .callFarRm e => 0xFF :: modRM 3 e
  | .ret low => [if low then 0xC1 else 0xC3]
  | .retImm low i => (if low then 0xC0 else 0xC2) :: wordBytes i
  | .retf low => [if low then 0xC9 else 0xCB]
  | .retfImm low i => (if low then 0xC8 else 0xCA) :: wordBytes i
  | .int3 => [0xCC]
  | .intN n => [0xCD, n]
  | .into => [0xCE]
  | .iret => [0xCF]
  | .salc => [0xD6]
  | .nop => [0x90]
  | .hlt => [0xF4]
  | .wait => [0x9B]
  | .cmc => [0xF5]
  | .clc => [0xF8]
  | .stc => [0xF9]
  | .cli => [0xFA]
  | .sti => [0xFB]
  | .cld => [0xFC]
  | .std => [0xFD]
  | .esc op r e => opc 27 op.toNat :: modRM r e
  | .segEs => [0x26]
  | .segCs => [0x2E]
  | .segSs => [0x36]
  | .segDs => [0x3E]
  | .lock => [0xF0]
  | .lockAlias => [0xF1]
  | .repnz => [0xF2]
  | .rep => [0xF3]
  | .fe2 e => 0xFE :: modRM 2 e
  | .fe3 e => 0xFE :: modRM 3 e
  | .fe4 e => 0xFE :: modRM 4 e
  | .fe5 e => 0xFE :: modRM 5 e
  | .fe6 e => 0xFE :: modRM 6 e
  | .fe7 e => 0xFE :: modRM 7 e

/-! ### The EA load (30_encoding.md R144) -/

def AluForm.loadsEa : AluForm → Bool
  | .accImm8 _ | .accImm16 _ => false
  | .rmReg _ _ _ | .regRm _ _ _ | .rmImm8 _ _ | .rmImm16 _ _ | .rmImm8Alias _ _ | .rmImm8Sext _ _ => true

def TestForm.loadsEa : TestForm → Bool
  | .accImm8 _ | .accImm16 _ => false
  | .rmReg _ _ _ | .rmImm8 _ _ | .rmImm16 _ _ | .rmImm8Alias _ _ | .rmImm16Alias _ _ => true

/-- The loads-EA bit (R144): set for every form that uses `E` as a source or changes it; column EA of the table. -/
def Instr.loadsEa : Instr → Bool
  | .add f | .or f | .adc f | .sbb f | .and f | .sub f | .xor f | .cmp f => f.loadsEa
  | .test f => f.loadsEa
  | .incRm _ _ | .decRm _ _ | .not _ _ | .neg _ _ | .mul _ _ | .imul _ _ | .div _ _ | .idiv _ _ => true
  | .rol _ _ _ | .ror _ _ _ | .rcl _ _ _ | .rcr _ _ _ | .shl _ _ _ | .shr _ _ _ | .setmo _ _ _ | .sar _ _ _ => true
  | .movRegRm _ _ _ | .movSegRm _ _ _ | .pushRm _ _ | .xchgRm _ _ _ | .lds _ _ | .les _ _ | .esc _ _ _ => true
  | .jmpRm _ | .jmpFarRm _ | .callRm _ | .callFarRm _ => true
  | .fe2 _ | .fe3 _ | .fe4 _ | .fe5 _ | .fe6 _ | .fe7 _ => true
  | .movRmReg _ _ _ | .movRmSeg _ _ _ | .lea _ _ | .popRm _ _ | .movRmImm8 _ _ _ | .movRmImm16 _ _ _ => false
  | .incReg _ | .decReg _ | .daa | .das | .aaa | .aas | .aam _ | .aad _ => false
  | .movRegImm8 _ _ | .movRegImm16 _ _ | .movAccMem _ _ | .movMemAcc _ _ => false
  | .pushReg _ | .pushSeg _ | .popReg _ | .popSeg _ | .pushf | .popf => false
  | .xchgAx _ | .xlat | .lahf | .sahf | .cbw | .cwd | .salc => false
  | .inImm _ _ | .inDx _ | .outImm _ _ | .outDx _ => false
  | .movsb | .movsw | .cmpsb | .cmpsw | .stosb | .stosw | .lodsb | .lodsw | .scasb | .scasw => false
  | .jo _ _ | .jno _ _ | .jb _ _ | .jnb _ _ | .jz _ _ | .jnz _ _ | .jbe _ _ | .ja _ _ => false
  | .js _ _ | .jns _ _ | .jp _ _ | .jnp _ _ | .jl _ _ | .jge _ _ | .jle _ _ | .jg _ _ => false
  | .loopnz _ | .loopz _ | .loop _ | .jcxz _ | .jmpShort _ | .jmpNear _ | .jmpFar _ _ => false
  | .callNear _ | .callFar _ _ | .ret _ | .retImm _ _ | .retf _ | .retfImm _ _ => false
  | .int3 | .intN _ | .into | .iret | .nop | .hlt | .wait => false
  | .cmc | .clc | .stc | .cli | .sti | .cld | .std => false
  | .segEs | .segCs | .segSs | .segDs | .lock | .lockAlias | .repnz | .rep => false

def AluForm.memImm : AluForm → Option (Width × Mem)
  | .rmImm8 (.mem m) _ | .rmImm8Alias (.mem m) _ => some (.byte, m)
  | .rmImm16 (.mem m) _ | .rmImm8Sext (.mem m) _ => some (.word, m)
  | _ => none

def TestForm.memImm : TestForm → Option (Width × Mem)
  | .rmImm8 (.mem m) _ | .rmImm8Alias (.mem m) _ => some (.byte, m)
  | .rmImm16 (.mem m) _ | .rmImm16Alias (.mem m) _ => some (.word, m)
  | _ => none

/-- The width and the memory operand of the forms that load an EA operand and have immediate bytes after it. -/
def Instr.memImm : Instr → Option (Width × Mem)
  | .add f | .or f | .adc f | .sbb f | .and f | .sub f | .xor f | .cmp f => f.memImm
  | .test f => f.memImm
  | _ => none

/-- The memory operand of a ModR/M byte whose displacement is complete and after which no byte is taken yet. -/
def memOfModRM : List Byte → Option Mem
  | [] => none
  | m :: rest =>
    match takeRM (m.toNat / 64) (m.toNat % 8) (fun e => yield (.jmpRm e)) rest with
    | .ok (.jmpRm (.mem x), []) => some x
    | _ => none

/-- Whether the reg field of a ModR/M byte is 0 or 1 (TEST in group 3, R153). -/
def regBelowTwo : List Byte → Bool
  | [] => false
  | m :: _ => decide (m.toNat / 8 % 8 < 2)

/-- The operand to be loaded once the bytes `bs` are taken (R144): the ModR/M and displacement bytes are complete, the
immediate bytes are still to come. -/
def earlyLoad : List Byte → Option (Width × Mem)
  | [] => none
  | op :: rest =>
    match op.toNat with
    | 0x80 | 0x82 => (memOfModRM rest).map fun m => (.byte, m)
    | 0x81 | 0x83 => (memOfModRM rest).map fun m => (.word, m)
    | 0xF6 => if regBelowTwo rest then (memOfModRM rest).map fun m => (.byte, m) else none
    | 0xF7 => if regBelowTwo rest then (memOfModRM rest).map fun m => (.word, m) else none
    | _ => none

/-! ### The host's table words (log 14) -/

/-- The bytes of a table word: spec/opcode_table.json numbers a row as `(opcode << 8) | modrm` (R165), so the first
byte in memory is bits 15:8 and the second bits 7:0; bits above follow in the same way; six bytes in all, the rest
zero. A row of eight bits is one byte. -/
def tableBytes (nbits w : Nat) : List Byte :=
  if nbits ≤ 8 then [BitVec.ofNat 8 w, 0, 0, 0, 0, 0]
  else [BitVec.ofNat 8 (w / 256), BitVec.ofNat 8 w, BitVec.ofNat 8 (w / 16777216), BitVec.ofNat 8 (w / 65536), 0, 0]

/-- The instruction the decoder reads from a table word. -/
def decodeTableWord (nbits w : Nat) : Option Instr :=
  match decode (tableBytes nbits w) with
  | .ok (i, _) => some i
  | .error _ => none

/-! ### Which encodings are undocumented (30_encoding.md R158) -/

/-- The register forms of memory-only operands. -/
def RM.isReg : RM → Bool
  | .reg _ => true
  | .mem _ => false

def AluForm.undocumented : AluForm → Bool
  | .rmImm8Alias _ _ => true
  | .rmReg _ _ _ | .regRm _ _ _ | .accImm8 _ | .accImm16 _ | .rmImm8 _ _ | .rmImm16 _ _ | .rmImm8Sext _ _ => false

def TestForm.undocumented : TestForm → Bool
  | .rmImm8Alias _ _ | .rmImm16Alias _ _ => true
  | .rmReg _ _ _ | .accImm8 _ | .accImm16 _ | .rmImm8 _ _ | .rmImm16 _ _ => false

/-- The encodings R158 lists, the two prefix combinations apart (`admits` of Machine/Cycle.lean has those). -/
def Instr.undocumented : Instr → Bool
  | .add f | .or f | .adc f | .sbb f | .and f | .sub f | .xor f | .cmp f => f.undocumented
  | .test f => f.undocumented
  | .aam base | .aad base => base != 0x0A
  | .setmo _ _ _ => true
  | .movRmImm8 ext _ _ | .movRmImm16 ext _ _ => ext != 0
  | .movRmSeg high _ _ => high
  | .movSegRm high r _ => high || r == .cs
  | .pushRm high _ => high
  | .popRm ext _ => ext != 0
  | .popSeg r => r == .cs
  | .lea _ e | .lds _ e | .les _ e => e.isReg
  | .jo low _ | .jno low _ | .jb low _ | .jnb low _ | .jz low _ | .jnz low _ | .jbe low _ | .ja low _ => low
  | .js low _ | .jns low _ | .jp low _ | .jnp low _ | .jl low _ | .jge low _ | .jle low _ | .jg low _ => low
  | .jmpFarRm e | .callFarRm e => e.isReg
  | .ret low | .retImm low _ | .retf low | .retfImm low _ => low
  | .salc | .lockAlias => true
  | .fe2 _ | .fe3 _ | .fe4 _ | .fe5 _ | .fe6 _ | .fe7 _ => true
  | .incReg _ | .incRm _ _ | .decReg _ | .decRm _ _ | .not _ _ | .neg _ _ => false
  | .mul _ _ | .imul _ _ | .div _ _ | .idiv _ _ | .daa | .das | .aaa | .aas => false
  | .rol _ _ _ | .ror _ _ _ | .rcl _ _ _ | .rcr _ _ _ | .shl _ _ _ | .shr _ _ _ | .sar _ _ _ => false
  | .movRmReg _ _ _ | .movRegRm _ _ _ | .movRegImm8 _ _ | .movRegImm16 _ _ => false
  | .movAccMem _ _ | .movMemAcc _ _ | .pushReg _ | .pushSeg _ | .popReg _ | .pushf | .popf => false
  | .xchgRm _ _ _ | .xchgAx _ | .xlat | .lahf | .sahf | .cbw | .cwd => false
  | .inImm _ _ | .inDx _ | .outImm _ _ | .outDx _ => false
  | .movsb | .movsw | .cmpsb | .cmpsw | .stosb | .stosw | .lodsb | .lodsw | .scasb | .scasw => false
  | .loopnz _ | .loopz _ | .loop _ | .jcxz _ => false
  | .jmpShort _ | .jmpNear _ | .jmpFar _ _ | .jmpRm _ | .callNear _ | .callFar _ _ | .callRm _ => false
  | .int3 | .intN _ | .into | .iret | .nop | .hlt | .wait => false
  | .cmc | .clc | .stc | .cli | .sti | .cld | .std | .esc _ _ _ => false
  | .segEs | .segCs | .segSs | .segDs | .lock | .repnz | .rep => false

end Sys2Proof
end

