-- ==== Sys2Proof/Config.lean ====
section
/-! DEFINITION. What an implementation fixes and what the spec leaves open: the named parameters of
00_scope.md section 5 as plain data, and the free values, which have no body. -/

namespace Sys2Proof

/-- `P_UNDOC` (R158, D7): whether the undocumented encodings fault or execute. -/
inductive UndocChoice where
  | fault
  | execute
deriving DecidableEq, Repr

/-- `P_DIV_FAULT_IP` (R230, D8): which offset a divide error pushes. -/
inductive DivFaultIp where
  | faulting
  | next
deriving DecidableEq, Repr

/-- `P_BCD` (R247, D25): whether the decimal adjusts follow R241 to R246 on every input, or only on the
documented domain with free results outside it. -/
inductive BcdChoice where
  | asWritten
  | openOutside
deriving DecidableEq, Repr

/-- `P_DMA_GRANULE` (R101, D15): where a DMA byte may fall. -/
inductive DmaGranule where
  | busCycle
  | instruction
deriving DecidableEq, Repr

/-- What a port does that two devices registered: 93_implementation_defined.md section 3 refuses, 60_exceptions.md R548
lets the last registration win (log 33). -/
inductive PortClash where
  | refuse
  | lastWins
deriving DecidableEq, Repr

/-- What a DMA page above 0F means: R493 and R496 drop its upper four bits, R85 calls the access out of range
(log 22). -/
inductive DmaRange where
  | lowFour
  | wholePage
deriving DecidableEq, Repr

/-- The device that answers a memory-mapped region (10_state.md R38). -/
inductive MmioDevice where
  | video (card : Nat)
  | cart
  | ems
deriving DecidableEq, Repr

/-- `P_RESET_GPR` (R43, D6): the general registers after reset. -/
structure ResetGpr where
  ax : Word
  bx : Word
  cx : Word
  dx : Word
  sp : Word
  bp : Word
  si : Word
  di : Word
deriving DecidableEq, Repr

/-- The named parameters of 00_scope.md section 5. `mmioMap` lists the 4 KiB regions that carry the MMIO flag,
each with the device that answers it (`none` is an empty table entry, R82). `fdcPorts` are the floppy controller's
ports relative to `fdcBase` (log 20), `fdcIrq` its interrupt line (D16). -/
structure Params where
  romImage    : List (Nat × Byte)
  mmioMap     : List (Nat × Option MmioDevice)
  resetGpr    : ResetGpr
  undoc       : UndocChoice
  intInhibit  : Bool
  divFaultIp  : DivFaultIp
  testPin     : Bool
  bcd         : BcdChoice
  dmaGranule  : DmaGranule
  dmaRange    : DmaRange
  picBase     : Word
  dmaBase     : Word
  dmaPage0    : Word
  dmaPage1    : Word
  dmaPage2    : Word
  dmaPage3    : Word
  fdcBase     : Word
  fdcPorts    : List Nat
  fdcIrq      : BitVec 3
  portClash   : PortClash
  uartBase    : Word
  uartIrq     : BitVec 3
  uartClockHz : Nat
  idleWindow  : Nat
deriving DecidableEq, Repr

/-- The spec's defaults, but for `undoc`, which the model sets to `execute` (DESIGN CHOICE, log 6), the general
registers at reset (log 1) and the idle window (log 30). -/
def Params.initial : Params where
  romImage    := []
  mmioMap     := []
  resetGpr    := ⟨0, 0, 0, 0, 0, 0, 0, 0⟩
  undoc       := .execute
  intInhibit  := true
  divFaultIp  := .faulting
  testPin     := true
  bcd         := .asWritten
  dmaGranule  := .busCycle
  dmaRange    := .lowFour
  picBase     := 0x20
  dmaBase     := 0x00
  dmaPage0    := 0x87
  dmaPage1    := 0x83
  dmaPage2    := 0x81
  dmaPage3    := 0x82
  fdcBase     := 0x3F0
  fdcPorts    := [0, 1, 2, 3, 4, 5, 6, 7]
  fdcIrq      := 6
  portClash   := .refuse
  uartBase    := 0x3F8
  uartIrq     := 4
  uartClockHz := 1843200
  idleWindow  := 1

/-- The six decimal adjusts of 41_muldiv_bcd.md section 4. -/
inductive BcdOp where
  | daa
  | das
  | aaa
  | aas
  | aam
  | aad
deriving DecidableEq, Repr

/-- What a decimal adjust reads: AL, AH, the base byte (AAM, AAD), AF and CF. -/
structure BcdIn where
  al   : Byte
  ah   : Byte
  base : Byte
  af   : Bool
  cf   : Bool
deriving DecidableEq, Repr

/-- What a decimal adjust computes. -/
structure BcdOut where
  al : Byte
  ah : Byte
  af : Bool
  cf : Bool
deriving DecidableEq, Repr, Inhabited

/-- The n-th free bit: an undefined flag (10_state.md R30, D17). No body: nothing can evaluate it. -/
opaque Config.freeBit : Nat → Bool

/-- The n-th free byte: a byte from an unmodelled device, an empty MMIO entry, an unregistered port (R82, R84,
D18, D19). -/
opaque Config.freeByte : Nat → Byte

/-- The result of a decimal adjust outside its documented domain under `P_BCD = openOutside` (R247). -/
opaque Config.bcdFree : BcdOp → BcdIn → BcdOut

end Sys2Proof
end

