-- ==== Sys2Proof/Machine/State.lean ====
section
/-! DEFINITION. The state of the machine as plain data (spec/10_state.md), its reset value (R43, R560), and why a
step can stop. -/

namespace Sys2Proof.Machine

/-- The eight general registers (10_state.md R20). -/
structure Regs where
  ax : Word
  cx : Word
  dx : Word
  bx : Word
  sp : Word
  bp : Word
  si : Word
  di : Word
deriving DecidableEq, Repr

/-- The four segment registers (R24). -/
structure Sregs where
  es : Word
  cs : Word
  ss : Word
  ds : Word
deriving DecidableEq, Repr

/-- The nine flags (R27); `intf` is IF, `ovf` is OF. The other seven bits of FLAGS hold no state (R28). -/
structure Flags where
  cf   : Bool
  pf   : Bool
  af   : Bool
  zf   : Bool
  sf   : Bool
  tf   : Bool
  intf : Bool
  df   : Bool
  ovf  : Bool
deriving DecidableEq, Repr

/-- Why the machine stops with a fault. Safe unless a constructor says otherwise. -/
inductive Fault where
  /-- 00_scope.md R9, 30_encoding.md R159: an encoding that is not admitted. Raised by `takeUnits` (Machine/Cycle.lean)
  and by the meanings of the encodings to which the spec gives no semantics (46_processor_control.md R411, R413).
  Safe: the spec asks for this fault. -/
  | instructionDecodeError (addr : Nat)
  /-- 60_exceptions.md R471: HLT executed with IF = 0. Raised by `execHlt`. Safe: the spec asks for this fault. -/
  | cpuHaltedError (addr : Nat)
  /-- 00_scope.md R9: an internal error. Raised by `cycle` in a state with `inRep` set and no decoded record, which no
  step reaches. Safe. -/
  | executionError (addr : Nat)
  /-- 00_scope.md R9: the fourth internal error. Never raised: every instruction is handled. Safe. -/
  | unhandledInstructionError
deriving DecidableEq, Repr

/-- Why a step has no meaning. All safe: nothing is provable about a refused step. -/
inductive Refusal where
  /-- No meaning yet for the instruction of this mnemonic. Never raised: every instruction has its meaning. Safe. -/
  | notModelled (mnemonic : String)
  /-- 60_exceptions.md R454: a halted step with TF = 1. Raised by `cycle`. Safe. -/
  | haltedWithTrap
  /-- 60_exceptions.md R522: the floppy controller's register interface, whose effect the spec does not give. Raised by
  IN and OUT at its ports. Safe. -/
  | floppyRegisterInterface (port : Word)
  /-- 60_exceptions.md R548, 93_implementation_defined.md section 3: a port that two devices registered. Raised by IN and
  OUT under `Params.portClash = refuse`. Safe. -/
  | sharedPort (port : Word)
  /-- 93_implementation_defined.md section 7: a floppy operation on a drive without an image. Noted by `Board.runFloppy`,
  raised by `described`. Safe. -/
  | floppyNoImage
  /-- 93_implementation_defined.md section 7, 60_exceptions.md R498: a transfer that the software request register asked
  for would move a byte. Noted by `Board.dmaTransfer`, raised by `described`. Safe. -/
  | dmaSoftwareRequest
  /-- 70_reset_and_hazards.md R590: `copy_from` once the machine has stepped. Noted by `State.act`,
  raised by `described`. Safe. -/
  | copyFromRunning
deriving DecidableEq, Repr

/-- The result of a step (60_exceptions.md R453); `breakpoint` is R540. An architectural exception or software
interrupt is turned into its entry inside the step, and the caller sees a taken transfer (95_test_vectors.md T8, T12). -/
inductive ResultTag where
  | okay
  | okayJump
  | okayRep
  | halt
  | breakpoint
deriving DecidableEq, Repr

/-- The repeat prefixes (30_encoding.md R135). -/
inductive RepKind where
  | repz
  | repnz
deriving DecidableEq, Repr

/-- The prefixes of the instruction being run (10_state.md R34). -/
structure Prefixes where
  seg  : Option SReg
  rep  : Option RepKind
  lock : Bool
deriving DecidableEq, Repr

/-- The decoded record kept while `inRep` (R33, 30_encoding.md R133): the instruction, its prefixes, its size in bytes,
and whether it loads its EA operand. -/
structure Decoded where
  instr   : Instr
  pfx     : Prefixes
  size    : Nat
  loadsEa : Bool
deriving DecidableEq, Repr

/-- The CPU's own state: registers, flags, and the hidden execution state of R33, R34. Transient (R34): `pfx`, `size`
(the bytes taken so far), `loaded` (the operand that was read before the immediate bytes, 30_encoding.md R144, the `tmp`
of R162). `attempts` is the model's own: how many steps have ended without all prefixes of the coming instruction
taken (log 16). -/
structure Cpu where
  regs        : Regs
  sregs       : Sregs
  flags       : Flags
  halted      : Bool
  inRep       : Bool
  intrPending : Bool
  nmiLatch    : Bool
  trapArmed   : Bool
  intInhibit  : Bool
  lastEa      : Word
  lastCs      : Word
  lastIp      : Word
  error       : Option Fault
  decoded     : Option Decoded
  pfx         : Prefixes
  size        : Nat
  loaded      : Option Word
  attempts    : Nat
  result      : ResultTag
deriving DecidableEq, Repr

/-- What the queue did last (R31, 20_memory.md R98). -/
inductive QueueOp where
  | idle
  | first
  | subsequent
  | flush
deriving DecidableEq, Repr

/-- The bus states (R32). -/
inductive TState where
  | ti
  | t1
  | t2
  | t3
  | tw
  | t4
deriving DecidableEq, Repr

/-- What a bus cycle does. The document gives the status no encoding (R32), so it is a name. -/
inductive BusStatus where
  | passive
  | codeFetch
  | memRead
  | memWrite
  | ioRead
  | ioWrite
deriving DecidableEq, Repr

/-- The (virtual) pins (R32). -/
structure BusPins where
  tState     : TState
  ale        : Bool
  status     : BusStatus
  address    : BitVec 20
  dataBus    : Byte
  waitCycles : Nat
  inFlight   : Bool
deriving DecidableEq, Repr

/-- The mask flags of one address (R37). -/
structure MaskFlags where
  rom        : Bool
  mmio       : Bool
  breakExec  : Bool
  stopwatch  : Bool
  returnMark : Bool
deriving DecidableEq, Repr

/-- Where a PIC initialisation stands (60_exceptions.md R487). -/
inductive InitStep where
  | ready
  | icw2
  | icw3
  | icw4
deriving DecidableEq, Repr

/-- The interrupt controller (R39). Bit `n` of a byte is level `n`. -/
structure Pic where
  irqLine    : Byte
  irr        : Byte
  imr        : Byte
  isr        : Byte
  lowestPrio : BitVec 3
  autoEoi    : Bool
  rotateAeoi : Bool
  vectorBase : Byte
  initStep   : InitStep
  single     : Bool
  needIcw4   : Bool
  readIsr    : Bool
deriving DecidableEq, Repr

/-- The service modes of a DMA channel (60_exceptions.md R492). -/
inductive DmaService where
  | demand
  | single
  | block
  | cascade
deriving DecidableEq, Repr

/-- The transfer types of a DMA channel (R492). -/
inductive DmaXfer where
  | verify
  | writeToMem
  | readFromMem
  | illegal
deriving DecidableEq, Repr

/-- One DMA channel (R40). `soft`: the request stands by the software request register (60_exceptions.md R498), not by
`request_service`; the model's own, as R40 has one `request`. -/
structure DmaChannel where
  baseAddr  : Word
  curAddr   : Word
  baseCount : Word
  curCount  : Word
  page      : Byte
  service   : DmaService
  decrement : Bool
  xfer      : DmaXfer
  autoInit  : Bool
  masked    : Bool
  tc        : Bool
  tcLatched : Bool
  request   : Bool
  soft      : Bool
deriving DecidableEq, Repr

/-- The DMA controller (R40). -/
structure Dma where
  ch0      : DmaChannel
  ch1      : DmaChannel
  ch2      : DmaChannel
  ch3      : DmaChannel
  flipflop : Bool
  enable   : Bool
  rotating : Bool
  rotation : BitVec 2
deriving DecidableEq, Repr

/-- The serial port (R42). `thr = none` is an empty TX holding register. The timers count microseconds times
`P_UART_CLOCK_HZ`. -/
structure Uart where
  divisor    : Word
  lcr        : Byte
  ier        : Byte
  mcr        : Byte
  rxBuf      : Byte
  dr         : Bool
  thr        : Option Byte
  actLine    : Bool
  actRx      : Bool
  actTx      : Bool
  actModem   : Bool
  overrun    : Bool
  parityErr  : Bool
  framingErr : Bool
  breakInd   : Bool
  cts        : Bool
  dsr        : Bool
  ri         : Bool
  dcd        : Bool
  dCts       : Bool
  dDsr       : Bool
  tRi        : Bool
  dDcd       : Bool
  rxQueue    : List Byte
  rxTimer    : Nat
  txTimer    : Nat
  irqOut     : Bool
deriving DecidableEq, Repr

/-- The drive types (60_exceptions.md R511). -/
inductive DriveKind where
  | k360
  | k720
  | m12
  | m144
deriving DecidableEq, Repr

/-- One sector of a disk image: its CHSN id (R510), its data, and what reading it reports (R512). -/
structure Sector where
  c             : Nat
  h             : Nat
  s             : Nat
  n             : Nat
  data          : List Byte
  addressCrcBad : Bool
  dataCrcBad    : Bool
  deletedMark   : Bool
deriving DecidableEq, Repr

/-- The sectors of one track, in the order they lie on it. -/
structure Track where
  cyl     : Nat
  head    : Nat
  sectors : List Sector
deriving DecidableEq, Repr

/-- A disk image. -/
structure DiskImage where
  tracks : List Track
deriving DecidableEq, Repr

/-- The result of a floppy operation (R518). -/
structure FloppyResult where
  notFound    : Bool
  sectorsDone : Nat
  newC        : Nat
  newH        : Nat
  newS        : Nat
  deletedMark : Bool
deriving DecidableEq, Repr

/-- The cumulative status of a floppy operation (R41). -/
structure FloppyStatus where
  addressCrcError : Bool
  dataCrcError    : Bool
  deletedMark     : Bool
deriving DecidableEq, Repr

/-- The errors a floppy write surfaces (R513, R519). -/
inductive FloppyError where
  | sectorNotFound
  | addressCrcError
  | wrongCylinder
  | wrongHead
deriving DecidableEq, Repr

/-- One floppy drive (R41). `buffer` is what the last operation delivered. -/
structure Drive where
  kind    : DriveKind
  image   : Option DiskImage
  cyl     : Nat
  head    : Nat
  sector  : Nat
  motorOn : Bool
  ready   : Bool
  result  : FloppyResult
  status  : FloppyStatus
  failure : Option FloppyError
  buffer  : List Byte
deriving DecidableEq, Repr

/-- The drives by name. -/
inductive DriveName where
  | a
  | b
deriving DecidableEq, Repr

/-- The operations of the floppy engine (60_exceptions.md R512 to R517). -/
inductive FloppyOp where
  | readData (c h s n ct : Nat) (skip multitrack : Bool)
  | writeData (c h s n ct : Nat) (data : List Byte)
  | readTrack (h eot : Nat)
  | formatTrack (h : Nat) (ids : List (Nat × Nat × Nat × Nat)) (gap3 : Nat) (fill : Byte)
  | seek (c : Nat)
  | motor (on : Bool)
deriving DecidableEq, Repr

/-- One step of an agent other than the CPU (00_scope.md R7, 70_reset_and_hazards.md R586). `dmaRun` carries the free
choice of a channel under rotating priority and the byte the device offers (R495, R496); the last two are the request
lines of devices that are not modelled. -/
inductive BusEvent where
  | prefetch
  | dmaRequest (ch : BitVec 2)
  | dmaRun (pick : BitVec 2) (din : Byte)
  | uartRx
  | uartTx
  | floppy (d : DriveName) (op : FloppyOp)
  | requestInterrupt (n : BitVec 3)
  | clearInterrupt (n : BitVec 3)
deriving DecidableEq, Repr

/-- What the machine hands to the outside (log 34). `readOutOfBounds` and `writeOutOfBounds` are 20_memory.md R85's typed
errors, `portCollision` the log entry of 60_exceptions.md R548. -/
inductive OutEvent where
  | mmioRead  (device : MmioDevice) (addr : Nat)
  | mmioWrite (device : MmioDevice) (addr : Nat) (v : Byte)
  | mmioError (addr : Nat)
  | serialByte (v : Byte)
  | dmaByte (ch : BitVec 2) (v : Byte)
  | readOutOfBounds (addr : Nat)
  | writeOutOfBounds (addr : Nat)
  | portCollision (port : Word)
  | stopwatch (addr : Nat)
deriving DecidableEq, Repr

/-- Everything but the CPU: bus, memory, devices. `params` is fixed for a run; `draws`, `slots`, `events` and
`undescribed` are the model's own (logs 7, 10, 34, 42). `undescribed`: in this step something happened whose effect the
spec does not give, and why; the step is then refused. -/
structure Board where
  params  : Params
  pc      : Word
  queue   : List Byte
  queueOp : QueueOp
  bus     : BusPins
  locked  : Bool
  mem     : List Host.Cell
  mask    : List (Nat × MaskFlags)
  pic     : Pic
  dma     : Dma
  uart    : Uart
  driveA  : Drive
  driveB  : Drive
  draws   : Nat
  slots   : List (List BusEvent)
  events  : List OutEvent
  undescribed : Option Refusal
deriving DecidableEq, Repr

/-- What the host can do between steps (70_reset_and_hazards.md R590). -/
inductive HostAction where
  | reset
  | copyFrom (bytes : List Byte) (addr : Nat) (readOnly : Bool)
  | setBreakpoint (addr : Nat) (on : Bool)
  | setStopwatch (addr : Nat) (on : Bool)
  | nmi
  | requestInterrupt (n : BitVec 3)
  | clearInterrupt (n : BitVec 3)
  | devicePeriod (us : Nat) (dma : List BusEvent)
  | insertDisk (d : DriveName) (kind : DriveKind) (image : DiskImage)
  | removeDisk (d : DriveName)
  | floppy (d : DriveName) (op : FloppyOp)
  | serialIn (bytes : List Byte)
  | lineError (parity framing brk : Bool)
  | modemLines (cts dsr ri dcd : Bool)
  | takeEvents
  | skipBreakpoint (on : Bool)
deriving DecidableEq, Repr

/-- The state of the machine. `inputs` holds, step by step, what the host does before each coming step; `started` says
that a step has run since reset (70_reset_and_hazards.md R590; log 41). -/
structure State where
  cpu     : Cpu
  board   : Board
  inputs  : List (List HostAction)
  skipBp  : Bool
  started : Bool
deriving DecidableEq, Repr

/-- No prefixes. -/
def Prefixes.none : Prefixes := ⟨Option.none, Option.none, false⟩

/-- A DMA channel after reset (10_state.md R43; log 4). -/
def DmaChannel.reset : DmaChannel :=
  { baseAddr := 0, curAddr := 0, baseCount := 0, curCount := 0, page := 0, service := .demand, decrement := false,
    xfer := .verify, autoInit := false, masked := true, tc := false, tcLatched := false, request := false,
    soft := false }

/-- The DMA controller after reset (R43; log 4). -/
def Dma.reset : Dma :=
  { ch0 := .reset, ch1 := .reset, ch2 := .reset, ch3 := .reset, flipflop := false, enable := true,
    rotating := false, rotation := 0 }

/-- The PIC after reset (R43; log 3). -/
def Pic.reset : Pic :=
  { irqLine := 0, irr := 0, imr := 0xFF, isr := 0, lowestPrio := 7, autoEoi := false, rotateAeoi := false,
    vectorBase := 8, initStep := .ready, single := false, needIcw4 := false, readIsr := false }

/-- The serial port after reset (R43; log 5). DESIGN CHOICE, as R43 has no row for it: the receive queue is empty. -/
def Uart.reset : Uart :=
  { divisor := 0, lcr := 0, ier := 0, mcr := 0, rxBuf := 0, dr := false, thr := none, actLine := false,
    actRx := false, actTx := false, actModem := false, overrun := false, parityErr := false, framingErr := false,
    breakInd := false, cts := false, dsr := false, ri := false, dcd := false, dCts := false, dDsr := false,
    tRi := false, dDcd := false, rxQueue := [], rxTimer := 0, txTimer := 0, irqOut := false }

/-- A floppy drive after reset, holding `image` (R43; log 21). -/
def Drive.resetWith (kind : DriveKind) (image : Option DiskImage) : Drive :=
  { kind := kind, image := image, cyl := 0, head := 0, sector := 1, motorOn := false, ready := false,
    result := ⟨false, 0, 0, 0, 1, false⟩, status := ⟨false, false, false⟩, failure := none, buffer := [] }

/-- The pins after reset (R43; log 26). -/
def BusPins.reset : BusPins :=
  { tState := .ti, ale := false, status := .passive, address := 0, dataBus := 0, waitCycles := 0, inFlight := false }

/-- The CPU after reset (R43, R560): CS = FFFF, everything else the spec states is 0; the general registers are
`P_RESET_GPR` (log 1), `lastEa`, `lastCs`, `lastIp` are log 2's, `result` is log 35's. -/
def Cpu.resetWith (g : ResetGpr) : Cpu :=
  { regs := { ax := g.ax, cx := g.cx, dx := g.dx, bx := g.bx, sp := g.sp, bp := g.bp, si := g.si, di := g.di },
    sregs := { es := 0, cs := 0xFFFF, ss := 0, ds := 0 },
    flags := ⟨false, false, false, false, false, false, false, false, false⟩,
    halted := false, inRep := false, intrPending := false, nmiLatch := false, trapArmed := false,
    intInhibit := false, lastEa := 0, lastCs := 0, lastIp := 0, error := none, decoded := none,
    pfx := .none, size := 0, loaded := none, attempts := 0, result := .okay }

/-- The machine right after reset, with the parameters of `Params.initial`: no ROM image, no MMIO region, so memory
and mask list nothing (R43, R560). -/
def State.reset : State :=
  { cpu := Cpu.resetWith Params.initial.resetGpr,
    board :=
      { params := Params.initial, pc := 0, queue := [], queueOp := .idle, bus := .reset, locked := false,
        mem := [], mask := [], pic := .reset, dma := .reset, uart := .reset,
        driveA := Drive.resetWith .k360 none, driveB := Drive.resetWith .k360 none,
        draws := 0, slots := [], events := [], undescribed := none },
    inputs := [], skipBp := false, started := false }

end Sys2Proof.Machine
end

