-- ==== Sys2Proof/Machine/Floppy.lean ====
section
/-! DEFINITION. The floppy drive engine (60_exceptions.md section 10): operations over a structured disk image. -/

namespace Sys2Proof.Machine

/-- Cylinders of a drive type (R511). -/
def DriveKind.cylinders : DriveKind → Nat
  | .k360 => 40
  | .k720 | .m12 | .m144 => 80

/-- Heads of a drive type (R511). -/
def DriveKind.heads : DriveKind → Nat
  | .k360 | .k720 | .m12 | .m144 => 2

/-- Sectors per track of a drive type's standard format (R511). -/
def DriveKind.sectorsPerTrack : DriveKind → Nat
  | .k360 | .k720 => 9
  | .m12 => 15
  | .m144 => 18

/-- `128 << N` bytes per sector (R510). -/
def sectorBytes (n : Nat) : Nat := 128 <<< n

/-- Exactly `k` bytes: the front of the buffer, zero-filled where it is too short (log 21). -/
def takeBytes : Nat → List Byte → List Byte
  | 0, _ => []
  | k + 1, [] => 0 :: takeBytes k []
  | k + 1, b :: bs => b :: takeBytes k bs

/-- The image with every sector `128 << N` bytes long (R510; log 21). -/
def DiskImage.sized (im : DiskImage) : DiskImage :=
  ⟨im.tracks.map fun t => { t with sectors := t.sectors.map fun q => { q with data := takeBytes (sectorBytes q.n) q.data } }⟩

/-- Whether every sector is `128 << N` bytes long. -/
def DiskImage.isSized (im : DiskImage) : Bool :=
  im.tracks.all fun t => t.sectors.all fun q => q.data.length == sectorBytes q.n

/-- A sector of 512 bytes (R511), all equal to `fill`. -/
def Sector.blank (c h s : Nat) (fill : Byte) : Sector :=
  { c := c, h := h, s := s, n := 2, data := List.replicate (sectorBytes 2) fill,
    addressCrcBad := false, dataCrcBad := false, deletedMark := false }

/-- A disk in the standard format of a drive type (R511): sector ids on a track start at 1. -/
def DriveKind.standardDisk (k : DriveKind) (fill : Byte) : DiskImage :=
  ⟨(List.range k.cylinders).flatMap fun c => (List.range k.heads).map fun h =>
    ⟨c, h, (List.range k.sectorsPerTrack).map fun s => Sector.blank c h (s + 1) fill⟩⟩

/-- The track of a cylinder and head; where the image lists two, the first (DESIGN CHOICE, log 46). -/
def DiskImage.track (im : DiskImage) (cyl head : Nat) : Option Track :=
  im.tracks.find? fun t => t.cyl == cyl && t.head == head

/-- The sectors of a track; none where the image has no such track. -/
def DiskImage.sectorsOf (im : DiskImage) (cyl head : Nat) : List Sector :=
  match im.track cyl head with
  | some t => t.sectors
  | none => []

/-- The sectors a drive can reach under head `h` at its cylinder: none outside the geometry of its type (R510,
93_implementation_defined.md section 7). -/
def Drive.sectorsAt (d : Drive) (im : DiskImage) (h : Nat) : List Sector :=
  if d.cyl < d.kind.cylinders && h < d.kind.heads then im.sectorsOf d.cyl h else []

/-- The sector with id (c, h, s, n). -/
def Sector.matchesId (q : Sector) (c h s n : Nat) : Bool := q.c == c && q.h == h && q.s == s && q.n == n

/-- `image.find(track, id)` (R512), "a sector matching the ID": where several have the id, the first on the track (DESIGN
CHOICE, log 46). -/
def Drive.find (d : Drive) (im : DiskImage) (head : Nat) (c h s n : Nat) : Option Sector :=
  (d.sectorsAt im head).find? fun q => q.matchesId c h s n

/-- Where the read loop of R512 stands. -/
structure ReadLoop where
  h       : Nat
  s       : Nat
  done    : Nat
  flipped : Bool
  buf     : List Byte
  st      : FloppyStatus
  nf      : Bool
  del     : Bool
deriving DecidableEq, Repr

/-- The loop of R512. Every turn but one uses up a sector of the image, so `fuel` bounds it. -/
def readLoop (d : Drive) (im : DiskImage) (c n ct : Nat) (skip multitrack : Bool) : Nat → ReadLoop → ReadLoop
  | 0, l => l
  | fuel + 1, l =>
    if l.done < ct then
      match d.find im l.h c l.h l.s n with
      | none =>
        if multitrack && !l.flipped && l.h == 0 && decide (0 < l.done) then
          readLoop d im c n ct skip multitrack fuel { l with h := 1, s := 1, flipped := true }
        else { l with nf := true }
      | some q =>
        let st := { l.st with addressCrcError := l.st.addressCrcError || q.addressCrcBad,
                              dataCrcError := l.st.dataCrcError || q.dataCrcBad,
                              deletedMark := l.st.deletedMark || q.deletedMark }
        if q.deletedMark then
          if skip then readLoop d im c n ct skip multitrack fuel { l with st := st, del := true, s := l.s + 1 }
          else { l with st := st, del := true }
        else
          readLoop d im c n ct skip multitrack fuel
            { l with st := st, buf := l.buf ++ q.data, done := l.done + 1, s := l.s + 1 }
    else l

/-- The sectors of an image. -/
def DiskImage.count (im : DiskImage) : Nat := (im.tracks.map fun t => t.sectors.length).sum

/-- Record the outcome of an operation; the drive's chs becomes `new_chs` (R518). -/
def Drive.report (d : Drive) (r : FloppyResult) (st : FloppyStatus) (f : Option FloppyError) (buf : List Byte) : Drive :=
  { d with result := r, status := st, failure := f, buffer := buf, cyl := r.newC, head := r.newH, sector := r.newS }

/-- A fresh `OperationStatus`. -/
def FloppyStatus.fresh : FloppyStatus := ⟨false, false, false⟩

/-- Read data (R512). -/
def Drive.readData (d : Drive) (im : DiskImage) (c h s n ct : Nat) (skip multitrack : Bool) : Drive :=
  let l := readLoop d im c n ct skip multitrack (im.count + 3) ⟨h, s, 0, false, [], .fresh, false, false⟩
  d.report ⟨l.nf, l.done, c, l.h, l.s, l.del⟩ l.st (if l.nf then some .sectorNotFound else none) l.buf

/-- Which error a missing sector is (R513; log 21); the first sector of the same number and size decides (log 46). -/
def writeError (qs : List Sector) (c h s n : Nat) : FloppyError :=
  match qs.find? fun q => q.s == s && q.n == n with
  | some q => if q.c != c then .wrongCylinder else if q.h != h then .wrongHead else .sectorNotFound
  | none => .sectorNotFound

/-- Replace the data of the sector with id (c, h, s, n), the first on the track that has it (log 46); its CRC is then good
and its mark normal (R513). -/
def putSector (qs : List Sector) (c h s n : Nat) (data : List Byte) : List Sector :=
  match qs with
  | [] => []
  | q :: rest =>
    if q.matchesId c h s n then { q with data := data, dataCrcBad := false, deletedMark := false } :: rest
    else q :: putSector rest c h s n data

/-- Replace the sectors of a track, adding the track where the image has none; where it lists two, of both (log 46). -/
def DiskImage.putTrack (im : DiskImage) (cyl head : Nat) (qs : List Sector) : DiskImage :=
  match im.track cyl head with
  | some _ => ⟨im.tracks.map fun t => if t.cyl == cyl && t.head == head then { t with sectors := qs } else t⟩
  | none => ⟨im.tracks ++ [⟨cyl, head, qs⟩]⟩

/-- Write data (R513): `ct` sectors, one at a time. A named sector that the image does not hold is `not_found`, whichever
of the three errors says so (93_implementation_defined.md section 7). -/
def Drive.writeData (d : Drive) (im : DiskImage) (c h n : Nat) : Nat → Nat → Nat → List Byte → Drive
  | 0, s, done, _ => ({ d with image := some im }).report ⟨false, done, c, h, s, false⟩ .fresh none []
  | ct + 1, s, done, data =>
    let qs := d.sectorsAt im h
    match qs.find? fun q => q.matchesId c h s n with
    | none =>
      let e := writeError qs c h s n
      ({ d with image := some im }).report ⟨true, done, c, h, s, false⟩ .fresh (some e) []
    | some q =>
      if q.addressCrcBad then
        ({ d with image := some im }).report ⟨false, done, c, h, s, false⟩ { FloppyStatus.fresh with addressCrcError := true }
          (some .addressCrcError) []
      else
        Drive.writeData d (im.putTrack d.cyl h (putSector qs c h s n (takeBytes (sectorBytes n) data))) c h n
          ct (s + 1) (done + 1) (data.drop (sectorBytes n))

/-- The sector number after the last of these (R518); that of the drive where there is none. -/
def Drive.sectorAfter (d : Drive) (qs : List Sector) : Nat :=
  match qs.getLast? with
  | some q => q.s + 1
  | none => d.sector

/-- Read track (R514): the first `eot` sectors in the order they lie; `not_found` where the drive reaches none
(93_implementation_defined.md section 7). -/
def Drive.readTrack (d : Drive) (im : DiskImage) (h eot : Nat) : Drive :=
  let all := d.sectorsAt im h
  let qs := all.take eot
  let st : FloppyStatus := ⟨qs.any (·.addressCrcBad), qs.any (·.dataCrcBad), qs.any (·.deletedMark)⟩
  d.report ⟨all.isEmpty, qs.length, d.cyl, h, d.sectorAfter qs, st.deletedMark⟩ st
    (if all.isEmpty then some .sectorNotFound else none) (qs.flatMap (·.data))

/-- Format track (R515): one sector per id, every data byte the fill byte. `gap3` is layout only. Outside the geometry
nothing is formatted and the result is `not_found` (log 21). -/
def Drive.formatTrack (d : Drive) (im : DiskImage) (h : Nat) (ids : List (Nat × Nat × Nat × Nat)) (fill : Byte) : Drive :=
  let qs := ids.map fun i =>
    ({ c := i.1, h := i.2.1, s := i.2.2.1, n := i.2.2.2, data := List.replicate (sectorBytes i.2.2.2) fill,
       addressCrcBad := false, dataCrcBad := false, deletedMark := false } : Sector)
  if d.cyl < d.kind.cylinders && h < d.kind.heads then
    ({ d with image := some (im.putTrack d.cyl h qs) }).report ⟨false, qs.length, d.cyl, h, d.sectorAfter qs, false⟩
      .fresh none []
  else d.report ⟨true, 0, d.cyl, h, d.sector, false⟩ .fresh (some .wrongHead) []

/-- Seek (R516): refused, with the cylinder unchanged, at or above the drive type's cap; it processes no sector, and its
result is a fresh one (R518). -/
def Drive.seek (d : Drive) (c : Nat) : Drive :=
  d.report ⟨false, 0, if c < d.kind.cylinders then c else d.cyl, d.head, d.sector, false⟩ .fresh none []

/-- Motor control (R517): edges only. -/
def Drive.motor (d : Drive) (on : Bool) : Drive :=
  if on == d.motorOn then d
  else if on then { d with motorOn := true, ready := d.ready || d.image.isSome }
  else { d with motorOn := false, ready := false }

/-- Whether an operation is a command that starts: all but motor control, on a ready drive (R517). -/
def Drive.starts (d : Drive) : FloppyOp → Bool
  | .motor _ => false
  | .readData _ _ _ _ _ _ _ | .writeData _ _ _ _ _ _ | .readTrack _ _ | .formatTrack _ _ _ _ | .seek _ => d.ready

/-- An operation that needs the image: it has no meaning on a drive without one, and does not start on a drive that is
not ready (R517). -/
def Drive.withImage (d : Drive) (f : DiskImage → Drive) : Option Drive :=
  match d.image with
  | none => none
  | some im => some (if d.ready then f im else d)

/-- One operation of the engine; `none` on a drive without an image (93_implementation_defined.md section 7), but for the
motor, whose effect R517 gives there too. -/
def Drive.run (d : Drive) : FloppyOp → Option Drive
  | .readData c h s n ct skip mt => d.withImage fun im => d.readData im c h s n ct skip mt
  | .writeData c h s n ct data => d.withImage fun im => Drive.writeData d im c h n ct s 0 data
  | .readTrack h eot => d.withImage fun im => d.readTrack im h eot
  | .formatTrack h ids _ fill => d.withImage fun im => d.formatTrack im h ids fill
  | .seek c => d.withImage fun _ => d.seek c
  | .motor on => some (d.motor on)

end Sys2Proof.Machine
end

