-- ==== Sys2Proof/Machine/Memory.lean ====
section
/-! DEFINITION. Iteration, sparse maps in canonical form, memory and the mask array over them (10_state.md R36, R37), and
physical addresses (20_memory.md R75). -/

namespace Sys2Proof.Machine

/-- A step applied `k` times (42_shift_rotate.md R250). -/
def iter {α : Type} (f : α → α) : Nat → α → α
  | 0, x => x
  | k + 1, x => iter f k (f x)

/-- The value at key `a`; `d` is what an unlisted key reads as. -/
def Sparse.read {α : Type} (d : α) (a : Nat) : List (Nat × α) → α
  | [] => d
  | (k, v) :: t => if k = a then v else Sparse.read d a t

/-- Store `v` at key `a`, keeping keys strictly rising and listing no value equal to `d`. -/
def Sparse.write {α : Type} [DecidableEq α] (d : α) (a : Nat) (v : α) : List (Nat × α) → List (Nat × α)
  | [] => if v = d then [] else [(a, v)]
  | (k, x) :: t =>
    if a < k then (if v = d then (k, x) :: t else (a, v) :: (k, x) :: t)
    else if a = k then (if v = d then t else (a, v) :: t)
    else (k, x) :: Sparse.write d a v t

/-- The canonical form: keys strictly rising and below `n`, no value equal to `d`. -/
def Sparse.wf {α : Type} [DecidableEq α] (d : α) (n : Nat) : List (Nat × α) → Bool
  | [] => true
  | (k, v) :: t => decide (k < n) && decide (v ≠ d) && t.all (fun c => decide (k < c.1)) && Sparse.wf d n t

/-- The size of memory (R36). -/
def memSize : Nat := 1048576

/-- What an unlisted memory byte reads as: memory is zero at reset (10_state.md R43). -/
def memDefault : Byte := 0

/-- `memory[a]`. -/
def Memory.read (m : List Host.Cell) (a : Nat) : Byte := Sparse.read memDefault a m

/-- `memory[a] <- v`; an address that does not exist changes nothing (20_memory.md R85). -/
def Memory.write (m : List Host.Cell) (a : Nat) (v : Byte) : List Host.Cell :=
  if a < memSize then Sparse.write memDefault a v m else m

/-- The canonical form of memory. -/
def Memory.wf (m : List Host.Cell) : Bool := Sparse.wf memDefault memSize m

/-- No mask flag set. -/
def MaskFlags.clear : MaskFlags := ⟨false, false, false, false, false⟩

/-- `mask[a]`. -/
def Mask.read (m : List (Nat × MaskFlags)) (a : Nat) : MaskFlags := Sparse.read MaskFlags.clear a m

/-- `mask[a] <- f`. -/
def Mask.write (m : List (Nat × MaskFlags)) (a : Nat) (f : MaskFlags) : List (Nat × MaskFlags) :=
  if a < memSize then Sparse.write MaskFlags.clear a f m else m

/-- The canonical form of the mask array. -/
def Mask.wf (m : List (Nat × MaskFlags)) : Bool := Sparse.wf MaskFlags.clear memSize m

/-- `Phys(seg, off)` (R75): it wraps at 1 MiB. -/
def phys (seg off : Word) : Nat := (seg.toNat * 16 + off.toNat) % memSize

end Sys2Proof.Machine
end

