-- ==== Sys2Proof/Machine/Pic.lean ====
section
/-! DEFINITION. The interrupt controller (60_exceptions.md section 8). -/

namespace Sys2Proof.Machine

/-- The byte with bit `n` alone set. -/
def levelBit (n : BitVec 3) : Byte := 1#8 <<< n.toNat

/-- `request_interrupt(n)` (R481). -/
def Pic.request (p : Pic) (n : BitVec 3) : Pic :=
  { p with irqLine := p.irqLine ||| levelBit n, irr := p.irr ||| levelBit n }

/-- `clear_interrupt(n)` (R481). -/
def Pic.clear (p : Pic) (n : BitVec 3) : Pic :=
  { p with irqLine := p.irqLine &&& ~~~ levelBit n, irr := p.irr &&& ~~~ levelBit n }

/-- The levels from highest to lowest priority (R482). -/
def Pic.order (p : Pic) : List (BitVec 3) :=
  [p.lowestPrio + 1, p.lowestPrio + 2, p.lowestPrio + 3, p.lowestPrio + 4,
   p.lowestPrio + 5, p.lowestPrio + 6, p.lowestPrio + 7, p.lowestPrio]

/-- The first eligible level of a priority order: requested, not masked, and no level before it or itself in
service (R482). -/
def Pic.scan (p : Pic) : List (BitVec 3) → Option (BitVec 3)
  | [] => none
  | n :: rest =>
    if p.isr.getLsbD n.toNat then none
    else if p.irr.getLsbD n.toNat && !p.imr.getLsbD n.toNat then some n
    else p.scan rest

/-- The eligible level of highest priority. -/
def Pic.eligible (p : Pic) : Option (BitVec 3) := p.scan p.order

/-- `query_interrupt_line()` (R482). -/
def Pic.query (p : Pic) : Bool := p.eligible.isSome

/-- The level in service of highest priority (R484). -/
def Pic.inService (p : Pic) : Option (BitVec 3) := p.order.find? fun n => p.isr.getLsbD n.toNat

/-- `get_interrupt_vector()` (R483): the vector and the PIC after the acknowledge. -/
def Pic.acknowledge (p : Pic) : Byte × Pic :=
  match p.eligible with
  | none => (p.vectorBase + 7, p)
  | some n =>
    let irr := p.irr &&& ~~~ levelBit n
    if p.autoEoi then
      (p.vectorBase + n.setWidth 8, { p with irr := irr, lowestPrio := if p.rotateAeoi then n else p.lowestPrio })
    else (p.vectorBase + n.setWidth 8, { p with irr := irr, isr := p.isr ||| levelBit n })

/-- End of interrupt of level `n`, with or without rotation (R484, R485). -/
def Pic.eoi (p : Pic) (rotate : Bool) (n : BitVec 3) : Pic :=
  { p with isr := p.isr &&& ~~~ levelBit n, lowestPrio := if rotate then n else p.lowestPrio }

/-- OCW2 (R487): R, SL, EOI in bits 7:5, the level in bits 2:0. -/
def Pic.ocw2 (p : Pic) (v : Byte) : Pic :=
  let n : BitVec 3 := v.setWidth 3
  match v.toNat / 32 with
  | 0 => { p with rotateAeoi := false }
  | 1 => match p.inService with
    | some k => p.eoi false k
    | none => p
  | 2 => p
  | 3 => p.eoi false n
  | 4 => { p with rotateAeoi := true }
  | 5 => match p.inService with
    | some k => p.eoi true k
    | none => p
  | 6 => { p with lowestPrio := n }
  | _ => p.eoi true n

/-- OCW3 (R487): bits 1:0 select the register a command-port read returns. -/
def Pic.ocw3 (p : Pic) (v : Byte) : Pic :=
  match v.toNat % 4 with
  | 2 => { p with readIsr := false }
  | 3 => { p with readIsr := true }
  | _ => p

/-- A write of the command port (R487). -/
def Pic.writeCommand (p : Pic) (v : Byte) : Pic :=
  if v.getLsbD 4 then
    { p with imr := 0, isr := 0, irr := 0, lowestPrio := 7, autoEoi := false, initStep := .icw2,
             single := v.getLsbD 1, needIcw4 := v.getLsbD 0, readIsr := false }
  else if v.getLsbD 3 then p.ocw3 v
  else p.ocw2 v

/-- The step after ICW2 or ICW3. -/
def Pic.afterIcw3 (p : Pic) : InitStep := if p.needIcw4 then .icw4 else .ready

/-- A write of the data port (R487). ICW4's bit 0, 8086 mode, "must be 1"; where it is 0 the write has the same effect, and the
PIC goes on in 8086 mode (DESIGN CHOICE, log 44). -/
def Pic.writeData (p : Pic) (v : Byte) : Pic :=
  match p.initStep with
  | .icw2 => { p with vectorBase := v &&& 0xF8, initStep := if p.single then p.afterIcw3 else .icw3 }
  | .icw3 => { p with initStep := p.afterIcw3 }
  | .icw4 => { p with autoEoi := v.getLsbD 1, initStep := .ready }
  | .ready => { p with imr := v }

/-- A read of the command port (R487). -/
def Pic.readCommand (p : Pic) : Byte := if p.readIsr then p.isr else p.irr

end Sys2Proof.Machine
end

