-- ==== Sys2Proof/Machine/Uart.lean ====
section
/-! DEFINITION. The serial port (60_exceptions.md section 11). The functions here are the port alone; its interrupt
output is driven into the PIC by `Board.driveUart` (Machine/Bus.lean). -/

namespace Sys2Proof.Machine

/-- The divisor-latch access bit (R527). -/
def Uart.dlab (u : Uart) : Bool := u.lcr.getLsbD 7

/-- The loopback flag (R526). -/
def Uart.loopback (u : Uart) : Bool := u.mcr.getLsbD 4

/-- The interrupt output: the bitmap is non-empty and OUT2 is 1 (R532). -/
def Uart.irqLevel (u : Uart) : Bool := (u.actLine || u.actRx || u.actTx || u.actModem) && u.mcr.getLsbD 3

/-- The modem inputs as the status register shows them: CTS, DSR, RI, DCD, or under loopback RTS, DTR, OUT1, OUT2
(R536). -/
def Uart.modemIn (u : Uart) : Bool × Bool × Bool × Bool :=
  if u.loopback then (u.mcr.getLsbD 1, u.mcr.getLsbD 0, u.mcr.getLsbD 2, u.mcr.getLsbD 3)
  else (u.cts, u.dsr, u.ri, u.dcd)

/-- Note the changes of the modem inputs since `old` (R536): the delta bits, and the modem-status interrupt. -/
def Uart.noteModem (u : Uart) (old : Bool × Bool × Bool × Bool) : Uart :=
  let m := u.modemIn
  let c := old.1 != m.1
  let d := old.2.1 != m.2.1
  let r := old.2.2.1 && !m.2.2.1
  let k := old.2.2.2 != m.2.2.2
  { u with dCts := u.dCts || c, dDsr := u.dDsr || d, tRi := u.tRi || r, dDcd := u.dDcd || k,
           actModem := u.actModem || ((c || d || r || k) && u.ier.getLsbD 3) }

/-- One received byte (R531). -/
def Uart.receive (u : Uart) (v : Byte) : Uart :=
  { u with rxBuf := v, dr := true, actRx := u.actRx || u.ier.getLsbD 0, overrun := u.overrun || u.dr,
           actLine := u.actLine || (u.dr && u.ier.getLsbD 2) }

/-- The RX step (R531): one byte of the receive queue arrives. -/
def Uart.rxStep (u : Uart) : Uart :=
  match u.rxQueue with
  | [] => u
  | v :: rest => ({ u with rxQueue := rest }).receive v

/-- The TX step (R531): the byte in the holding register leaves, to the host (the first component) or, under loopback,
to the receive path (log 19). -/
def Uart.txStep (u : Uart) : Option Byte × Uart :=
  match u.thr with
  | none => (none, u)
  | some v =>
    let u' := { u with thr := none, actTx := u.actTx || u.ier.getLsbD 1 }
    if u.loopback then (none, { u' with rxQueue := u'.rxQueue ++ [v] }) else (some v, u')

/-- Bits per frame (R531): start, word length, parity, stop. PRESUMED (log 39): bit 3 of line control enables parity, and
bit 2 asks for two stop bits. -/
def Uart.frameBits (u : Uart) : Nat :=
  1 + (5 + u.lcr.toNat % 4) + (if u.lcr.getLsbD 3 then 1 else 0) + (if u.lcr.getLsbD 2 then 2 else 1)

/-- The per-byte time in microseconds times the clock (R531): `bits × 16 × divisor × 10^6`. -/
def Uart.byteTime (u : Uart) : Nat := u.frameBits * 16 * u.divisor.toNat * 1000000

/-- The interrupt ID register (R530). -/
def Uart.iir (u : Uart) : Byte :=
  if u.actLine then 6 else if u.actRx then 4 else if u.actTx then 2 else if u.actModem then 0 else 1

/-- A Bool as a bit of a byte. -/
def bitAt (b : Bool) (n : Nat) : Byte := if b then 1#8 <<< n else 0

/-- Line status (R535). -/
def Uart.lsr (u : Uart) : Byte :=
  bitAt u.dr 0 ||| bitAt u.overrun 1 ||| bitAt u.parityErr 2 ||| bitAt u.framingErr 3 ||| bitAt u.breakInd 4 |||
    bitAt u.thr.isNone 5 ||| bitAt u.thr.isNone 6

/-- Modem status (R536; the order of the bits within each half is log 18). -/
def Uart.msr (u : Uart) : Byte :=
  let m := u.modemIn
  bitAt u.dCts 0 ||| bitAt u.dDsr 1 ||| bitAt u.tRi 2 ||| bitAt u.dDcd 3 |||
    bitAt m.1 4 ||| bitAt m.2.1 5 ||| bitAt m.2.2.1 6 ||| bitAt m.2.2.2 7

/-- A read of register `off` (R526, R527, R530, R533, R535, R536). -/
def Uart.read (u : Uart) (off : Nat) : Byte × Uart :=
  match off with
  | 0 => if u.dlab then (loByte u.divisor, u) else (u.rxBuf, { u with dr := false, actRx := false })
  | 1 => if u.dlab then (hiByte u.divisor, u) else (u.ier, u)
  | 2 => (u.iir, if u.iir = 2 then { u with actTx := false } else u)
  | 3 => (u.lcr, u)
  | 4 => (u.mcr, u)
  | 5 => (u.lsr, { u with overrun := false, parityErr := false, framingErr := false, breakInd := false, actLine := false })
  | 6 => (u.msr, { u with dCts := false, dDsr := false, tRi := false, dDcd := false, actModem := false })
  | _ => (0, u)

/-- A write of the interrupt enable register (R528, R529). -/
def Uart.writeIer (u : Uart) (v : Byte) : Uart :=
  { u with ier := v &&& 0x0F,
           actRx := u.actRx && v.getLsbD 0,
           actTx := (u.actTx && v.getLsbD 1) || (!u.ier.getLsbD 1 && v.getLsbD 1 && u.thr.isNone),
           actLine := u.actLine && v.getLsbD 2,
           actModem := u.actModem && v.getLsbD 3 }

/-- A write of register `off` (R526 to R529, R534, R536). -/
def Uart.write (u : Uart) (off : Nat) (v : Byte) : Uart :=
  match off with
  | 0 => if u.dlab then { u with divisor := mkWord v (hiByte u.divisor) }
         else { u with thr := some v, actTx := false }
  | 1 => if u.dlab then { u with divisor := mkWord (loByte u.divisor) v } else u.writeIer v
  | 3 => { u with lcr := v }
  | 4 => ({ u with mcr := v &&& 0x1F }).noteModem u.modemIn
  | _ => u

end Sys2Proof.Machine
end

