-- ==== Sys2Proof/Machine/Bus.lean ====
section
/-! DEFINITION. The bus: memory accesses with their mask flags, the bus state machine, the prefetch queue, the DMA
byte pump, and the slots in which the other agents act between bus cycles (20_memory.md sections 4 to 6). -/

namespace Sys2Proof.Machine

/-! ### The pins (20_memory.md R92) -/

/-- One bus cycle as the state machine sees it: what it does, where, the byte moved, the wait states asked for. -/
structure BusRequest where
  status  : BusStatus
  address : BitVec 20
  data    : Byte
  wait    : Nat
deriving DecidableEq, Repr

/-- Start of a cycle: T1, the address latched, ALE asserted. -/
def BusPins.start (r : BusRequest) (p : BusPins) : BusPins :=
  { p with tState := .t1, ale := true, address := r.address, inFlight := true }

/-- One clock of the table of R92. `cur` is the cycle under way, `next` the cycle requested after it. -/
def BusPins.clock (cur : BusRequest) (next : Option BusRequest) (p : BusPins) : BusPins :=
  match p.tState with
  | .ti => match next with
    | some r => p.start r
    | none => { p with ale := false }
  | .t1 => { p with tState := .t2, ale := false, status := cur.status }
  | .t2 => { p with tState := .t3, waitCycles := cur.wait }
  | .t3 | .tw =>
    if p.waitCycles > 0 then { p with tState := .tw, waitCycles := p.waitCycles - 1 }
    else { p with tState := .t4, dataBus := cur.data }
  | .t4 => match next with
    | some r => p.start r
    | none => { p with tState := .ti, inFlight := false }

/-- The pins after a whole cycle with no further request: what four clocks and the wait states leave. -/
def BusPins.cycle (r : BusRequest) (p : BusPins) : BusPins :=
  { p with tState := .ti, ale := false, status := r.status, address := r.address, dataBus := r.data,
           waitCycles := 0, inFlight := false }

/-- The pins after a cycle of the board; in such a cycle no byte is taken from the queue, so its operation is Idle
(R98). No device of the block asks for wait states (R106: no value depends on them). -/
def Board.pins (b : Board) (st : BusStatus) (a : Nat) (v : Byte) : Board :=
  { b with bus := b.bus.cycle ⟨st, BitVec.ofNat 20 a, v, 0⟩, queueOp := .idle }

/-! ### Memory through the mask flags (20_memory.md section 4) -/

/-- The free byte of this moment. -/
def Board.drawByte (b : Board) : Byte × Board := (Config.freeByte b.draws, { b with draws := b.draws + 1 })

def Board.emit (b : Board) (e : OutEvent) : Board := { b with events := b.events ++ [e] }

/-- The routing table entry of an address (10_state.md R38): `mmio_table[addr >> 12]`. -/
def Board.mmioEntry (b : Board) (a : Nat) : Option MmioDevice := (b.params.mmioMap.lookup (a / 4096)).join

/-- `MemRead(addr, 1)` (R80, R82): MMIO is tested first; an empty entry is an `MmioError`; the ROM flag does not
matter. -/
def Board.memRead (b : Board) (a : Nat) : Byte × Board :=
  if (Mask.read b.mask a).mmio then
    let r := b.drawByte
    match b.mmioEntry a with
    | some dev => (r.1, r.2.emit (.mmioRead dev a))
    | none => (r.1, r.2.emit (.mmioError a))
  else (Memory.read b.mem a, b)

/-- `MemWrite(addr, 1, v)` (R81, R82). -/
def Board.memWrite (b : Board) (a : Nat) (v : Byte) : Board :=
  if (Mask.read b.mask a).mmio then
    match b.mmioEntry a with
    | some dev => b.emit (.mmioWrite dev a v)
    | none => b.emit (.mmioError a)
  else if (Mask.read b.mask a).rom then b
  else { b with mem := Memory.write b.mem a v }

/-- `peek_u8` (R83): what a read would give, without its side effects. -/
def Board.peek8 (b : Board) (seg off : Word) : Byte := (b.memRead (phys seg off)).1

/-- `peek_u16` (R83): the two bytes that two reads in a row would give. -/
def Board.peek16 (b : Board) (seg off : Word) : Word :=
  let lo := b.memRead (phys seg off)
  mkWord lo.1 (lo.2.peek8 seg (off + 1))

/-! ### The prefetch queue (20_memory.md section 5) -/

/-- The capacity of the queue (10_state.md R31). -/
def queueCap : Nat := 4

/-- `fetch_next()` once it may run (R95): one byte at `Phys(CS, PC)` joins the tail. -/
def Board.fetchNext (cs : Word) (b : Board) : Board :=
  let r := b.memRead (phys cs b.pc)
  ({ r.2 with queue := r.2.queue ++ [r.1], pc := r.2.pc + 1 }).pins .codeFetch (phys cs b.pc) r.1

/-- `fetch_next()` (R95): enabled while the queue has room and no transfer is in flight. -/
def Board.prefetchStep (cs : Word) (b : Board) : Board :=
  if b.queue.length < queueCap && !b.bus.inFlight then b.fetchNext cs else b

/-! ### The serial port on the bus -/

/-- R532: drive the port's interrupt output into the PIC when its level changes (log 17). -/
def Board.driveUart (b : Board) (u : Uart) : Board :=
  let level := u.irqLevel
  let pic :=
    if level && !b.uart.irqOut then b.pic.request b.params.uartIrq
    else if !level && b.uart.irqOut then b.pic.clear b.params.uartIrq
    else b.pic
  { b with uart := { u with irqOut := level }, pic := pic }

/-- The RX step of R531. -/
def Board.uartRx (b : Board) : Board := b.driveUart b.uart.rxStep

/-- The TX step of R531. -/
def Board.uartTx (b : Board) : Board :=
  let r := b.uart.txStep
  let b' := b.driveUart r.2
  match r.1 with
  | some v => b'.emit (.serialByte v)
  | none => b'

/-! ### The DMA byte pump (60_exceptions.md R495, R496) -/

/-- Channel `n` of the controller. -/
def Dma.get (d : Dma) (n : BitVec 2) : DmaChannel :=
  match n.toNat with
  | 0 => d.ch0 | 1 => d.ch1 | 2 => d.ch2 | _ => d.ch3

/-- Replace channel `n`. -/
def Dma.set (d : Dma) (n : BitVec 2) (c : DmaChannel) : Dma :=
  match n.toNat with
  | 0 => { d with ch0 := c } | 1 => { d with ch1 := c } | 2 => { d with ch2 := c } | _ => { d with ch3 := c }

/-- `request_service(n)` (R495): a device asks, and will supply or take the byte. -/
def Dma.requestService (d : Dma) (n : BitVec 2) : Dma := d.set n { d.get n with request := true, soft := false }

/-- The channel `run` serves (R495): by number under fixed priority; under rotating priority the free choice `pick`
among the unmasked requesting channels, or the next of them after it (93_implementation_defined.md section 5). -/
def Dma.choose (d : Dma) (pick : BitVec 2) : Option (BitVec 2) :=
  if d.rotating then
    [pick, pick + 1, pick + 2, pick + 3].find? fun n => (d.get n).request && !(d.get n).masked
  else ([0, 1, 2, 3] : List (BitVec 2)).find? fun n => (d.get n).request

/-- Whether a transfer of the channel does anything (R496): not masked, controller enabled, no live terminal count,
not cascade. -/
def Dma.open (d : Dma) (c : DmaChannel) : Bool := !c.masked && d.enable && !c.tc && c.service != .cascade

/-- The address of the next transfer: of the page only the low four bits matter (R493, R496), or all of it counts and the
address can be out of range (20_memory.md R85; log 22). -/
def DmaChannel.address (c : DmaChannel) : DmaRange → Nat
  | .lowFour => (c.page.toNat * 65536 + c.curAddr.toNat) % memSize
  | .wholePage => c.page.toNat * 65536 + c.curAddr.toNat

/-- A DMA read of memory; out of range it is an error and gives a free byte (R85). -/
def Board.dmaRead (b : Board) (a : Nat) : Byte × Board :=
  if a < memSize then b.memRead a
  else
    let r := b.drawByte
    (r.1, r.2.emit (.readOutOfBounds a))

/-- A DMA write of memory; out of range it is an error and changes nothing (R85). -/
def Board.dmaWrite (b : Board) (a : Nat) (v : Byte) : Board :=
  if a < memSize then b.memWrite a v else b.emit (.writeOutOfBounds a)

/-- Whether a transfer of the channel moves a byte (R492). -/
def DmaXfer.moves : DmaXfer → Bool
  | .writeToMem | .readFromMem => true
  | .verify | .illegal => false

/-- The registers after a transfer (R496). -/
def DmaChannel.advance (c : DmaChannel) : DmaChannel :=
  let next := if c.decrement then c.curAddr - 1 else c.curAddr + 1
  if c.curCount = 0 then
    if c.autoInit then { c with curAddr := c.baseAddr, curCount := c.baseCount, tcLatched := true }
    else { c with curAddr := next, curCount := 0xFFFF, tcLatched := true, tc := true }
  else { c with curAddr := next, curCount := c.curCount - 1 }

/-- `transfer(n, din)` (R496). For a byte that the software request register asked for the spec gives no effect (R498,
93_implementation_defined.md section 7): it is noted, and the step is refused. -/
def Board.dmaTransfer (b : Board) (n : BitVec 2) (din : Byte) : Board :=
  let c := b.dma.get n
  if b.dma.open c then
   if c.soft && c.xfer.moves then { b with undescribed := some .dmaSoftwareRequest }
   else
    let a := c.address b.params.dmaRange
    let b' := match c.xfer with
      | .writeToMem => b.dmaWrite a din
      | .readFromMem =>
        let r := b.dmaRead a
        r.2.emit (.dmaByte n r.1)
      | .verify => b
      | .illegal => b
    { b' with dma := b.dma.set n c.advance }
  else b

/-- One step of the DMA agent, `run` (R495). -/
def Board.dmaRun (b : Board) (pick : BitVec 2) (din : Byte) : Board :=
  match b.dma.choose pick with
  | none => b
  | some n =>
    let b' := b.dmaTransfer n din
    { b' with dma := { b'.dma.set n { b'.dma.get n with request := false, soft := false } with rotation := n } }

/-! ### The floppy engine on the bus -/

/-- The drive of a name. -/
def Board.drive (b : Board) : DriveName → Drive
  | .a => b.driveA
  | .b => b.driveB

/-- Replace a drive. -/
def Board.withDrive (b : Board) (d : DriveName) (v : Drive) : Board :=
  match d with
  | .a => { b with driveA := v }
  | .b => { b with driveB := v }

/-- One step of the floppy engine (60_exceptions.md R510): an operation. When a command completes, the controller raises
its interrupt line (R480, R489, R499; log 40). -/
def Board.runFloppy (b : Board) (d : DriveName) (op : FloppyOp) : Board :=
  match (b.drive d).run op with
  | none => { b with undescribed := some .floppyNoImage }
  | some v =>
    if (b.drive d).starts op then { b.withDrive d v with pic := b.pic.request b.params.fdcIrq } else b.withDrive d v

/-! ### Slots: the other agents between bus cycles -/

/-- One step of another agent. A DMA step is held off during a LOCKed instruction (R103), and, under the coarser
`P_DMA_GRANULE`, anywhere but at an instruction boundary (R101). -/
def Board.runEvent (cs : Word) (boundary : Bool) (b : Board) : BusEvent → Board
  | .prefetch => b.prefetchStep cs
  | .dmaRequest n => { b with dma := b.dma.requestService n }
  | .dmaRun pick din =>
    if b.locked || (b.params.dmaGranule == .instruction && !boundary) then b else b.dmaRun pick din
  | .uartRx => b.uartRx
  | .uartTx => b.uartTx
  | .floppy d op => b.runFloppy d op
  | .requestInterrupt n => { b with pic := b.pic.request n }
  | .clearInterrupt n => { b with pic := b.pic.clear n }

/-- The next slot of the schedule (R7, R95, R101; log 10). -/
def Board.slot (cs : Word) (boundary : Bool) (b : Board) : Board :=
  match b.slots with
  | [] => b
  | evs :: rest => evs.foldl (Board.runEvent cs boundary) { b with slots := rest }

/-! ### Transfers of the CPU -/

/-- `Rd8(seg, off)` (R94): one bus cycle, after a slot. -/
def Board.rd8 (cs : Word) (b : Board) (seg off : Word) : Byte × Board :=
  let r := (b.slot cs false).memRead (phys seg off)
  (r.1, r.2.pins .memRead (phys seg off) r.1)

/-- `Wr8(seg, off, v)` (R94). -/
def Board.wr8 (cs : Word) (b : Board) (seg off : Word) (v : Byte) : Board :=
  ((b.slot cs false).memWrite (phys seg off) v).pins .memWrite (phys seg off) v

/-- `Rd16(seg, off)` (R77, R79): low byte first, the second offset wraps in the segment. -/
def Board.rd16 (cs : Word) (b : Board) (seg off : Word) : Word × Board :=
  let lo := b.rd8 cs seg off
  let hi := lo.2.rd8 cs seg (off + 1)
  (mkWord lo.1 hi.1, hi.2)

/-- `Wr16(seg, off, v)` (R77, R79). -/
def Board.wr16 (cs : Word) (b : Board) (seg off : Word) (v : Word) : Board :=
  (b.wr8 cs seg off (loByte v)).wr8 cs seg (off + 1) (hiByte v)

/-- `queue_read()`, `Fetch8()` (R96), after a slot: an empty queue makes the EU wait for one fetch; `op` is the tag
recorded. -/
def Board.fetch8 (cs : Word) (op : QueueOp) (b : Board) : Byte × Board :=
  let c := b.slot cs false
  let d := match c.queue with
    | [] => c.fetchNext cs
    | _ :: _ => c
  (d.queue.headD 0, { d with queue := d.queue.tail, queueOp := op })

/-- `flush()` (R97): the queue is emptied and PC set. -/
def Board.flush (b : Board) (ip : Word) : Board := { b with queue := [], queueOp := .flush, pc := ip }

end Sys2Proof.Machine
end

