-- ==== Sys2Proof/Machine/Dma.lean ====
section
/-! DEFINITION. The register interface of the DMA controller (60_exceptions.md R491 to R494). -/

namespace Sys2Proof.Machine

/-- Load one byte of a 16-bit register by the flip-flop (R491). -/
def loadHalf (high : Bool) (old : Word) (v : Byte) : Word :=
  if high then mkWord (loByte old) v else mkWord v (hiByte old)

/-- One byte of a 16-bit register by the flip-flop (R491). -/
def pickHalf (high : Bool) (w : Word) : Byte := if high then hiByte w else loByte w

/-- A write of channel `n`'s address port (R491): base and current together; it ends a terminal count (R496). -/
def Dma.writeAddr (d : Dma) (n : BitVec 2) (v : Byte) : Dma :=
  let c := d.get n
  { d.set n { c with baseAddr := loadHalf d.flipflop c.baseAddr v, curAddr := loadHalf d.flipflop c.curAddr v,
                     tc := false } with flipflop := !d.flipflop }

/-- A write of channel `n`'s count port (R491). -/
def Dma.writeCount (d : Dma) (n : BitVec 2) (v : Byte) : Dma :=
  let c := d.get n
  { d.set n { c with baseCount := loadHalf d.flipflop c.baseCount v, curCount := loadHalf d.flipflop c.curCount v,
                     tc := false } with flipflop := !d.flipflop }

/-- Bits 3:2 of the mode byte (R492). -/
def DmaXfer.ofMode (v : Byte) : DmaXfer :=
  match v.toNat / 4 % 4 with
  | 0 => .verify | 1 => .writeToMem | 2 => .readFromMem | _ => .illegal

/-- Bits 7:6 of the mode byte (R492). -/
def DmaService.ofMode (v : Byte) : DmaService :=
  match v.toNat / 64 with
  | 0 => .demand | 1 => .single | 2 => .block | _ => .cascade

/-- A write of the mode register (R492). -/
def Dma.writeMode (d : Dma) (v : Byte) : Dma :=
  let n : BitVec 2 := v.setWidth 2
  let c := d.get n
  d.set n { c with xfer := .ofMode v, service := .ofMode v, autoInit := v.getLsbD 4, decrement := v.getLsbD 5,
                   tc := false }

def Dma.setMask (d : Dma) (n : BitVec 2) (m : Bool) : Dma := d.set n { d.get n with masked := m }

/-- Master clear (R494): as reset; the registers R43 leaves unspecified keep their values (log 36). -/
def Dma.masterClear (d : Dma) : Dma :=
  let clr (c : DmaChannel) : DmaChannel :=
    { c with masked := true, tc := false, tcLatched := false, request := false, soft := false }
  { d with ch0 := clr d.ch0, ch1 := clr d.ch1, ch2 := clr d.ch2, ch3 := clr d.ch3, flipflop := false,
           enable := true, rotating := false }

/-- The software request register (R494): bit 2 sets or clears the channel's request. A request that a device made
(R495) stays the device's. -/
def Dma.softRequest (d : Dma) (n : BitVec 2) (on : Bool) : Dma :=
  let c := d.get n
  d.set n { c with request := on, soft := on && (c.soft || !c.request) }

/-- A write at offset `off` of the controller (R494). -/
def Dma.write (d : Dma) (off : Nat) (v : Byte) : Dma :=
  let n : BitVec 2 := v.setWidth 2
  match off with
  | 0 => d.writeAddr 0 v | 2 => d.writeAddr 1 v | 4 => d.writeAddr 2 v | 6 => d.writeAddr 3 v
  | 1 => d.writeCount 0 v | 3 => d.writeCount 1 v | 5 => d.writeCount 2 v | 7 => d.writeCount 3 v
  | 8 => { d with enable := !v.getLsbD 2, rotating := v.getLsbD 4 }
  | 9 => d.softRequest n (v.getLsbD 2)
  | 10 => d.setMask n (v.getLsbD 2)
  | 11 => d.writeMode v
  | 12 => { d with flipflop := false }
  | 13 => d.masterClear
  | 14 => (((d.setMask 0 false).setMask 1 false).setMask 2 false).setMask 3 false
  | _ => (((d.setMask 0 (v.getLsbD 0)).setMask 1 (v.getLsbD 1)).setMask 2 (v.getLsbD 2)).setMask 3 (v.getLsbD 3)

/-- The status register (R494). -/
def Dma.status (d : Dma) : Byte :=
  bitAt d.ch0.tcLatched 0 ||| bitAt d.ch1.tcLatched 1 ||| bitAt d.ch2.tcLatched 2 ||| bitAt d.ch3.tcLatched 3 |||
    bitAt d.ch0.request 4 ||| bitAt d.ch1.request 5 ||| bitAt d.ch2.request 6 ||| bitAt d.ch3.request 7

/-- Reading the status clears the latched terminal counts (R494). -/
def Dma.clearLatched (d : Dma) : Dma :=
  let clr (c : DmaChannel) : DmaChannel := { c with tcLatched := false }
  { d with ch0 := clr d.ch0, ch1 := clr d.ch1, ch2 := clr d.ch2, ch3 := clr d.ch3 }

/-- A read at offset `off` of the controller (R491, R494); `none` where the table says undefined. -/
def Dma.read (d : Dma) (off : Nat) : Option Byte × Dma :=
  let toggled := { d with flipflop := !d.flipflop }
  match off with
  | 0 => (some (pickHalf d.flipflop d.ch0.curAddr), toggled)
  | 2 => (some (pickHalf d.flipflop d.ch1.curAddr), toggled)
  | 4 => (some (pickHalf d.flipflop d.ch2.curAddr), toggled)
  | 6 => (some (pickHalf d.flipflop d.ch3.curAddr), toggled)
  | 1 => (some (pickHalf d.flipflop d.ch0.curCount), toggled)
  | 3 => (some (pickHalf d.flipflop d.ch1.curCount), toggled)
  | 5 => (some (pickHalf d.flipflop d.ch2.curCount), toggled)
  | 7 => (some (pickHalf d.flipflop d.ch3.curCount), toggled)
  | 8 => (some d.status, d.clearLatched)
  | _ => (none, d)

/-- A write of a page register (R493). -/
def Dma.writePage (d : Dma) (n : BitVec 2) (v : Byte) : Dma := d.set n { d.get n with page := v }

end Sys2Proof.Machine
end

