-- ==== Sys2Proof/Machine/PortIo.lean ====
section
/-! DEFINITION. The I/O space: which device owns a port, and the byte accesses (20_memory.md R72, R84). -/

namespace Sys2Proof.Machine

/-- The register at a port. -/
inductive PortOwner where
  | picCommand
  | picData
  | dma (off : Nat)
  | dmaPage (ch : BitVec 2)
  | floppy
  | uart (off : Nat)
  | shared
  | unregistered
deriving DecidableEq, Repr

/-- Every registration of a port (R72), in order: PIC, DMA, page registers, floppy controller, UART. -/
def Params.registrations (p : Params) : List Word :=
  [p.picBase, p.picBase + 1] ++ (List.range 16).map (fun k => p.dmaBase + BitVec.ofNat 16 k) ++
    [p.dmaPage0, p.dmaPage1, p.dmaPage2, p.dmaPage3] ++ p.fdcPorts.map (fun k => p.fdcBase + BitVec.ofNat 16 k) ++
    (List.range 8).map (fun k => p.uartBase + BitVec.ofNat 16 k)

/-- The members of a list that come again later in it. -/
def repeated : List Word → List Word
  | [] => []
  | p :: rest => if rest.contains p then p :: repeated rest else repeated rest

/-- The ports that are registered again, which must be logged (60_exceptions.md R548). -/
def Params.collisions (p : Params) : List Word := repeated (Params.registrations p)

/-- The last registration of a port under `P_PORT_MAP` (R72). Registration order: PIC, DMA, page registers, floppy
controller, UART. -/
def Params.lastOwner (p : Params) (port : Word) : PortOwner :=
  if (port - p.uartBase).toNat < 8 then .uart (port - p.uartBase).toNat
  else if p.fdcPorts.any (fun k => port == p.fdcBase + BitVec.ofNat 16 k) then .floppy
  else if port = p.dmaPage3 then .dmaPage 3
  else if port = p.dmaPage2 then .dmaPage 2
  else if port = p.dmaPage1 then .dmaPage 1
  else if port = p.dmaPage0 then .dmaPage 0
  else if (port - p.dmaBase).toNat < 16 then .dma (port - p.dmaBase).toNat
  else if port = p.picBase + 1 then .picData
  else if port = p.picBase then .picCommand
  else .unregistered

/-- The owner of a port. Of a port registered more than once 93_implementation_defined.md section 3 refuses the use;
R548's last registration wins under the other value of the parameter (log 33). -/
def Params.owner (p : Params) (port : Word) : PortOwner :=
  if p.portClash = .refuse ∧ 1 < (Params.registrations p).count port then .shared else Params.lastOwner p port

/-- Why an access to a port has no meaning, where it has none: two devices share the port (93_implementation_defined.md
section 3); else it is the floppy controller's (R522). -/
def Params.portRefusal (p : Params) (port : Word) : Refusal :=
  if Params.owner p port = .shared then .sharedPort port else .floppyRegisterInterface port

/-- The effect of a byte read of a port on its device; `none` where the spec gives none (`Params.portRefusal`).
Registers without a stated value, write-only registers and unregistered ports give a free byte (R84, R494). -/
def Board.deviceRead (b : Board) (port : Word) : Option (Byte × Board) :=
  match Params.owner b.params port with
  | .picCommand => some (b.pic.readCommand, b)
  | .picData => some (b.pic.imr, b)
  | .dma off =>
    let r := b.dma.read off
    match r.1 with
    | some v => some (v, { b with dma := r.2 })
    | none => some b.drawByte
  | .dmaPage _ => some b.drawByte
  | .floppy | .shared => none
  | .uart off =>
    if off = 7 then some b.drawByte
    else
      let r := b.uart.read off
      some (r.1, b.driveUart r.2)
  | .unregistered => some b.drawByte

/-- The effect of a byte write of a port on its device; `none` where the spec gives none (`Params.portRefusal`). -/
def Board.deviceWrite (b : Board) (port : Word) (v : Byte) : Option Board :=
  match Params.owner b.params port with
  | .picCommand => some { b with pic := b.pic.writeCommand v }
  | .picData => some { b with pic := b.pic.writeData v }
  | .dma off => some { b with dma := b.dma.write off v }
  | .dmaPage n => some { b with dma := b.dma.writePage n v }
  | .floppy | .shared => none
  | .uart off => some (b.driveUart (b.uart.write off v))
  | .unregistered => some b

/-- `IoRead(port, 1)` (R84): one bus cycle, after a slot. DESIGN CHOICE (log 26): the address latched on the pins is the
port, zero-extended. -/
def Board.ioRead (cs : Word) (b : Board) (port : Word) : Option (Byte × Board) :=
  match (b.slot cs false).deviceRead port with
  | some r => some (r.1, r.2.pins .ioRead port.toNat r.1)
  | none => none

/-- `IoWrite(port, 1, v)` (R84); the pins as for `ioRead`. -/
def Board.ioWrite (cs : Word) (b : Board) (port : Word) (v : Byte) : Option Board :=
  match (b.slot cs false).deviceWrite port v with
  | some b' => some (b'.pins .ioWrite port.toNat v)
  | none => none

end Sys2Proof.Machine
end

