-- ==== Sys2Proof/Machine/Ops.lean ====
section
/-! DEFINITION. The named operations of the CPU: registers, memory through the bus, the stack, control transfer,
interrupt entry and return, free values. -/

namespace Sys2Proof.Machine

/-- The outcome of a meaning. -/
abbrev Out := Host.Outcome State Fault Refusal

/-! ### Registers (10_state.md sections 1, 2) -/

/-- `r16[i]` (R21). -/
def Regs.get (r : Regs) : GReg → Word
  | .ax => r.ax | .cx => r.cx | .dx => r.dx | .bx => r.bx
  | .sp => r.sp | .bp => r.bp | .si => r.si | .di => r.di

/-- `r16[i] <- v` (R21). -/
def Regs.set (r : Regs) (g : GReg) (v : Word) : Regs :=
  match g with
  | .ax => { r with ax := v } | .cx => { r with cx := v } | .dx => { r with dx := v } | .bx => { r with bx := v }
  | .sp => { r with sp := v } | .bp => { r with bp := v } | .si => { r with si := v } | .di => { r with di := v }

/-- The 16-bit register that holds byte register `i`, and whether it is the high half (R22). -/
def byteHome : GReg → GReg × Bool
  | .ax => (.ax, false) | .cx => (.cx, false) | .dx => (.dx, false) | .bx => (.bx, false)
  | .sp => (.ax, true) | .bp => (.cx, true) | .si => (.dx, true) | .di => (.bx, true)

/-- `r8[i]` (R22): AL CL DL BL AH CH DH BH. -/
def Regs.get8 (r : Regs) (g : GReg) : Byte :=
  let h := byteHome g
  if h.2 then hiByte (r.get h.1) else loByte (r.get h.1)

/-- `r8[i] <- v` (R23): the other half is kept. -/
def Regs.set8 (r : Regs) (g : GReg) (v : Byte) : Regs :=
  let h := byteHome g
  r.set h.1 (if h.2 then mkWord (loByte (r.get h.1)) v else mkWord v (hiByte (r.get h.1)))

/-- `sreg[i]` (R24). -/
def Sregs.get (r : Sregs) : SReg → Word
  | .es => r.es | .cs => r.cs | .ss => r.ss | .ds => r.ds

/-- `sreg[i] <- v` (R24). -/
def Sregs.set (r : Sregs) (g : SReg) (v : Word) : Sregs :=
  match g with
  | .es => { r with es := v } | .cs => { r with cs := v } | .ss => { r with ss := v } | .ds => { r with ds := v }

namespace State

/-- Read a 16-bit register. -/
def reg16 (s : State) (g : GReg) : Word := s.cpu.regs.get g

/-- Write a 16-bit register. -/
def setReg16 (s : State) (g : GReg) (v : Word) : State := { s with cpu := { s.cpu with regs := s.cpu.regs.set g v } }

/-- Read an 8-bit register. -/
def reg8 (s : State) (g : GReg) : Byte := s.cpu.regs.get8 g

/-- Write an 8-bit register. -/
def setReg8 (s : State) (g : GReg) (v : Byte) : State := { s with cpu := { s.cpu with regs := s.cpu.regs.set8 g v } }

/-- `reg_w[i]`. -/
def reg (s : State) (w : Width) (g : GReg) : BitVec w.bits :=
  match w with
  | .byte => s.reg8 g
  | .word => s.reg16 g

/-- `reg_w[i] <- v`. -/
def setReg (s : State) (w : Width) (g : GReg) (v : BitVec w.bits) : State :=
  match w, v with
  | .byte, v => s.setReg8 g v
  | .word, v => s.setReg16 g v

/-- Read a segment register. -/
def sreg (s : State) (r : SReg) : Word := s.cpu.sregs.get r

/-- Write a segment register. The queue is not flushed, CS included (46_processor_control.md R405, R415). -/
def setSreg (s : State) (r : SReg) (v : Word) : State := { s with cpu := { s.cpu with sregs := s.cpu.sregs.set r v } }

def setFlags (s : State) (f : Flags) : State := { s with cpu := { s.cpu with flags := f } }

def setBoard (s : State) (b : Board) : State := { s with board := b }

/-! ### Instruction pointer (10_state.md section 3) -/

/-- `PC − queue_len` (R26): while an instruction executes, `IP_next` (45_control_transfer.md R340). -/
def ipNext (s : State) : Word := s.board.pc - BitVec.ofNat 16 s.board.queue.length

/-- The architectural IP at a boundary (R25, R26): `last_ip` while a repeat is suspended. -/
def ip (s : State) : Word := if s.cpu.inRep then s.cpu.lastIp else s.ipNext

/-! ### Memory (00_scope.md section 7) -/

/-- `Rd8(seg, off)`. -/
def rd8 (s : State) (seg off : Word) : Byte × State :=
  let r := s.board.rd8 s.cpu.sregs.cs seg off
  (r.1, s.setBoard r.2)

/-- `Wr8(seg, off, v)`. -/
def wr8 (s : State) (seg off : Word) (v : Byte) : State := s.setBoard (s.board.wr8 s.cpu.sregs.cs seg off v)

/-- `Rd16(seg, off)`. -/
def rd16 (s : State) (seg off : Word) : Word × State :=
  let r := s.board.rd16 s.cpu.sregs.cs seg off
  (r.1, s.setBoard r.2)

/-- `Wr16(seg, off, v)`. -/
def wr16 (s : State) (seg off : Word) (v : Word) : State := s.setBoard (s.board.wr16 s.cpu.sregs.cs seg off v)

/-- `RdN(seg, off)`. -/
def rd (s : State) (w : Width) (seg off : Word) : BitVec w.bits × State :=
  match w with
  | .byte => s.rd8 seg off
  | .word => s.rd16 seg off

/-- `WrN(seg, off, v)`. -/
def wr (s : State) (w : Width) (seg off : Word) (v : BitVec w.bits) : State :=
  match w, v with
  | .byte, v => s.wr8 seg off v
  | .word, v => s.wr16 seg off v

/-- `Fetch8()`. -/
def fetch8 (s : State) (op : QueueOp) : Byte × State :=
  let r := s.board.fetch8 s.cpu.sregs.cs op
  (r.1, s.setBoard r.2)

/-! ### The stack (43_data_transfer.md R280) -/

/-- `Push16(v)`. -/
def push16 (s : State) (v : Word) : State :=
  let s' := s.setReg16 .sp (s.reg16 .sp - 2)
  s'.wr16 (s'.sreg .ss) (s'.reg16 .sp) v

/-- `Pop16()`. -/
def pop16 (s : State) : Word × State :=
  let r := s.rd16 (s.sreg .ss) (s.reg16 .sp)
  (r.1, r.2.setReg16 .sp (r.2.reg16 .sp + 2))

/-! ### Control transfer (20_memory.md R97, 45_control_transfer.md R340) -/

def setResult (s : State) (r : ResultTag) : State := { s with cpu := { s.cpu with result := r } }

/-- `JumpNear(ip')` without the result tag. -/
def flushTo (s : State) (ip : Word) : State := s.setBoard (s.board.flush ip)

/-- `JumpNear(ip')`: a taken transfer. -/
def jumpNear (s : State) (ip : Word) : State := (s.flushTo ip).setResult .okayJump

/-- `Jump(cs', ip')`: a taken far transfer. -/
def jumpFar (s : State) (cs ip : Word) : State := (s.setSreg .cs cs).jumpNear ip

/-! ### Free values (10_state.md R30) -/

/-- The k-th free bit of this moment. -/
def freeBit (s : State) (k : Nat) : Bool := Config.freeBit (s.board.draws + k)

/-- Use up `k` free bits. -/
def spend (s : State) (k : Nat) : State := { s with board := { s.board with draws := s.board.draws + k } }

end State

/-! ### FLAGS as a word (10_state.md R27, R28) -/

/-- The 16-bit image of FLAGS: bits 15 to 12 and bit 1 read 1, bits 5 and 3 read 0. -/
def Flags.word (f : Flags) : Word :=
  0xF002#16 ||| (if f.cf then 0x1#16 else 0) ||| (if f.pf then 0x4#16 else 0) ||| (if f.af then 0x10#16 else 0) |||
    (if f.zf then 0x40#16 else 0) ||| (if f.sf then 0x80#16 else 0) ||| (if f.tf then 0x100#16 else 0) |||
    (if f.intf then 0x200#16 else 0) ||| (if f.df then 0x400#16 else 0) ||| (if f.ovf then 0x800#16 else 0)

/-- The nine flags of a word; the other bits are ignored (43_data_transfer.md R288). -/
def Flags.ofWord (w : Word) : Flags :=
  { cf := w.getLsbD 0, pf := w.getLsbD 2, af := w.getLsbD 4, zf := w.getLsbD 6, sf := w.getLsbD 7,
    tf := w.getLsbD 8, intf := w.getLsbD 9, df := w.getLsbD 10, ovf := w.getLsbD 11 }

namespace State

/-! ### Interrupt entry and return (60_exceptions.md R440, R443) -/

/-- `enter(n, ret_ip)` (R440): FLAGS, CS, IP are pushed, IF and TF cleared, the vector read from segment 0, and
control goes there; a repeat or a halt ends. The result tag is the caller's. -/
def enter (s : State) (n : Byte) (ret : Word) : State :=
  let s1 := ((s.push16 s.cpu.flags.word).push16 (s.sreg .cs)).push16 ret
  let s2 := s1.setFlags { s1.cpu.flags with intf := false, tf := false }
  let off := s2.rd16 0 (4 * n.setWidth 16)
  let seg := off.2.rd16 0 (4 * n.setWidth 16 + 2)
  let s3 := (seg.2.setSreg .cs seg.1).flushTo off.1
  { s3 with cpu := { s3.cpu with inRep := false, halted := false, decoded := none } }

/-- An architectural exception or software interrupt of an instruction, turned into its entry (R453). -/
def raise (s : State) (n : Byte) (ret : Word) : State := (s.enter n ret).setResult .okayJump

/-- `DivideFault()` (41_muldiv_bcd.md R230): pushes `last_ip`, or the next offset under `P_DIV_FAULT_IP = next`. -/
def divideFault (s : State) : State :=
  s.raise 0 (match s.board.params.divFaultIp with
    | .faulting => s.cpu.lastIp
    | .next => s.ipNext)

/-- IRET (45_control_transfer.md R378): IP, CS, FLAGS are popped in that order. -/
def iret (s : State) : State :=
  let ip := s.pop16
  let cs := ip.2.pop16
  let w := cs.2.pop16
  (w.2.setFlags (.ofWord w.1)).jumpFar cs.1 ip.1

/-- `int_inhibit <- 1` when `P_INT_INHIBIT` holds (60_exceptions.md R451). -/
def inhibit (s : State) : State :=
  if s.board.params.intInhibit then { s with cpu := { s.cpu with intInhibit := true } } else s

/-- The state in which a fault leaves the machine (00_scope.md R9): `is_error`, its kind and address. -/
def withError (s : State) (f : Fault) : State := { s with cpu := { s.cpu with error := some f } }

/-- `Phys(last_cs, last_ip)`. -/
def lastAddr (s : State) : Nat := phys s.cpu.lastCs s.cpu.lastIp

/-- A fault in this state: where something without a described effect has happened in the step, the step has no meaning
and so no fault either. -/
def fail (s : State) (f : Fault) : Out :=
  match s.board.undescribed with
  | none => .fault f
  | some r => .refused r

end State

end Sys2Proof.Machine
end

