-- ==== Sys2Proof/Machine/Flags.lean ====
section
/-! DEFINITION. Every flag computation of the spec: the ALU primitives (40_alu.md R180 to R182), the shift steps
(42_shift_rotate.md) and the conditions of the conditional jumps (45_control_transfer.md R354). -/

namespace Sys2Proof.Machine

/-- `even_parity(b)` (00_scope.md section 7). -/
def evenParity (b : Byte) : Bool :=
  !(b.getLsbD 0 ^^ b.getLsbD 1 ^^ b.getLsbD 2 ^^ b.getLsbD 3 ^^ b.getLsbD 4 ^^ b.getLsbD 5 ^^ b.getLsbD 6 ^^ b.getLsbD 7)

/-- `SZP_N(r)` (00_scope.md section 7). -/
def Flags.szp {n : Nat} (f : Flags) (r : BitVec n) : Flags :=
  { f with sf := r.msb, zf := r == 0, pf := evenParity (r.setWidth 8) }

/-- `add_N(a, b, cin)` (R180): the result and the flags. -/
def addN {n : Nat} (f : Flags) (a b : BitVec n) (cin : Bool) : BitVec n × Flags :=
  let full := a.toNat + b.toNat + cin.toNat
  let r := BitVec.ofNat n full
  (r, { f.szp r with
        cf := decide (2 ^ n ≤ full),
        af := decide (16 ≤ a.toNat % 16 + b.toNat % 16 + cin.toNat),
        ovf := a.msb == b.msb && r.msb != a.msb })

/-- `sub_N(a, b, bin)` (R181). -/
def subN {n : Nat} (f : Flags) (a b : BitVec n) (bin : Bool) : BitVec n × Flags :=
  let r := a - b - BitVec.ofNat n bin.toNat
  (r, { f.szp r with
        cf := decide (a.toNat < b.toNat + bin.toNat),
        af := decide (a.toNat % 16 < b.toNat % 16 + bin.toNat),
        ovf := a.msb != b.msb && r.msb != a.msb })

/-- `logic_N(r)` (R182); `af` is the free bit of the moment. -/
def logicN {n : Nat} (f : Flags) (r : BitVec n) (af : Bool) : Flags :=
  { f.szp r with cf := false, ovf := false, af := af }

/-- INC (R190): `add_N` of 1 with CF kept. -/
def incN {n : Nat} (f : Flags) (a : BitVec n) : BitVec n × Flags :=
  let r := addN f a 1 false
  (r.1, { r.2 with cf := f.cf })

/-- DEC (R191): `sub_N` of 1 with CF kept. -/
def decN {n : Nat} (f : Flags) (a : BitVec n) : BitVec n × Flags :=
  let r := subN f a 1 false
  (r.1, { r.2 with cf := f.cf })

/-! ### The single-bit steps of shifts and rotates -/

/-- R251. -/
def rolStep {n : Nat} (p : BitVec n × Bool) : BitVec n × Bool :=
  ((p.1 <<< 1) ||| (BitVec.ofBool p.1.msb).setWidth n, p.1.msb)

/-- R252. -/
def rorStep {n : Nat} (p : BitVec n × Bool) : BitVec n × Bool :=
  ((p.1 >>> 1) ||| ((BitVec.ofBool (p.1.getLsbD 0)).setWidth n <<< (n - 1)), p.1.getLsbD 0)

/-- R253. -/
def rclStep {n : Nat} (p : BitVec n × Bool) : BitVec n × Bool :=
  ((p.1 <<< 1) ||| (BitVec.ofBool p.2).setWidth n, p.1.msb)

/-- R254. -/
def rcrStep {n : Nat} (p : BitVec n × Bool) : BitVec n × Bool :=
  ((p.1 >>> 1) ||| ((BitVec.ofBool p.2).setWidth n <<< (n - 1)), p.1.getLsbD 0)

/-- R255. -/
def shlStep {n : Nat} (p : BitVec n × Bool) : BitVec n × Bool := (p.1 <<< 1, p.1.msb)

/-- R256. -/
def shrStep {n : Nat} (p : BitVec n × Bool) : BitVec n × Bool := (p.1 >>> 1, p.1.getLsbD 0)

/-- R257. -/
def sarStep {n : Nat} (p : BitVec n × Bool) : BitVec n × Bool := (p.1.sshiftRight 1, p.1.getLsbD 0)

/-- Bit `N-2`. -/
def secondMsb {n : Nat} (r : BitVec n) : Bool := r.getLsbD (n - 2)

/-- OF of a left shift or rotate by one (R251, R253, R255): new MSB differs from new CF. -/
def ovfLeft {n : Nat} (r : BitVec n) (cf : Bool) : Bool := r.msb ^^ cf

/-- OF of ROR and RCR by one (R252, R254): the two top bits of the result differ. -/
def ovfRight {n : Nat} (r : BitVec n) : Bool := r.msb ^^ secondMsb r

/-- The flags of a rotate with a count above zero (R259): CF and OF only; `free` fills OF when the count is not 1. -/
def Flags.rotated (f : Flags) (count : Nat) (cf ovf free : Bool) : Flags :=
  { f with cf := cf, ovf := if count = 1 then ovf else free }

/-- The flags of a shift with a count above zero (R259): `freeAf` fills AF, `free` fills OF when the count is
not 1. -/
def Flags.shifted {n : Nat} (f : Flags) (r : BitVec n) (count : Nat) (cf ovf free freeAf : Bool) : Flags :=
  { f.szp r with cf := cf, ovf := if count = 1 then ovf else free, af := freeAf }

/-! ### Conditions (R354) -/

/-- JB. -/
def Flags.below (f : Flags) : Bool := f.cf
/-- JBE. -/
def Flags.belowEq (f : Flags) : Bool := f.cf || f.zf
/-- JL. -/
def Flags.less (f : Flags) : Bool := f.sf != f.ovf
/-- JLE. -/
def Flags.lessEq (f : Flags) : Bool := f.zf || f.sf != f.ovf

/-- LAHF's image, bits 7:0 of FLAGS (43_data_transfer.md R296). -/
def Flags.lowByte (f : Flags) : Byte := loByte f.word

/-- SAHF (R297). -/
def Flags.setLow (f : Flags) (b : Byte) : Flags :=
  { f with sf := b.getLsbD 7, zf := b.getLsbD 6, af := b.getLsbD 4, pf := b.getLsbD 2, cf := b.getLsbD 0 }

end Sys2Proof.Machine
end

