-- ==== Sys2Proof/Machine/Operands.lean ====
section
/-! DEFINITION. Operands: effective addresses (30_encoding.md R140 to R143), reading and writing `E` and the other
operand kinds (R134, R139). -/

namespace Sys2Proof

/-- The base and index registers of a mode (R140). -/
def Base.sum (b : Base) (r : Machine.Regs) : Word :=
  match b with
  | .bxsi => r.bx + r.si | .bxdi => r.bx + r.di | .bpsi => r.bp + r.si | .bpdi => r.bp + r.di
  | .si => r.si | .di => r.di | .bp => r.bp | .bx => r.bx

/-- The default segment of a mode (R141): SS for the modes that use BP. -/
def Base.seg : Base → SReg
  | .bpsi | .bpdi | .bp => .ss
  | .bxsi | .bxdi | .si | .di | .bx => .ds

/-- EA (R140): 16-bit wrap-around; `d8` is sign-extended. -/
def Mem.ea (m : Mem) (r : Machine.Regs) : Word :=
  match m with
  | .direct d => d
  | .noDisp b => b.sum r
  | .disp8 b d => b.sum r + sext16 d
  | .disp16 b d => b.sum r + d

/-- The default segment register of a memory operand (R141). -/
def Mem.seg : Mem → SReg
  | .direct _ => .ds
  | .noDisp b | .disp8 b _ | .disp16 b _ => b.seg

end Sys2Proof

namespace Sys2Proof.Machine

/-- A resolved operand: where it is read and written. -/
inductive Place where
  | reg (g : GReg)
  | mem (seg off : Word)
  | imm (v : Word)
deriving DecidableEq, Repr

/-- An operand descriptor (R134). -/
inductive Operand where
  | rm (e : RM)
  | reg (g : GReg)
  | imm8 (i : Byte)
  | imm16 (i : Word)
  | imm8s (i : Byte)
deriving DecidableEq, Repr

namespace State

/-- The segment value of a memory operand with default `d` (R142): the override prefix wins. -/
def segFor (s : State) (d : SReg) : Word := s.sreg (s.cpu.pfx.seg.getD d)

/-- `EASEG` of a memory operand (R141, R142). -/
def easeg (s : State) (m : Mem) : Word := s.segFor m.seg

/-- `EA` of a memory operand (R140). -/
def ea (s : State) (m : Mem) : Word := m.ea s.cpu.regs

/-- The place of an operand. -/
def place (s : State) : Operand → Place
  | .rm (.reg g) => .reg g
  | .rm (.mem m) => .mem (s.easeg m) (s.ea m)
  | .reg g => .reg g
  | .imm8 i => .imm (i.setWidth 16)
  | .imm16 i => .imm i
  | .imm8s i => .imm (sext16 i)

/-- The state once the operand is located: a memory operand leaves its EA in `last_ea` (R143). -/
def touch (s : State) : Operand → State
  | .rm (.mem m) => { s with cpu := { s.cpu with lastEa := s.ea m } }
  | .rm (.reg _) | .reg _ | .imm8 _ | .imm16 _ | .imm8s _ => s

/-- `ReadE()` and the reads of the other kinds (R139). -/
def readPlace (s : State) (w : Width) : Place → BitVec w.bits × State
  | .reg g => (s.reg w g, s)
  | .mem seg off => s.rd w seg off
  | .imm v => (v.setWidth w.bits, s)

/-- `WriteE(v)` (R139). An immediate is never a destination. -/
def writePlace (s : State) (w : Width) (p : Place) (v : BitVec w.bits) : State :=
  match p with
  | .reg g => s.setReg w g v
  | .mem seg off => s.wr w seg off v
  | .imm _ => s

end State

end Sys2Proof.Machine

namespace Sys2Proof

/-! ### The operands of the ALU forms (40_alu.md R184, R196) -/

def AluForm.width : AluForm → Width
  | .rmReg w _ _ | .regRm w _ _ => w
  | .accImm8 _ | .rmImm8 _ _ | .rmImm8Alias _ _ => .byte
  | .accImm16 _ | .rmImm16 _ _ | .rmImm8Sext _ _ => .word

def AluForm.dst : AluForm → Machine.Operand
  | .rmReg _ e _ => .rm e
  | .regRm _ g _ => .reg g
  | .accImm8 _ | .accImm16 _ => .reg .ax
  | .rmImm8 e _ | .rmImm16 e _ | .rmImm8Alias e _ | .rmImm8Sext e _ => .rm e

def AluForm.src : AluForm → Machine.Operand
  | .rmReg _ _ g => .reg g
  | .regRm _ _ e => .rm e
  | .accImm8 i | .rmImm8 _ i | .rmImm8Alias _ i => .imm8 i
  | .accImm16 i | .rmImm16 _ i => .imm16 i
  | .rmImm8Sext _ i => .imm8s i

def TestForm.width : TestForm → Width
  | .rmReg w _ _ => w
  | .accImm8 _ | .rmImm8 _ _ | .rmImm8Alias _ _ => .byte
  | .accImm16 _ | .rmImm16 _ _ | .rmImm16Alias _ _ => .word

def TestForm.dst : TestForm → Machine.Operand
  | .rmReg _ e _ => .rm e
  | .accImm8 _ | .accImm16 _ => .reg .ax
  | .rmImm8 e _ | .rmImm16 e _ | .rmImm8Alias e _ | .rmImm16Alias e _ => .rm e

def TestForm.src : TestForm → Machine.Operand
  | .rmReg _ _ g => .reg g
  | .accImm8 i | .rmImm8 _ i | .rmImm8Alias _ i => .imm8 i
  | .accImm16 i | .rmImm16 _ i | .rmImm16Alias _ i => .imm16 i

end Sys2Proof

namespace Sys2Proof.Machine

/-! ### Shapes of execution -/

namespace State

/-- The operand that was read before the immediate bytes were taken (30_encoding.md R144), or else a read now. -/
def readLoaded (s : State) (w : Width) (p : Place) : BitVec w.bits × State :=
  match s.cpu.loaded with
  | some v => (v.setWidth w.bits, s)
  | none => s.readPlace w p

/-- The operands of a two-operand instruction: the value of `dst`, the value of `src`, and the state after both
reads (at most one of them is in memory). -/
def fetchPair (s : State) (w : Width) (dst src : Operand) : BitVec w.bits × BitVec w.bits × State :=
  let s1 := (s.touch dst).touch src
  let a := s1.readLoaded w (s.place dst)
  let b := a.2.readPlace w (s.place src)
  (a.1, b.1, b.2)

/-- A two-operand instruction that writes its destination (R184): both operands are read, then `dst` is written. -/
def binary (s : State) (w : Width) (dst src : Operand)
    (f : Flags → BitVec w.bits → BitVec w.bits → BitVec w.bits × Flags) : State :=
  let p := s.fetchPair w dst src
  let r := f p.2.2.cpu.flags p.1 p.2.1
  (p.2.2.writePlace w (s.place dst) r.1).setFlags r.2

/-- A two-operand instruction that writes only flags. -/
def compare (s : State) (w : Width) (dst src : Operand)
    (f : Flags → BitVec w.bits → BitVec w.bits → BitVec w.bits × Flags) : State :=
  let p := s.fetchPair w dst src
  p.2.2.setFlags (f p.2.2.cpu.flags p.1 p.2.1).2

/-- A one-operand instruction that reads and writes `E` once each at the same place (R139). -/
def unary (s : State) (w : Width) (o : Operand) (f : Flags → BitVec w.bits → BitVec w.bits × Flags) : State :=
  let a := (s.touch o).readPlace w (s.place o)
  let r := f a.2.cpu.flags a.1
  (a.2.writePlace w (s.place o) r.1).setFlags r.2

end State

end Sys2Proof.Machine
end

