-- ==== Sys2Proof/Machine/Alu.lean ====
section
/-! DEFINITION. ADD ADC SUB SBB CMP INC DEC NEG AND OR XOR TEST NOT (spec/40_alu.md). -/

namespace Sys2Proof.Machine

/-- AND, OR, XOR: the result and the flags of R182, AF filled with `af`. -/
def logicOp {n : Nat} (g : BitVec n → BitVec n → BitVec n) (af : Bool) (f : Flags) (a b : BitVec n) :
    BitVec n × Flags :=
  (g a b, logicN f (g a b) af)

/-- R185. -/
def execAdd (f : AluForm) (s : State) : Out :=
  .next (s.binary f.width f.dst f.src fun fl a b => addN fl a b false)

/-- R186. -/
def execAdc (f : AluForm) (s : State) : Out :=
  .next (s.binary f.width f.dst f.src fun fl a b => addN fl a b fl.cf)

/-- R187. -/
def execSub (f : AluForm) (s : State) : Out :=
  .next (s.binary f.width f.dst f.src fun fl a b => subN fl a b false)

/-- R188. -/
def execSbb (f : AluForm) (s : State) : Out :=
  .next (s.binary f.width f.dst f.src fun fl a b => subN fl a b fl.cf)

/-- R189: as SUB, the result discarded. -/
def execCmp (f : AluForm) (s : State) : Out :=
  .next (s.compare f.width f.dst f.src fun fl a b => subN fl a b false)

/-- R193. -/
def execAnd (f : AluForm) (s : State) : Out :=
  .next ((s.binary f.width f.dst f.src (logicOp (· &&& ·) (s.freeBit 0))).spend 1)

/-- R194. -/
def execOr (f : AluForm) (s : State) : Out :=
  .next ((s.binary f.width f.dst f.src (logicOp (· ||| ·) (s.freeBit 0))).spend 1)

/-- R195. -/
def execXor (f : AluForm) (s : State) : Out :=
  .next ((s.binary f.width f.dst f.src (logicOp (· ^^^ ·) (s.freeBit 0))).spend 1)

/-- R196: as AND, the result discarded. -/
def execTest (f : TestForm) (s : State) : Out :=
  .next ((s.compare f.width f.dst f.src (logicOp (· &&& ·) (s.freeBit 0))).spend 1)

/-- R190, `40+r`. -/
def execIncReg (g : GReg) (s : State) : Out := .next (s.unary .word (.reg g) fun fl a => incN fl a)

/-- R190, `FE /0`, `FF /0`. -/
def execIncRm (w : Width) (e : RM) (s : State) : Out := .next (s.unary w (.rm e) fun fl a => incN fl a)

/-- R191, `48+r`. -/
def execDecReg (g : GReg) (s : State) : Out := .next (s.unary .word (.reg g) fun fl a => decN fl a)

/-- R191, `FE /1`, `FF /1`. -/
def execDecRm (w : Width) (e : RM) (s : State) : Out := .next (s.unary w (.rm e) fun fl a => decN fl a)

/-- R192: `0 − E`. -/
def execNeg (w : Width) (e : RM) (s : State) : Out := .next (s.unary w (.rm e) fun fl a => subN fl 0 a false)

/-- R197: no flag changes. -/
def execNot (w : Width) (e : RM) (s : State) : Out := .next (s.unary w (.rm e) fun fl a => (~~~ a, fl))

end Sys2Proof.Machine
end

