-- ==== Sys2Proof/Machine/Bcd.lean ====
section
/-! DEFINITION. DAA DAS AAA AAS AAM AAD (spec/41_muldiv_bcd.md section 4). -/

namespace Sys2Proof.Machine

/-- Whether the low digit needs adjusting (R241 to R244). -/
def lowAdjust (i : BcdIn) : Bool := decide (9 < i.al.toNat % 16) || i.af

/-- Whether the high digit needs adjusting (R241, R242): both tests use the old AL and CF. -/
def highAdjust (i : BcdIn) : Bool := decide (0x99 < i.al.toNat) || i.cf

/-- R241 to R246 as written. AAM with base 0 does not come here. -/
def bcdWritten (op : BcdOp) (i : BcdIn) : BcdOut :=
  match op with
  | .daa =>
    let al1 := if lowAdjust i then i.al + 6 else i.al
    ⟨if highAdjust i then al1 + 0x60 else al1, i.ah, lowAdjust i, highAdjust i⟩
  | .das =>
    let al1 := if lowAdjust i then i.al - 6 else i.al
    ⟨if highAdjust i then al1 - 0x60 else al1, i.ah, lowAdjust i, highAdjust i⟩
  | .aaa =>
    if lowAdjust i then ⟨(i.al + 6) &&& 0x0F, i.ah + 1, true, true⟩ else ⟨i.al &&& 0x0F, i.ah, false, false⟩
  | .aas =>
    if lowAdjust i then ⟨(i.al - 6) &&& 0x0F, i.ah - 1, true, true⟩ else ⟨i.al &&& 0x0F, i.ah, false, false⟩
  | .aam => ⟨i.al % i.base, i.al / i.base, i.af, i.cf⟩
  | .aad => ⟨i.al + i.ah * i.base, 0, i.af, i.cf⟩

/-- The domain Intel documents (R247; log 29): what the sum or difference of two decimal operands, with a carry in,
can leave in AL, AF and CF. -/
def bcdDomain (op : BcdOp) (i : BcdIn) : Bool :=
  let lo := i.al.toNat % 16
  let hi := i.al.toNat / 16
  match op with
  | .daa => (!i.af || decide (lo ≤ 3)) &&
      (if i.af then (if i.cf then decide (hi ≤ 3) else decide (1 ≤ hi))
       else (if i.cf then decide (hi ≤ 2) else true))
  | .das => (if i.af then decide (6 ≤ lo) else decide (lo ≤ 9)) &&
      (if i.af then (if i.cf then decide (6 ≤ hi) else decide (hi ≤ 8))
       else (if i.cf then decide (7 ≤ hi) else decide (hi ≤ 9)))
  | .aaa => if i.af then decide (16 ≤ i.al.toNat) && decide (i.al.toNat ≤ 18) else decide (i.al.toNat ≤ 15)
  | .aas => if i.af then decide (0xF7 ≤ i.al.toNat) else decide (i.al.toNat ≤ 9)
  | .aam => i.base == 0x0A
  | .aad => i.base == 0x0A && decide (i.ah.toNat ≤ 9) && decide (i.al.toNat ≤ 9)

/-- The decimal adjust under `P_BCD` (R247, D25). -/
def bcdResult (c : BcdChoice) (op : BcdOp) (i : BcdIn) : BcdOut :=
  match c with
  | .asWritten => bcdWritten op i
  | .openOutside => if bcdDomain op i then bcdWritten op i else Config.bcdFree op i

namespace State

/-- What a decimal adjust reads. -/
def bcdIn (s : State) (base : Byte) : BcdIn := ⟨s.reg8 .ax, s.reg8 .sp, base, s.cpu.flags.af, s.cpu.flags.cf⟩

/-- The result of a decimal adjust in this state. -/
def bcd (s : State) (op : BcdOp) (base : Byte) : BcdOut := bcdResult s.board.params.bcd op (s.bcdIn base)

/-- Write AL and AH. -/
def setBcd (s : State) (o : BcdOut) : State := s.setReg16 .ax (mkWord o.al o.ah)

/-- DAA, DAS: AL; CF, AF, SF, ZF, PF from the result, OF free. -/
def packedAdjust (s : State) (op : BcdOp) : State :=
  let o := s.bcd op 0
  ((s.setReg8 .ax o.al).setFlags { s.cpu.flags.szp o.al with cf := o.cf, af := o.af, ovf := s.freeBit 0 }).spend 1

/-- AAA, AAS: CF, AF from the result, OF, SF, ZF, PF free. -/
def asciiAdjust (s : State) (op : BcdOp) : State :=
  let o := s.bcd op 0
  ((s.setBcd o).setFlags { s.cpu.flags with
    cf := o.cf, af := o.af, ovf := s.freeBit 0, sf := s.freeBit 1, zf := s.freeBit 2, pf := s.freeBit 3 }).spend 4

/-- AAM, AAD: SF, ZF, PF from AL, CF, OF, AF free. -/
def baseAdjust (s : State) (op : BcdOp) (base : Byte) : State :=
  let o := s.bcd op base
  ((s.setBcd o).setFlags { s.cpu.flags.szp o.al with
    cf := s.freeBit 0, ovf := s.freeBit 1, af := s.freeBit 2 }).spend 3

end State

/-- R241. -/
def execDaa (s : State) : Out := .next (s.packedAdjust .daa)

/-- R242. -/
def execDas (s : State) : Out := .next (s.packedAdjust .das)

/-- R243. -/
def execAaa (s : State) : Out := .next (s.asciiAdjust .aaa)

/-- R244. -/
def execAas (s : State) : Out := .next (s.asciiAdjust .aas)

/-- R245: base 0 raises the divide error. -/
def execAam (base : Byte) (s : State) : Out := .next (if base = 0 then s.divideFault else s.baseAdjust .aam base)

/-- R246. -/
def execAad (base : Byte) (s : State) : Out := .next (s.baseAdjust .aad base)

end Sys2Proof.Machine
end

