-- ==== Sys2Proof/Machine/Move.lean ====
section
/-! DEFINITION. MOV XCHG LEA LDS LES XLAT LAHF SAHF CBW CWD SALC (spec/43_data_transfer.md sections 1, 3, 4 and
46_processor_control.md R404, R414). -/

namespace Sys2Proof.Machine

namespace State

/-- Write an operand that is not read first. -/
def store (s : State) (w : Width) (o : Operand) (v : BitVec w.bits) : State := (s.touch o).writePlace w (s.place o) v

/-- Read an operand: its value and the state after the read. -/
def load (s : State) (w : Width) (o : Operand) : BitVec w.bits × State := (s.touch o).readPlace w (s.place o)

/-- The segment and offset of a far pointer operand (R293, 45_control_transfer.md R345): a register operand uses the
stale `last_ea` in DS or the override (46_processor_control.md R414). -/
def farPlace (s : State) : RM → Word × Word
  | .mem m => (s.easeg m, s.ea m)
  | .reg _ => (s.segFor .ds, s.cpu.lastEa)

/-- Read a far pointer: offset, segment, and the state after both reads (offset first). -/
def readFar (s : State) (e : RM) : Word × Word × State :=
  let p := s.farPlace e
  let off := (s.touch (.rm e)).rd16 p.1 p.2
  let seg := off.2.rd16 p.1 (p.2 + 2)
  (off.1, seg.1, seg.2)

end State

/-- R270, 88 and 89: memory is not read. -/
def execMovRmReg (w : Width) (e : RM) (g : GReg) (s : State) : Out := .next (s.store w (.rm e) (s.reg w g))

/-- R270, 8A and 8B. -/
def execMovRegRm (w : Width) (g : GReg) (e : RM) (s : State) : Out :=
  let r := s.load w (.rm e)
  .next (r.2.setReg w g r.1)

/-- R271, C6; the reg field is ignored (R157). -/
def execMovRmImm8 (_ext : BitVec 3) (e : RM) (i : Byte) (s : State) : Out := .next (s.store .byte (.rm e) i)

/-- R271, C7; the reg field is ignored (R157). -/
def execMovRmImm16 (_ext : BitVec 3) (e : RM) (i : Word) (s : State) : Out := .next (s.store .word (.rm e) i)

/-- R272, B0+r. -/
def execMovRegImm8 (g : GReg) (i : Byte) (s : State) : Out := .next (s.setReg8 g i)

/-- R272, B8+r. -/
def execMovRegImm16 (g : GReg) (i : Word) (s : State) : Out := .next (s.setReg16 g i)

/-- R273, A0 and A1: `last_ea` is not changed. -/
def execMovAccMem (w : Width) (off : Word) (s : State) : Out :=
  let r := s.rd w (s.segFor .ds) off
  .next (r.2.setReg w .ax r.1)

/-- R273, A2 and A3. -/
def execMovMemAcc (w : Width) (off : Word) (s : State) : Out := .next (s.wr w (s.segFor .ds) off (s.reg w .ax))

/-- R274; bit 2 of the field is ignored (R156). -/
def execMovRmSeg (_high : Bool) (e : RM) (r : SReg) (s : State) : Out := .next (s.store .word (.rm e) (s.sreg r))

/-- R275, R415: interrupts are inhibited at the next boundary; loading CS does not flush the queue (log 37). -/
def execMovSegRm (_high : Bool) (r : SReg) (e : RM) (s : State) : Out :=
  let v := s.load .word (.rm e)
  .next (v.2.setSreg r v.1).inhibit

/-- R290: both old values are read before either is written. -/
def execXchgRm (w : Width) (e : RM) (g : GReg) (s : State) : Out :=
  let v := s.load w (.rm e)
  .next ((v.2.writePlace w (s.place (.rm e)) (s.reg w g)).setReg w g v.1)

/-- R291. -/
def execXchgAx (g : GReg) (s : State) : Out := .next ((s.setReg16 .ax (s.reg16 g)).setReg16 g (s.reg16 .ax))

/-- R292: no memory access; the register form uses the stale `last_ea` (R414). -/
def execLea (g : GReg) (e : RM) (s : State) : Out := .next ((s.touch (.rm e)).setReg16 g (s.farPlace e).2)

/-- R293, R414. -/
def execLds (g : GReg) (e : RM) (s : State) : Out :=
  let p := s.readFar e
  .next ((p.2.2.setReg16 g p.1).setSreg .ds p.2.1)

/-- R294, R414. -/
def execLes (g : GReg) (e : RM) (s : State) : Out :=
  let p := s.readFar e
  .next ((p.2.2.setReg16 g p.1).setSreg .es p.2.1)

/-- R295: AL is unsigned. -/
def execXlat (s : State) : Out :=
  let r := s.rd8 (s.segFor .ds) (s.reg16 .bx + (s.reg8 .ax).setWidth 16)
  .next (r.2.setReg8 .ax r.1)

/-- R296: AH is the byte register numbered 4. -/
def execLahf (s : State) : Out := .next (s.setReg8 .sp s.cpu.flags.lowByte)

/-- R297. -/
def execSahf (s : State) : Out := .next (s.setFlags (s.cpu.flags.setLow (s.reg8 .sp)))

/-- R298. -/
def execCbw (s : State) : Out := .next (s.setReg16 .ax (sext16 (s.reg8 .ax)))

/-- R299. -/
def execCwd (s : State) : Out := .next (s.setReg16 .dx (if (s.reg16 .ax).msb then 0xFFFF else 0))

/-- R404. -/
def execSalc (s : State) : Out := .next (s.setReg8 .ax (if s.cpu.flags.cf then 0xFF else 0))

end Sys2Proof.Machine
end

