-- ==== Sys2Proof/Machine/Control.lean ====
section
/-! DEFINITION. JMP CALL RET Jcc LOOP JCXZ INT INTO IRET (spec/45_control_transfer.md). -/

namespace Sys2Proof.Machine

namespace State

/-- A relative target (R340). -/
def target (s : State) (d : Word) : Word := s.ipNext + d

/-- A conditional short jump (R340, R354). -/
def jumpIf (s : State) (c : Bool) (d : Byte) : State := if c then s.jumpNear (s.target (sext16 d)) else s

/-- CX decremented (R371). -/
def decCx (s : State) : State := s.setReg16 .cx (s.reg16 .cx - 1)

/-- A near call (R346, R348): the return offset is pushed, then control goes to `t`. -/
def callNear (s : State) (t : Word) : State := (s.push16 s.ipNext).jumpNear t

/-- A far call (R347, R349): CS, then the return offset. -/
def callFar (s : State) (cs ip : Word) : State := ((s.push16 (s.sreg .cs)).push16 s.ipNext).jumpFar cs ip

/-- A near return (R350, R351). -/
def retNear (s : State) (extra : Word) : State :=
  let t := s.pop16
  (t.2.setReg16 .sp (t.2.reg16 .sp + extra)).jumpNear t.1

/-- A far return (R352, R353). -/
def retFar (s : State) (extra : Word) : State :=
  let ip := s.pop16
  let cs := ip.2.pop16
  (cs.2.setReg16 .sp (cs.2.reg16 .sp + extra)).jumpFar cs.1 ip.1

end State

/-- R355. -/
def execJo (_low : Bool) (d : Byte) (s : State) : Out := .next (s.jumpIf s.cpu.flags.ovf d)
/-- R356. -/
def execJno (_low : Bool) (d : Byte) (s : State) : Out := .next (s.jumpIf (!s.cpu.flags.ovf) d)
/-- R357. -/
def execJb (_low : Bool) (d : Byte) (s : State) : Out := .next (s.jumpIf s.cpu.flags.below d)
/-- R358. -/
def execJnb (_low : Bool) (d : Byte) (s : State) : Out := .next (s.jumpIf (!s.cpu.flags.below) d)
/-- R359. -/
def execJz (_low : Bool) (d : Byte) (s : State) : Out := .next (s.jumpIf s.cpu.flags.zf d)
/-- R360. -/
def execJnz (_low : Bool) (d : Byte) (s : State) : Out := .next (s.jumpIf (!s.cpu.flags.zf) d)
/-- R361. -/
def execJbe (_low : Bool) (d : Byte) (s : State) : Out := .next (s.jumpIf s.cpu.flags.belowEq d)
/-- R362. -/
def execJa (_low : Bool) (d : Byte) (s : State) : Out := .next (s.jumpIf (!s.cpu.flags.belowEq) d)
/-- R363. -/
def execJs (_low : Bool) (d : Byte) (s : State) : Out := .next (s.jumpIf s.cpu.flags.sf d)
/-- R364. -/
def execJns (_low : Bool) (d : Byte) (s : State) : Out := .next (s.jumpIf (!s.cpu.flags.sf) d)
/-- R365. -/
def execJp (_low : Bool) (d : Byte) (s : State) : Out := .next (s.jumpIf s.cpu.flags.pf d)
/-- R366. -/
def execJnp (_low : Bool) (d : Byte) (s : State) : Out := .next (s.jumpIf (!s.cpu.flags.pf) d)
/-- R367. -/
def execJl (_low : Bool) (d : Byte) (s : State) : Out := .next (s.jumpIf s.cpu.flags.less d)
/-- R368. -/
def execJge (_low : Bool) (d : Byte) (s : State) : Out := .next (s.jumpIf (!s.cpu.flags.less) d)
/-- R369. -/
def execJle (_low : Bool) (d : Byte) (s : State) : Out := .next (s.jumpIf s.cpu.flags.lessEq d)
/-- R370. -/
def execJg (_low : Bool) (d : Byte) (s : State) : Out := .next (s.jumpIf (!s.cpu.flags.lessEq) d)

/-- R373. -/
def execLoopnz (d : Byte) (s : State) : Out :=
  .next (s.decCx.jumpIf (s.reg16 .cx - 1 != 0 && !s.cpu.flags.zf) d)

/-- R372. -/
def execLoopz (d : Byte) (s : State) : Out :=
  .next (s.decCx.jumpIf (s.reg16 .cx - 1 != 0 && s.cpu.flags.zf) d)

/-- R371. -/
def execLoop (d : Byte) (s : State) : Out := .next (s.decCx.jumpIf (s.reg16 .cx - 1 != 0) d)

/-- R374. -/
def execJcxz (d : Byte) (s : State) : Out := .next (s.jumpIf (s.reg16 .cx == 0) d)

/-- R341. -/
def execJmpShort (d : Byte) (s : State) : Out := .next (s.jumpNear (s.target (sext16 d)))

/-- R342. -/
def execJmpNear (d : Word) (s : State) : Out := .next (s.jumpNear (s.target d))

/-- R343. -/
def execJmpFar (off seg : Word) (s : State) : Out := .next (s.jumpFar seg off)

/-- R344: the operand is an absolute offset. -/
def execJmpRm (e : RM) (s : State) : Out :=
  let t := s.load .word (.rm e)
  .next (t.2.jumpNear t.1)

/-- R345; the register form is a fault under either value of `P_UNDOC` (R413). -/
def execJmpFarRm (e : RM) (s : State) : Out :=
  match e with
  | .mem m =>
    let p := s.readFar (.mem m)
    .next (p.2.2.jumpFar p.2.1 p.1)
  | .reg _ => .fault (.instructionDecodeError s.lastAddr)

/-- R346. -/
def execCallNear (d : Word) (s : State) : Out := .next (s.callNear (s.target d))

/-- R347. -/
def execCallFar (off seg : Word) (s : State) : Out := .next (s.callFar seg off)

/-- R348: the operand is read before the push. -/
def execCallRm (e : RM) (s : State) : Out :=
  let t := s.load .word (.rm e)
  .next (t.2.callNear t.1)

/-- R349; the register form is a fault under either value of `P_UNDOC` (R413). -/
def execCallFarRm (e : RM) (s : State) : Out :=
  match e with
  | .mem m =>
    let p := s.readFar (.mem m)
    .next (p.2.2.callFar p.2.1 p.1)
  | .reg _ => .fault (.instructionDecodeError s.lastAddr)

/-- R350, R407. -/
def execRet (_low : Bool) (s : State) : Out := .next (s.retNear 0)

/-- R351, R407. -/
def execRetImm (_low : Bool) (i : Word) (s : State) : Out := .next (s.retNear i)

/-- R352, R407. -/
def execRetf (_low : Bool) (s : State) : Out := .next (s.retFar 0)

/-- R353, R407. -/
def execRetfImm (_low : Bool) (i : Word) (s : State) : Out := .next (s.retFar i)

/-- R376: vector 3. -/
def execInt3 (s : State) : Out := .next (s.raise 3 s.ipNext)

/-- R375. -/
def execIntN (n : Byte) (s : State) : Out := .next (s.raise n s.ipNext)

/-- R377: vector 4 when OF = 1. -/
def execInto (s : State) : Out := .next (if s.cpu.flags.ovf then s.raise 4 s.ipNext else s)

/-- R378. -/
def execIret (s : State) : Out := .next s.iret

end Sys2Proof.Machine
end

