-- ==== Sys2Proof/Machine/MulDiv.lean ====
section
/-! DEFINITION. MUL IMUL DIV IDIV (spec/41_muldiv_bcd.md sections 1 to 3): the input-output relations the rules state,
and the microcode co-routines beside them. The meanings use the relations; that the co-routines compute them is a
statement of its own. -/

namespace Sys2Proof.Machine

/-! ### Input-output relations -/

/-- `B × C` as high and low half (R220). -/
def mulU {n : Nat} (b c : BitVec n) : BitVec n × BitVec n :=
  let p := b.toNat * c.toNat
  (BitVec.ofNat n (p / 2 ^ n), BitVec.ofNat n p)

/-- `signed(a) × signed(m)` as high and low half (R227). -/
def mulS {n : Nat} (a m : BitVec n) : BitVec n × BitVec n :=
  let p := a.toInt * m.toInt
  (BitVec.ofInt n (p / 2 ^ n), BitVec.ofInt n p)

/-- IMULCOF (R222): the high half is not the sign extension of the low half. -/
def imulCof {n : Nat} (hi lo : BitVec n) : Bool := hi != (if lo.msb then BitVec.allOnes n else 0)

/-- `(H << N) | L` as a number. -/
def dividend {n : Nat} (h l : BitVec n) : Nat := h.toNat * 2 ^ n + l.toNat

/-- Unsigned division (R223): quotient and remainder; none for a zero divisor or a quotient that needs more than N
bits. -/
def divU {n : Nat} (h l d : BitVec n) : Option (BitVec n × BitVec n) :=
  if d = 0 ∨ 2 ^ n ≤ dividend h l / d.toNat then none
  else some (BitVec.ofNat n (dividend h l / d.toNat), BitVec.ofNat n (dividend h l % d.toNat))

/-- `signed_2N(H ++ L)`. -/
def dividendS {n : Nat} (h l : BitVec n) : Int := h.toInt * 2 ^ n + l.toNat

/-- Signed division (R224): truncation toward zero, the remainder with the sign of the dividend; none for a zero
divisor or a quotient outside the symmetric bound. -/
def divS {n : Nat} (h l d : BitVec n) : Option (BitVec n × BitVec n) :=
  if d = 0 ∨ 2 ^ (n - 1) - 1 < ((dividendS h l).tdiv d.toInt).natAbs then none
  else some (BitVec.ofInt n ((dividendS h l).tdiv d.toInt), BitVec.ofInt n ((dividendS h l).tmod d.toInt))

/-! ### The co-routines (R220 to R224) -/

/-- One turn of the CORX loop: accumulator, count register, carry. -/
def corxTurn {n : Nat} (b : BitVec n) (p : BitVec n × BitVec n × Bool) : BitVec n × BitVec n × Bool :=
  let t : Nat := if p.2.2 then p.1.toNat + b.toNat else p.1.toNat
  let a := BitVec.ofNat n (t / 2)
  let lowA := decide (t % 2 = 1)
  (a, (p.2.1 >>> 1) ||| ((BitVec.ofBool lowA).setWidth n <<< (n - 1)), p.2.1.getLsbD 0)

/-- CORX (R220): shift-and-add multiplication. -/
def corx {n : Nat} (b c : BitVec n) : BitVec n × BitVec n :=
  let r := iter (corxTurn b) n (0, c >>> 1, c.getLsbD 0)
  (r.1, r.2.1)

/-- NEGATE on a double register (R221). -/
def negate2 {n : Nat} (h l : BitVec n) : BitVec n × BitVec n :=
  let v := 2 ^ (2 * n) - dividend h l
  (BitVec.ofNat n (v / 2 ^ n), BitVec.ofNat n v)

/-- One turn of the CORD loop: remainder and quotient. -/
def cordTurn {n : Nat} (d : BitVec n) (p : BitVec n × BitVec n) : BitVec n × BitVec n :=
  let r := (p.1 <<< 1) ||| (BitVec.ofBool p.2.msb).setWidth n
  let q := p.2 <<< 1
  if p.1.msb || decide (d.toNat ≤ r.toNat) then (r - d, q ||| 1) else (r, q)

/-- CORD (R223): restoring division; the result is quotient and remainder. -/
def cord {n : Nat} (h l d : BitVec n) : Option (BitVec n × BitVec n) :=
  if d.toNat ≤ h.toNat then none
  else
    let r := iter (cordTurn d) n (h, l)
    some (r.2, r.1)

/-- PREIDIV, CORD, POSTIDIV (R224). -/
def idivCore {n : Nat} (h l d : BitVec n) : Option (BitVec n × BitVec n) :=
  let x := if h.msb then negate2 h l else (h, l)
  let e := if d.msb then -d else d
  match cord x.1 x.2 e with
  | none => none
  | some (q, r) =>
    if q.msb then none
    else some (if h.msb != d.msb then -q else q, if h.msb then -r else r)

/-- The structure of IMUL in the microcode (R227). -/
def imulCore {n : Nat} (m a : BitVec n) : BitVec n × BitVec n :=
  let p := corx (if m.msb then -m else m) (if a.msb then -a else a)
  if m.msb != a.msb then negate2 p.1 p.2 else p

/-! ### The implicit registers -/

namespace State

/-- The high half: AH or DX. -/
def accHi (s : State) (w : Width) : BitVec w.bits :=
  match w with
  | .byte => s.reg8 .sp
  | .word => s.reg16 .dx

/-- Write the high half (AH or DX) and the low half (AL or AX). -/
def setAcc (s : State) (w : Width) (hi lo : BitVec w.bits) : State :=
  match w, hi, lo with
  | .byte, hi, lo => s.setReg16 .ax (mkWord lo hi)
  | .word, hi, lo => (s.setReg16 .dx hi).setReg16 .ax lo

end State

/-- The flags after MUL and IMUL (R226, R227): CF = OF = `c`; SF, ZF, AF, PF are free bits of the state `s`. -/
def mulFlags (s : State) (f : Flags) (c : Bool) : Flags :=
  { f with cf := c, ovf := c, sf := s.freeBit 0, zf := s.freeBit 1, af := s.freeBit 2, pf := s.freeBit 3 }

/-- The flags after DIV and IDIV (R228): all six are free bits. -/
def divFlags (s : State) (f : Flags) : Flags :=
  { f with cf := s.freeBit 0, pf := s.freeBit 1, af := s.freeBit 2, zf := s.freeBit 3, sf := s.freeBit 4,
           ovf := s.freeBit 5 }

/-- R226. -/
def execMul (w : Width) (e : RM) (s : State) : Out :=
  let a := (s.touch (.rm e)).readPlace w (s.place (.rm e))
  let p := mulU a.1 (a.2.reg w .ax)
  .next (((a.2.setAcc w p.1 p.2).setFlags (mulFlags a.2 a.2.cpu.flags (p.1 != 0))).spend 4)

/-- R227. -/
def execImul (w : Width) (e : RM) (s : State) : Out :=
  let a := (s.touch (.rm e)).readPlace w (s.place (.rm e))
  let p := mulS (a.2.reg w .ax) a.1
  .next (((a.2.setAcc w p.1 p.2).setFlags (mulFlags a.2 a.2.cpu.flags (imulCof p.1 p.2))).spend 4)

/-- The end of a division: the divide error (R230), or quotient and remainder into the accumulator (R228). -/
def finishDiv (w : Width) (r : Option (BitVec w.bits × BitVec w.bits)) (s : State) : State :=
  match r with
  | none => s.divideFault
  | some (q, m) => ((s.setAcc w m q).setFlags (divFlags s s.cpu.flags)).spend 6

namespace State

/-- The divisor of DIV and IDIV, and the state after it is read. -/
def readDivisor (s : State) (w : Width) (e : RM) : BitVec w.bits × State :=
  (s.touch (.rm e)).readPlace w (s.place (.rm e))

/-- What DIV computes (R228): none is the divide error. -/
def divOutcome (s : State) (w : Width) (e : RM) : Option (BitVec w.bits × BitVec w.bits) :=
  let a := s.readDivisor w e
  divU (a.2.accHi w) (a.2.reg w .ax) a.1

/-- What IDIV computes (R229): none is the divide error. -/
def idivOutcome (s : State) (w : Width) (e : RM) : Option (BitVec w.bits × BitVec w.bits) :=
  let a := s.readDivisor w e
  divS (a.2.accHi w) (a.2.reg w .ax) a.1

end State

/-- R228. -/
def execDiv (w : Width) (e : RM) (s : State) : Out :=
  .next (finishDiv w (s.divOutcome w e) (s.readDivisor w e).2)

/-- R229. -/
def execIdiv (w : Width) (e : RM) (s : State) : Out :=
  .next (finishDiv w (s.idivOutcome w e) (s.readDivisor w e).2)

end Sys2Proof.Machine
end

