-- ==== Sys2Proof/Machine/Proc.lean ====
section
/-! DEFINITION. Flag control, HLT, WAIT, ESC, NOP, the prefixes, the encodings without semantics
(spec/46_processor_control.md), and IN and OUT (43_data_transfer.md section 5). -/

namespace Sys2Proof.Machine

/-- R390. -/
def execClc (s : State) : Out := .next (s.setFlags { s.cpu.flags with cf := false })
/-- R391. -/
def execStc (s : State) : Out := .next (s.setFlags { s.cpu.flags with cf := true })
/-- R392. -/
def execCmc (s : State) : Out := .next (s.setFlags { s.cpu.flags with cf := !s.cpu.flags.cf })
/-- R393. -/
def execCld (s : State) : Out := .next (s.setFlags { s.cpu.flags with df := false })
/-- R394. -/
def execStd (s : State) : Out := .next (s.setFlags { s.cpu.flags with df := true })
/-- R395. -/
def execCli (s : State) : Out := .next (s.setFlags { s.cpu.flags with intf := false })
/-- R396: interrupts are inhibited at the next boundary. -/
def execSti (s : State) : Out := .next (s.setFlags { s.cpu.flags with intf := true }).inhibit

/-- R397; with IF = 0 the fault of 60_exceptions.md R471. -/
def execHlt (s : State) : Out :=
  if s.cpu.flags.intf then .next ({ s with cpu := { s.cpu with halted := true } }.setResult .halt)
  else .fault (.cpuHaltedError s.lastAddr)

/-- R398: with TEST asserted nothing; otherwise IP goes back to `last_ip`, result Okay. -/
def execWait (s : State) : Out := .next (if s.board.params.testPin then s else s.flushTo s.cpu.lastIp)

/-- R401. -/
def execNop (s : State) : Out := .next s

/-- R399: a memory operand is read as a word and discarded. -/
def execEsc (_op _reg : BitVec 3) (e : RM) (s : State) : Out :=
  match e with
  | .reg _ => .next s
  | .mem m => .next (s.load .word (.rm (.mem m))).2

/-! ### Prefixes (30_encoding.md R135, R161): the last of a class wins -/

namespace State

def setPfx (s : State) (p : Prefixes) : State := { s with cpu := { s.cpu with pfx := p } }

/-- From now on no DMA step is let onto the bus. -/
def holdBus (s : State) : State := s.setBoard { s.board with locked := true }

end State

/-- R402. -/
def execSegEs (s : State) : Out := .next (s.setPfx { s.cpu.pfx with seg := some .es })
/-- R402. -/
def execSegCs (s : State) : Out := .next (s.setPfx { s.cpu.pfx with seg := some .cs })
/-- R402. -/
def execSegSs (s : State) : Out := .next (s.setPfx { s.cpu.pfx with seg := some .ss })
/-- R402. -/
def execSegDs (s : State) : Out := .next (s.setPfx { s.cpu.pfx with seg := some .ds })
/-- R400: recorded, and the bus is held to the end of the instruction, or of one iteration of a repeated one
(20_memory.md R103, 44_string.md R328; log 25). -/
def execLock (s : State) : Out := .next (s.setPfx { s.cpu.pfx with lock := true }).holdBus
/-- R408: F1 acts as F0. -/
def execLockAlias (s : State) : Out := .next (s.setPfx { s.cpu.pfx with lock := true }).holdBus
/-- R135, F2. -/
def execRepnz (s : State) : Out := .next (s.setPfx { s.cpu.pfx with rep := some .repnz })
/-- R135, F3. -/
def execRep (s : State) : Out := .next (s.setPfx { s.cpu.pfx with rep := some .repz })

/-! ### IN and OUT -/

/-- `IoRead(port, n)` into the accumulator (43_data_transfer.md R300): low byte first. -/
def inPort (w : Width) (port : Word) (s : State) : Out :=
  match s.board.ioRead s.cpu.sregs.cs port with
  | none => .refused (Params.portRefusal s.board.params port)
  | some lo =>
    let s1 := (s.setBoard lo.2).setReg8 .ax lo.1
    match w with
    | .byte => .next s1
    | .word =>
      match s1.board.ioRead s1.cpu.sregs.cs (port + 1) with
      | none => .refused (Params.portRefusal s.board.params (port + 1))
      | some hi => .next ((s1.setBoard hi.2).setReg8 .sp hi.1)

/-- `IoWrite(port, n, v)` from the accumulator (R301): low byte first. -/
def outPort (w : Width) (port : Word) (s : State) : Out :=
  match s.board.ioWrite s.cpu.sregs.cs port (s.reg8 .ax) with
  | none => .refused (Params.portRefusal s.board.params port)
  | some b =>
    let s1 := s.setBoard b
    match w with
    | .byte => .next s1
    | .word =>
      match s1.board.ioWrite s1.cpu.sregs.cs (port + 1) (s1.reg8 .sp) with
      | none => .refused (Params.portRefusal s.board.params (port + 1))
      | some b2 => .next (s1.setBoard b2)

/-- R300, E4 and E5: the port is zero-extended. -/
def execInImm (w : Width) (port : Byte) (s : State) : Out := inPort w (port.setWidth 16) s
/-- R300, EC and ED. -/
def execInDx (w : Width) (s : State) : Out := inPort w (s.reg16 .dx) s
/-- R301, E6 and E7. -/
def execOutImm (w : Width) (port : Byte) (s : State) : Out := outPort w (port.setWidth 16) s
/-- R301, EE and EF. -/
def execOutDx (w : Width) (s : State) : Out := outPort w (s.reg16 .dx) s

/-! ### FE /2 to FE /7 (R411): no semantics, the fault the spec names -/

/-- R411. -/
def execFe2 (_e : RM) (s : State) : Out := .fault (.instructionDecodeError s.lastAddr)
/-- R411. -/
def execFe3 (_e : RM) (s : State) : Out := .fault (.instructionDecodeError s.lastAddr)
/-- R411. -/
def execFe4 (_e : RM) (s : State) : Out := .fault (.instructionDecodeError s.lastAddr)
/-- R411. -/
def execFe5 (_e : RM) (s : State) : Out := .fault (.instructionDecodeError s.lastAddr)
/-- R411. -/
def execFe6 (_e : RM) (s : State) : Out := .fault (.instructionDecodeError s.lastAddr)
/-- R411. -/
def execFe7 (_e : RM) (s : State) : Out := .fault (.instructionDecodeError s.lastAddr)

end Sys2Proof.Machine
end

