-- ==== Sys2Proof/Machine/Shift.lean ====
section
/-! DEFINITION. ROL ROR RCL RCR SHL SHR SAR SETMO (spec/42_shift_rotate.md). -/

namespace Sys2Proof.Machine

namespace State

/-- The count (R250): 1 or the whole of CL, read before `E` is written. -/
def count (s : State) : Count → Nat
  | .one => 1
  | .cl => (s.reg8 .cx).toNat

/-- A shift or rotate (R250): `E` is read, the step applied `count` times, and, for a count above zero, `E` written
and the flags set by `fl` from the operand, the result and the last bit moved out. -/
def shiftRotate (s : State) (w : Width) (e : RM) (c : Count) (step : BitVec w.bits × Bool → BitVec w.bits × Bool)
    (fl : Flags → BitVec w.bits → BitVec w.bits → Bool → Flags) (spent : Nat) : State :=
  let a := (s.touch (.rm e)).readPlace w (s.place (.rm e))
  let k := s.count c
  let r := iter step k (a.1, a.2.cpu.flags.cf)
  if k = 0 then a.2
  else ((a.2.writePlace w (s.place (.rm e)) r.1).setFlags (fl a.2.cpu.flags a.1 r.1 r.2)).spend spent

end State

/-- R251. -/
def execRol (w : Width) (e : RM) (c : Count) (s : State) : Out :=
  .next (s.shiftRotate w e c rolStep (fun f _ r cf => f.rotated (s.count c) cf (ovfLeft r cf) (s.freeBit 0)) 1)

/-- R252. -/
def execRor (w : Width) (e : RM) (c : Count) (s : State) : Out :=
  .next (s.shiftRotate w e c rorStep (fun f _ r cf => f.rotated (s.count c) cf (ovfRight r) (s.freeBit 0)) 1)

/-- R253. -/
def execRcl (w : Width) (e : RM) (c : Count) (s : State) : Out :=
  .next (s.shiftRotate w e c rclStep (fun f _ r cf => f.rotated (s.count c) cf (ovfLeft r cf) (s.freeBit 0)) 1)

/-- R254. -/
def execRcr (w : Width) (e : RM) (c : Count) (s : State) : Out :=
  .next (s.shiftRotate w e c rcrStep (fun f _ r cf => f.rotated (s.count c) cf (ovfRight r) (s.freeBit 0)) 1)

/-- R255. -/
def execShl (w : Width) (e : RM) (c : Count) (s : State) : Out :=
  .next (s.shiftRotate w e c shlStep
    (fun f _ r cf => f.shifted r (s.count c) cf (ovfLeft r cf) (s.freeBit 0) (s.freeBit 1)) 2)

/-- R256: OF of a shift by one is the MSB before it. -/
def execShr (w : Width) (e : RM) (c : Count) (s : State) : Out :=
  .next (s.shiftRotate w e c shrStep
    (fun f a r cf => f.shifted r (s.count c) cf a.msb (s.freeBit 0) (s.freeBit 1)) 2)

/-- R257: OF of a shift by one is 0. -/
def execSar (w : Width) (e : RM) (c : Count) (s : State) : Out :=
  .next (s.shiftRotate w e c sarStep
    (fun f _ r cf => f.shifted r (s.count c) cf false (s.freeBit 0) (s.freeBit 1)) 2)

/-- R258, SETMO and SETMOC: all ones, unless the count is zero. -/
def execSetmo (w : Width) (e : RM) (c : Count) (s : State) : Out :=
  .next (s.shiftRotate w e c (fun p => (BitVec.allOnes w.bits, p.2)) (fun f _ r _ => logicN f r (s.freeBit 0)) 1)

end Sys2Proof.Machine
end

