-- ==== Sys2Proof/Machine/Stack.lean ====
section
/-! DEFINITION. PUSH POP PUSHF POPF (spec/43_data_transfer.md section 2, 46_processor_control.md R405). -/

namespace Sys2Proof.Machine

/-- The value PUSH stores for a register operand: SP is pushed as already decremented (R281, R282, D35). -/
def pushValue (s : State) (g : GReg) : Word := if g = .sp then s.reg16 .sp - 2 else s.reg16 g

/-- R281. -/
def execPushReg (g : GReg) (s : State) : Out := .next (s.push16 (pushValue s g))

/-- R282, R412. -/
def execPushRm (_high : Bool) (e : RM) (s : State) : Out :=
  match e with
  | .reg g => .next (s.push16 (pushValue s g))
  | .mem m =>
    let v := s.load .word (.rm (.mem m))
    .next (v.2.push16 v.1)

/-- R283. -/
def execPushSeg (r : SReg) (s : State) : Out := .next (s.push16 (s.sreg r))

/-- R284: POP SP ends with the value read. -/
def execPopReg (g : GReg) (s : State) : Out :=
  let r := s.pop16
  .next (r.2.setReg16 g r.1)

/-- R285: the place is found before SP changes; the reg field is ignored (R157). -/
def execPopRm (_ext : BitVec 3) (e : RM) (s : State) : Out :=
  let r := (s.touch (.rm e)).pop16
  .next (r.2.writePlace .word (s.place (.rm e)) r.1)

/-- R286, R405: the word is read with the old SS; POP CS does not flush the queue (log 37). -/
def execPopSeg (r : SReg) (s : State) : Out :=
  let v := s.pop16
  .next (v.2.setSreg r v.1).inhibit

/-- R287. -/
def execPushf (s : State) : Out := .next (s.push16 s.cpu.flags.word)

/-- R288. -/
def execPopf (s : State) : Out :=
  let r := s.pop16
  .next (r.2.setFlags (.ofWord r.1))

end Sys2Proof.Machine
end

