-- ==== Sys2Proof/Machine/StringOps.lean ====
section
/-! DEFINITION. MOVS CMPS STOS LODS SCAS and their repetition (spec/44_string.md). -/

namespace Sys2Proof.Machine

namespace State

/-- `delta` (R320): the element size, negative when DF = 1. -/
def delta (s : State) (w : Width) : Word :=
  let n : Word := BitVec.ofNat 16 (w.bits / 8)
  if s.cpu.flags.df then -n else n

/-- Advance an index register (R320). -/
def advance (s : State) (w : Width) (g : GReg) : State := s.setReg16 g (s.reg16 g + s.delta w)

/-- `RdN(srcseg, SI)`: DS or the override (R320). -/
def readSource (s : State) (w : Width) : BitVec w.bits × State := s.rd w (s.segFor .ds) (s.reg16 .si)

/-- `RdN(ES, DI)`: never overridden (R320). -/
def readDest (s : State) (w : Width) : BitVec w.bits × State := s.rd w (s.sreg .es) (s.reg16 .di)

/-- `WrN(ES, DI, v)`. -/
def writeDest (s : State) (w : Width) (v : BitVec w.bits) : State := s.wr w (s.sreg .es) (s.reg16 .di) v

/-- R322. -/
def movs (w : Width) (s : State) : State :=
  let v := s.readSource w
  ((v.2.writeDest w v.1).advance w .si).advance w .di

/-- R323: source minus destination. -/
def cmps (w : Width) (s : State) : State :=
  let a := s.readSource w
  let b := a.2.readDest w
  ((b.2.setFlags (subN b.2.cpu.flags a.1 b.1 false).2).advance w .si).advance w .di

/-- R324. -/
def scas (w : Width) (s : State) : State :=
  let b := s.readDest w
  (b.2.setFlags (subN b.2.cpu.flags (b.2.reg w .ax) b.1 false).2).advance w .di

/-- R325. -/
def lods (w : Width) (s : State) : State :=
  let v := s.readSource w
  (v.2.setReg w .ax v.1).advance w .si

/-- R326. -/
def stos (w : Width) (s : State) : State := (s.writeDest w (s.reg w .ax)).advance w .di

/-- Leave the repetition: `in_rep <- 0`. -/
def leaveRep (s : State) : State := { s with cpu := { s.cpu with inRep := false, decoded := none } }

/-- Stay in the repetition: `in_rep <- 1`, the decoded record kept, result OkayRep (R321). -/
def stayRep (s : State) (i : Instr) : State :=
  { s with cpu := { s.cpu with inRep := true, decoded := some ⟨i, s.cpu.pfx, s.cpu.size, i.loadsEa⟩, result := .okayRep } }

/-- The end of a repetition by a pending INTR (R321, R327): IP goes back to `last_ip`, the queue is flushed. -/
def stopRep (s : State) : State :=
  ({ s with cpu := { s.cpu with intrPending := false } }.leaveRep).jumpNear s.cpu.lastIp

/-- Whether a compare goes on repeating (R321). -/
def repCond (s : State) (k : RepKind) : Bool :=
  match k with
  | .repz => s.cpu.flags.zf
  | .repnz => !s.cpu.flags.zf

/-- One iteration (R321): one element, CX decremented, and the decision to go on. -/
def repIterate (s : State) (i : Instr) (k : RepKind) (compares : Bool) (prim : State → State) : State :=
  let t := prim s
  let t := t.setReg16 .cx (t.reg16 .cx - 1)
  if t.reg16 .cx != 0 && (!compares || t.repCond k) then t.stayRep i else t.leaveRep

/-- A string instruction (R321, R328). -/
def runString (s : State) (i : Instr) (compares : Bool) (prim : State → State) : State :=
  match s.cpu.pfx.rep with
  | none => prim s
  | some k =>
    if s.cpu.inRep then
      if s.cpu.intrPending then s.stopRep else s.repIterate i k compares prim
    else if s.reg16 .cx = 0 then s
    else s.repIterate i k compares prim

end State

/-- R322, A4. -/
def execMovsb (s : State) : Out := .next (s.runString .movsb false (State.movs .byte))

/-- R322, A5. -/
def execMovsw (s : State) : Out := .next (s.runString .movsw false (State.movs .word))

/-- R323, A6. -/
def execCmpsb (s : State) : Out := .next (s.runString .cmpsb true (State.cmps .byte))

/-- R323, A7. -/
def execCmpsw (s : State) : Out := .next (s.runString .cmpsw true (State.cmps .word))

/-- R326, AA. -/
def execStosb (s : State) : Out := .next (s.runString .stosb false (State.stos .byte))

/-- R326, AB. -/
def execStosw (s : State) : Out := .next (s.runString .stosw false (State.stos .word))

/-- R325, AC. -/
def execLodsb (s : State) : Out := .next (s.runString .lodsb false (State.lods .byte))

/-- R325, AD. -/
def execLodsw (s : State) : Out := .next (s.runString .lodsw false (State.lods .word))

/-- R324, AE. -/
def execScasb (s : State) : Out := .next (s.runString .scasb true (State.scas .byte))

/-- R324, AF. -/
def execScasw (s : State) : Out := .next (s.runString .scasw true (State.scas .word))

end Sys2Proof.Machine
end

