-- ==== Sys2Proof/Machine/Dispatch.lean ====
section
/-! DEFINITION. One arm per constructor of `Instr`. -/

namespace Sys2Proof.Machine

def exec (i : Instr) (s : State) : Host.Outcome State Fault Refusal :=
  match i with
  -- spec/40_alu.md
  | .add f => Sys2Proof.Machine.execAdd f s
  | .or f => Sys2Proof.Machine.execOr f s
  | .adc f => Sys2Proof.Machine.execAdc f s
  | .sbb f => Sys2Proof.Machine.execSbb f s
  | .and f => Sys2Proof.Machine.execAnd f s
  | .sub f => Sys2Proof.Machine.execSub f s
  | .xor f => Sys2Proof.Machine.execXor f s
  | .cmp f => Sys2Proof.Machine.execCmp f s
  | .test f => Sys2Proof.Machine.execTest f s
  | .incReg g => Sys2Proof.Machine.execIncReg g s
  | .incRm w e => Sys2Proof.Machine.execIncRm w e s
  | .decReg g => Sys2Proof.Machine.execDecReg g s
  | .decRm w e => Sys2Proof.Machine.execDecRm w e s
  | .not w e => Sys2Proof.Machine.execNot w e s
  | .neg w e => Sys2Proof.Machine.execNeg w e s
  -- spec/41_muldiv_bcd.md
  | .mul w e => Sys2Proof.Machine.execMul w e s
  | .imul w e => Sys2Proof.Machine.execImul w e s
  | .div w e => Sys2Proof.Machine.execDiv w e s
  | .idiv w e => Sys2Proof.Machine.execIdiv w e s
  | .daa => Sys2Proof.Machine.execDaa s
  | .das => Sys2Proof.Machine.execDas s
  | .aaa => Sys2Proof.Machine.execAaa s
  | .aas => Sys2Proof.Machine.execAas s
  | .aam base => Sys2Proof.Machine.execAam base s
  | .aad base => Sys2Proof.Machine.execAad base s
  -- spec/42_shift_rotate.md
  | .rol w e c => Sys2Proof.Machine.execRol w e c s
  | .ror w e c => Sys2Proof.Machine.execRor w e c s
  | .rcl w e c => Sys2Proof.Machine.execRcl w e c s
  | .rcr w e c => Sys2Proof.Machine.execRcr w e c s
  | .shl w e c => Sys2Proof.Machine.execShl w e c s
  | .shr w e c => Sys2Proof.Machine.execShr w e c s
  | .setmo w e c => Sys2Proof.Machine.execSetmo w e c s
  | .sar w e c => Sys2Proof.Machine.execSar w e c s
  -- spec/43_data_transfer.md
  | .movRmReg w e g => Sys2Proof.Machine.execMovRmReg w e g s
  | .movRegRm w g e => Sys2Proof.Machine.execMovRegRm w g e s
  | .movRmImm8 ext e v => Sys2Proof.Machine.execMovRmImm8 ext e v s
  | .movRmImm16 ext e v => Sys2Proof.Machine.execMovRmImm16 ext e v s
  | .movRegImm8 g v => Sys2Proof.Machine.execMovRegImm8 g v s
  | .movRegImm16 g v => Sys2Proof.Machine.execMovRegImm16 g v s
  | .movAccMem w off => Sys2Proof.Machine.execMovAccMem w off s
  | .movMemAcc w off => Sys2Proof.Machine.execMovMemAcc w off s
  | .movRmSeg high e r => Sys2Proof.Machine.execMovRmSeg high e r s
  | .movSegRm high r e => Sys2Proof.Machine.execMovSegRm high r e s
  | .pushReg g => Sys2Proof.Machine.execPushReg g s
  | .pushRm high e => Sys2Proof.Machine.execPushRm high e s
  | .pushSeg r => Sys2Proof.Machine.execPushSeg r s
  | .popReg g => Sys2Proof.Machine.execPopReg g s
  | .popRm ext e => Sys2Proof.Machine.execPopRm ext e s
  | .popSeg r => Sys2Proof.Machine.execPopSeg r s
  | .pushf => Sys2Proof.Machine.execPushf s
  | .popf => Sys2Proof.Machine.execPopf s
  | .xchgRm w e g => Sys2Proof.Machine.execXchgRm w e g s
  | .xchgAx g => Sys2Proof.Machine.execXchgAx g s
  | .lea g e => Sys2Proof.Machine.execLea g e s
  | .lds g e => Sys2Proof.Machine.execLds g e s
  | .les g e => Sys2Proof.Machine.execLes g e s
  | .xlat => Sys2Proof.Machine.execXlat s
  | .lahf => Sys2Proof.Machine.execLahf s
  | .sahf => Sys2Proof.Machine.execSahf s
  | .cbw => Sys2Proof.Machine.execCbw s
  | .cwd => Sys2Proof.Machine.execCwd s
  | .inImm w port => Sys2Proof.Machine.execInImm w port s
  | .inDx w => Sys2Proof.Machine.execInDx w s
  | .outImm w port => Sys2Proof.Machine.execOutImm w port s
  | .outDx w => Sys2Proof.Machine.execOutDx w s
  -- spec/44_string.md
  | .movsb => Sys2Proof.Machine.execMovsb s
  | .movsw => Sys2Proof.Machine.execMovsw s
  | .cmpsb => Sys2Proof.Machine.execCmpsb s
  | .cmpsw => Sys2Proof.Machine.execCmpsw s
  | .stosb => Sys2Proof.Machine.execStosb s
  | .stosw => Sys2Proof.Machine.execStosw s
  | .lodsb => Sys2Proof.Machine.execLodsb s
  | .lodsw => Sys2Proof.Machine.execLodsw s
  | .scasb => Sys2Proof.Machine.execScasb s
  | .scasw => Sys2Proof.Machine.execScasw s
  -- spec/45_control_transfer.md
  | .jo low d => Sys2Proof.Machine.execJo low d s
  | .jno low d => Sys2Proof.Machine.execJno low d s
  | .jb low d => Sys2Proof.Machine.execJb low d s
  | .jnb low d => Sys2Proof.Machine.execJnb low d s
  | .jz low d => Sys2Proof.Machine.execJz low d s
  | .jnz low d => Sys2Proof.Machine.execJnz low d s
  | .jbe low d => Sys2Proof.Machine.execJbe low d s
  | .ja low d => Sys2Proof.Machine.execJa low d s
  | .js low d => Sys2Proof.Machine.execJs low d s
  | .jns low d => Sys2Proof.Machine.execJns low d s
  | .jp low d => Sys2Proof.Machine.execJp low d s
  | .jnp low d => Sys2Proof.Machine.execJnp low d s
  | .jl low d => Sys2Proof.Machine.execJl low d s
  | .jge low d => Sys2Proof.Machine.execJge low d s
  | .jle low d => Sys2Proof.Machine.execJle low d s
  | .jg low d => Sys2Proof.Machine.execJg low d s
  | .loopnz d => Sys2Proof.Machine.execLoopnz d s
  | .loopz d => Sys2Proof.Machine.execLoopz d s
  | .loop d => Sys2Proof.Machine.execLoop d s
  | .jcxz d => Sys2Proof.Machine.execJcxz d s
  | .jmpShort d => Sys2Proof.Machine.execJmpShort d s
  | .jmpNear d => Sys2Proof.Machine.execJmpNear d s
  | .jmpFar off seg => Sys2Proof.Machine.execJmpFar off seg s
  | .jmpRm e => Sys2Proof.Machine.execJmpRm e s
  | .jmpFarRm e => Sys2Proof.Machine.execJmpFarRm e s
  | .callNear d => Sys2Proof.Machine.execCallNear d s
  | .callFar off seg => Sys2Proof.Machine.execCallFar off seg s
  | .callRm e => Sys2Proof.Machine.execCallRm e s
  | .callFarRm e => Sys2Proof.Machine.execCallFarRm e s
  | .ret low => Sys2Proof.Machine.execRet low s
  | .retImm low v => Sys2Proof.Machine.execRetImm low v s
  | .retf low => Sys2Proof.Machine.execRetf low s
  | .retfImm low v => Sys2Proof.Machine.execRetfImm low v s
  | .int3 => Sys2Proof.Machine.execInt3 s
  | .intN n => Sys2Proof.Machine.execIntN n s
  | .into => Sys2Proof.Machine.execInto s
  | .iret => Sys2Proof.Machine.execIret s
  -- spec/46_processor_control.md
  | .salc => Sys2Proof.Machine.execSalc s
  | .nop => Sys2Proof.Machine.execNop s
  | .hlt => Sys2Proof.Machine.execHlt s
  | .wait => Sys2Proof.Machine.execWait s
  | .cmc => Sys2Proof.Machine.execCmc s
  | .clc => Sys2Proof.Machine.execClc s
  | .stc => Sys2Proof.Machine.execStc s
  | .cli => Sys2Proof.Machine.execCli s
  | .sti => Sys2Proof.Machine.execSti s
  | .cld => Sys2Proof.Machine.execCld s
  | .std => Sys2Proof.Machine.execStd s
  | .esc op reg e => Sys2Proof.Machine.execEsc op reg e s
  | .segEs => Sys2Proof.Machine.execSegEs s
  | .segCs => Sys2Proof.Machine.execSegCs s
  | .segSs => Sys2Proof.Machine.execSegSs s
  | .segDs => Sys2Proof.Machine.execSegDs s
  | .lock => Sys2Proof.Machine.execLock s
  | .lockAlias => Sys2Proof.Machine.execLockAlias s
  | .repnz => Sys2Proof.Machine.execRepnz s
  | .rep => Sys2Proof.Machine.execRep s
  | .fe2 e => Sys2Proof.Machine.execFe2 e s
  | .fe3 e => Sys2Proof.Machine.execFe3 e s
  | .fe4 e => Sys2Proof.Machine.execFe4 e s
  | .fe5 e => Sys2Proof.Machine.execFe5 e s
  | .fe6 e => Sys2Proof.Machine.execFe6 e s
  | .fe7 e => Sys2Proof.Machine.execFe7 e s

end Sys2Proof.Machine
end

