-- ==== Sys2Proof/Machine/HostOps.lean ====
section
/-! DEFINITION. What the host does between steps (70_reset_and_hazards.md R560, R590, 20_memory.md R87). -/

namespace Sys2Proof.Machine

/-! ### Memory from the host's side -/

/-- The mask flags by name (10_state.md R37). -/
inductive MaskName where
  | rom
  | mmio
  | breakExec
  | stopwatch
  | returnMark
deriving DecidableEq, Repr

def MaskFlags.get (f : MaskFlags) : MaskName → Bool
  | .rom => f.rom
  | .mmio => f.mmio
  | .breakExec => f.breakExec
  | .stopwatch => f.stopwatch
  | .returnMark => f.returnMark

def MaskFlags.set (f : MaskFlags) (v : Bool) : MaskName → MaskFlags
  | .rom => { f with rom := v }
  | .mmio => { f with mmio := v }
  | .breakExec => { f with breakExec := v }
  | .stopwatch => { f with stopwatch := v }
  | .returnMark => { f with returnMark := v }

/-- `get_flag(addr, mask)` (R87). -/
def Board.getFlag (b : Board) (a : Nat) (n : MaskName) : Bool := (Mask.read b.mask a).get n

/-- A write of one byte or one mask entry by the host; out of range it is an error and changes nothing (R85). -/
def Board.hostWrite (b : Board) (a : Nat) (f : Board → Board) : Board :=
  if a < memSize then f b else b.emit (.writeOutOfBounds a)

/-- `set_flag(addr, mask)` (R87). -/
def Board.setFlag (b : Board) (a : Nat) (n : MaskName) : Board :=
  b.hostWrite a fun b => { b with mask := Mask.write b.mask a ((Mask.read b.mask a).set true n) }

/-- `clear_flag(addr, mask)` (R87): the ROM bit may not be cleared. -/
def Board.clearFlag (b : Board) (a : Nat) (n : MaskName) : Board :=
  if n = .rom then b
  else b.hostWrite a fun b => { b with mask := Mask.write b.mask a ((Mask.read b.mask a).set false n) }

/-- The privileged patch path (R87): a byte is written in place, ROM or not. R590 gives the host no move for it. -/
def Board.patch (b : Board) (a : Nat) (v : Byte) : Board :=
  b.hostWrite a fun b => { b with mem := Memory.write b.mem a v }

/-- One byte of `copy_from` (R87): written whatever the ROM flag says; `readOnly` sets it. -/
def Board.loadByte (readOnly : Bool) (a : Nat) (v : Byte) (b : Board) : Board :=
  b.hostWrite a fun b =>
    { b with mem := Memory.write b.mem a v,
             mask := if readOnly then Mask.write b.mask a { Mask.read b.mask a with rom := true } else b.mask }

/-- `copy_from` (R87). -/
def copyBytes (readOnly : Bool) : List Byte → Nat → Board → Board
  | [], _, b => b
  | v :: rest, a, b => copyBytes readOnly rest (a + 1) (b.loadByte readOnly a v)

/-- Load the ROM image (R560). -/
def loadRom : List (Nat × Byte) → Board → Board
  | [], b => b
  | (a, v) :: rest, b => loadRom rest (b.loadByte true a v)

/-- Set the MMIO flag of the `n` addresses from `a` on. -/
def markMmio : Nat → Nat → List (Nat × MaskFlags) → List (Nat × MaskFlags)
  | 0, _, m => m
  | n + 1, a, m => markMmio n (a + 1) (Mask.write m a { Mask.read m a with mmio := true })

/-- Set the MMIO flags of the regions of `P_MMIO_MAP` (R560). -/
def markRegions : List (Nat × Option MmioDevice) → List (Nat × MaskFlags) → List (Nat × MaskFlags)
  | [], m => m
  | (r, _) :: rest, m => markRegions rest (markMmio 4096 (r * 4096) m)

/-! ### Reset (R560) -/

/-- The board after reset under parameters `p`, with the disks that are inserted; the ports registered twice are logged
(60_exceptions.md R548). -/
def Board.resetWith (p : Params) (kindA : DriveKind) (imA : Option DiskImage) (kindB : DriveKind)
    (imB : Option DiskImage) : Board :=
  let b : Board :=
    { params := p, pc := 0, queue := [], queueOp := .idle, bus := .reset, locked := false, mem := [], mask := [],
      pic := .reset, dma := .reset, uart := .reset, driveA := .resetWith kindA imA, driveB := .resetWith kindB imB,
      draws := 0, slots := [], events := (Params.collisions p).map .portCollision, undescribed := none }
  let c := loadRom p.romImage b
  { c with mask := markRegions p.mmioMap c.mask }

/-- The machine right after reset under parameters `p` (R560), nothing inserted. -/
def State.resetWith (p : Params) : State :=
  { cpu := Cpu.resetWith p.resetGpr, board := Board.resetWith p .k360 none .k360 none, inputs := [], skipBp := false, started := false }

namespace State

/-- A reset of a running machine (R560): the parameters, the disks and the model's own schedule, counter, outbox and
note of what is not described stay. DESIGN CHOICE (log 5): bytes waiting in the serial port's receive queue are lost. -/
def hostReset (s : State) : State :=
  let b := s.board
  let c := Board.resetWith b.params b.driveA.kind b.driveA.image b.driveB.kind b.driveB.image
  { s with
    cpu := Cpu.resetWith b.params.resetGpr,
    board := { c with draws := b.draws, slots := b.slots, events := b.events ++ c.events, undescribed := b.undescribed },
    started := false }

end State

/-! ### The serial port's time (60_exceptions.md R531) -/

/-- The port runs for `us` microseconds: the timers accumulate and each elapsed byte time is one RX or TX step. A
divisor of 0 gives no time (R531), so nothing happens. DESIGN CHOICE (log 5): the RX steps come before the TX step. -/
def Board.uartRun (b : Board) (us : Nat) : Board :=
  let t := b.uart.byteTime
  if t = 0 then b
  else
    let rx := b.uart.rxTimer + us * b.params.uartClockHz
    let tx := b.uart.txTimer + us * b.params.uartClockHz
    let b1 := { b with uart := { b.uart with rxTimer := rx % t, txTimer := tx % t } }
    let b2 := iter Board.uartRx (min (rx / t) b1.uart.rxQueue.length) b1
    iter Board.uartTx (min (tx / t) 1) b2

/-! ### Host actions (R590) -/

namespace State

/-- One host action. `copy_from` is a move only before the first step (R590; log 41). DESIGN CHOICE (log 21): the drive
takes the type of the disk that is inserted. -/
def act (s : State) : HostAction → State
  | .reset => s.hostReset
  | .copyFrom bytes a ro =>
    s.setBoard (if s.started then { s.board with undescribed := some .copyFromRunning } else copyBytes ro bytes a s.board)
  | .setBreakpoint a on => s.setBoard (if on then s.board.setFlag a .breakExec else s.board.clearFlag a .breakExec)
  | .setStopwatch a on => s.setBoard (if on then s.board.setFlag a .stopwatch else s.board.clearFlag a .stopwatch)
  | .nmi => { s with cpu := { s.cpu with nmiLatch := true } }
  | .requestInterrupt n => s.setBoard (s.board.runEvent s.cpu.sregs.cs true (.requestInterrupt n))
  | .clearInterrupt n => s.setBoard (s.board.runEvent s.cpu.sregs.cs true (.clearInterrupt n))
  | .devicePeriod us evs => s.setBoard (evs.foldl (Board.runEvent s.cpu.sregs.cs true) (s.board.uartRun us))
  | .insertDisk d kind im =>
    s.setBoard (s.board.withDrive d { s.board.drive d with kind := kind, image := some im.sized })
  | .removeDisk d => s.setBoard (s.board.withDrive d { s.board.drive d with image := none })
  | .floppy d op => s.setBoard (s.board.runFloppy d op)
  | .serialIn bytes =>
    s.setBoard { s.board with uart := { s.board.uart with rxQueue := s.board.uart.rxQueue ++ bytes } }
  | .lineError p f k =>
    let u := s.board.uart
    s.setBoard { s.board with uart := { u with
      parityErr := u.parityErr || p, framingErr := u.framingErr || f, breakInd := u.breakInd || k } }
  | .modemLines c d r k =>
    let u := s.board.uart
    s.setBoard (s.board.driveUart (({ u with cts := c, dsr := d, ri := r, dcd := k }).noteModem u.modemIn))
  | .takeEvents => s.setBoard { s.board with events := [] }
  | .skipBreakpoint on => { s with skipBp := on }

/-- The host's actions before one step, in order. -/
def applyActions (s : State) (l : List HostAction) : State := l.foldl act s

end State

end Sys2Proof.Machine
end

