-- ==== Sys2Proof/Machine/Cycle.lean ====
section
/-! DEFINITION. One call of `step()` (60_exceptions.md sections 4, 5, 7): the host's actions before it, the halted
state, the debug check, fetching and admitting an instruction, running it, and the sampling of interrupts. -/

namespace Sys2Proof.Machine

/-! ### Kinds of instruction -/

/-- The prefix bytes (30_encoding.md R135, R408). -/
def isPrefix : Instr → Bool
  | .segEs | .segCs | .segSs | .segDs | .lock | .lockAlias | .repnz | .rep => true
  | _ => false

/-- The string instructions, A4 to A7 and AA to AF (46_processor_control.md R403). -/
def isString : Instr → Bool
  | .movsb | .movsw | .cmpsb | .cmpsw | .stosb | .stosw | .lodsb | .lodsw | .scasb | .scasw => true
  | _ => false

/-- MUL IMUL DIV IDIV (41_muldiv_bcd.md R231). -/
def isMulDiv : Instr → Bool
  | .mul _ _ | .imul _ _ | .div _ _ | .idiv _ _ => true
  | _ => false

/-- FE /2 to FE /7 and the register forms of FF /3 and FF /5: the spec gives them no semantics (R411, R413). -/
def lacksSemantics : Instr → Bool
  | .fe2 _ | .fe3 _ | .fe4 _ | .fe5 _ | .fe6 _ | .fe7 _ => true
  | .callFarRm e | .jmpFarRm e => e.isReg
  | _ => false

/-- Whether a repeat prefix before the instruction is admitted: always before a string instruction; never before
MUL IMUL DIV IDIV (R231); otherwise it is ignored under `P_UNDOC = execute` (R403). -/
def admitsRep (u : UndocChoice) (i : Instr) : Bool := isString i || (!isMulDiv i && u == .execute)

/-- Whether the instruction with its prefixes is admitted (R158, R159). -/
def admits (u : UndocChoice) (p : Prefixes) (i : Instr) : Bool :=
  !lacksSemantics i && (u == .execute || !i.undocumented) && (isPrefix i || p.rep.isNone || admitsRep u i)

/-- What the decode loop (30_encoding.md R162) has come to: the instruction behind its prefixes, with the state in which
its bytes are taken; only prefixes so far; or an end before an instruction could run. -/
inductive Taken where
  | instr (i : Instr) (t : State)
  | more (t : State)
  | stop (t : State) (o : Out)

/-- The state that has been reached. -/
def Taken.state : Taken → State
  | .instr _ t | .more t | .stop t _ => t

namespace State

/-! ### Sampling (R445) -/

/-- `step_finish()` (R445 to R451): at most one event is dispatched. -/
def stepFinish (s : State) : State :=
  if s.cpu.intInhibit then s
  else
    let intr := s.cpu.flags.intf && s.board.pic.query
    if s.cpu.inRep && intr then { s with cpu := { s.cpu with intrPending := true } }
    else if s.cpu.nmiLatch then ({ s with cpu := { s.cpu with nmiLatch := false } }).enter 2 s.ip
    else if intr then
      let a := s.board.pic.acknowledge
      (s.setBoard { s.board with pic := a.2 }).enter a.1 s.ip
    else if s.cpu.trapArmed then s.enter 1 s.ip
    else s

/-- One slot at an instruction boundary. -/
def boundarySlot (s : State) : State := s.setBoard (s.board.slot s.cpu.sregs.cs true)

/-- One slot inside an instruction, when its bytes are taken and nothing of it is done yet (20_memory.md R95). -/
def innerSlot (s : State) : State := s.setBoard (s.board.slot s.cpu.sregs.cs false)

/-- Discard the transient state (10_state.md R34). -/
def dropTransient (s : State) : State := { s with cpu := { s.cpu with pfx := .none, size := 0, loaded := none } }

/-- Retirement of an instruction, or of one iteration of a repeated one (44_string.md R328): the transient state is
discarded, the bus is let go (20_memory.md R103), the other agents get the boundary's slot, interrupts are sampled. -/
def retire (s : State) : State := ((s.setBoard { s.board with locked := false }).dropTransient.boundarySlot).stepFinish

/-! ### Running an instruction -/

/-- Run an admitted instruction, after a slot. -/
def finishExec (s : State) (i : Instr) : Out :=
  match exec i s.innerSlot with
  | .next t => .next t.retire
  | .fault f => s.innerSlot.fail f
  | .refused r => .refused r

/-- The EA-loading phase (30_encoding.md R144, R162): once `bs` holds the ModR/M and displacement bytes of a form with
immediate bytes, its memory operand is read. The forms without them read it when they execute. -/
def loadEarly (s : State) (bs : List Byte) : State :=
  match earlyLoad bs with
  | none => s
  | some (w, m) =>
    let v := (s.touch (.rm (.mem m))).rd w (s.easeg m) (s.ea m)
    { v.2 with cpu := { v.2.cpu with loaded := some (v.1.setWidth 16) } }

/-- Take one instruction byte and count it. -/
def takeCode (s : State) (op : QueueOp) : Byte × State :=
  let r := s.fetch8 op
  (r.1, { r.2 with cpu := { r.2.cpu with size := r.2.cpu.size + 1 } })

/-- Fetch one unit, an instruction without its prefixes or one prefix byte: bytes are taken until they decode
(30_encoding.md R132, R162). -/
def fetchUnit (s : State) (op : QueueOp) (acc : List Byte) : Nat → Option (Instr × State)
  | 0 =>
    match decode acc with
    | .ok (i, _) => some (i, s)
    | .error _ => none
  | n + 1 =>
    match decode acc with
    | .ok (i, _) => some (i, s)
    | .error _ =>
      let r := (s.loadEarly acc).takeCode op
      r.2.fetchUnit .subsequent (acc ++ [r.1]) n

/-- How many units the first attempt at an instruction takes, and how many more each further one (log 16). -/
def prefixFuel : Nat := 65536

/-- The decode loop (R162): at most `n` units, prefix bytes and then the instruction. There is no limit on prefix bytes
(R131). -/
def takeUnits (s : State) (op : QueueOp) : Nat → Taken
  | 0 => .more s
  | n + 1 =>
    match s.fetchUnit op [] 6 with
    | none => .stop s (s.fail (.executionError s.lastAddr))
    | some (i, t) =>
      if admits t.board.params.undoc t.cpu.pfx i then
        if isPrefix i then
          match exec i t with
          | .next u => u.takeUnits .subsequent n
          | .fault f => .stop t (.fault f)
          | .refused r => .stop t (.refused r)
        else .instr i t
      else .stop t (t.fail (.instructionDecodeError t.lastAddr))

/-- The units behind a first prefix byte. Where LOCK turns out to be among the prefixes, no DMA step falls after the
instruction's first bus cycle, prefixes included (20_memory.md R103): the units are then those taken with the bus held from
here on, without the DMA steps that the agents asked for (log 25). -/
def takeRest (s : State) (n : Nat) : Taken :=
  let r := s.takeUnits .subsequent n
  if r.state.cpu.pfx.lock then s.holdBus.takeUnits .subsequent n else r

/-- At most `n + 1` units of an instruction, from its first byte on. The slot before the first byte is taken is open to DMA,
though that byte be LOCK and be queued already: the prefetch that queued it is not counted as a bus cycle of the instruction
(DESIGN CHOICE, log 43). -/
def takeAll (s : State) (n : Nat) : Taken :=
  match s.takeUnits .first 1 with
  | .more t => t.takeRest n
  | .instr i t => .instr i t
  | .stop t o => .stop t o

/-- Take an instruction of at most `n + 1` units and run it. Where there are more, nothing of the instruction happens in this
step of the model: the next one takes it again from its first byte (log 16). -/
def attempt (s : State) (n : Nat) : Out :=
  match ({ s with cpu := { s.cpu with attempts := 0 } }).takeAll n with
  | .instr i t => t.finishExec i
  | .more _ => .next { s with cpu := { s.cpu with attempts := s.cpu.attempts + 1 } }
  | .stop _ o => o

/-- Step 3 of R444: `trap_armed <- TF; int_inhibit <- 0`, and the tag Okay, which the instruction's rule changes. No
byte has been taken from the queue yet (20_memory.md R98). -/
def beginStep (s : State) : State :=
  { s with cpu := { s.cpu with trapArmed := s.cpu.flags.tf, intInhibit := false, result := .okay },
           board := { s.board with queueOp := .idle } }

/-- Decode from the first byte: `last_cs` and `last_ip` are set (R162). There is no limit on prefix bytes: each further
attempt takes more of them. -/
def runFresh (s : State) : Out :=
  ({ s with cpu := { s.cpu with lastCs := s.sreg .cs, lastIp := s.ip } }).dropTransient.attempt
    (prefixFuel * (s.cpu.attempts + 1) - 1)

/-- The state in which the next iteration of a suspended repetition executes: the retained record is in force, a LOCK
among its prefixes holds the bus. -/
def resumeRep (s : State) (d : Decoded) : State :=
  { s with cpu := { s.cpu with pfx := d.pfx, size := d.size }, board := { s.board with locked := d.pfx.lock } }

/-- Steps 3 to 5 of R444. -/
def runStep (s : State) : Out :=
  let t := s.beginStep
  if t.cpu.inRep then
    match t.cpu.decoded with
    | some d => (t.resumeRep d).finishExec d.instr
    | none => t.fail (.executionError t.lastAddr)
  else t.runFresh

/-! ### The halted state and the debug check -/

/-- A halted step (R470, R472): the idle window, then sampling. With TF = 1 it has no meaning (R454). -/
def idleStep (s : State) : Out :=
  if s.cpu.flags.tf then .refused .haltedWithTrap
  else
    let t := iter boundarySlot s.board.params.idleWindow (s.setBoard { s.board with queueOp := .idle })
    .next ({ t with cpu := { t.cpu with trapArmed := false, intInhibit := false, result := .halt } }).stepFinish

/-- The mask flags of the next instruction's first byte. -/
def codeMask (s : State) : MaskFlags := Mask.read s.board.mask (phys (s.sreg .cs) s.ip)

/-- Steps 0 to 2 of R444; `skip` is the argument `skip_bp`. A stopwatch mark is noted only in a step that no breakpoint on the
same byte stops (DESIGN CHOICE, log 45: R540 gives no order of the two checks). -/
def stepCore (s : State) (skip : Bool) : Out :=
  match s.cpu.error with
  | some f => s.fail f
  | none =>
    if s.cpu.halted then s.idleStep
    else if s.cpu.inRep then s.runStep
    else if s.codeMask.breakExec && !skip then .next (s.setResult .breakpoint)
    else if s.codeMask.stopwatch then (s.setBoard (s.board.emit (.stopwatch (phys (s.sreg .cs) s.ip)))).runStep
    else s.runStep

/-- One call of `step(skip_bp)`, after the host's actions before it. -/
def wholeStep (s : State) : Out :=
  let t := s.applyActions (s.inputs.headD [])
  ({ t with inputs := s.inputs.tail, skipBp := false, started := true }).stepCore t.skipBp

end State

/-- A step in which something happened whose effect the spec does not give has no meaning: `Board.undescribed` says what
(log 42). -/
def described : Out → Out
  | .next t =>
    match t.board.undescribed with
    | none => .next t
    | some r => .refused r
  | .fault f => .fault f
  | .refused r => .refused r

/-- A step of the model: a call of `step()`, or a further attempt at the instruction of the call under way, before which the
host does not act (log 16). -/
def State.cycle (s : State) : Out := described (if s.cpu.attempts = 0 then s.wholeStep else s.runFresh)

end Sys2Proof.Machine
end

