-- ==== Sys2Proof/Machine/Step.lean ====
section
/-! DEFINITION. The step, and the placing of one instruction where it fetches. -/

namespace Sys2Proof.Machine

/-- One step of the machine. -/
def step (s : State) : Host.Outcome State Fault Refusal := s.cycle

/-- Put bytes at consecutive offsets of the code segment; their MMIO and breakpoint flags are cleared. -/
def placeBytes (cs : Word) : List Byte → Word → Board → Board
  | [], _, b => b
  | v :: rest, ip, b =>
    placeBytes cs rest (ip + 1)
      { b with mem := Memory.write b.mem (phys cs ip) v,
               mask := Mask.write b.mask (phys cs ip)
                 { Mask.read b.mask (phys cs ip) with mmio := false, breakExec := false } }

/-- The state with a table word stored where the next step fetches (log 14): at CS:IP, the queue empty, nothing
halted, suspended or scheduled before it. -/
def State.withFetchWord (s : State) (nbits w : Nat) : State :=
  { cpu := { s.cpu with halted := false, inRep := false, decoded := none, error := none, attempts := 0 },
    board := { placeBytes s.cpu.sregs.cs (tableBytes nbits w) s.ip s.board with
               queue := [], pc := s.ip, slots := [], undescribed := none },
    inputs := [], skipBp := false, started := s.started }

end Sys2Proof.Machine
end

