-- ==== Sys2Proof/Safety.lean ====
section
/-! DEFINITION. The terms in which statements speak: observing operands without side effects, the flag laws as
integer facts, what an instruction may change, the invariant of every step, and safe runs. -/

namespace Sys2Proof.Machine

/-! ### Observing -/

/-- No other agent acts before the coming bus cycles: the schedule is empty (log 10). -/
def State.Quiet (s : State) : Prop := s.board.slots = []

/-- Nothing is scheduled, and memory is in its canonical form, which every step keeps (`State.Inv`). -/
structure State.Calm (s : State) : Prop where
  quiet : s.Quiet
  mem   : Memory.wf s.board.mem = true

/-- The physical addresses of an access, in the order of the bytes (20_memory.md R75, R77, R79). -/
def byteAddrs (w : Width) (seg off : Word) : List Nat :=
  match w with
  | .byte => [phys seg off]
  | .word => [phys seg off, phys seg (off + 1)]

/-- The addresses an operand occupies. -/
def Place.addrs (w : Width) : Place → List Nat
  | .mem seg off => byteAddrs w seg off
  | .reg _ => []
  | .imm _ => []

/-- Reading these addresses reads `memory` (20_memory.md R80): none is MMIO. -/
def State.readable (s : State) (as : List Nat) : Bool := as.all fun a => !(Mask.read s.board.mask a).mmio

/-- Writing these addresses writes `memory` (20_memory.md R81): none is MMIO or ROM. -/
def State.writable (s : State) (as : List Nat) : Bool :=
  as.all fun a => !(Mask.read s.board.mask a).mmio && !(Mask.read s.board.mask a).rom

/-- `memory[a]` of a state. -/
def State.byteAt (s : State) (a : Nat) : Byte := Memory.read s.board.mem a

/-- The operand-width value in `memory` at `seg:off` (20_memory.md R77, R78). -/
def State.peek (s : State) (w : Width) (seg off : Word) : BitVec w.bits :=
  match w with
  | .byte => s.byteAt (phys seg off)
  | .word => mkWord (s.byteAt (phys seg off)) (s.byteAt (phys seg (off + 1)))

/-- The value of an operand, observed without side effects. -/
def State.val (s : State) (w : Width) : Place → BitVec w.bits
  | .reg g => s.reg w g
  | .mem seg off => s.peek w seg off
  | .imm v => v.setWidth w.bits

/-- The value that an instruction takes for an operand it loads: the one read before the immediate bytes were taken
(30_encoding.md R144), where there was one. -/
def State.loadedVal (s : State) (w : Width) (o : Operand) : BitVec w.bits :=
  match s.cpu.loaded with
  | some v => v.setWidth w.bits
  | none => s.val w (s.place o)

/-- The two halves of a word register, `(g, false)` the low one. -/
def wordHalves (g : GReg) : List (GReg × Bool) := [(g, false), (g, true)]

/-- The halves of `reg_w[g]` (10_state.md R22). -/
def regHalves (w : Width) (g : GReg) : List (GReg × Bool) :=
  match w with
  | .byte => [byteHome g]
  | .word => wordHalves g

/-- The value of one half of a word register. -/
def State.half (s : State) (h : GReg × Bool) : Byte := if h.2 then hiByte (s.reg16 h.1) else loByte (s.reg16 h.1)

/-- The nine flags by name. -/
inductive FlagName where
  | cf | pf | af | zf | sf | tf | intf | df | ovf
deriving DecidableEq, Repr

def Flags.get (f : Flags) : FlagName → Bool
  | .cf => f.cf | .pf => f.pf | .af => f.af | .zf => f.zf | .sf => f.sf
  | .tf => f.tf | .intf => f.intf | .df => f.df | .ovf => f.ovf

/-! ### Flag laws as integer facts -/

/-- An even number of ones in a byte. -/
def evenOnes (b : Byte) : Bool := (List.range 8).countP (fun i => b.getLsbD i) % 2 == 0

/-- SF, ZF, PF show the result `r` (00_scope.md section 7). -/
def SzpOf {n : Nat} (r : BitVec n) (f : Flags) : Prop :=
  f.sf = r.msb ∧ f.zf = decide (r = 0) ∧ f.pf = evenOnes (r.setWidth 8)

/-- An integer that an N-bit two's-complement number holds. -/
def FitsSigned (n : Nat) (x : Int) : Prop := -(2 : Int) ^ (n - 1) ≤ x ∧ x < 2 ^ (n - 1)

/-- The six status flags of `a + b + c` (40_alu.md R180). -/
def AddFlags {n : Nat} (a b : BitVec n) (c : Bool) (f : Flags) : Prop :=
  f.cf = decide (2 ^ n ≤ a.toNat + b.toNat + c.toNat) ∧
  f.af = decide (16 ≤ a.toNat % 16 + b.toNat % 16 + c.toNat) ∧
  (f.ovf = true ↔ ¬ FitsSigned n (a.toInt + b.toInt + c.toNat)) ∧
  SzpOf (a + b + BitVec.ofNat n c.toNat) f

/-- The six status flags of `a - b - c` (40_alu.md R181). -/
def SubFlags {n : Nat} (a b : BitVec n) (c : Bool) (f : Flags) : Prop :=
  f.cf = decide (a.toNat < b.toNat + c.toNat) ∧
  f.af = decide (a.toNat % 16 < b.toNat % 16 + c.toNat) ∧
  (f.ovf = true ↔ ¬ FitsSigned n (a.toInt - b.toInt - c.toNat)) ∧
  SzpOf (a - b - BitVec.ofNat n c.toNat) f

/-- The flags of a logical result that are not undefined (40_alu.md R182). -/
def LogicFlags {n : Nat} (r : BitVec n) (f : Flags) : Prop := f.cf = false ∧ f.ovf = false ∧ SzpOf r f

/-! ### What an instruction may change -/

/-- Whether a string instruction processes an element when it runs in this state (44_string.md R321, R328). -/
def State.iterates (s : State) : Bool :=
  match s.cpu.pfx.rep with
  | none => true
  | some _ => if s.cpu.inRep then !s.cpu.intrPending else s.reg16 .cx != 0

/-- Whether the instruction enters an interrupt handler in this state (60_exceptions.md R431). -/
def raises (i : Instr) (s : State) : Bool :=
  match i with
  | .int3 | .intN _ => true
  | .into => s.cpu.flags.ovf
  | .div w e => (s.divOutcome w e).isNone
  | .idiv w e => (s.idivOutcome w e).isNone
  | .aam base => base == 0
  | _ => false

def Operand.halves (w : Width) : Operand → List (GReg × Bool)
  | .rm (.reg g) => regHalves w g
  | .reg g => regHalves w g
  | .rm (.mem _) | .imm8 _ | .imm16 _ | .imm8s _ => []

/-- The halves of AX, or of DX and AX (41_muldiv_bcd.md R226). -/
def accHalves (w : Width) : List (GReg × Bool) :=
  match w with
  | .byte => wordHalves .ax
  | .word => wordHalves .ax ++ wordHalves .dx

/-- The registers a string instruction changes: its indexes, and CX under a repeat prefix. -/
def State.stringHalves (s : State) (own : List (GReg × Bool)) : List (GReg × Bool) :=
  if s.iterates then (if s.cpu.pfx.rep.isSome then wordHalves .cx ++ own else own) else []

/-- The halves of the general registers the instruction may change: its destinations and the registers the rules say
it also updates (SP, SI, DI, CX). -/
def changedHalves (i : Instr) (s : State) : List (GReg × Bool) :=
  if raises i s then wordHalves .sp
  else match i with
  | .add f | .or f | .adc f | .sbb f | .and f | .sub f | .xor f => f.dst.halves f.width
  | .incReg g | .decReg g => wordHalves g
  | .incRm w e | .decRm w e | .not w e | .neg w e => (Operand.rm e).halves w
  | .mul w _ | .imul w _ | .div w _ | .idiv w _ => accHalves w
  | .daa | .das => [(.ax, false)]
  | .aaa | .aas | .aam _ | .aad _ => wordHalves .ax
  | .rol w e c | .ror w e c | .rcl w e c | .rcr w e c | .shl w e c | .shr w e c | .setmo w e c | .sar w e c =>
    if s.count c = 0 then [] else (Operand.rm e).halves w
  | .movRmReg w e _ => (Operand.rm e).halves w
  | .movRegRm w g _ => regHalves w g
  | .movRmImm8 _ e _ => (Operand.rm e).halves .byte
  | .movRmImm16 _ e _ | .movRmSeg _ e _ => (Operand.rm e).halves .word
  | .movRegImm8 g _ => regHalves .byte g
  | .movRegImm16 g _ => wordHalves g
  | .movAccMem w _ => regHalves w .ax
  | .pushReg _ | .pushRm _ _ | .pushSeg _ | .pushf | .popf | .popSeg _ => wordHalves .sp
  | .popReg g => wordHalves .sp ++ wordHalves g
  | .popRm _ e => wordHalves .sp ++ (Operand.rm e).halves .word
  | .xchgRm w e g => (Operand.rm e).halves w ++ regHalves w g
  | .xchgAx g => wordHalves .ax ++ wordHalves g
  | .lea g _ | .lds g _ | .les g _ => wordHalves g
  | .xlat | .salc => [(.ax, false)]
  | .lahf | .cbw => [(.ax, true)]
  | .cwd => wordHalves .dx
  | .inImm w _ | .inDx w => regHalves w .ax
  | .movsb | .movsw | .cmpsb | .cmpsw => s.stringHalves (wordHalves .si ++ wordHalves .di)
  | .stosb | .stosw | .scasb | .scasw => s.stringHalves (wordHalves .di)
  | .lodsb => s.stringHalves ((.ax, false) :: wordHalves .si)
  | .lodsw => s.stringHalves (wordHalves .ax ++ wordHalves .si)
  | .loopnz _ | .loopz _ | .loop _ => wordHalves .cx
  | .callNear _ | .callFar _ _ | .callRm _ | .callFarRm _ => wordHalves .sp
  | .ret _ | .retImm _ _ | .retf _ | .retfImm _ _ | .iret => wordHalves .sp
  | _ => []

/-- The segment registers the instruction may change (10_state.md R24). -/
def changedSregs (i : Instr) (s : State) : List SReg :=
  if raises i s then [.cs]
  else match i with
  | .movSegRm _ r _ | .popSeg r => [r]
  | .lds _ _ => [.ds]
  | .les _ _ => [.es]
  | .jmpFar _ _ | .jmpFarRm _ | .callFar _ _ | .callFarRm _ | .retf _ | .retfImm _ _ | .iret => [.cs]
  | _ => []

def statusFlags : List FlagName := [.cf, .pf, .af, .zf, .sf, .ovf]

def allFlags : List FlagName := [.cf, .pf, .af, .zf, .sf, .tf, .intf, .df, .ovf]

/-- The flags the instruction may change, undefined results included (10_state.md R29). -/
def changedFlags (i : Instr) (s : State) : List FlagName :=
  if raises i s then [.tf, .intf]
  else match i with
  | .add _ | .or _ | .adc _ | .sbb _ | .and _ | .sub _ | .xor _ | .cmp _ | .test _ | .neg _ _ => statusFlags
  | .incReg _ | .incRm _ _ | .decReg _ | .decRm _ _ => [.pf, .af, .zf, .sf, .ovf]
  | .mul _ _ | .imul _ _ | .div _ _ | .idiv _ _ | .daa | .das | .aaa | .aas | .aam _ | .aad _ => statusFlags
  | .rol _ _ c | .ror _ _ c | .rcl _ _ c | .rcr _ _ c => if s.count c = 0 then [] else [.cf, .ovf]
  | .shl _ _ c | .shr _ _ c | .setmo _ _ c | .sar _ _ c => if s.count c = 0 then [] else statusFlags
  | .popf | .iret => allFlags
  | .sahf => [.cf, .pf, .af, .zf, .sf]
  | .cmpsb | .cmpsw | .scasb | .scasw => if s.iterates then statusFlags else []
  | .cmc | .clc | .stc => [.cf]
  | .cli | .sti => [.intf]
  | .cld | .std => [.df]
  | _ => []

/-- The `k` words a push sequence stores below SP. -/
def State.stackAddrs (s : State) : Nat → List Nat
  | 0 => []
  | k + 1 => s.stackAddrs k ++ byteAddrs .word (s.sreg .ss) (s.reg16 .sp - BitVec.ofNat 16 (2 * (k + 1)))

/-- The addresses the instruction stores to, computed by the functions its meaning uses. -/
def storedAddrs (i : Instr) (s : State) : List Nat :=
  if raises i s then s.stackAddrs 3
  else match i with
  | .add f | .or f | .adc f | .sbb f | .and f | .sub f | .xor f => (s.place f.dst).addrs f.width
  | .incRm w e | .decRm w e | .not w e | .neg w e => (s.place (.rm e)).addrs w
  | .rol w e c | .ror w e c | .rcl w e c | .rcr w e c | .shl w e c | .shr w e c | .setmo w e c | .sar w e c =>
    if s.count c = 0 then [] else (s.place (.rm e)).addrs w
  | .movRmReg w e _ | .xchgRm w e _ => (s.place (.rm e)).addrs w
  | .movRmImm8 _ e _ => (s.place (.rm e)).addrs .byte
  | .movRmImm16 _ e _ | .movRmSeg _ e _ | .popRm _ e => (s.place (.rm e)).addrs .word
  | .movMemAcc w off => byteAddrs w (s.segFor .ds) off
  | .pushReg _ | .pushRm _ _ | .pushSeg _ | .pushf | .callNear _ | .callRm _ => s.stackAddrs 1
  | .callFar _ _ | .callFarRm _ => s.stackAddrs 2
  | .movsb | .stosb => if s.iterates then byteAddrs .byte (s.sreg .es) (s.reg16 .di) else []
  | .movsw | .stosw => if s.iterates then byteAddrs .word (s.sreg .es) (s.reg16 .di) else []
  | _ => []

/-- The instructions whose taken form goes elsewhere than to the next instruction (10_state.md R45). -/
def mayTransfer : Instr → Bool
  | .jo _ _ | .jno _ _ | .jb _ _ | .jnb _ _ | .jz _ _ | .jnz _ _ | .jbe _ _ | .ja _ _ => true
  | .js _ _ | .jns _ _ | .jp _ _ | .jnp _ _ | .jl _ _ | .jge _ _ | .jle _ _ | .jg _ _ => true
  | .loopnz _ | .loopz _ | .loop _ | .jcxz _ => true
  | .jmpShort _ | .jmpNear _ | .jmpFar _ _ | .jmpRm _ | .jmpFarRm _ => true
  | .callNear _ | .callFar _ _ | .callRm _ | .callFarRm _ => true
  | .ret _ | .retImm _ _ | .retf _ | .retfImm _ _ | .int3 | .intN _ | .into | .iret => true
  | .wait => true
  | _ => false

/-- The memory operand of a ModR/M byte, whose address goes to `last_ea` (30_encoding.md R143). -/
def RM.memOf : RM → Option Mem
  | .mem m => some m
  | .reg _ => none

def Operand.memOf : Operand → Option Mem
  | .rm e => RM.memOf e
  | .reg _ | .imm8 _ | .imm16 _ | .imm8s _ => none

def memOperand : Instr → Option Mem
  | .add f | .or f | .adc f | .sbb f | .and f | .sub f | .xor f | .cmp f => f.dst.memOf <|> f.src.memOf
  | .test f => f.dst.memOf
  | .incRm _ e | .decRm _ e | .not _ e | .neg _ e | .mul _ e | .imul _ e | .div _ e | .idiv _ e => RM.memOf e
  | .rol _ e _ | .ror _ e _ | .rcl _ e _ | .rcr _ e _ | .shl _ e _ | .shr _ e _ | .setmo _ e _ | .sar _ e _ => RM.memOf e
  | .movRmReg _ e _ | .movRegRm _ _ e | .movRmImm8 _ e _ | .movRmImm16 _ e _ => RM.memOf e
  | .movRmSeg _ e _ | .movSegRm _ _ e | .pushRm _ e | .popRm _ e => RM.memOf e
  | .xchgRm _ e _ | .lea _ e | .lds _ e | .les _ e | .esc _ _ e => RM.memOf e
  | .jmpRm e | .jmpFarRm e | .callRm e | .callFarRm e => RM.memOf e
  | _ => none

/-- IN and OUT. -/
def isPortAccess : Instr → Bool
  | .inImm _ _ | .inDx _ | .outImm _ _ | .outDx _ => true
  | _ => false

/-- The instructions after which interrupts are not sampled (60_exceptions.md R451). -/
def setsInhibit : Instr → Bool
  | .movSegRm _ _ _ | .popSeg _ | .sti => true
  | _ => false

/-! ### LOCK -/

/-- No DMA transfer happened on a channel: its registers are as before, but that a request can have come; one that stood
has not been served (60_exceptions.md R495). -/
def DmaChannel.Untouched (c d : DmaChannel) : Prop :=
  d = { c with request := d.request, soft := d.soft } ∧ (c.request = true → d.request = true)

/-! ### Control transfers -/

/-- The state is that after a taken transfer to `cs:ip` (45_control_transfer.md R340, 20_memory.md R97). -/
structure State.JumpedTo (t : State) (cs ip : Word) : Prop where
  cs      : t.sreg .cs = cs
  ip      : t.board.pc = ip
  queue   : t.board.queue = []
  flushed : t.board.queueOp = .flush
  result  : t.cpu.result = .okayJump

/-- The word at `SS:SP - k` as the stack pointer of `s` counts. -/
def State.stackWord (t s : State) (k : Nat) : Word :=
  t.peek .word (s.sreg .ss) (s.reg16 .sp - BitVec.ofNat 16 k)

/-- `t` is `s` after entering handler `n` with return offset `ret` (60_exceptions.md R440): FLAGS, CS and `ret` on the
stack, IF and TF clear, control at the far pointer in vector `n`, no repetition and no halt. -/
structure Entered (t s : State) (n : Byte) (ret : Word) : Prop where
  sp     : t.reg16 .sp = s.reg16 .sp - 6
  flags  : t.stackWord s 2 = s.cpu.flags.word
  cs     : t.stackWord s 4 = s.sreg .cs
  ip     : t.stackWord s 6 = ret
  masked : t.cpu.flags = { s.cpu.flags with intf := false, tf := false }
  target : t.sreg .cs = t.peek .word 0 (4 * n.setWidth 16 + 2) ∧ t.board.pc = t.peek .word 0 (4 * n.setWidth 16)
  queue  : t.board.queue = []
  awake  : t.cpu.inRep = false ∧ t.cpu.halted = false

/-- The four bytes of vector `n` (60_exceptions.md R430). -/
def vectorAddrs (n : Byte) : List Nat :=
  byteAddrs .word 0 (4 * n.setWidth 16) ++ byteAddrs .word 0 (4 * n.setWidth 16 + 2)

/-- Entering handler `n` goes through ordinary memory: three words can be pushed and the vector read. -/
def State.canEnter (s : State) (n : Byte) : Bool := s.writable (s.stackAddrs 3) && s.readable (vectorAddrs n)

/-- The bytes of the `k` words above SP. -/
def State.popAddrs (s : State) : Nat → List Nat
  | 0 => []
  | k + 1 => s.popAddrs k ++ byteAddrs .word (s.sreg .ss) (s.reg16 .sp + BitVec.ofNat 16 (2 * k))

/-- The `k`-th word above SP, counted from 0. -/
def State.popWord (s : State) (k : Nat) : Word := s.peek .word (s.sreg .ss) (s.reg16 .sp + BitVec.ofNat 16 (2 * k))

/-! ### Where an instruction stops -/

/-- The port or ports an IN or OUT uses (43_data_transfer.md R300, R301). -/
def portsOf (i : Instr) (s : State) : List Word :=
  let range (w : Width) (p : Word) : List Word := match w with
    | .byte => [p]
    | .word => [p, p + 1]
  match i with
  | .inImm w p | .outImm w p => range w (p.setWidth 16)
  | .inDx w | .outDx w => range w (s.reg16 .dx)
  | _ => []

/-- An access to the port has an effect in the spec: it is neither the floppy controller's (60_exceptions.md R522) nor
registered by two devices (93_implementation_defined.md section 3). -/
def Params.answers (p : Params) (port : Word) : Bool :=
  Params.owner p port != .floppy && Params.owner p port != .shared

/-- The instruction does not complete: an encoding without semantics (46_processor_control.md R411, R413), HLT with
IF = 0 (60_exceptions.md R471), a port that does not answer. -/
def stops (i : Instr) (s : State) : Bool :=
  lacksSemantics i || (i == .hlt && !s.cpu.flags.intf) ||
    (portsOf i s).any fun p => !Params.answers s.board.params p

/-! ### The invariant of every step -/

/-- What every step keeps, of the board: memory and mask array in canonical form (10_state.md R36, R37), at most 4
queued bytes (R31), the bus idle and unlocked between steps (R32), the serial port's output driven into the PIC
(60_exceptions.md R532), the unused bits of the device registers 0 (R487, R528, R526), every sector of an inserted disk
`128 << N` bytes long (R510). -/
structure Board.Inv (b : Board) : Prop where
  mem      : Memory.wf b.mem = true
  mask     : Mask.wf b.mask = true
  queue    : b.queue.length ≤ queueCap
  tState   : b.bus.tState = .ti
  inFlight : b.bus.inFlight = false
  irqOut   : b.uart.irqOut = b.uart.irqLevel
  ier      : b.uart.ier &&& 0xF0 = 0
  mcr      : b.uart.mcr &&& 0xE0 = 0
  vector   : b.pic.vectorBase &&& 7 = 0
  diskA    : ∀ im, b.driveA.image = some im → im.isSized = true
  diskB    : ∀ im, b.driveB.image = some im → im.isSized = true

/-- What every step keeps. A suspended repetition is a string instruction with a repeat prefix, only then is a decoded
record kept (R33, 44_string.md R321), and only then can an INTR be deferred (60_exceptions.md R450). The transient state
is empty (R34), and the bus is not held between steps (20_memory.md R103, 44_string.md R328). What is attempted again
(log 16) is neither a suspended repetition nor the halted state. -/
structure State.Inv (s : State) : Prop where
  board    : s.board.Inv
  described : s.board.undescribed = none
  locked   : s.board.locked = false
  transient : s.cpu.pfx = .none ∧ s.cpu.size = 0
  loaded   : s.cpu.loaded = none
  again    : s.cpu.attempts ≠ 0 → s.cpu.inRep = false ∧ s.cpu.halted = false
  error    : s.cpu.error = none
  fresh    : s.cpu.inRep = false → s.cpu.decoded = none
  suspended : s.cpu.inRep = true → ∃ d, s.cpu.decoded = some d ∧ isString d.instr = true ∧ d.pfx.rep.isSome = true ∧
    d.loadsEa = d.instr.loadsEa
  deferred : s.cpu.intrPending = true → s.cpu.inRep = true
  awake    : s.cpu.halted = true → s.cpu.inRep = false

/-! ### Fetching -/

/-- The `k`-th coming instruction byte: from the queue, then from memory at CS:PC (20_memory.md R96). -/
def State.codeByte (s : State) (k : Nat) : Byte :=
  match s.board.queue[k]? with
  | some b => b
  | none => s.byteAt (phys (s.sreg .cs) (s.ipNext + BitVec.ofNat 16 k))

/-- The coming instruction bytes are `bs`; those not yet queued are read from memory. -/
def State.Fetches (s : State) (bs : List Byte) : Prop :=
  ∀ k, k < bs.length → bs[k]? = some (s.codeByte k) ∧
    (s.board.queue.length ≤ k →
      (Mask.read s.board.mask (phys (s.sreg .cs) (s.ipNext + BitVec.ofNat 16 k))).mmio = false)

/-- The next step starts an instruction: nothing is halted, suspended, attempted before or in error, the host does nothing
first, and the debugger's flags of the first byte are clear (60_exceptions.md R444, R540). -/
structure State.Ready (s : State) : Prop where
  error  : s.cpu.error = none
  awake  : s.cpu.halted = false
  fresh  : s.cpu.inRep = false
  host   : s.inputs.headD [] = []
  break' : s.codeMask.breakExec = false
  watch  : s.codeMask.stopwatch = false
  whole  : s.cpu.attempts = 0
  described : s.board.undescribed = none

/-- The state in which the instruction `i` of `n` bytes, prefixes `p` included, executes, but for the pins and the queue
operation: the bytes are taken, `last_cs` and `last_ip` set, `trap_armed` and `int_inhibit` set as step 3 of R444 says, and
the memory operand of a form with immediate bytes is loaded (30_encoding.md R144). -/
structure State.FetchedFrom (u s : State) (i : Instr) (n : Nat) (p : Prefixes) : Prop where
  cpu    : u.cpu = { s.cpu with lastCs := s.sreg .cs, lastIp := s.ipNext, pfx := p, trapArmed := s.cpu.flags.tf,
                                intInhibit := false, result := .okay, size := n, loaded := u.cpu.loaded,
                                lastEa := match i.memImm with
                                  | some (_, m) => s.ea m
                                  | none => s.cpu.lastEa }
  board  : u.board = { s.board with queue := s.board.queue.drop n, pc := s.board.pc + BitVec.ofNat 16 (n - s.board.queue.length),
                                    queueOp := u.board.queueOp, bus := u.board.bus, locked := s.board.locked || p.lock,
                                    draws := u.board.draws, events := u.board.events }
  loaded : match i.memImm with
    | none => u.cpu.loaded = none ∧ u.board.draws = s.board.draws ∧ u.board.events = s.board.events
    | some (w, m) =>
      let seg := s.sreg (p.seg.getD m.seg)
      u.cpu.loaded.isSome = true ∧
        (s.readable (byteAddrs w seg (s.ea m)) = true →
          u.cpu.loaded = some ((s.peek w seg (s.ea m)).setWidth 16) ∧ u.board.draws = s.board.draws ∧
            u.board.events = s.board.events)
  ip     : u.ipNext = s.ipNext + BitVec.ofNat 16 n
  host   : u.inputs = s.inputs.tail ∧ u.skipBp = false ∧ u.started = true

/-- The prefixes after a prefix byte (30_encoding.md R135, R161). -/
def Prefixes.after (p : Prefixes) : Instr → Prefixes
  | .segEs => { p with seg := some .es }
  | .segCs => { p with seg := some .cs }
  | .segSs => { p with seg := some .ss }
  | .segDs => { p with seg := some .ds }
  | .lock | .lockAlias => { p with lock := true }
  | .repnz => { p with rep := some .repnz }
  | .rep => { p with rep := some .repz }
  | _ => p

/-! ### Runs -/

/-- What `k` steps come to. -/
def State.after (s : State) : Nat → Out
  | 0 => .next s
  | k + 1 =>
    match step s with
    | .next t => t.after k
    | .fault f => .fault f
    | .refused r => .refused r

/-- A state from which `k` steps run without a fault or a refusal. -/
def SafeRun : Nat → State → Prop
  | 0, _ => True
  | k + 1, s => ∃ t, step s = .next t ∧ SafeRun k t

/-- The meaning of one instruction applied `k` times, as the steps of a suspended repetition apply it. -/
def runExec (i : Instr) : Nat → State → Out
  | 0, s => .next s
  | k + 1, s =>
    match exec i s with
    | .next t => runExec i k t
    | .fault f => .fault f
    | .refused r => .refused r

end Sys2Proof.Machine
end

