-- ==== Sys2Proof/Certificates/Slice0/Obligations.lean ====
section
/-! DEFINITION. The statements for the provers. Each docstring names the rules of spec/ it rests on. -/

open Sys2Proof Sys2Proof.Machine

/-! ### Encoding -/

/-- 30_encoding.md R162, R165: decoding the bytes of a well-formed instruction gives it back and leaves the rest.
The opcode map is decision D1. -/
def Obligations.DecodeOfEncode : Prop :=
  ∀ (i : Instr) (rest : List Byte), i.wf = true → decode (encode i ++ rest) = .ok (i, rest)

/-- 30_encoding.md R165: no two instructions share bytes; what is decoded is well formed and encodes back. The
opcode map is decision D1. -/
def Obligations.EncodeOfDecode : Prop :=
  ∀ (bs : List Byte) (i : Instr) (rest : List Byte), decode bs = .ok (i, rest) → i.wf = true ∧ encode i ++ rest = bs

/-- 30_encoding.md R131, R135, R150, R165: one to six bytes without prefixes, a prefix one byte; every opcode byte
has a row, so six bytes always decode. The opcode map is decision D1. -/
def Obligations.EncodingLengths : Prop :=
  (∀ i : Instr, i.wf = true →
    1 ≤ (encode i).length ∧ (encode i).length ≤ 6 ∧ (isPrefix i = true → (encode i).length = 1)) ∧
  ∀ bs : List Byte, 6 ≤ bs.length → ∃ i rest, decode bs = .ok (i, rest)

/-- Words written out from the encodings of 40_alu.md R185, 41_muldiv_bcd.md R227, 42_shift_rotate.md R255,
43_data_transfer.md R271, R292, 44_string.md R322, 45_control_transfer.md R343, R359, 46_processor_control.md R402.
The opcode map is decision D1. -/
def Obligations.DecodedWords : Prop :=
  decode [0x01, 0xD8] = .ok (.add (.rmReg .word (.reg .ax) .bx), []) ∧
  decode [0xF7, 0xE9] = .ok (.imul .word (.reg .cx), []) ∧
  decode [0xD3, 0xE0] = .ok (.shl .word (.reg .ax) .cl, []) ∧
  decode [0xC7, 0x06, 0x00, 0x02, 0x34, 0x12] = .ok (.movRmImm16 0 (.mem (.direct 0x0200)) 0x1234, []) ∧
  decode [0x8D, 0x40, 0x05] = .ok (.lea .ax (.mem (.disp8 .bxsi 5)), []) ∧
  decode [0xF3, 0xA4] = .ok (.rep, [0xA4]) ∧ decode [0xA4] = .ok (.movsb, []) ∧
  decode [0xEA, 0x00, 0x00, 0xFF, 0xFF] = .ok (.jmpFar 0x0000 0xFFFF, []) ∧
  decode [0x74, 0xFC] = .ok (.jz false 0xFC, []) ∧
  decode [0x26, 0x8A, 0x07] = .ok (.segEs, [0x8A, 0x07]) ∧
  decode [0x8A, 0x07] = .ok (.movRegRm .byte .ax (.mem (.noDisp .bx)), [])

/-! ### Reset -/

/-- 70_reset_and_hazards.md R560, 10_state.md R43, for every value of the parameters: every row of R43's table that gives
a value, memory and the mask array apart (`ResetMemory`). The general registers are `P_RESET_GPR`; values that R43
leaves unspecified are not stated here. The values rest on decisions D6, D27, D28, D29, D30. -/
def Obligations.ResetRegisters : Prop :=
  State.reset = State.resetWith Params.initial ∧
  ∀ p : Params,
    let s := State.resetWith p
    let g := p.resetGpr
    let u := s.board.uart
    let stopped (d : Drive) : Prop := d.motorOn = false ∧ d.ready = false ∧ d.cyl = 0 ∧ d.head = 0 ∧ d.sector = 1
    s.cpu.regs = ⟨g.ax, g.cx, g.dx, g.bx, g.sp, g.bp, g.si, g.di⟩ ∧
    s.cpu.sregs = ⟨0, 0xFFFF, 0, 0⟩ ∧ s.ip = 0 ∧ s.board.pc = 0 ∧
    s.cpu.flags = ⟨false, false, false, false, false, false, false, false, false⟩ ∧ s.cpu.flags.word = 0xF002 ∧
    s.board.queue = [] ∧ s.board.queueOp = .idle ∧
    s.board.bus.tState = .ti ∧ s.board.bus.ale = false ∧ s.board.bus.waitCycles = 0 ∧ s.board.bus.inFlight = false ∧
    s.cpu.halted = false ∧ s.cpu.inRep = false ∧ s.cpu.intrPending = false ∧ s.cpu.error = none ∧
    s.cpu.nmiLatch = false ∧ s.cpu.trapArmed = false ∧ s.cpu.intInhibit = false ∧
    s.board.pic.irr = 0 ∧ s.board.pic.isr = 0 ∧ s.board.pic.lowestPrio = 7 ∧ s.board.pic.autoEoi = false ∧
    (∀ n, (s.board.dma.get n).masked = true ∧ (s.board.dma.get n).tc = false ∧ (s.board.dma.get n).tcLatched = false ∧
      (s.board.dma.get n).request = false) ∧
    s.board.dma.flipflop = false ∧ s.board.dma.enable = true ∧ s.board.dma.rotating = false ∧
    stopped s.board.driveA ∧ stopped s.board.driveB ∧
    u.lcr = 0 ∧ u.ier = 0 ∧ u.mcr = 0 ∧ u.thr = none ∧ u.dr = false ∧
    u.actLine = false ∧ u.actRx = false ∧ u.actTx = false ∧ u.actModem = false ∧
    phys (s.sreg .cs) s.ip = 0xFFFF0

/-- 70_reset_and_hazards.md R560, 10_state.md R43: memory is zero but for the ROM image, which is ROM-locked, the MMIO
regions are marked, and the other three flags are clear. The last pair of the image with an address counts. -/
def Obligations.ResetMemory : Prop :=
  ∀ (p : Params) (a : Nat), a < memSize →
    let s := State.resetWith p
    s.byteAt a = ((p.romImage.reverse.lookup a).getD 0) ∧
    Mask.read s.board.mask a =
      { rom := (p.romImage.lookup a).isSome, mmio := (p.mmioMap.lookup (a / 4096)).isSome,
        breakExec := false, stopwatch := false, returnMark := false }

/-! ### A step -/

/-- 60_exceptions.md R444, 30_encoding.md R144, R162: a step runs the decoded instruction. -/
def Obligations.StepRunsDecoded : Prop :=
  ∀ (s : State) (i : Instr), s.Ready → s.Quiet → i.wf = true → isPrefix i = false →
    admits s.board.params.undoc .none i = true → s.Fetches (encode i) →
    ∃ u : State, u.FetchedFrom s i (encode i).length .none ∧
      step s = (match exec i u with
        | .next t => .next t.retire
        | .fault f => .fault f
        | .refused r => .refused r)

/-- 30_encoding.md R131, R135, R161, 46_processor_control.md R402: prefix bytes are consumed by the same
call of `step()`, the last of a class wins, and `last_ip` is the first of them. With fewer than `prefixFuel` of them the call
is one step of the model; with any number `n` of them it is `n / prefixFuel + 1` steps, which come to the same (log 16, a
DESIGN CHOICE). -/
def Obligations.StepRunsPrefixed : Prop :=
  ∀ (s : State) (ps : List Instr) (i : Instr), s.Ready → s.Quiet →
    (∀ p ∈ ps, isPrefix p = true ∧ admits s.board.params.undoc .none p = true) →
    i.wf = true → isPrefix i = false → admits s.board.params.undoc (ps.foldl Prefixes.after .none) i = true →
    s.Fetches (ps.flatMap encode ++ encode i) →
    ∃ u : State, u.FetchedFrom s i (ps.flatMap encode ++ encode i).length (ps.foldl Prefixes.after .none) ∧
      let run : Out := match exec i u with
        | .next t => .next t.retire
        | .fault f => .fault f
        | .refused r => .refused r
      (ps.length < State.prefixFuel → step s = run) ∧ s.after (ps.length / State.prefixFuel + 1) = run

/-- 30_encoding.md R158, R159, 41_muldiv_bcd.md R231, 46_processor_control.md R403, R408, R411, R413: an encoding that is
not admitted, the prefix byte F1 among them, is a decode fault at the address of its first byte, prefixes included.
Which encodings these are is decision D7. How many steps of the model one call of `step()` is, is log 16, a DESIGN CHOICE. -/
def Obligations.RefusedEncodingsFault : Prop :=
  ∀ (s : State) (ps : List Instr) (i : Instr), s.Ready → s.Quiet →
    (∀ p ∈ ps, isPrefix p = true ∧ admits s.board.params.undoc .none p = true) →
    i.wf = true → s.Fetches (ps.flatMap encode ++ encode i) →
    let rep := (ps.foldl Prefixes.after .none).rep
    (s.board.params.undoc = .fault ∧ i.undocumented = true ∨
      lacksSemantics i = true ∨
      rep.isSome = true ∧ isMulDiv i = true ∨
      s.board.params.undoc = .fault ∧ rep.isSome = true ∧ isString i = false ∧ isPrefix i = false) →
    let stop : Out := .fault (.instructionDecodeError (phys (s.sreg .cs) s.ipNext))
    (ps.length < State.prefixFuel → step s = stop) ∧ s.after (ps.length / State.prefixFuel + 1) = stop

/-- 60_exceptions.md R444 step 3, 44_string.md R321: while a repetition is suspended nothing is fetched or decoded. A LOCK
among the retained prefixes holds the bus for this iteration (44_string.md R328: "locks each iteration separately",
decision D33); that the hold begins before the slot in which the other agents act before the iteration is the model's
extent of it (log 25, DEDUCED). The slot itself is log 10; `described` and `fail` stop a step in which something without
a described effect happened (log 42). -/
def Obligations.SuspendedStepFetchesNothing : Prop :=
  ∀ (s : State) (d : Decoded), s.cpu.error = none → s.cpu.halted = false → s.cpu.inRep = true →
    s.cpu.decoded = some d → s.cpu.attempts = 0 → s.inputs.headD [] = [] →
    let u : State :=
      { cpu := { s.cpu with trapArmed := s.cpu.flags.tf, intInhibit := false, result := .okay, pfx := d.pfx,
                            size := d.size },
        board := { s.board with queueOp := .idle, locked := d.pfx.lock }, inputs := s.inputs.tail, skipBp := false,
        started := true }
    step s = described (match exec d.instr u.innerSlot with
      | .next t => .next t.retire
      | .fault f => u.innerSlot.fail f
      | .refused r => .refused r)

/-- 60_exceptions.md R470, R472: a halted step executes nothing; NMI, or INTR with IF = 1, ends the halt, and the
pushed IP is the offset after the HLT. The sampling in a halted step is decision D10. -/
def Obligations.HaltedStep : Prop :=
  ∀ s : State, s.cpu.error = none → s.cpu.halted = true → s.cpu.inRep = false → s.cpu.flags.tf = false →
    s.cpu.attempts = 0 → s.board.undescribed = none → s.inputs.headD [] = [] → s.Calm →
    ∃ t : State, step s = .next t ∧ t.cpu.result = .halt ∧
      (s.cpu.nmiLatch = false → (s.cpu.flags.intf && s.board.pic.query) = false →
        t.cpu.halted = true ∧ t.cpu.regs = s.cpu.regs ∧ t.cpu.sregs = s.cpu.sregs ∧ t.cpu.flags = s.cpu.flags ∧
        t.board = { s.board with queueOp := .idle }) ∧
      (s.cpu.nmiLatch = true → s.canEnter 2 = true → Entered t s 2 s.ipNext ∧ t.cpu.nmiLatch = false) ∧
      (s.cpu.nmiLatch = false → (s.cpu.flags.intf && s.board.pic.query) = true →
        s.canEnter s.board.pic.acknowledge.1 = true →
        Entered t s s.board.pic.acknowledge.1 s.ipNext ∧ t.board.pic = s.board.pic.acknowledge.2)

/-! ### Interrupts -/

/-- 60_exceptions.md R446 to R451: at a boundary NMI comes before INTR, INTR before the trap, at most one is taken,
an inhibited boundary takes none, and an INTR inside a repetition is deferred. It rests on decisions D12, D31, D32.
-/
def Obligations.BoundaryArbitration : Prop :=
  ∀ s : State, s.Calm →
    let intr := s.cpu.flags.intf && s.board.pic.query
    (s.cpu.intInhibit = true → s.stepFinish = s) ∧
    (s.cpu.intInhibit = false → s.cpu.inRep = true → intr = true →
      s.stepFinish = { s with cpu := { s.cpu with intrPending := true } }) ∧
    (s.cpu.intInhibit = false → (s.cpu.inRep && intr) = false → s.cpu.nmiLatch = true → s.canEnter 2 = true →
      Entered s.stepFinish s 2 s.ip ∧ s.stepFinish.cpu.nmiLatch = false ∧ s.stepFinish.board.pic = s.board.pic) ∧
    (s.cpu.intInhibit = false → s.cpu.inRep = false → s.cpu.nmiLatch = false → intr = true →
      s.canEnter s.board.pic.acknowledge.1 = true →
      Entered s.stepFinish s s.board.pic.acknowledge.1 s.ip ∧ s.stepFinish.board.pic = s.board.pic.acknowledge.2) ∧
    (s.cpu.intInhibit = false → s.cpu.nmiLatch = false → intr = false → s.cpu.trapArmed = true →
      s.canEnter 1 = true → Entered s.stepFinish s 1 s.ip ∧ s.stepFinish.board.pic = s.board.pic) ∧
    (s.cpu.nmiLatch = false → intr = false → s.cpu.trapArmed = false → s.stepFinish = s)

/-- 60_exceptions.md R440: what entering a handler leaves. -/
def Obligations.EntryFrame : Prop :=
  ∀ (s : State) (n : Byte) (ret : Word), s.Calm → s.canEnter n = true →
    Entered (s.enter n ret) s n ret ∧
    (∀ g, g ≠ GReg.sp → (s.enter n ret).reg16 g = s.reg16 g) ∧
    (∀ r, r ≠ SReg.cs → (s.enter n ret).sreg r = s.sreg r) ∧
    (∀ a, a ∉ s.stackAddrs 3 → (s.enter n ret).byteAt a = s.byteAt a)

/-- 60_exceptions.md R482 to R484: which level the controller presents (level `n` stands `n - lowest_prio - 1`
places from the top); the acknowledge moves it from requested to in service, or with auto-EOI to neither; the vector
is the base plus the level; a specific end of interrupt clears the commanded level alone. The registers rest on
decision D27. -/
def Obligations.PicPriorityAndAcknowledge : Prop :=
  (∀ (p : Pic) (n : BitVec 3),
      p.eligible = some n ↔
        p.irr.getLsbD n.toNat = true ∧ p.imr.getLsbD n.toNat = false ∧
        ∀ m : BitVec 3, (m - p.lowestPrio - 1).toNat ≤ (n - p.lowestPrio - 1).toNat →
          p.isr.getLsbD m.toNat = false ∧ (m ≠ n → p.irr.getLsbD m.toNat = false ∨ p.imr.getLsbD m.toNat = true)) ∧
  (∀ p : Pic, p.query = true ↔ ∃ n, p.eligible = some n) ∧
  ((∀ (p : Pic) (n m : BitVec 3), p.eligible = some n →
      p.acknowledge.1 = p.vectorBase + n.setWidth 8 ∧
      p.acknowledge.2.irr.getLsbD m.toNat = (p.irr.getLsbD m.toNat && m != n) ∧
      p.acknowledge.2.isr.getLsbD m.toNat = (p.isr.getLsbD m.toNat || (m == n && !p.autoEoi)) ∧
      p.acknowledge.2.imr = p.imr) ∧
    (∀ p : Pic, p.eligible = none → p.acknowledge = (p.vectorBase + 7, p)) ∧
    (∀ (p : Pic) (n m : BitVec 3),
      (p.writeCommand (0x60 ||| n.setWidth 8)).isr.getLsbD m.toNat = (p.isr.getLsbD m.toNat && m != n)))

/-! ### The invariant and the rules of the whole machine -/

/-- The reset state meets the invariant of every step. -/
def Obligations.ResetMeetsInvariant : Prop := State.reset.Inv

/-- Every step keeps the invariant, whatever the host and the other agents do (10_state.md R31, R32, R33, R36, R37,
20_memory.md R103, 44_string.md R328, 60_exceptions.md R510, R532). Clauses of `State.Inv` that are the model's: the bus
idle between steps (log 26, a DESIGN CHOICE: no claim about the pins between steps rests on the spec), the extent of LOCK
(log 25, DEDUCED), the serial output driven on a change of level (log 17, DEDUCED), the instruction attempted again
(log 16, DESIGN CHOICE), the sized images (log 21). -/
def Obligations.StepKeepsInvariant : Prop := ∀ s t : State, s.Inv → step s = .next t → t.Inv

/-- 20_memory.md R81: a ROM byte keeps its value through every step in which the host does nothing, whatever
instruction runs and whatever the DMA controller does; the parameters and the mask array are not changed (00_scope.md
section 5, 20_memory.md R87), and a drive only by an operation of the floppy engine that is scheduled on it
(60_exceptions.md R510, R522; 00_scope.md R7). That MMIO goes before ROM is decision D21. -/
def Obligations.RomAndConfigurationKept : Prop :=
  ∀ (s t : State), s.inputs.headD [] = [] → step s = .next t →
    (∀ a, (Mask.read s.board.mask a).rom = true → t.byteAt a = s.byteAt a) ∧
    t.board.params = s.board.params ∧ t.board.mask = s.board.mask ∧
    ∀ d : DriveName, (∀ evs ∈ s.board.slots, ∀ op, BusEvent.floppy d op ∉ evs) → t.board.drive d = s.board.drive d

/-- The meaning of an instruction, `exec`, answers a next state exactly where the spec does not stop it
(46_processor_control.md R411, R413, 60_exceptions.md R471, R522, 93_implementation_defined.md section 3). The stops of
30_encoding.md R158, 41_muldiv_bcd.md R231 and 46_processor_control.md R403 come before `exec`, in `step` (log 13, a
DESIGN CHOICE): they are `RefusedEncodingsFault`. Which ports are the floppy controller's is log 20, and that a port of two devices refuses is
log 33 (both DEDUCED). -/
def Obligations.CompletesUnlessStopped : Prop :=
  ∀ (i : Instr) (s : State), (∃ t, exec i s = .next t) ↔ stops i s = false

/-! ### Frames -/

/-- Every half of a general register is unchanged unless the rules name it (10_state.md R23). -/
def Obligations.GeneralRegisterFrame : Prop :=
  ∀ (i : Instr) (s t : State), exec i s = .next t → ∀ h, h ∉ changedHalves i s → t.half h = s.half h

/-- 10_state.md R24, R29: a segment register or a flag is unchanged unless the rules name it. -/
def Obligations.SegmentAndFlagFrame : Prop :=
  (∀ (i : Instr) (s t : State), exec i s = .next t → ∀ r, r ∉ changedSregs i s → t.sreg r = s.sreg r) ∧
  (∀ (i : Instr) (s t : State), exec i s = .next t → ∀ f, f ∉ changedFlags i s → t.cpu.flags.get f = s.cpu.flags.get f)

/-- Every byte of memory is unchanged but for the bytes the instruction stores to (20_memory.md R100). -/
def Obligations.MemoryFrame : Prop :=
  ∀ (i : Instr) (s t : State), s.Quiet → exec i s = .next t → ∀ a, a ∉ storedAddrs i s → t.byteAt a = s.byteAt a

/-- The rest of the CPU: `last_ea` follows the memory operand (30_encoding.md R143); the other hidden state changes only
where a rule says so (10_state.md R33). -/
def Obligations.HiddenStateFrame : Prop :=
  ∀ (i : Instr) (s t : State), exec i s = .next t →
    t.cpu.lastEa = (match memOperand i with
      | some m => s.ea m
      | none => s.cpu.lastEa) ∧
    t.cpu.lastCs = s.cpu.lastCs ∧ t.cpu.lastIp = s.cpu.lastIp ∧ t.cpu.error = s.cpu.error ∧
    t.cpu.nmiLatch = s.cpu.nmiLatch ∧ t.cpu.trapArmed = s.cpu.trapArmed ∧ t.cpu.size = s.cpu.size ∧
    t.cpu.loaded = s.cpu.loaded ∧ t.cpu.attempts = s.cpu.attempts ∧ t.started = s.started ∧
    (setsInhibit i = false → t.cpu.intInhibit = s.cpu.intInhibit) ∧
    (i ≠ .hlt → raises i s = false → t.cpu.halted = s.cpu.halted) ∧
    (isString i = false → raises i s = false → t.cpu.inRep = s.cpu.inRep ∧ t.cpu.decoded = s.cpu.decoded) ∧
    (isString i = false → t.cpu.intrPending = s.cpu.intrPending) ∧
    (isPrefix i = false → t.cpu.pfx = s.cpu.pfx) ∧
    t.inputs = s.inputs ∧ t.skipBp = s.skipBp

/-- The rest of the board: only IN and OUT reach a device, and only a transfer moves the fetch pointer or empties the
queue; elsewhere the queue operation at most becomes Idle (10_state.md R45, 20_memory.md R98, 60_exceptions.md R488). -/
def Obligations.BoardFrame : Prop :=
  ∀ (i : Instr) (s t : State), s.Quiet → exec i s = .next t →
    t.board.params = s.board.params ∧ t.board.mask = s.board.mask ∧ t.board.slots = [] ∧
    (isPrefix i = false → t.board.locked = s.board.locked) ∧ t.board.undescribed = s.board.undescribed ∧
    t.board.driveA = s.board.driveA ∧ t.board.driveB = s.board.driveB ∧
    (isPortAccess i = false → t.board.pic = s.board.pic ∧ t.board.dma = s.board.dma ∧ t.board.uart = s.board.uart) ∧
    (mayTransfer i = false → raises i s = false → (isString i && s.cpu.inRep && s.cpu.intrPending) = false →
      t.board.pc = s.board.pc ∧ t.board.queue = s.board.queue ∧
        (t.board.queueOp = s.board.queueOp ∨ t.board.queueOp = .idle))

/-! ### Results: arithmetic and logic -/

/-- 40_alu.md R180, R185, R186: ADD and ADC in all ten encodings of R184. `writes` says that the destination can be
written: a store to ROM is dropped (20_memory.md R81), and the flags are as otherwise. `a` is the destination's value,
read before the immediate bytes where the form has them (30_encoding.md R144). -/
def Obligations.AddAndAdc : Prop :=
  ∀ (f : AluForm) (s : State), s.Calm → s.readable ((s.place f.src).addrs f.width) = true →
    s.readable ((s.place f.dst).addrs f.width) = true →
    let writes := s.writable ((s.place f.dst).addrs f.width) = true
    let a := s.loadedVal f.width f.dst
    let b := s.val f.width (s.place f.src)
    (∃ t, exec (.add f) s = .next t ∧ (writes → t.val f.width (s.place f.dst) = a + b) ∧
      AddFlags a b false t.cpu.flags) ∧
    (∃ t, exec (.adc f) s = .next t ∧
      (writes → t.val f.width (s.place f.dst) = a + b + BitVec.ofNat f.width.bits s.cpu.flags.cf.toNat) ∧
      AddFlags a b s.cpu.flags.cf t.cpu.flags)

/-- 40_alu.md R181, R187 to R189, R192: SUB and SBB; CMP sets the flags of the difference and writes nothing; NEG is 0
minus the operand, so CF says that the operand was not 0. The formulas of CF, AF and OF are R181's own expansion of
"Same with `sub` and borrow", which it marks "[derived from R180]". -/
def Obligations.SubtractResults : Prop :=
  (∀ (f : AluForm) (s : State), s.Calm → s.readable ((s.place f.src).addrs f.width) = true →
      s.readable ((s.place f.dst).addrs f.width) = true →
      let writes := s.writable ((s.place f.dst).addrs f.width) = true
      let a := s.loadedVal f.width f.dst
      let b := s.val f.width (s.place f.src)
      (∃ t, exec (.sub f) s = .next t ∧ (writes → t.val f.width (s.place f.dst) = a - b) ∧
        SubFlags a b false t.cpu.flags) ∧
      (∃ t, exec (.sbb f) s = .next t ∧
        (writes → t.val f.width (s.place f.dst) = a - b - BitVec.ofNat f.width.bits s.cpu.flags.cf.toNat) ∧
        SubFlags a b s.cpu.flags.cf t.cpu.flags)) ∧
  ((∀ (f : AluForm) (s : State), s.Calm → s.readable ((s.place f.src).addrs f.width) = true →
      s.readable ((s.place f.dst).addrs f.width) = true →
      ∃ t, exec (.cmp f) s = .next t ∧
        SubFlags (s.loadedVal f.width f.dst) (s.val f.width (s.place f.src)) false t.cpu.flags ∧
        t.board.mem = s.board.mem ∧ t.cpu.regs = s.cpu.regs) ∧
    (∀ (w : Width) (e : RM) (s : State), s.Calm → s.readable ((s.place (.rm e)).addrs w) = true →
      let writes := s.writable ((s.place (.rm e)).addrs w) = true
      let a := s.val w (s.place (.rm e))
      ∃ t, exec (.neg w e) s = .next t ∧ (writes → t.val w (s.place (.rm e)) = -a) ∧ SubFlags 0 a false t.cpu.flags ∧
        t.cpu.flags.cf = decide (a ≠ 0)))

/-- 40_alu.md R190, R191: INC and DEC, register and E forms; CF is preserved. -/
def Obligations.IncAndDec : Prop :=
  ∀ (s : State), s.Calm →
    (∀ g, ∃ t cf, exec (.incReg g) s = .next t ∧ t.reg16 g = s.reg16 g + 1 ∧ t.cpu.flags.cf = s.cpu.flags.cf ∧
      AddFlags (s.reg16 g) 1 false { t.cpu.flags with cf := cf }) ∧
    (∀ g, ∃ t cf, exec (.decReg g) s = .next t ∧ t.reg16 g = s.reg16 g - 1 ∧ t.cpu.flags.cf = s.cpu.flags.cf ∧
      SubFlags (s.reg16 g) 1 false { t.cpu.flags with cf := cf }) ∧
    ∀ (w : Width) (e : RM), s.readable ((s.place (.rm e)).addrs w) = true →
      let writes := s.writable ((s.place (.rm e)).addrs w) = true
      let a := s.val w (s.place (.rm e))
      (∃ t cf, exec (.incRm w e) s = .next t ∧ (writes → t.val w (s.place (.rm e)) = a + 1) ∧
        t.cpu.flags.cf = s.cpu.flags.cf ∧ AddFlags a 1 false { t.cpu.flags with cf := cf }) ∧
      (∃ t cf, exec (.decRm w e) s = .next t ∧ (writes → t.val w (s.place (.rm e)) = a - 1) ∧
        t.cpu.flags.cf = s.cpu.flags.cf ∧ SubFlags a 1 false { t.cpu.flags with cf := cf })

/-- 40_alu.md R182, R193 to R197: AND, OR, XOR, TEST (both aliases) and NOT. AF is free after the first four. -/
def Obligations.LogicResults : Prop :=
  (∀ (f : AluForm) (s : State), s.Calm → s.readable ((s.place f.src).addrs f.width) = true →
    s.readable ((s.place f.dst).addrs f.width) = true →
    let writes := s.writable ((s.place f.dst).addrs f.width) = true
    let a := s.loadedVal f.width f.dst
    let b := s.val f.width (s.place f.src)
    (∃ t, exec (.and f) s = .next t ∧ (writes → t.val f.width (s.place f.dst) = a &&& b) ∧
      LogicFlags (a &&& b) t.cpu.flags) ∧
    (∃ t, exec (.or f) s = .next t ∧ (writes → t.val f.width (s.place f.dst) = a ||| b) ∧
      LogicFlags (a ||| b) t.cpu.flags) ∧
    (∃ t, exec (.xor f) s = .next t ∧ (writes → t.val f.width (s.place f.dst) = a ^^^ b) ∧
      LogicFlags (a ^^^ b) t.cpu.flags)) ∧
  (∀ (f : TestForm) (s : State), s.Calm → s.readable ((s.place f.dst).addrs f.width) = true →
    ∃ t, exec (.test f) s = .next t ∧
      LogicFlags (s.loadedVal f.width f.dst &&& s.val f.width (s.place f.src)) t.cpu.flags ∧
      t.board.mem = s.board.mem ∧ t.cpu.regs = s.cpu.regs) ∧
  (∀ (w : Width) (e : RM) (s : State), s.Calm → s.readable ((s.place (.rm e)).addrs w) = true →
    let writes := s.writable ((s.place (.rm e)).addrs w) = true
    ∃ t, exec (.not w e) s = .next t ∧ (writes → t.val w (s.place (.rm e)) = ~~~ s.val w (s.place (.rm e))) ∧
      t.cpu.flags = s.cpu.flags)

/-- 45_control_transfer.md R354: after CMP a,b the conditional jumps order a and b, unsigned and signed. -/
def Obligations.ConditionsOrderNumbers : Prop :=
  ∀ (w : Width) (a b : BitVec w.bits) (f : Flags), SubFlags a b false f →
    (f.below = true ↔ a.toNat < b.toNat) ∧ (f.belowEq = true ↔ a.toNat ≤ b.toNat) ∧
    (f.less = true ↔ a.toInt < b.toInt) ∧ (f.lessEq = true ↔ a.toInt ≤ b.toInt) ∧ (f.zf = true ↔ a = b)

/-! ### Results: multiply, divide, decimal -/

/-- 41_muldiv_bcd.md R226, R227: the double-length product; CF = OF say that it does not fit in one length. The other four
flags are free. -/
def Obligations.MultiplyResults : Prop :=
  ∀ (w : Width) (e : RM) (s : State), s.Calm → s.readable ((s.place (.rm e)).addrs w) = true →
    let a := s.reg w .ax
    let m := s.val w (s.place (.rm e))
    (∃ t, exec (.mul w e) s = .next t ∧ dividend (t.accHi w) (t.reg w .ax) = a.toNat * m.toNat ∧
      t.cpu.flags.cf = decide (2 ^ w.bits ≤ a.toNat * m.toNat) ∧ t.cpu.flags.ovf = t.cpu.flags.cf) ∧
    (∃ t, exec (.imul w e) s = .next t ∧ dividendS (t.accHi w) (t.reg w .ax) = a.toInt * m.toInt ∧
      (t.cpu.flags.cf = true ↔ ¬ FitsSigned w.bits (a.toInt * m.toInt)) ∧ t.cpu.flags.ovf = t.cpu.flags.cf)

/-- 41_muldiv_bcd.md R228, R229, R224: quotient and remainder where the quotient fits: truncated toward zero, and
for IDIV within the symmetric bound. All six status flags are free. The symmetric bound is decision D26. -/
def Obligations.DivideResults : Prop :=
  ∀ (w : Width) (e : RM) (s : State), s.Calm → s.readable ((s.place (.rm e)).addrs w) = true →
    let d := s.val w (s.place (.rm e))
    let x := dividend (s.accHi w) (s.reg w .ax)
    let y := dividendS (s.accHi w) (s.reg w .ax)
    d ≠ 0 →
    (x / d.toNat < 2 ^ w.bits →
      ∃ t, exec (.div w e) s = .next t ∧ (t.reg w .ax).toNat = x / d.toNat ∧ (t.accHi w).toNat = x % d.toNat) ∧
    ((y.tdiv d.toInt).natAbs < 2 ^ (w.bits - 1) →
      ∃ t, exec (.idiv w e) s = .next t ∧ (t.reg w .ax).toInt = y.tdiv d.toInt ∧ (t.accHi w).toInt = y.tmod d.toInt)

/-- 41_muldiv_bcd.md R228 to R230, R245, 60_exceptions.md R432: a zero divisor or a quotient that does not fit, and
AAM with base 0, enter handler 0. The pushed IP is `last_ip`, or the next offset under `P_DIV_FAULT_IP = next`; the
pushed FLAGS, and AX and DX, are those before the instruction. The bound, the pushed offset and the unchanged flags
are decisions D26, D8, D37. -/
def Obligations.DivideError : Prop :=
  ∀ (s : State), s.Calm → s.canEnter 0 = true →
    let ret := if s.board.params.divFaultIp = .faulting then s.cpu.lastIp else s.ipNext
    (∀ (w : Width) (e : RM), s.readable ((s.place (.rm e)).addrs w) = true →
      let d := s.val w (s.place (.rm e))
      let x := dividend (s.accHi w) (s.reg w .ax)
      let y := dividendS (s.accHi w) (s.reg w .ax)
      (d = 0 ∨ 2 ^ w.bits ≤ x / d.toNat →
        ∃ t, exec (.div w e) s = .next t ∧ Entered t s 0 ret ∧ ∀ g, g ≠ .sp → t.reg16 g = s.reg16 g) ∧
      (d = 0 ∨ 2 ^ (w.bits - 1) ≤ (y.tdiv d.toInt).natAbs →
        ∃ t, exec (.idiv w e) s = .next t ∧ Entered t s 0 ret ∧ ∀ g, g ≠ .sp → t.reg16 g = s.reg16 g)) ∧
    ∃ t, exec (.aam 0) s = .next t ∧ Entered t s 0 ret ∧ ∀ g, g ≠ .sp → t.reg16 g = s.reg16 g

/-- 41_muldiv_bcd.md R220, R223, R224, R227: the microcode co-routines compute the input-output relations, for both
operand widths. -/
def Obligations.CoroutinesCompute : Prop :=
  ∀ (w : Width) (a b c : BitVec w.bits),
    corx a b = mulU a b ∧ imulCore a b = mulS b a ∧ cord a b c = divU a b c ∧ idivCore a b c = divS a b c

/-- 41_muldiv_bcd.md R241 to R246: the six decimal adjusts, wherever the rules are in force: everywhere under
`P_BCD` as written, otherwise on the documented domain (R247). The results outside the documented domain are
decision D25; the bounds of the documented domain, `bcdDomain`, are log 29 (PRESUMED). -/
def Obligations.DecimalAdjusts : Prop :=
  ∀ (s : State),
    let al := s.reg8 .ax
    let ah := s.reg8 .sp
    let low := decide (9 < al.toNat % 16) || s.cpu.flags.af
    let high := decide (0x99 < al.toNat) || s.cpu.flags.cf
    let rules (op : BcdOp) (base : Byte) : Prop :=
      s.board.params.bcd = .asWritten ∨ bcdDomain op (s.bcdIn base) = true
    (rules .daa 0 → ∃ t, exec .daa s = .next t ∧
      t.reg8 .ax = al + (if low then 6 else 0) + (if high then 0x60 else 0) ∧ t.cpu.flags.af = low ∧
      t.cpu.flags.cf = high ∧ SzpOf (t.reg8 .ax) t.cpu.flags) ∧
    (rules .das 0 → ∃ t, exec .das s = .next t ∧
      t.reg8 .ax = al - (if low then 6 else 0) - (if high then 0x60 else 0) ∧ t.cpu.flags.af = low ∧
      t.cpu.flags.cf = high ∧ SzpOf (t.reg8 .ax) t.cpu.flags) ∧
    (rules .aaa 0 → ∃ t, exec .aaa s = .next t ∧
      t.reg8 .ax = (al + (if low then 6 else 0)) &&& 0x0F ∧ t.reg8 .sp = ah + (if low then 1 else 0) ∧
      t.cpu.flags.af = low ∧ t.cpu.flags.cf = low) ∧
    (rules .aas 0 → ∃ t, exec .aas s = .next t ∧
      t.reg8 .ax = (al - (if low then 6 else 0)) &&& 0x0F ∧ t.reg8 .sp = ah - (if low then 1 else 0) ∧
      t.cpu.flags.af = low ∧ t.cpu.flags.cf = low) ∧
    (∀ base, base ≠ 0 → rules .aam base → ∃ t, exec (.aam base) s = .next t ∧
      (t.reg8 .sp).toNat = al.toNat / base.toNat ∧ (t.reg8 .ax).toNat = al.toNat % base.toNat ∧
      SzpOf (t.reg8 .ax) t.cpu.flags) ∧
    (∀ base, rules .aad base → ∃ t, exec (.aad base) s = .next t ∧
      (t.reg8 .ax).toNat = (al.toNat + ah.toNat * base.toNat) % 256 ∧ t.reg8 .sp = 0 ∧
      SzpOf (t.reg8 .ax) t.cpu.flags)

/-- 41_muldiv_bcd.md R241, R242, R247: DAA after ADD or ADC, and DAS after SUB or SBB, of two packed-decimal bytes give
the decimal sum or difference modulo 100 and its carry or borrow, whatever `P_BCD` says outside that domain. -/
def Obligations.PackedDecimalArithmetic : Prop :=
  ∀ (c : BcdChoice) (f : Flags) (x y : Fin 100) (k : Bool) (ah : Byte),
    let bcd (n : Nat) : Byte := BitVec.ofNat 8 (n / 10 % 10 * 16 + n % 10)
    let sum := addN f (bcd x) (bcd y) k
    let dif := subN f (bcd x) (bcd y) k
    let daa := bcdResult c .daa ⟨sum.1, ah, 0, sum.2.af, sum.2.cf⟩
    let das := bcdResult c .das ⟨dif.1, ah, 0, dif.2.af, dif.2.cf⟩
    daa.al = bcd (x + y + k.toNat) ∧ daa.cf = decide (100 ≤ x.val + y.val + k.toNat) ∧
    das.al = bcd (x + 100 - y - k.toNat) ∧ das.cf = decide (x.val < y.val + k.toNat)

/-! ### Results: shifts and rotates -/

/-- 42_shift_rotate.md R250 to R254, R259: rotates in closed form. The count is 1 or the whole of CL; a count of 0
writes nothing; OF is defined for a count of 1 only; the other flags keep their values. That the whole of CL counts
is decision D24. -/
def Obligations.RotateResults : Prop :=
  ∀ (w : Width) (e : RM) (c : Count) (s : State), s.Calm → s.readable ((s.place (.rm e)).addrs w) = true →
    let writes := s.writable ((s.place (.rm e)).addrs w) = true
    let k := s.count c
    let x := s.val w (s.place (.rm e))
    let big := BitVec.cons s.cpu.flags.cf x
    let ok (i : Instr) (r : BitVec w.bits) (cf ovf : Bool) : Prop :=
      ∃ t, exec i s = .next t ∧ (writes → t.val w (s.place (.rm e)) = r) ∧
        t.cpu.flags.cf = (if k = 0 then s.cpu.flags.cf else cf) ∧
        (k = 0 → t.cpu.flags = s.cpu.flags ∧ t.cpu.regs = s.cpu.regs) ∧ (k = 1 → t.cpu.flags.ovf = ovf)
    let rol := x.rotateLeft k
    let ror := x.rotateRight k
    let rcl := big.rotateLeft k
    let rcr := big.rotateRight k
    ok (.rol w e c) rol (rol.getLsbD 0) (rol.msb ^^ rol.getLsbD 0) ∧
    ok (.ror w e c) ror ror.msb (ror.msb ^^ ror.getLsbD (w.bits - 2)) ∧
    ok (.rcl w e c) (rcl.setWidth w.bits) rcl.msb ((rcl.setWidth w.bits).msb ^^ rcl.msb) ∧
    ok (.rcr w e c) (rcr.setWidth w.bits) rcr.msb
      ((rcr.setWidth w.bits).msb ^^ (rcr.setWidth w.bits).getLsbD (w.bits - 2))

/-- 42_shift_rotate.md R250, R255 to R259: shifts in closed form for every count up to 255, and SETMO, whose OF is 0 for
every count that writes. AF is free. That the whole of CL counts is decision D24; SETMO is D7. -/
def Obligations.ShiftResults : Prop :=
  ∀ (w : Width) (e : RM) (c : Count) (s : State), s.Calm → s.readable ((s.place (.rm e)).addrs w) = true →
    let writes := s.writable ((s.place (.rm e)).addrs w) = true
    let k := s.count c
    let x := s.val w (s.place (.rm e))
    let ok (i : Instr) (r : BitVec w.bits) (cf ovf : Bool) (ovfAt : Nat → Prop) : Prop :=
      ∃ t, exec i s = .next t ∧ (writes → t.val w (s.place (.rm e)) = (if k = 0 then x else r)) ∧
        (k = 0 → t.cpu.flags = s.cpu.flags ∧ t.cpu.regs = s.cpu.regs) ∧
        (k ≠ 0 → t.cpu.flags.cf = cf ∧ SzpOf r t.cpu.flags) ∧ (ovfAt k → t.cpu.flags.ovf = ovf)
    ok (.shl w e c) (x <<< k) (decide (k ≤ w.bits) && x.getLsbD (w.bits - k)) (x.msb ^^ (x <<< 1).msb) (· = 1) ∧
    ok (.shr w e c) (x >>> k) (x.getLsbD (k - 1)) x.msb (· = 1) ∧
    ok (.sar w e c) (x.sshiftRight k) (if k ≤ w.bits then x.getLsbD (k - 1) else x.msb) false (· = 1) ∧
    ok (.setmo w e c) (BitVec.allOnes w.bits) false false (· ≠ 0)

/-! ### Results: data transfer -/

/-- 43_data_transfer.md R270 to R274: every MOV but the loads of a segment register. The ignored reg field of C6, C7 and
the ignored bit of 8C make no difference (30_encoding.md R156, R157). -/
def Obligations.MoveResults : Prop :=
  ∀ (s : State), s.Calm →
    (∀ (w : Width) (e : RM),
      let writes := s.writable ((s.place (.rm e)).addrs w) = true
      (∀ g, ∃ t, exec (.movRmReg w e g) s = .next t ∧ (writes → t.val w (s.place (.rm e)) = s.reg w g)) ∧
      (s.readable ((s.place (.rm e)).addrs w) = true →
        ∀ g, ∃ t, exec (.movRegRm w g e) s = .next t ∧ t.reg w g = s.val w (s.place (.rm e)))) ∧
    (∀ (ext : BitVec 3) (e : RM) (i : Byte), ∃ t, exec (.movRmImm8 ext e i) s = .next t ∧
      (s.writable ((s.place (.rm e)).addrs .byte) = true → t.val .byte (s.place (.rm e)) = i)) ∧
    (∀ (e : RM),
      let writes := s.writable ((s.place (.rm e)).addrs .word) = true
      (∀ (ext : BitVec 3) (i : Word), ∃ t, exec (.movRmImm16 ext e i) s = .next t ∧
        (writes → t.val .word (s.place (.rm e)) = i)) ∧
      ∀ (high : Bool) (r : SReg), ∃ t, exec (.movRmSeg high e r) s = .next t ∧
        (writes → t.val .word (s.place (.rm e)) = s.sreg r)) ∧
    (∀ (g : GReg) (i : Byte), ∃ t, exec (.movRegImm8 g i) s = .next t ∧ t.reg8 g = i) ∧
    (∀ (g : GReg) (i : Word), ∃ t, exec (.movRegImm16 g i) s = .next t ∧ t.reg16 g = i) ∧
    ∀ (w : Width) (off : Word),
      let seg := s.sreg (s.cpu.pfx.seg.getD .ds)
      (s.readable (byteAddrs w seg off) = true →
        ∃ t, exec (.movAccMem w off) s = .next t ∧ t.reg w .ax = s.peek w seg off) ∧
      ∃ t, exec (.movMemAcc w off) s = .next t ∧
        (s.writable (byteAddrs w seg off) = true → t.peek w seg off = s.reg w .ax)

/-- 43_data_transfer.md R275, R286, 46_processor_control.md R405, R415, 60_exceptions.md R451: loading a segment
register by MOV or POP inhibits the next sampling under `P_INT_INHIBIT`; loading CS so leaves the queue and the
fetch pointer. The inhibit is decision D12; CS as a destination is D7. -/
def Obligations.SegmentLoads : Prop :=
  ∀ (s : State), s.Calm →
    (∀ (high : Bool) (r : SReg) (e : RM), s.readable ((s.place (.rm e)).addrs .word) = true →
      ∃ t, exec (.movSegRm high r e) s = .next t ∧ t.sreg r = s.val .word (s.place (.rm e)) ∧
        t.cpu.intInhibit = (s.board.params.intInhibit || s.cpu.intInhibit) ∧
        t.board.queue = s.board.queue ∧ t.board.pc = s.board.pc) ∧
    (∀ r : SReg, s.readable (s.popAddrs 1) = true →
      ∃ t, exec (.popSeg r) s = .next t ∧ t.sreg r = s.popWord 0 ∧ t.reg16 .sp = s.reg16 .sp + 2 ∧
        t.cpu.intInhibit = (s.board.params.intInhibit || s.cpu.intInhibit) ∧
        t.board.queue = s.board.queue ∧ t.board.pc = s.board.pc)

/-- 43_data_transfer.md R280 to R285, R287, R288, 46_processor_control.md R412: PUSH and POP. PUSH SP stores the new
SP, in both encodings; POP SP ends with the value read; a destination in memory is located before SP changes. The
value PUSH SP stores and the order of the bytes are decisions D35, D36. -/
def Obligations.StackResults : Prop :=
  (∀ (s : State), s.Calm →
      let pushes (i : Instr) (v : Word) : Prop :=
        ∃ t, exec i s = .next t ∧ t.reg16 .sp = s.reg16 .sp - 2 ∧
          (s.writable (s.stackAddrs 1) = true → t.stackWord s 2 = v)
      let regValue (g : GReg) : Word := if g = .sp then s.reg16 .sp - 2 else s.reg16 g
      (∀ g, pushes (.pushReg g) (regValue g)) ∧
      (∀ (high : Bool) (g : GReg), pushes (.pushRm high (.reg g)) (regValue g)) ∧
      (∀ (high : Bool) (m : Mem), s.readable ((s.place (.rm (.mem m))).addrs .word) = true →
        pushes (.pushRm high (.mem m)) (s.val .word (s.place (.rm (.mem m))))) ∧
      (∀ r, pushes (.pushSeg r) (s.sreg r)) ∧
      pushes .pushf s.cpu.flags.word) ∧
  (∀ (s : State), s.Calm → s.readable (s.popAddrs 1) = true →
      (∀ g, ∃ t, exec (.popReg g) s = .next t ∧ t.reg16 g = s.popWord 0 ∧
        (g ≠ .sp → t.reg16 .sp = s.reg16 .sp + 2)) ∧
      (∀ (ext : BitVec 3) (e : RM), ∃ t, exec (.popRm ext e) s = .next t ∧
        (s.writable ((s.place (.rm e)).addrs .word) = true → t.val .word (s.place (.rm e)) = s.popWord 0) ∧
        (e ≠ .reg .sp → t.reg16 .sp = s.reg16 .sp + 2)) ∧
      ∃ t, exec .popf s = .next t ∧ t.reg16 .sp = s.reg16 .sp + 2 ∧
        t.cpu.flags.word = (s.popWord 0 &&& 0x0FD5) ||| 0xF002)

/-- 43_data_transfer.md R290, R291, R295 to R299, 46_processor_control.md R401, R404: exchanges (both old values are
read before either is written), NOP, table look-up, FLAGS moves, sign extensions, SALC. SALC is decision D7. -/
def Obligations.ExchangesAndAccumulatorMoves : Prop :=
  (∀ (s : State), s.Calm →
      (∀ (w : Width) (e : RM) (g : GReg), s.readable ((s.place (.rm e)).addrs w) = true →
        ∃ t, exec (.xchgRm w e g) s = .next t ∧ t.reg w g = s.val w (s.place (.rm e)) ∧
          (s.writable ((s.place (.rm e)).addrs w) = true → t.val w (s.place (.rm e)) = s.reg w g)) ∧
      (∀ g, ∃ t, exec (.xchgAx g) s = .next t ∧ t.reg16 g = s.reg16 .ax ∧ t.reg16 .ax = s.reg16 g) ∧
      exec .nop s = .next s) ∧
  (∀ (s : State), s.Calm →
      (let seg := s.sreg (s.cpu.pfx.seg.getD .ds)
       let off := s.reg16 .bx + (s.reg8 .ax).setWidth 16
       s.readable (byteAddrs .byte seg off) = true →
        ∃ t, exec .xlat s = .next t ∧ t.reg8 .ax = s.peek .byte seg off) ∧
      (∃ t, exec .lahf s = .next t ∧ (t.reg8 .sp).getLsbD 7 = s.cpu.flags.sf ∧ (t.reg8 .sp).getLsbD 6 = s.cpu.flags.zf ∧
        (t.reg8 .sp).getLsbD 5 = false ∧ (t.reg8 .sp).getLsbD 4 = s.cpu.flags.af ∧ (t.reg8 .sp).getLsbD 3 = false ∧
        (t.reg8 .sp).getLsbD 2 = s.cpu.flags.pf ∧ (t.reg8 .sp).getLsbD 1 = true ∧
        (t.reg8 .sp).getLsbD 0 = s.cpu.flags.cf) ∧
      (∃ t, exec .sahf s = .next t ∧ t.cpu.flags =
        { s.cpu.flags with sf := (s.reg8 .sp).getLsbD 7, zf := (s.reg8 .sp).getLsbD 6, af := (s.reg8 .sp).getLsbD 4,
                           pf := (s.reg8 .sp).getLsbD 2, cf := (s.reg8 .sp).getLsbD 0 }) ∧
      (∃ t, exec .cbw s = .next t ∧ (t.reg16 .ax).toInt = (s.reg8 .ax).toInt) ∧
      (∃ t, exec .cwd s = .next t ∧ dividendS (t.reg16 .dx) (t.reg16 .ax) = (s.reg16 .ax).toInt) ∧
      ∃ t, exec .salc s = .next t ∧ t.reg8 .ax = if s.cpu.flags.cf then 0xFF else 0)

/-- 43_data_transfer.md R292 to R294, 46_processor_control.md R414: LEA gives the offset without reading memory; LDS
and LES load a far pointer, offset first; the register forms use the stale `last_ea` in DS or the override segment.
The register forms are decision D7. -/
def Obligations.AddressLoads : Prop :=
  ∀ (s : State) (g : GReg), s.Calm →
    (∀ m, ∃ t, exec (.lea g (.mem m)) s = .next t ∧ t.reg16 g = s.ea m ∧ t.board = s.board) ∧
    (∀ h, ∃ t, exec (.lea g (.reg h)) s = .next t ∧ t.reg16 g = s.cpu.lastEa ∧ t.board = s.board) ∧
    ∀ e : RM,
      let at' : Word × Word := match e with
        | .mem m => (s.easeg m, s.ea m)
        | .reg _ => (s.sreg (s.cpu.pfx.seg.getD .ds), s.cpu.lastEa)
      s.readable (byteAddrs .word at'.1 at'.2 ++ byteAddrs .word at'.1 (at'.2 + 2)) = true →
        (∃ t, exec (.lds g e) s = .next t ∧ t.reg16 g = s.peek .word at'.1 at'.2 ∧
          t.sreg .ds = s.peek .word at'.1 (at'.2 + 2)) ∧
        (∃ t, exec (.les g e) s = .next t ∧ t.reg16 g = s.peek .word at'.1 at'.2 ∧
          t.sreg .es = s.peek .word at'.1 (at'.2 + 2))

/-- 43_data_transfer.md R300, R301, 20_memory.md R84: the byte and word forms at any port that answers, that is, neither
the floppy controller's nor one of two devices: the device of each port is read or written once, low byte at the port,
high byte at the next. The port map and the order of the two accesses are decisions D16, D40; at the other ports
`CompletesUnlessStopped` says that the instruction stops. -/
def Obligations.PortAccess : Prop :=
  ∀ (s : State), s.Calm →
    let free (p : Word) : Prop := Params.answers s.board.params p = true
    (∀ p, free p → ∃ v b, s.board.deviceRead p = some (v, b) ∧
      (∀ n : Byte, p = n.setWidth 16 → ∃ t, exec (.inImm .byte n) s = .next t ∧ t.reg8 .ax = v ∧
        t.board = { b with bus := t.board.bus, queueOp := .idle }) ∧
      (p = s.reg16 .dx → ∃ t, exec (.inDx .byte) s = .next t ∧ t.reg8 .ax = v ∧
        t.board = { b with bus := t.board.bus, queueOp := .idle })) ∧
    (∀ p, free p → free (p + 1) → ∃ v b v' b', s.board.deviceRead p = some (v, b) ∧ b.deviceRead (p + 1) = some (v',
      b') ∧
      (∀ n : Byte, p = n.setWidth 16 → ∃ t, exec (.inImm .word n) s = .next t ∧ t.reg16 .ax = mkWord v v' ∧
        t.board = { b' with bus := t.board.bus, queueOp := .idle }) ∧
      (p = s.reg16 .dx → ∃ t, exec (.inDx .word) s = .next t ∧ t.reg16 .ax = mkWord v v' ∧
        t.board = { b' with bus := t.board.bus, queueOp := .idle })) ∧
    (∀ p, free p → ∃ b, s.board.deviceWrite p (s.reg8 .ax) = some b ∧
      (∀ n : Byte, p = n.setWidth 16 → ∃ t, exec (.outImm .byte n) s = .next t ∧
        t.board = { b with bus := t.board.bus, queueOp := .idle }) ∧
      (p = s.reg16 .dx → ∃ t, exec (.outDx .byte) s = .next t ∧ t.board = { b with bus := t.board.bus, queueOp := .idle })) ∧
    (∀ p, free p → free (p + 1) →
      ∃ b b', s.board.deviceWrite p (s.reg8 .ax) = some b ∧ b.deviceWrite (p + 1) (s.reg8 .sp) = some b' ∧
      (∀ n : Byte, p = n.setWidth 16 → ∃ t, exec (.outImm .word n) s = .next t ∧
        t.board = { b' with bus := t.board.bus, queueOp := .idle }) ∧
      (p = s.reg16 .dx → ∃ t, exec (.outDx .word) s = .next t ∧ t.board = { b' with bus := t.board.bus, queueOp := .idle }))

/-! ### Results: strings -/

/-- 44_string.md R320, R322 to R326: one element of each string instruction, alone or as an iteration of a repetition.
The source is in DS or the override segment, the destination always in ES; the indexes move by the element size, down
when DF = 1. -/
def Obligations.StringElements : Prop :=
  ∀ (s : State), s.Calm → s.iterates = true →
    let element (w : Width) (movs cmps scas lods stos : Instr) : Prop :=
      let d : Word := BitVec.ofNat 16 (w.bits / 8)
      let step (x : Word) : Word := if s.cpu.flags.df then x - d else x + d
      let src := s.sreg (s.cpu.pfx.seg.getD .ds)
      let si := s.reg16 .si
      let di := s.reg16 .di
      let readsSource := s.readable (byteAddrs w src si) = true
      let readsDest := s.readable (byteAddrs w (s.sreg .es) di) = true
      let writesDest := s.writable (byteAddrs w (s.sreg .es) di) = true
      (readsSource → ∃ t, exec movs s = .next t ∧ t.reg16 .si = step si ∧ t.reg16 .di = step di ∧
        (writesDest → t.peek w (s.sreg .es) di = s.peek w src si)) ∧
      (readsSource → readsDest → ∃ t, exec cmps s = .next t ∧ t.reg16 .si = step si ∧ t.reg16 .di = step di ∧
        SubFlags (s.peek w src si) (s.peek w (s.sreg .es) di) false t.cpu.flags) ∧
      (readsDest → ∃ t, exec scas s = .next t ∧ t.reg16 .di = step di ∧
        SubFlags (s.reg w .ax) (s.peek w (s.sreg .es) di) false t.cpu.flags) ∧
      (readsSource → ∃ t, exec lods s = .next t ∧ t.reg16 .si = step si ∧ t.reg w .ax = s.peek w src si) ∧
      (∃ t, exec stos s = .next t ∧ t.reg16 .di = step di ∧
        (writesDest → t.peek w (s.sreg .es) di = s.reg w .ax))
    element .byte .movsb .cmpsb .scasb .lodsb .stosb ∧ element .word .movsw .cmpsw .scasw .lodsw .stosw

/-- 44_string.md R321, R327, R328: CX and the decision to go on. Without a prefix CX is not used; a first entry with
CX = 0 does nothing; an iteration decrements CX and the repetition stays suspended while CX is not 0 and, for CMPS
and SCAS, ZF agrees with the prefix; a deferred INTR ends it with IP back at `last_ip`. The return address of an
interrupted repetition is decision D13. -/
def Obligations.RepeatControl : Prop :=
  ∀ (s : State) (i : Instr), isString i = true →
    let compares := i = .cmpsb ∨ i = .cmpsw ∨ i = .scasb ∨ i = .scasw
    (s.cpu.pfx.rep = none → ∃ t, exec i s = .next t ∧ t.reg16 .cx = s.reg16 .cx ∧ t.cpu.inRep = s.cpu.inRep) ∧
    ∀ k : RepKind, s.cpu.pfx.rep = some k →
      (s.cpu.inRep = false → s.reg16 .cx = 0 → exec i s = .next s) ∧
      (s.iterates = true → ∃ t, exec i s = .next t ∧ t.reg16 .cx = s.reg16 .cx - 1 ∧
        (t.cpu.inRep = true ↔ t.reg16 .cx ≠ 0 ∧ (compares → (k = .repz ↔ t.cpu.flags.zf = true))) ∧
        (t.cpu.inRep = true → t.cpu.result = .okayRep ∧ t.cpu.decoded = some ⟨i, s.cpu.pfx, s.cpu.size, i.loadsEa⟩) ∧
        (t.cpu.inRep = false → t.cpu.result = s.cpu.result ∧ t.cpu.decoded = none)) ∧
      (s.cpu.inRep = true → s.cpu.intrPending = true → ∃ t, exec i s = .next t ∧ t.cpu.regs = s.cpu.regs ∧
        t.cpu.inRep = false ∧ t.cpu.intrPending = false ∧ t.JumpedTo (s.sreg .cs) s.cpu.lastIp)

/-- 44_string.md R321: "total iterations over an uninterrupted run equals the initial CX; after completion CX == 0". A
suspended repetition of MOVS, LODS or STOS that nothing interrupts ends after exactly CX steps, all but the last with
result OkayRep. -/
def Obligations.RepeatRunsCxTimes : Prop :=
  ∀ (s : State) (d : Decoded), s.Inv → s.Calm → s.cpu.inRep = true → s.cpu.decoded = some d → s.inputs = [] →
    d.instr ∈ [Instr.movsb, .movsw, .lodsb, .lodsw, .stosb, .stosw] → s.reg16 .cx ≠ 0 → s.cpu.halted = false →
    s.cpu.intrPending = false → s.cpu.nmiLatch = false → s.cpu.flags.intf = false → s.cpu.flags.tf = false →
    ∃ t, Sys2Proof.core.run (s.reg16 .cx).toNat s = .next t ∧ t.reg16 .cx = 0 ∧ t.cpu.inRep = false ∧
      t.cpu.result = .okay ∧
      (∀ k, k < (s.reg16 .cx).toNat → 0 < k → ∃ u, Sys2Proof.core.run k s = .next u ∧ u.cpu.inRep = true ∧
        u.cpu.result = .okayRep)

/-! ### Results: control transfer -/

/-- 45_control_transfer.md R340, R354 to R374, 46_processor_control.md R406: the sixteen conditional jumps and their
aliases at 60..6F are taken exactly when the condition of the table holds, otherwise nothing happens; LOOP, LOOPZ, LOOPNZ
decrement CX first, without flags; JCXZ does not change it. -/
def Obligations.ConditionalBranches : Prop :=
  (∀ (s : State) (low : Bool) (d : Byte),
      let f := s.cpu.flags
      let branches (i : Instr) (c : Prop) : Prop :=
        ∃ t, exec i s = .next t ∧ (c → t.JumpedTo (s.sreg .cs) (s.ipNext + d.signExtend 16)) ∧ (¬ c → t = s)
      branches (.jo low d) (f.ovf = true) ∧ branches (.jno low d) (f.ovf = false) ∧
      branches (.jb low d) (f.cf = true) ∧ branches (.jnb low d) (f.cf = false) ∧
      branches (.jz low d) (f.zf = true) ∧ branches (.jnz low d) (f.zf = false) ∧
      branches (.jbe low d) (f.cf = true ∨ f.zf = true) ∧ branches (.ja low d) (f.cf = false ∧ f.zf = false) ∧
      branches (.js low d) (f.sf = true) ∧ branches (.jns low d) (f.sf = false) ∧
      branches (.jp low d) (f.pf = true) ∧ branches (.jnp low d) (f.pf = false) ∧
      branches (.jl low d) (f.sf ≠ f.ovf) ∧ branches (.jge low d) (f.sf = f.ovf) ∧
      branches (.jle low d) (f.zf = true ∨ f.sf ≠ f.ovf) ∧ branches (.jg low d) (f.zf = false ∧ f.sf = f.ovf)) ∧
  (∀ (s : State) (d : Byte),
      let target := s.ipNext + d.signExtend 16
      let loops (i : Instr) (c : Prop) : Prop :=
        ∃ t, exec i s = .next t ∧ t.reg16 .cx = s.reg16 .cx - 1 ∧ t.cpu.flags = s.cpu.flags ∧
          (s.reg16 .cx ≠ 1 ∧ c → t.JumpedTo (s.sreg .cs) target) ∧ (¬ (s.reg16 .cx ≠ 1 ∧ c) → t.board = s.board)
      loops (.loop d) True ∧ loops (.loopz d) (s.cpu.flags.zf = true) ∧ loops (.loopnz d) (s.cpu.flags.zf = false) ∧
      ∃ t, exec (.jcxz d) s = .next t ∧ t.reg16 .cx = s.reg16 .cx ∧
        (s.reg16 .cx = 0 → t.JumpedTo (s.sreg .cs) target) ∧ (s.reg16 .cx ≠ 0 → t = s))

/-- 45_control_transfer.md R341 to R345: the jumps. -/
def Obligations.Jumps : Prop :=
  ∀ (s : State), s.Calm →
    (∀ d : Byte, ∃ t, exec (.jmpShort d) s = .next t ∧ t.JumpedTo (s.sreg .cs) (s.ipNext + d.signExtend 16)) ∧
    (∀ d : Word, ∃ t, exec (.jmpNear d) s = .next t ∧ t.JumpedTo (s.sreg .cs) (s.ipNext + d)) ∧
    (∀ off seg : Word, ∃ t, exec (.jmpFar off seg) s = .next t ∧ t.JumpedTo seg off) ∧
    (∀ e : RM, s.readable ((s.place (.rm e)).addrs .word) = true →
      ∃ t, exec (.jmpRm e) s = .next t ∧ t.JumpedTo (s.sreg .cs) (s.val .word (s.place (.rm e)))) ∧
    (∀ m : Mem, s.readable (byteAddrs .word (s.easeg m) (s.ea m) ++ byteAddrs .word (s.easeg m) (s.ea m + 2)) = true →
      ∃ t, exec (.jmpFarRm (.mem m)) s = .next t ∧
        t.JumpedTo (s.peek .word (s.easeg m) (s.ea m + 2)) (s.peek .word (s.easeg m) (s.ea m)))

/-- 45_control_transfer.md R346 to R349: the calls. The operand is read before anything is pushed; a far call pushes CS,
then the return offset. -/
def Obligations.Calls : Prop :=
  ∀ (s : State), s.Calm →
    let near (i : Instr) (ip : Word) : Prop :=
      ∃ t, exec i s = .next t ∧ t.JumpedTo (s.sreg .cs) ip ∧ t.reg16 .sp = s.reg16 .sp - 2 ∧
        (s.writable (s.stackAddrs 1) = true → t.stackWord s 2 = s.ipNext)
    let far (i : Instr) (cs ip : Word) : Prop :=
      ∃ t, exec i s = .next t ∧ t.JumpedTo cs ip ∧ t.reg16 .sp = s.reg16 .sp - 4 ∧
        (s.writable (s.stackAddrs 2) = true → t.stackWord s 2 = s.sreg .cs ∧ t.stackWord s 4 = s.ipNext)
    (∀ d, near (.callNear d) (s.ipNext + d)) ∧
    (∀ off seg, far (.callFar off seg) seg off) ∧
    (∀ e, s.readable ((s.place (.rm e)).addrs .word) = true → near (.callRm e) (s.val .word (s.place (.rm e)))) ∧
    (∀ m, s.readable (byteAddrs .word (s.easeg m) (s.ea m) ++ byteAddrs .word (s.easeg m) (s.ea m + 2)) = true →
      far (.callFarRm (.mem m)) (s.peek .word (s.easeg m) (s.ea m + 2)) (s.peek .word (s.easeg m) (s.ea m)))

/-- 45_control_transfer.md R350 to R353, 46_processor_control.md R407: the returns and their aliases. The immediate is
added to SP after the pops. -/
def Obligations.Returns : Prop :=
  ∀ (s : State), s.Calm → ∀ (low : Bool) (n : Word),
    (s.readable (s.popAddrs 1) = true →
      (∃ t, exec (.ret low) s = .next t ∧ t.JumpedTo (s.sreg .cs) (s.popWord 0) ∧ t.reg16 .sp = s.reg16 .sp + 2) ∧
      (∃ t, exec (.retImm low n) s = .next t ∧ t.JumpedTo (s.sreg .cs) (s.popWord 0) ∧
        t.reg16 .sp = s.reg16 .sp + 2 + n)) ∧
    (s.readable (s.popAddrs 2) = true →
      (∃ t, exec (.retf low) s = .next t ∧ t.JumpedTo (s.popWord 1) (s.popWord 0) ∧ t.reg16 .sp = s.reg16 .sp + 4) ∧
      (∃ t, exec (.retfImm low n) s = .next t ∧ t.JumpedTo (s.popWord 1) (s.popWord 0) ∧
        t.reg16 .sp = s.reg16 .sp + 4 + n))

/-- 45_control_transfer.md R375 to R377, 60_exceptions.md R431, R433, R434, R436: INT n, INT 3 and INTO with OF = 1 enter
their handler with the next offset pushed; INTO with OF = 0 does nothing. That the result tag is OkayJump is log 35 (the
model's: the rules of the instructions name no tag). -/
def Obligations.SoftwareInterrupts : Prop :=
  ∀ (s : State), s.Calm →
    (∀ n, s.canEnter n = true → ∃ t, exec (.intN n) s = .next t ∧ Entered t s n s.ipNext ∧ t.cpu.result = .okayJump) ∧
    (s.canEnter 3 = true → ∃ t, exec .int3 s = .next t ∧ Entered t s 3 s.ipNext ∧ t.cpu.result = .okayJump) ∧
    (s.cpu.flags.ovf = true → s.canEnter 4 = true →
      ∃ t, exec .into s = .next t ∧ Entered t s 4 s.ipNext ∧ t.cpu.result = .okayJump) ∧
    (s.cpu.flags.ovf = false → exec .into s = .next s)

/-- 45_control_transfer.md R378, 60_exceptions.md R443: IRET pops IP, CS and FLAGS; executed with the stack as an entry
left it, it restores CS, FLAGS, SP and the pushed IP. -/
def Obligations.InterruptReturn : Prop :=
  (∀ (s : State), s.Calm → s.readable (s.popAddrs 3) = true →
      ∃ t, exec .iret s = .next t ∧ t.JumpedTo (s.popWord 1) (s.popWord 0) ∧ t.reg16 .sp = s.reg16 .sp + 6 ∧
        t.cpu.flags.word = (s.popWord 2 &&& 0x0FD5) ||| 0xF002) ∧
  (∀ (s t : State) (n : Byte) (ret : Word), s.Calm → s.canEnter n = true → Entered t s n ret → t.Calm →
      t.board.mask = s.board.mask → t.sreg .ss = s.sreg .ss →
      ∃ u, exec .iret t = .next u ∧ u.JumpedTo (s.sreg .cs) ret ∧ u.reg16 .sp = s.reg16 .sp ∧ u.cpu.flags = s.cpu.flags)

/-! ### Results: processor control -/

/-- 46_processor_control.md R390 to R396, 60_exceptions.md R451: CLC, STC, CMC, CLD, STD, CLI and STI; after STI the
next sampling is inhibited under `P_INT_INHIBIT`. -/
def Obligations.FlagInstructions : Prop :=
  (∀ (s : State),
      (∃ t, exec .clc s = .next t ∧ t.cpu.flags = { s.cpu.flags with cf := false }) ∧
      (∃ t, exec .stc s = .next t ∧ t.cpu.flags = { s.cpu.flags with cf := true }) ∧
      (∃ t, exec .cmc s = .next t ∧ t.cpu.flags = { s.cpu.flags with cf := !s.cpu.flags.cf }) ∧
      (∃ t, exec .cld s = .next t ∧ t.cpu.flags = { s.cpu.flags with df := false }) ∧
      (∃ t, exec .std s = .next t ∧ t.cpu.flags = { s.cpu.flags with df := true })) ∧
  (∀ (s : State),
      (∃ t, exec .cli s = .next t ∧ t.cpu.flags = { s.cpu.flags with intf := false } ∧
        t.cpu.intInhibit = s.cpu.intInhibit) ∧
      (∃ t, exec .sti s = .next t ∧ t.cpu.flags = { s.cpu.flags with intf := true } ∧
        t.cpu.intInhibit = (s.board.params.intInhibit || s.cpu.intInhibit)))

/-- 46_processor_control.md R397 to R399, 60_exceptions.md R471: HLT halts with IF = 1 and is a fault with IF = 0;
WAIT passes when TEST is asserted and otherwise goes back to `last_ip` with result unchanged; ESC reads a memory
operand as a word, which is one `Rd16` of the bus and nothing else but `last_ea`: no register, no flag, no byte of memory
changes. These rest on decisions D22, D23, D38. -/
def Obligations.HaltWaitEscape : Prop :=
  ∀ (s : State),
    (s.cpu.flags.intf = true → ∃ t, exec .hlt s = .next t ∧ t.cpu.halted = true ∧ t.cpu.result = .halt ∧
      t.board = s.board) ∧
    (s.cpu.flags.intf = false → exec .hlt s = .fault (.cpuHaltedError (phys s.cpu.lastCs s.cpu.lastIp))) ∧
    (s.board.params.testPin = true → exec .wait s = .next s) ∧
    (s.board.params.testPin = false → ∃ t, exec .wait s = .next t ∧ t.board.pc = s.cpu.lastIp ∧ t.board.queue = [] ∧
      t.cpu = s.cpu) ∧
    (∀ (op reg : BitVec 3) (g : GReg), exec (.esc op reg (.reg g)) s = .next s) ∧
    (∀ (op reg : BitVec 3) (m : Mem), ∃ t, exec (.esc op reg (.mem m)) s = .next t ∧
      t.cpu = { s.cpu with lastEa := s.ea m } ∧ t.board = (s.board.rd16 (s.sreg .cs) (s.easeg m) (s.ea m)).2 ∧
      (s.Quiet → t.board.mem = s.board.mem))

/-- 30_encoding.md R135, R161, 46_processor_control.md R400, R402, R408, 20_memory.md R103, 44_string.md R328: a prefix byte
records itself and does nothing else, but that LOCK (F0, and F1) holds the bus. Where a LOCK stands anywhere among the
prefixes, the bus is held and no DMA transfer falls from the first prefix byte on, wherever the later bytes come from and
whatever the other agents ask for; otherwise the units are taken as they come, however many prefixes there are. While the bus is held no DMA transfer falls inside the instruction, whatever the other agents ask for:
neither while its bytes are taken, nor in the slot before it executes, nor in any bus cycle of its execution: no channel
is served, and no byte of memory changes but those the instruction stores to (an access to the DMA controller's own ports
writes it, and is no transfer). The bus is let go at every boundary, so each iteration of a repeated instruction is locked
separately (R328). That LOCK holds DMA off and nothing else is decision D33; how far the hold extends, from the first
prefix byte on and over the slots, is the model's (log 25, DEDUCED; log 43, DESIGN CHOICE). -/
def Obligations.PrefixesAndLock : Prop :=
  let unserved (s t : State) : Prop := ∀ n, (s.board.dma.get n).Untouched (t.board.dma.get n)
  let stored (as : List Nat) (s t : State) : Prop := ∀ a, a ∉ as → t.byteAt a = s.byteAt a
  (∀ (s : State) (i : Instr), isPrefix i = true →
    ∃ t, exec i s = .next t ∧ t.cpu = { s.cpu with pfx := s.cpu.pfx.after i } ∧
      t.board = { s.board with locked := s.board.locked || i == .lock || i == .lockAlias }) ∧
  (∀ (s : State) (n : Nat),
    ((s.takeRest n).state.cpu.pfx.lock = true →
      (s.takeRest n).state.board.locked = true ∧ unserved s (s.takeRest n).state ∧ stored [] s (s.takeRest n).state) ∧
    ((s.takeUnits .subsequent n).state.cpu.pfx.lock = false → s.takeRest n = s.takeUnits .subsequent n)) ∧
  (∀ s : State, s.board.locked = true →
    (∀ (op : QueueOp) (bs : List Byte) (n : Nat) (i : Instr) (t : State), s.fetchUnit op bs n = some (i, t) →
      t.board.locked = true ∧ unserved s t ∧ stored [] s t) ∧
    (s.innerSlot.board.locked = true ∧ unserved s s.innerSlot ∧ stored [] s s.innerSlot) ∧
    ∀ (i : Instr) (t : State), exec i s = .next t →
      t.board.locked = true ∧ (isPortAccess i = false → unserved s t) ∧ stored (storedAddrs i s) s t) ∧
  ∀ s : State, s.retire.board.locked = false

/-- 46_processor_control.md R411, R413: the encodings without semantics are decode faults under either value of
`P_UNDOC`. This is decision D7. -/
def Obligations.NoSemanticsFault : Prop :=
  ∀ (s : State) (e : RM) (g : GReg),
    let stop : Host.Outcome State Fault Refusal := .fault (.instructionDecodeError (phys s.cpu.lastCs s.cpu.lastIp))
    exec (.fe2 e) s = stop ∧ exec (.fe3 e) s = stop ∧ exec (.fe4 e) s = stop ∧ exec (.fe5 e) s = stop ∧
    exec (.fe6 e) s = stop ∧ exec (.fe7 e) s = stop ∧
    exec (.callFarRm (.reg g)) s = stop ∧ exec (.jmpFarRm (.reg g)) s = stop

/-! ### Bus and devices -/

/-- 20_memory.md R92: a bus cycle takes four clocks and one more for each wait state, and leaves the bus idle with
the address, the status and the byte latched. The table is decision D39. -/
def Obligations.BusCycleClocks : Prop :=
  ∀ (r : BusRequest) (p : BusPins), p.tState = .ti →
    iter (BusPins.clock r none) (4 + r.wait) ((p.clock r (some r))) =
      { tState := .ti, ale := false, status := r.status, address := r.address, dataBus := r.data, waitCycles := 0,
        inFlight := false }

/-- 20_memory.md R75, R77, R78, R79: physical addresses wrap at 1 MiB, offsets at 64 KiB, words are little-endian at any
alignment; a word written is read back, and its halves are at the two offsets. That a word wraps inside its segment and
that its low byte comes first are decisions D5 and D4. -/
def Obligations.WordsInMemory : Prop :=
  (∀ seg off : Word, phys seg off = (seg.toNat * 16 + off.toNat) % 2 ^ 20) ∧
  ∀ (s : State) (seg off v : Word), s.Calm → s.writable (byteAddrs .word seg off) = true →
    let t := s.wr16 seg off v
    t.peek .word seg off = v ∧ (t.rd16 seg off).1 = v ∧ t.peek .byte seg off = loByte v ∧
    t.peek .byte seg (off + 1) = hiByte v ∧ t.Calm ∧
    ∀ a, a ≠ phys seg off → a ≠ phys seg (off + 1) → t.byteAt a = s.byteAt a

/-- 60_exceptions.md R495, R496, R498, 20_memory.md R85: one DMA transfer into memory, and the terminal count. A count of
`k` moves `k + 1` bytes. A byte that the software request register asked for is only noted, and the step that holds it is
refused (logs 23 and 42, from R498 and 93_implementation_defined.md section 7). The layout is decision D28; which page bits count
is the parameter of log 22; out of range nothing is written (R85). -/
def Obligations.DmaTransfer : Prop :=
  ∀ (b : Board) (n : BitVec 2) (din : Byte),
    let c := b.dma.get n
    let t := b.dmaTransfer n din
    let u := t.dma.get n
    let whole := c.page.toNat * 65536 + c.curAddr.toNat
    let a := if b.params.dmaRange = .lowFour then whole % 2 ^ 20 else whole
    let moves := c.xfer = .writeToMem ∨ c.xfer = .readFromMem
    (c.masked = true ∨ b.dma.enable = false ∨ c.tc = true ∨ c.service = .cascade → t = b) ∧
    (c.masked = false → b.dma.enable = true → c.tc = false → c.service ≠ .cascade →
      (c.soft = true ∧ moves → t = { b with undescribed := some .dmaSoftwareRequest }) ∧
      (¬ (c.soft = true ∧ moves) →
        t.undescribed = b.undescribed ∧ (∀ m, m ≠ n → t.dma.get m = b.dma.get m) ∧
        (c.xfer = .writeToMem → Memory.wf b.mem = true → a < 2 ^ 20 → (Mask.read b.mask a).mmio = false →
          (Mask.read b.mask a).rom = false → Memory.read t.mem a = din) ∧
        (∀ x, x ≠ a ∨ c.xfer ≠ .writeToMem ∨ (Mask.read b.mask a).mmio = true ∨ (Mask.read b.mask a).rom = true ∨
            2 ^ 20 ≤ a →
          Memory.read t.mem x = Memory.read b.mem x) ∧
        (c.curCount ≠ 0 → u = { c with curAddr := if c.decrement then c.curAddr - 1 else c.curAddr + 1,
                                       curCount := c.curCount - 1 }) ∧
        (c.curCount = 0 → c.autoInit = false → u = { c with
          curAddr := if c.decrement then c.curAddr - 1 else c.curAddr + 1, curCount := 0xFFFF, tcLatched := true,
          tc := true }) ∧
        (c.curCount = 0 → c.autoInit = true → u = { c with curAddr := c.baseAddr, curCount := c.baseCount,
                                                           tcLatched := true })))

/-- 60_exceptions.md R529, R530, R533: enabling the TX-empty interrupt with the holding register empty raises it at
once; the interrupt ID is that of the highest source, and reading it clears TX-empty only; reading the receive
buffer clears data-ready. The register layout is decision D30. -/
def Obligations.UartInterrupts : Prop :=
  ∀ (u : Uart),
    (u.dlab = false →
      (∀ v : Byte, u.ier.getLsbD 1 = false → v.getLsbD 1 = true → u.thr = none → (u.write 1 v).actTx = true) ∧
      u.read 0 = (u.rxBuf, { u with dr := false, actRx := false })) ∧
    ((u.read 2).1 = if u.actLine then 6 else if u.actRx then 4 else if u.actTx then 2 else if u.actModem then 0 else
      1) ∧
    (u.actTx = true → u.actLine = false → u.actRx = false → (u.read 2).2 = { u with actTx := false }) ∧
    ((u.actLine || u.actRx || !u.actTx) = true → (u.read 2).2 = u)

/-- 60_exceptions.md R511 to R513, R516 to R518, 93_implementation_defined.md section 7: a seek below the cylinder cap moves
the drive, any other leaves it; the motor gates `ready`; nothing starts on a drive that is not ready, and no operation but
motor control has a meaning on a drive without an image; sectors of the drive's cylinder that were written are read back
as they were written, without an error. It rests on log 21 (DESIGN CHOICE): that seek needs `ready` and reports a fresh
result, that an operation that does not start leaves the drive as it is, and that the motor, whose effect R517 gives with
and without an image, is not among the operations that section 7 refuses; and on log 46 (DESIGN CHOICE): where several
sectors of a track have one id, `find` means the first, and write and read mean the same one. -/
def Obligations.FloppyOperations : Prop :=
  ∀ (d : Drive),
    (d.ready = true → d.image.isSome = true → ∀ c,
      let cyl := if c < d.kind.cylinders then c else d.cyl
      d.run (.seek c) = some { d with cyl := cyl, result := ⟨false, 0, cyl, d.head, d.sector, false⟩,
                                      status := ⟨false, false, false⟩, failure := none, buffer := [] }) ∧
    (d.motorOn = false → d.image.isSome = true →
      d.run (.motor true) = some { d with motorOn := true, ready := true }) ∧
    (d.motorOn = false → d.image = none → d.run (.motor true) = some { d with motorOn := true }) ∧
    (d.motorOn = true → d.run (.motor false) = some { d with motorOn := false, ready := false }) ∧
    d.run (.motor d.motorOn) = some d ∧
    (d.ready = false → d.image.isSome = true → ∀ op, (∀ on, op ≠ .motor on) → d.run op = some d) ∧
    (d.image = none → ∀ op, (∀ on, op ≠ .motor on) → d.run op = none) ∧
    ∀ (im : DiskImage) (h s n ct : Nat) (data : List Byte), d.ready = true → d.image = some im →
      (∀ k, k < ct → ∃ q, d.find im h d.cyl h (s + k) n = some q ∧ q.addressCrcBad = false) →
      data.length = ct * sectorBytes n →
      ∃ w, d.run (.writeData d.cyl h s n ct data) = some w ∧ w.failure = none ∧
        w.result = ⟨false, ct, d.cyl, h, s + ct, false⟩ ∧
        ∀ skip multitrack : Bool, ∃ r, w.run (.readData d.cyl h s n ct skip multitrack) = some r ∧ r.buffer = data ∧
          r.status = ⟨false, false, false⟩ ∧ r.failure = none ∧ r.result = ⟨false, ct, d.cyl, h, s + ct, false⟩
end

