-- ==== Sys2Proof/Laws/State.lean ====
section
/-! SUPPORT. One lemma per field per update of State, so that no proof unfolds a record update. -/

namespace Sys2Proof.Machine.State

variable (s : State)

/-! ### `setReg16` -/

@[simp] theorem setReg16_regs (g : GReg) (v : Word) : (s.setReg16 g v).cpu.regs = s.cpu.regs.set g v := rfl
@[simp] theorem setReg16_sregs (g : GReg) (v : Word) : (s.setReg16 g v).cpu.sregs = s.cpu.sregs := rfl
@[simp] theorem setReg16_flags (g : GReg) (v : Word) : (s.setReg16 g v).cpu.flags = s.cpu.flags := rfl
@[simp] theorem setReg16_halted (g : GReg) (v : Word) : (s.setReg16 g v).cpu.halted = s.cpu.halted := rfl
@[simp] theorem setReg16_inRep (g : GReg) (v : Word) : (s.setReg16 g v).cpu.inRep = s.cpu.inRep := rfl
@[simp] theorem setReg16_intrPending (g : GReg) (v : Word) : (s.setReg16 g v).cpu.intrPending = s.cpu.intrPending := rfl
@[simp] theorem setReg16_nmiLatch (g : GReg) (v : Word) : (s.setReg16 g v).cpu.nmiLatch = s.cpu.nmiLatch := rfl
@[simp] theorem setReg16_trapArmed (g : GReg) (v : Word) : (s.setReg16 g v).cpu.trapArmed = s.cpu.trapArmed := rfl
@[simp] theorem setReg16_intInhibit (g : GReg) (v : Word) : (s.setReg16 g v).cpu.intInhibit = s.cpu.intInhibit := rfl
@[simp] theorem setReg16_lastEa (g : GReg) (v : Word) : (s.setReg16 g v).cpu.lastEa = s.cpu.lastEa := rfl
@[simp] theorem setReg16_lastCs (g : GReg) (v : Word) : (s.setReg16 g v).cpu.lastCs = s.cpu.lastCs := rfl
@[simp] theorem setReg16_lastIp (g : GReg) (v : Word) : (s.setReg16 g v).cpu.lastIp = s.cpu.lastIp := rfl
@[simp] theorem setReg16_error (g : GReg) (v : Word) : (s.setReg16 g v).cpu.error = s.cpu.error := rfl
@[simp] theorem setReg16_decoded (g : GReg) (v : Word) : (s.setReg16 g v).cpu.decoded = s.cpu.decoded := rfl
@[simp] theorem setReg16_pfx (g : GReg) (v : Word) : (s.setReg16 g v).cpu.pfx = s.cpu.pfx := rfl
@[simp] theorem setReg16_size (g : GReg) (v : Word) : (s.setReg16 g v).cpu.size = s.cpu.size := rfl
@[simp] theorem setReg16_loaded (g : GReg) (v : Word) : (s.setReg16 g v).cpu.loaded = s.cpu.loaded := rfl
@[simp] theorem setReg16_attempts (g : GReg) (v : Word) : (s.setReg16 g v).cpu.attempts = s.cpu.attempts := rfl
@[simp] theorem setReg16_result (g : GReg) (v : Word) : (s.setReg16 g v).cpu.result = s.cpu.result := rfl
@[simp] theorem setReg16_board (g : GReg) (v : Word) : (s.setReg16 g v).board = s.board := rfl
@[simp] theorem setReg16_inputs (g : GReg) (v : Word) : (s.setReg16 g v).inputs = s.inputs := rfl
@[simp] theorem setReg16_skipBp (g : GReg) (v : Word) : (s.setReg16 g v).skipBp = s.skipBp := rfl
@[simp] theorem setReg16_started (g : GReg) (v : Word) : (s.setReg16 g v).started = s.started := rfl

/-! ### `setReg8` -/

@[simp] theorem setReg8_regs (g : GReg) (v : Byte) : (s.setReg8 g v).cpu.regs = s.cpu.regs.set8 g v := rfl
@[simp] theorem setReg8_sregs (g : GReg) (v : Byte) : (s.setReg8 g v).cpu.sregs = s.cpu.sregs := rfl
@[simp] theorem setReg8_flags (g : GReg) (v : Byte) : (s.setReg8 g v).cpu.flags = s.cpu.flags := rfl
@[simp] theorem setReg8_halted (g : GReg) (v : Byte) : (s.setReg8 g v).cpu.halted = s.cpu.halted := rfl
@[simp] theorem setReg8_inRep (g : GReg) (v : Byte) : (s.setReg8 g v).cpu.inRep = s.cpu.inRep := rfl
@[simp] theorem setReg8_intrPending (g : GReg) (v : Byte) : (s.setReg8 g v).cpu.intrPending = s.cpu.intrPending := rfl
@[simp] theorem setReg8_nmiLatch (g : GReg) (v : Byte) : (s.setReg8 g v).cpu.nmiLatch = s.cpu.nmiLatch := rfl
@[simp] theorem setReg8_trapArmed (g : GReg) (v : Byte) : (s.setReg8 g v).cpu.trapArmed = s.cpu.trapArmed := rfl
@[simp] theorem setReg8_intInhibit (g : GReg) (v : Byte) : (s.setReg8 g v).cpu.intInhibit = s.cpu.intInhibit := rfl
@[simp] theorem setReg8_lastEa (g : GReg) (v : Byte) : (s.setReg8 g v).cpu.lastEa = s.cpu.lastEa := rfl
@[simp] theorem setReg8_lastCs (g : GReg) (v : Byte) : (s.setReg8 g v).cpu.lastCs = s.cpu.lastCs := rfl
@[simp] theorem setReg8_lastIp (g : GReg) (v : Byte) : (s.setReg8 g v).cpu.lastIp = s.cpu.lastIp := rfl
@[simp] theorem setReg8_error (g : GReg) (v : Byte) : (s.setReg8 g v).cpu.error = s.cpu.error := rfl
@[simp] theorem setReg8_decoded (g : GReg) (v : Byte) : (s.setReg8 g v).cpu.decoded = s.cpu.decoded := rfl
@[simp] theorem setReg8_pfx (g : GReg) (v : Byte) : (s.setReg8 g v).cpu.pfx = s.cpu.pfx := rfl
@[simp] theorem setReg8_size (g : GReg) (v : Byte) : (s.setReg8 g v).cpu.size = s.cpu.size := rfl
@[simp] theorem setReg8_loaded (g : GReg) (v : Byte) : (s.setReg8 g v).cpu.loaded = s.cpu.loaded := rfl
@[simp] theorem setReg8_attempts (g : GReg) (v : Byte) : (s.setReg8 g v).cpu.attempts = s.cpu.attempts := rfl
@[simp] theorem setReg8_result (g : GReg) (v : Byte) : (s.setReg8 g v).cpu.result = s.cpu.result := rfl
@[simp] theorem setReg8_board (g : GReg) (v : Byte) : (s.setReg8 g v).board = s.board := rfl
@[simp] theorem setReg8_inputs (g : GReg) (v : Byte) : (s.setReg8 g v).inputs = s.inputs := rfl
@[simp] theorem setReg8_skipBp (g : GReg) (v : Byte) : (s.setReg8 g v).skipBp = s.skipBp := rfl
@[simp] theorem setReg8_started (g : GReg) (v : Byte) : (s.setReg8 g v).started = s.started := rfl

/-! ### `setSreg` -/

@[simp] theorem setSreg_regs (r : SReg) (v : Word) : (s.setSreg r v).cpu.regs = s.cpu.regs := rfl
@[simp] theorem setSreg_sregs (r : SReg) (v : Word) : (s.setSreg r v).cpu.sregs = s.cpu.sregs.set r v := rfl
@[simp] theorem setSreg_flags (r : SReg) (v : Word) : (s.setSreg r v).cpu.flags = s.cpu.flags := rfl
@[simp] theorem setSreg_halted (r : SReg) (v : Word) : (s.setSreg r v).cpu.halted = s.cpu.halted := rfl
@[simp] theorem setSreg_inRep (r : SReg) (v : Word) : (s.setSreg r v).cpu.inRep = s.cpu.inRep := rfl
@[simp] theorem setSreg_intrPending (r : SReg) (v : Word) : (s.setSreg r v).cpu.intrPending = s.cpu.intrPending := rfl
@[simp] theorem setSreg_nmiLatch (r : SReg) (v : Word) : (s.setSreg r v).cpu.nmiLatch = s.cpu.nmiLatch := rfl
@[simp] theorem setSreg_trapArmed (r : SReg) (v : Word) : (s.setSreg r v).cpu.trapArmed = s.cpu.trapArmed := rfl
@[simp] theorem setSreg_intInhibit (r : SReg) (v : Word) : (s.setSreg r v).cpu.intInhibit = s.cpu.intInhibit := rfl
@[simp] theorem setSreg_lastEa (r : SReg) (v : Word) : (s.setSreg r v).cpu.lastEa = s.cpu.lastEa := rfl
@[simp] theorem setSreg_lastCs (r : SReg) (v : Word) : (s.setSreg r v).cpu.lastCs = s.cpu.lastCs := rfl
@[simp] theorem setSreg_lastIp (r : SReg) (v : Word) : (s.setSreg r v).cpu.lastIp = s.cpu.lastIp := rfl
@[simp] theorem setSreg_error (r : SReg) (v : Word) : (s.setSreg r v).cpu.error = s.cpu.error := rfl
@[simp] theorem setSreg_decoded (r : SReg) (v : Word) : (s.setSreg r v).cpu.decoded = s.cpu.decoded := rfl
@[simp] theorem setSreg_pfx (r : SReg) (v : Word) : (s.setSreg r v).cpu.pfx = s.cpu.pfx := rfl
@[simp] theorem setSreg_size (r : SReg) (v : Word) : (s.setSreg r v).cpu.size = s.cpu.size := rfl
@[simp] theorem setSreg_loaded (r : SReg) (v : Word) : (s.setSreg r v).cpu.loaded = s.cpu.loaded := rfl
@[simp] theorem setSreg_attempts (r : SReg) (v : Word) : (s.setSreg r v).cpu.attempts = s.cpu.attempts := rfl
@[simp] theorem setSreg_result (r : SReg) (v : Word) : (s.setSreg r v).cpu.result = s.cpu.result := rfl
@[simp] theorem setSreg_board (r : SReg) (v : Word) : (s.setSreg r v).board = s.board := rfl
@[simp] theorem setSreg_inputs (r : SReg) (v : Word) : (s.setSreg r v).inputs = s.inputs := rfl
@[simp] theorem setSreg_skipBp (r : SReg) (v : Word) : (s.setSreg r v).skipBp = s.skipBp := rfl
@[simp] theorem setSreg_started (r : SReg) (v : Word) : (s.setSreg r v).started = s.started := rfl

/-! ### `setFlags` -/

@[simp] theorem setFlags_regs (f : Flags) : (s.setFlags f).cpu.regs = s.cpu.regs := rfl
@[simp] theorem setFlags_sregs (f : Flags) : (s.setFlags f).cpu.sregs = s.cpu.sregs := rfl
@[simp] theorem setFlags_flags (f : Flags) : (s.setFlags f).cpu.flags = f := rfl
@[simp] theorem setFlags_halted (f : Flags) : (s.setFlags f).cpu.halted = s.cpu.halted := rfl
@[simp] theorem setFlags_inRep (f : Flags) : (s.setFlags f).cpu.inRep = s.cpu.inRep := rfl
@[simp] theorem setFlags_intrPending (f : Flags) : (s.setFlags f).cpu.intrPending = s.cpu.intrPending := rfl
@[simp] theorem setFlags_nmiLatch (f : Flags) : (s.setFlags f).cpu.nmiLatch = s.cpu.nmiLatch := rfl
@[simp] theorem setFlags_trapArmed (f : Flags) : (s.setFlags f).cpu.trapArmed = s.cpu.trapArmed := rfl
@[simp] theorem setFlags_intInhibit (f : Flags) : (s.setFlags f).cpu.intInhibit = s.cpu.intInhibit := rfl
@[simp] theorem setFlags_lastEa (f : Flags) : (s.setFlags f).cpu.lastEa = s.cpu.lastEa := rfl
@[simp] theorem setFlags_lastCs (f : Flags) : (s.setFlags f).cpu.lastCs = s.cpu.lastCs := rfl
@[simp] theorem setFlags_lastIp (f : Flags) : (s.setFlags f).cpu.lastIp = s.cpu.lastIp := rfl
@[simp] theorem setFlags_error (f : Flags) : (s.setFlags f).cpu.error = s.cpu.error := rfl
@[simp] theorem setFlags_decoded (f : Flags) : (s.setFlags f).cpu.decoded = s.cpu.decoded := rfl
@[simp] theorem setFlags_pfx (f : Flags) : (s.setFlags f).cpu.pfx = s.cpu.pfx := rfl
@[simp] theorem setFlags_size (f : Flags) : (s.setFlags f).cpu.size = s.cpu.size := rfl
@[simp] theorem setFlags_loaded (f : Flags) : (s.setFlags f).cpu.loaded = s.cpu.loaded := rfl
@[simp] theorem setFlags_attempts (f : Flags) : (s.setFlags f).cpu.attempts = s.cpu.attempts := rfl
@[simp] theorem setFlags_result (f : Flags) : (s.setFlags f).cpu.result = s.cpu.result := rfl
@[simp] theorem setFlags_board (f : Flags) : (s.setFlags f).board = s.board := rfl
@[simp] theorem setFlags_inputs (f : Flags) : (s.setFlags f).inputs = s.inputs := rfl
@[simp] theorem setFlags_skipBp (f : Flags) : (s.setFlags f).skipBp = s.skipBp := rfl
@[simp] theorem setFlags_started (f : Flags) : (s.setFlags f).started = s.started := rfl

/-! ### `setBoard` -/

@[simp] theorem setBoard_regs (b : Board) : (s.setBoard b).cpu.regs = s.cpu.regs := rfl
@[simp] theorem setBoard_sregs (b : Board) : (s.setBoard b).cpu.sregs = s.cpu.sregs := rfl
@[simp] theorem setBoard_flags (b : Board) : (s.setBoard b).cpu.flags = s.cpu.flags := rfl
@[simp] theorem setBoard_halted (b : Board) : (s.setBoard b).cpu.halted = s.cpu.halted := rfl
@[simp] theorem setBoard_inRep (b : Board) : (s.setBoard b).cpu.inRep = s.cpu.inRep := rfl
@[simp] theorem setBoard_intrPending (b : Board) : (s.setBoard b).cpu.intrPending = s.cpu.intrPending := rfl
@[simp] theorem setBoard_nmiLatch (b : Board) : (s.setBoard b).cpu.nmiLatch = s.cpu.nmiLatch := rfl
@[simp] theorem setBoard_trapArmed (b : Board) : (s.setBoard b).cpu.trapArmed = s.cpu.trapArmed := rfl
@[simp] theorem setBoard_intInhibit (b : Board) : (s.setBoard b).cpu.intInhibit = s.cpu.intInhibit := rfl
@[simp] theorem setBoard_lastEa (b : Board) : (s.setBoard b).cpu.lastEa = s.cpu.lastEa := rfl
@[simp] theorem setBoard_lastCs (b : Board) : (s.setBoard b).cpu.lastCs = s.cpu.lastCs := rfl
@[simp] theorem setBoard_lastIp (b : Board) : (s.setBoard b).cpu.lastIp = s.cpu.lastIp := rfl
@[simp] theorem setBoard_error (b : Board) : (s.setBoard b).cpu.error = s.cpu.error := rfl
@[simp] theorem setBoard_decoded (b : Board) : (s.setBoard b).cpu.decoded = s.cpu.decoded := rfl
@[simp] theorem setBoard_pfx (b : Board) : (s.setBoard b).cpu.pfx = s.cpu.pfx := rfl
@[simp] theorem setBoard_size (b : Board) : (s.setBoard b).cpu.size = s.cpu.size := rfl
@[simp] theorem setBoard_loaded (b : Board) : (s.setBoard b).cpu.loaded = s.cpu.loaded := rfl
@[simp] theorem setBoard_attempts (b : Board) : (s.setBoard b).cpu.attempts = s.cpu.attempts := rfl
@[simp] theorem setBoard_result (b : Board) : (s.setBoard b).cpu.result = s.cpu.result := rfl
@[simp] theorem setBoard_board (b : Board) : (s.setBoard b).board = b := rfl
@[simp] theorem setBoard_inputs (b : Board) : (s.setBoard b).inputs = s.inputs := rfl
@[simp] theorem setBoard_skipBp (b : Board) : (s.setBoard b).skipBp = s.skipBp := rfl
@[simp] theorem setBoard_started (b : Board) : (s.setBoard b).started = s.started := rfl

/-! ### `setResult` -/

@[simp] theorem setResult_regs (r : ResultTag) : (s.setResult r).cpu.regs = s.cpu.regs := rfl
@[simp] theorem setResult_sregs (r : ResultTag) : (s.setResult r).cpu.sregs = s.cpu.sregs := rfl
@[simp] theorem setResult_flags (r : ResultTag) : (s.setResult r).cpu.flags = s.cpu.flags := rfl
@[simp] theorem setResult_halted (r : ResultTag) : (s.setResult r).cpu.halted = s.cpu.halted := rfl
@[simp] theorem setResult_inRep (r : ResultTag) : (s.setResult r).cpu.inRep = s.cpu.inRep := rfl
@[simp] theorem setResult_intrPending (r : ResultTag) : (s.setResult r).cpu.intrPending = s.cpu.intrPending := rfl
@[simp] theorem setResult_nmiLatch (r : ResultTag) : (s.setResult r).cpu.nmiLatch = s.cpu.nmiLatch := rfl
@[simp] theorem setResult_trapArmed (r : ResultTag) : (s.setResult r).cpu.trapArmed = s.cpu.trapArmed := rfl
@[simp] theorem setResult_intInhibit (r : ResultTag) : (s.setResult r).cpu.intInhibit = s.cpu.intInhibit := rfl
@[simp] theorem setResult_lastEa (r : ResultTag) : (s.setResult r).cpu.lastEa = s.cpu.lastEa := rfl
@[simp] theorem setResult_lastCs (r : ResultTag) : (s.setResult r).cpu.lastCs = s.cpu.lastCs := rfl
@[simp] theorem setResult_lastIp (r : ResultTag) : (s.setResult r).cpu.lastIp = s.cpu.lastIp := rfl
@[simp] theorem setResult_error (r : ResultTag) : (s.setResult r).cpu.error = s.cpu.error := rfl
@[simp] theorem setResult_decoded (r : ResultTag) : (s.setResult r).cpu.decoded = s.cpu.decoded := rfl
@[simp] theorem setResult_pfx (r : ResultTag) : (s.setResult r).cpu.pfx = s.cpu.pfx := rfl
@[simp] theorem setResult_size (r : ResultTag) : (s.setResult r).cpu.size = s.cpu.size := rfl
@[simp] theorem setResult_loaded (r : ResultTag) : (s.setResult r).cpu.loaded = s.cpu.loaded := rfl
@[simp] theorem setResult_attempts (r : ResultTag) : (s.setResult r).cpu.attempts = s.cpu.attempts := rfl
@[simp] theorem setResult_result (r : ResultTag) : (s.setResult r).cpu.result = r := rfl
@[simp] theorem setResult_board (r : ResultTag) : (s.setResult r).board = s.board := rfl
@[simp] theorem setResult_inputs (r : ResultTag) : (s.setResult r).inputs = s.inputs := rfl
@[simp] theorem setResult_skipBp (r : ResultTag) : (s.setResult r).skipBp = s.skipBp := rfl
@[simp] theorem setResult_started (r : ResultTag) : (s.setResult r).started = s.started := rfl

/-! ### `setPfx` -/

@[simp] theorem setPfx_regs (p : Prefixes) : (s.setPfx p).cpu.regs = s.cpu.regs := rfl
@[simp] theorem setPfx_sregs (p : Prefixes) : (s.setPfx p).cpu.sregs = s.cpu.sregs := rfl
@[simp] theorem setPfx_flags (p : Prefixes) : (s.setPfx p).cpu.flags = s.cpu.flags := rfl
@[simp] theorem setPfx_halted (p : Prefixes) : (s.setPfx p).cpu.halted = s.cpu.halted := rfl
@[simp] theorem setPfx_inRep (p : Prefixes) : (s.setPfx p).cpu.inRep = s.cpu.inRep := rfl
@[simp] theorem setPfx_intrPending (p : Prefixes) : (s.setPfx p).cpu.intrPending = s.cpu.intrPending := rfl
@[simp] theorem setPfx_nmiLatch (p : Prefixes) : (s.setPfx p).cpu.nmiLatch = s.cpu.nmiLatch := rfl
@[simp] theorem setPfx_trapArmed (p : Prefixes) : (s.setPfx p).cpu.trapArmed = s.cpu.trapArmed := rfl
@[simp] theorem setPfx_intInhibit (p : Prefixes) : (s.setPfx p).cpu.intInhibit = s.cpu.intInhibit := rfl
@[simp] theorem setPfx_lastEa (p : Prefixes) : (s.setPfx p).cpu.lastEa = s.cpu.lastEa := rfl
@[simp] theorem setPfx_lastCs (p : Prefixes) : (s.setPfx p).cpu.lastCs = s.cpu.lastCs := rfl
@[simp] theorem setPfx_lastIp (p : Prefixes) : (s.setPfx p).cpu.lastIp = s.cpu.lastIp := rfl
@[simp] theorem setPfx_error (p : Prefixes) : (s.setPfx p).cpu.error = s.cpu.error := rfl
@[simp] theorem setPfx_decoded (p : Prefixes) : (s.setPfx p).cpu.decoded = s.cpu.decoded := rfl
@[simp] theorem setPfx_pfx (p : Prefixes) : (s.setPfx p).cpu.pfx = p := rfl
@[simp] theorem setPfx_size (p : Prefixes) : (s.setPfx p).cpu.size = s.cpu.size := rfl
@[simp] theorem setPfx_loaded (p : Prefixes) : (s.setPfx p).cpu.loaded = s.cpu.loaded := rfl
@[simp] theorem setPfx_attempts (p : Prefixes) : (s.setPfx p).cpu.attempts = s.cpu.attempts := rfl
@[simp] theorem setPfx_result (p : Prefixes) : (s.setPfx p).cpu.result = s.cpu.result := rfl
@[simp] theorem setPfx_board (p : Prefixes) : (s.setPfx p).board = s.board := rfl
@[simp] theorem setPfx_inputs (p : Prefixes) : (s.setPfx p).inputs = s.inputs := rfl
@[simp] theorem setPfx_skipBp (p : Prefixes) : (s.setPfx p).skipBp = s.skipBp := rfl
@[simp] theorem setPfx_started (p : Prefixes) : (s.setPfx p).started = s.started := rfl

/-! ### `flushTo` -/

@[simp] theorem flushTo_regs (ip : Word) : (s.flushTo ip).cpu.regs = s.cpu.regs := rfl
@[simp] theorem flushTo_sregs (ip : Word) : (s.flushTo ip).cpu.sregs = s.cpu.sregs := rfl
@[simp] theorem flushTo_flags (ip : Word) : (s.flushTo ip).cpu.flags = s.cpu.flags := rfl
@[simp] theorem flushTo_halted (ip : Word) : (s.flushTo ip).cpu.halted = s.cpu.halted := rfl
@[simp] theorem flushTo_inRep (ip : Word) : (s.flushTo ip).cpu.inRep = s.cpu.inRep := rfl
@[simp] theorem flushTo_intrPending (ip : Word) : (s.flushTo ip).cpu.intrPending = s.cpu.intrPending := rfl
@[simp] theorem flushTo_nmiLatch (ip : Word) : (s.flushTo ip).cpu.nmiLatch = s.cpu.nmiLatch := rfl
@[simp] theorem flushTo_trapArmed (ip : Word) : (s.flushTo ip).cpu.trapArmed = s.cpu.trapArmed := rfl
@[simp] theorem flushTo_intInhibit (ip : Word) : (s.flushTo ip).cpu.intInhibit = s.cpu.intInhibit := rfl
@[simp] theorem flushTo_lastEa (ip : Word) : (s.flushTo ip).cpu.lastEa = s.cpu.lastEa := rfl
@[simp] theorem flushTo_lastCs (ip : Word) : (s.flushTo ip).cpu.lastCs = s.cpu.lastCs := rfl
@[simp] theorem flushTo_lastIp (ip : Word) : (s.flushTo ip).cpu.lastIp = s.cpu.lastIp := rfl
@[simp] theorem flushTo_error (ip : Word) : (s.flushTo ip).cpu.error = s.cpu.error := rfl
@[simp] theorem flushTo_decoded (ip : Word) : (s.flushTo ip).cpu.decoded = s.cpu.decoded := rfl
@[simp] theorem flushTo_pfx (ip : Word) : (s.flushTo ip).cpu.pfx = s.cpu.pfx := rfl
@[simp] theorem flushTo_size (ip : Word) : (s.flushTo ip).cpu.size = s.cpu.size := rfl
@[simp] theorem flushTo_loaded (ip : Word) : (s.flushTo ip).cpu.loaded = s.cpu.loaded := rfl
@[simp] theorem flushTo_attempts (ip : Word) : (s.flushTo ip).cpu.attempts = s.cpu.attempts := rfl
@[simp] theorem flushTo_result (ip : Word) : (s.flushTo ip).cpu.result = s.cpu.result := rfl
@[simp] theorem flushTo_board (ip : Word) : (s.flushTo ip).board = s.board.flush ip := rfl
@[simp] theorem flushTo_inputs (ip : Word) : (s.flushTo ip).inputs = s.inputs := rfl
@[simp] theorem flushTo_skipBp (ip : Word) : (s.flushTo ip).skipBp = s.skipBp := rfl
@[simp] theorem flushTo_started (ip : Word) : (s.flushTo ip).started = s.started := rfl

/-! ### `spend` -/

@[simp] theorem spend_regs (k : Nat) : (s.spend k).cpu.regs = s.cpu.regs := rfl
@[simp] theorem spend_sregs (k : Nat) : (s.spend k).cpu.sregs = s.cpu.sregs := rfl
@[simp] theorem spend_flags (k : Nat) : (s.spend k).cpu.flags = s.cpu.flags := rfl
@[simp] theorem spend_halted (k : Nat) : (s.spend k).cpu.halted = s.cpu.halted := rfl
@[simp] theorem spend_inRep (k : Nat) : (s.spend k).cpu.inRep = s.cpu.inRep := rfl
@[simp] theorem spend_intrPending (k : Nat) : (s.spend k).cpu.intrPending = s.cpu.intrPending := rfl
@[simp] theorem spend_nmiLatch (k : Nat) : (s.spend k).cpu.nmiLatch = s.cpu.nmiLatch := rfl
@[simp] theorem spend_trapArmed (k : Nat) : (s.spend k).cpu.trapArmed = s.cpu.trapArmed := rfl
@[simp] theorem spend_intInhibit (k : Nat) : (s.spend k).cpu.intInhibit = s.cpu.intInhibit := rfl
@[simp] theorem spend_lastEa (k : Nat) : (s.spend k).cpu.lastEa = s.cpu.lastEa := rfl
@[simp] theorem spend_lastCs (k : Nat) : (s.spend k).cpu.lastCs = s.cpu.lastCs := rfl
@[simp] theorem spend_lastIp (k : Nat) : (s.spend k).cpu.lastIp = s.cpu.lastIp := rfl
@[simp] theorem spend_error (k : Nat) : (s.spend k).cpu.error = s.cpu.error := rfl
@[simp] theorem spend_decoded (k : Nat) : (s.spend k).cpu.decoded = s.cpu.decoded := rfl
@[simp] theorem spend_pfx (k : Nat) : (s.spend k).cpu.pfx = s.cpu.pfx := rfl
@[simp] theorem spend_size (k : Nat) : (s.spend k).cpu.size = s.cpu.size := rfl
@[simp] theorem spend_loaded (k : Nat) : (s.spend k).cpu.loaded = s.cpu.loaded := rfl
@[simp] theorem spend_attempts (k : Nat) : (s.spend k).cpu.attempts = s.cpu.attempts := rfl
@[simp] theorem spend_result (k : Nat) : (s.spend k).cpu.result = s.cpu.result := rfl
@[simp] theorem spend_board (k : Nat) : (s.spend k).board = { s.board with draws := s.board.draws + k } := rfl
@[simp] theorem spend_inputs (k : Nat) : (s.spend k).inputs = s.inputs := rfl
@[simp] theorem spend_skipBp (k : Nat) : (s.spend k).skipBp = s.skipBp := rfl
@[simp] theorem spend_started (k : Nat) : (s.spend k).started = s.started := rfl

/-! ### `leaveRep` -/

@[simp] theorem leaveRep_regs : (s.leaveRep).cpu.regs = s.cpu.regs := rfl
@[simp] theorem leaveRep_sregs : (s.leaveRep).cpu.sregs = s.cpu.sregs := rfl
@[simp] theorem leaveRep_flags : (s.leaveRep).cpu.flags = s.cpu.flags := rfl
@[simp] theorem leaveRep_halted : (s.leaveRep).cpu.halted = s.cpu.halted := rfl
@[simp] theorem leaveRep_inRep : (s.leaveRep).cpu.inRep = false := rfl
@[simp] theorem leaveRep_intrPending : (s.leaveRep).cpu.intrPending = s.cpu.intrPending := rfl
@[simp] theorem leaveRep_nmiLatch : (s.leaveRep).cpu.nmiLatch = s.cpu.nmiLatch := rfl
@[simp] theorem leaveRep_trapArmed : (s.leaveRep).cpu.trapArmed = s.cpu.trapArmed := rfl
@[simp] theorem leaveRep_intInhibit : (s.leaveRep).cpu.intInhibit = s.cpu.intInhibit := rfl
@[simp] theorem leaveRep_lastEa : (s.leaveRep).cpu.lastEa = s.cpu.lastEa := rfl
@[simp] theorem leaveRep_lastCs : (s.leaveRep).cpu.lastCs = s.cpu.lastCs := rfl
@[simp] theorem leaveRep_lastIp : (s.leaveRep).cpu.lastIp = s.cpu.lastIp := rfl
@[simp] theorem leaveRep_error : (s.leaveRep).cpu.error = s.cpu.error := rfl
@[simp] theorem leaveRep_decoded : (s.leaveRep).cpu.decoded = none := rfl
@[simp] theorem leaveRep_pfx : (s.leaveRep).cpu.pfx = s.cpu.pfx := rfl
@[simp] theorem leaveRep_size : (s.leaveRep).cpu.size = s.cpu.size := rfl
@[simp] theorem leaveRep_loaded : (s.leaveRep).cpu.loaded = s.cpu.loaded := rfl
@[simp] theorem leaveRep_attempts : (s.leaveRep).cpu.attempts = s.cpu.attempts := rfl
@[simp] theorem leaveRep_result : (s.leaveRep).cpu.result = s.cpu.result := rfl
@[simp] theorem leaveRep_board : (s.leaveRep).board = s.board := rfl
@[simp] theorem leaveRep_inputs : (s.leaveRep).inputs = s.inputs := rfl
@[simp] theorem leaveRep_skipBp : (s.leaveRep).skipBp = s.skipBp := rfl
@[simp] theorem leaveRep_started : (s.leaveRep).started = s.started := rfl

/-! ### `stayRep` -/

@[simp] theorem stayRep_regs (i : Instr) : (s.stayRep i).cpu.regs = s.cpu.regs := rfl
@[simp] theorem stayRep_sregs (i : Instr) : (s.stayRep i).cpu.sregs = s.cpu.sregs := rfl
@[simp] theorem stayRep_flags (i : Instr) : (s.stayRep i).cpu.flags = s.cpu.flags := rfl
@[simp] theorem stayRep_halted (i : Instr) : (s.stayRep i).cpu.halted = s.cpu.halted := rfl
@[simp] theorem stayRep_inRep (i : Instr) : (s.stayRep i).cpu.inRep = true := rfl
@[simp] theorem stayRep_intrPending (i : Instr) : (s.stayRep i).cpu.intrPending = s.cpu.intrPending := rfl
@[simp] theorem stayRep_nmiLatch (i : Instr) : (s.stayRep i).cpu.nmiLatch = s.cpu.nmiLatch := rfl
@[simp] theorem stayRep_trapArmed (i : Instr) : (s.stayRep i).cpu.trapArmed = s.cpu.trapArmed := rfl
@[simp] theorem stayRep_intInhibit (i : Instr) : (s.stayRep i).cpu.intInhibit = s.cpu.intInhibit := rfl
@[simp] theorem stayRep_lastEa (i : Instr) : (s.stayRep i).cpu.lastEa = s.cpu.lastEa := rfl
@[simp] theorem stayRep_lastCs (i : Instr) : (s.stayRep i).cpu.lastCs = s.cpu.lastCs := rfl
@[simp] theorem stayRep_lastIp (i : Instr) : (s.stayRep i).cpu.lastIp = s.cpu.lastIp := rfl
@[simp] theorem stayRep_error (i : Instr) : (s.stayRep i).cpu.error = s.cpu.error := rfl
@[simp] theorem stayRep_decoded (i : Instr) : (s.stayRep i).cpu.decoded =
    some ⟨i, s.cpu.pfx, s.cpu.size, i.loadsEa⟩ := rfl
@[simp] theorem stayRep_pfx (i : Instr) : (s.stayRep i).cpu.pfx = s.cpu.pfx := rfl
@[simp] theorem stayRep_size (i : Instr) : (s.stayRep i).cpu.size = s.cpu.size := rfl
@[simp] theorem stayRep_loaded (i : Instr) : (s.stayRep i).cpu.loaded = s.cpu.loaded := rfl
@[simp] theorem stayRep_attempts (i : Instr) : (s.stayRep i).cpu.attempts = s.cpu.attempts := rfl
@[simp] theorem stayRep_result (i : Instr) : (s.stayRep i).cpu.result = .okayRep := rfl
@[simp] theorem stayRep_board (i : Instr) : (s.stayRep i).board = s.board := rfl
@[simp] theorem stayRep_inputs (i : Instr) : (s.stayRep i).inputs = s.inputs := rfl
@[simp] theorem stayRep_skipBp (i : Instr) : (s.stayRep i).skipBp = s.skipBp := rfl
@[simp] theorem stayRep_started (i : Instr) : (s.stayRep i).started = s.started := rfl

/-! ### `holdBus` -/

@[simp] theorem holdBus_regs : s.holdBus.cpu.regs = s.cpu.regs := rfl
@[simp] theorem holdBus_sregs : s.holdBus.cpu.sregs = s.cpu.sregs := rfl
@[simp] theorem holdBus_flags : s.holdBus.cpu.flags = s.cpu.flags := rfl
@[simp] theorem holdBus_halted : s.holdBus.cpu.halted = s.cpu.halted := rfl
@[simp] theorem holdBus_inRep : s.holdBus.cpu.inRep = s.cpu.inRep := rfl
@[simp] theorem holdBus_intrPending : s.holdBus.cpu.intrPending = s.cpu.intrPending := rfl
@[simp] theorem holdBus_nmiLatch : s.holdBus.cpu.nmiLatch = s.cpu.nmiLatch := rfl
@[simp] theorem holdBus_trapArmed : s.holdBus.cpu.trapArmed = s.cpu.trapArmed := rfl
@[simp] theorem holdBus_intInhibit : s.holdBus.cpu.intInhibit = s.cpu.intInhibit := rfl
@[simp] theorem holdBus_lastEa : s.holdBus.cpu.lastEa = s.cpu.lastEa := rfl
@[simp] theorem holdBus_lastCs : s.holdBus.cpu.lastCs = s.cpu.lastCs := rfl
@[simp] theorem holdBus_lastIp : s.holdBus.cpu.lastIp = s.cpu.lastIp := rfl
@[simp] theorem holdBus_error : s.holdBus.cpu.error = s.cpu.error := rfl
@[simp] theorem holdBus_decoded : s.holdBus.cpu.decoded = s.cpu.decoded := rfl
@[simp] theorem holdBus_pfx : s.holdBus.cpu.pfx = s.cpu.pfx := rfl
@[simp] theorem holdBus_size : s.holdBus.cpu.size = s.cpu.size := rfl
@[simp] theorem holdBus_loaded : s.holdBus.cpu.loaded = s.cpu.loaded := rfl
@[simp] theorem holdBus_attempts : s.holdBus.cpu.attempts = s.cpu.attempts := rfl
@[simp] theorem holdBus_result : s.holdBus.cpu.result = s.cpu.result := rfl
@[simp] theorem holdBus_board : s.holdBus.board = { s.board with locked := true } := rfl
@[simp] theorem holdBus_inputs : s.holdBus.inputs = s.inputs := rfl
@[simp] theorem holdBus_skipBp : s.holdBus.skipBp = s.skipBp := rfl
@[simp] theorem holdBus_started : s.holdBus.started = s.started := rfl

/-! ### `innerSlot` -/

@[simp] theorem innerSlot_regs : s.innerSlot.cpu.regs = s.cpu.regs := rfl
@[simp] theorem innerSlot_sregs : s.innerSlot.cpu.sregs = s.cpu.sregs := rfl
@[simp] theorem innerSlot_flags : s.innerSlot.cpu.flags = s.cpu.flags := rfl
@[simp] theorem innerSlot_halted : s.innerSlot.cpu.halted = s.cpu.halted := rfl
@[simp] theorem innerSlot_inRep : s.innerSlot.cpu.inRep = s.cpu.inRep := rfl
@[simp] theorem innerSlot_intrPending : s.innerSlot.cpu.intrPending = s.cpu.intrPending := rfl
@[simp] theorem innerSlot_nmiLatch : s.innerSlot.cpu.nmiLatch = s.cpu.nmiLatch := rfl
@[simp] theorem innerSlot_trapArmed : s.innerSlot.cpu.trapArmed = s.cpu.trapArmed := rfl
@[simp] theorem innerSlot_intInhibit : s.innerSlot.cpu.intInhibit = s.cpu.intInhibit := rfl
@[simp] theorem innerSlot_lastEa : s.innerSlot.cpu.lastEa = s.cpu.lastEa := rfl
@[simp] theorem innerSlot_lastCs : s.innerSlot.cpu.lastCs = s.cpu.lastCs := rfl
@[simp] theorem innerSlot_lastIp : s.innerSlot.cpu.lastIp = s.cpu.lastIp := rfl
@[simp] theorem innerSlot_error : s.innerSlot.cpu.error = s.cpu.error := rfl
@[simp] theorem innerSlot_decoded : s.innerSlot.cpu.decoded = s.cpu.decoded := rfl
@[simp] theorem innerSlot_pfx : s.innerSlot.cpu.pfx = s.cpu.pfx := rfl
@[simp] theorem innerSlot_size : s.innerSlot.cpu.size = s.cpu.size := rfl
@[simp] theorem innerSlot_loaded : s.innerSlot.cpu.loaded = s.cpu.loaded := rfl
@[simp] theorem innerSlot_attempts : s.innerSlot.cpu.attempts = s.cpu.attempts := rfl
@[simp] theorem innerSlot_result : s.innerSlot.cpu.result = s.cpu.result := rfl
@[simp] theorem innerSlot_board : s.innerSlot.board = s.board.slot s.cpu.sregs.cs false := rfl
@[simp] theorem innerSlot_inputs : s.innerSlot.inputs = s.inputs := rfl
@[simp] theorem innerSlot_skipBp : s.innerSlot.skipBp = s.skipBp := rfl
@[simp] theorem innerSlot_started : s.innerSlot.started = s.started := rfl

/-! ### `boundarySlot` -/

@[simp] theorem boundarySlot_regs : s.boundarySlot.cpu.regs = s.cpu.regs := rfl
@[simp] theorem boundarySlot_sregs : s.boundarySlot.cpu.sregs = s.cpu.sregs := rfl
@[simp] theorem boundarySlot_flags : s.boundarySlot.cpu.flags = s.cpu.flags := rfl
@[simp] theorem boundarySlot_halted : s.boundarySlot.cpu.halted = s.cpu.halted := rfl
@[simp] theorem boundarySlot_inRep : s.boundarySlot.cpu.inRep = s.cpu.inRep := rfl
@[simp] theorem boundarySlot_intrPending : s.boundarySlot.cpu.intrPending = s.cpu.intrPending := rfl
@[simp] theorem boundarySlot_nmiLatch : s.boundarySlot.cpu.nmiLatch = s.cpu.nmiLatch := rfl
@[simp] theorem boundarySlot_trapArmed : s.boundarySlot.cpu.trapArmed = s.cpu.trapArmed := rfl
@[simp] theorem boundarySlot_intInhibit : s.boundarySlot.cpu.intInhibit = s.cpu.intInhibit := rfl
@[simp] theorem boundarySlot_lastEa : s.boundarySlot.cpu.lastEa = s.cpu.lastEa := rfl
@[simp] theorem boundarySlot_lastCs : s.boundarySlot.cpu.lastCs = s.cpu.lastCs := rfl
@[simp] theorem boundarySlot_lastIp : s.boundarySlot.cpu.lastIp = s.cpu.lastIp := rfl
@[simp] theorem boundarySlot_error : s.boundarySlot.cpu.error = s.cpu.error := rfl
@[simp] theorem boundarySlot_decoded : s.boundarySlot.cpu.decoded = s.cpu.decoded := rfl
@[simp] theorem boundarySlot_pfx : s.boundarySlot.cpu.pfx = s.cpu.pfx := rfl
@[simp] theorem boundarySlot_size : s.boundarySlot.cpu.size = s.cpu.size := rfl
@[simp] theorem boundarySlot_loaded : s.boundarySlot.cpu.loaded = s.cpu.loaded := rfl
@[simp] theorem boundarySlot_attempts : s.boundarySlot.cpu.attempts = s.cpu.attempts := rfl
@[simp] theorem boundarySlot_result : s.boundarySlot.cpu.result = s.cpu.result := rfl
@[simp] theorem boundarySlot_board : s.boundarySlot.board = s.board.slot s.cpu.sregs.cs true := rfl
@[simp] theorem boundarySlot_inputs : s.boundarySlot.inputs = s.inputs := rfl
@[simp] theorem boundarySlot_skipBp : s.boundarySlot.skipBp = s.skipBp := rfl
@[simp] theorem boundarySlot_started : s.boundarySlot.started = s.started := rfl

/-! ### `dropTransient` -/

@[simp] theorem dropTransient_regs : s.dropTransient.cpu.regs = s.cpu.regs := rfl
@[simp] theorem dropTransient_sregs : s.dropTransient.cpu.sregs = s.cpu.sregs := rfl
@[simp] theorem dropTransient_flags : s.dropTransient.cpu.flags = s.cpu.flags := rfl
@[simp] theorem dropTransient_halted : s.dropTransient.cpu.halted = s.cpu.halted := rfl
@[simp] theorem dropTransient_inRep : s.dropTransient.cpu.inRep = s.cpu.inRep := rfl
@[simp] theorem dropTransient_intrPending : s.dropTransient.cpu.intrPending = s.cpu.intrPending := rfl
@[simp] theorem dropTransient_nmiLatch : s.dropTransient.cpu.nmiLatch = s.cpu.nmiLatch := rfl
@[simp] theorem dropTransient_trapArmed : s.dropTransient.cpu.trapArmed = s.cpu.trapArmed := rfl
@[simp] theorem dropTransient_intInhibit : s.dropTransient.cpu.intInhibit = s.cpu.intInhibit := rfl
@[simp] theorem dropTransient_lastEa : s.dropTransient.cpu.lastEa = s.cpu.lastEa := rfl
@[simp] theorem dropTransient_lastCs : s.dropTransient.cpu.lastCs = s.cpu.lastCs := rfl
@[simp] theorem dropTransient_lastIp : s.dropTransient.cpu.lastIp = s.cpu.lastIp := rfl
@[simp] theorem dropTransient_error : s.dropTransient.cpu.error = s.cpu.error := rfl
@[simp] theorem dropTransient_decoded : s.dropTransient.cpu.decoded = s.cpu.decoded := rfl
@[simp] theorem dropTransient_pfx : s.dropTransient.cpu.pfx = .none := rfl
@[simp] theorem dropTransient_size : s.dropTransient.cpu.size = 0 := rfl
@[simp] theorem dropTransient_loaded : s.dropTransient.cpu.loaded = none := rfl
@[simp] theorem dropTransient_attempts : s.dropTransient.cpu.attempts = s.cpu.attempts := rfl
@[simp] theorem dropTransient_result : s.dropTransient.cpu.result = s.cpu.result := rfl
@[simp] theorem dropTransient_board : s.dropTransient.board = s.board := rfl
@[simp] theorem dropTransient_inputs : s.dropTransient.inputs = s.inputs := rfl
@[simp] theorem dropTransient_skipBp : s.dropTransient.skipBp = s.skipBp := rfl
@[simp] theorem dropTransient_started : s.dropTransient.started = s.started := rfl

end Sys2Proof.Machine.State
end

