-- ==== Sys2Proof/Laws/Memory.lean ====
section
/-! SUPPORT. Reading after writing, the frame of a write, and the canonical form, for sparse maps, memory and the mask
array. -/

namespace Sys2Proof.Machine

section Sparse

variable {α : Type} {d : α}

/-- A key below every listed key reads as the default. -/
theorem Sparse.read_below {m : List (Nat × α)} {a : Nat} (h : m.all (fun c => decide (a < c.1)) = true) :
    Sparse.read d a m = d := by
  induction m with
  | nil => rfl
  | cons c t ih =>
    obtain ⟨k, x⟩ := c
    simp only [List.all_cons, Bool.and_eq_true, decide_eq_true_eq] at h
    rw [Sparse.read, if_neg (by omega), ih h.2]

variable [DecidableEq α]

/-- A write leaves every other key alone. -/
theorem Sparse.read_write_other {m : List (Nat × α)} {a b : Nat} (v : α) (h : b ≠ a) :
    Sparse.read d b (Sparse.write d a v m) = Sparse.read d b m := by
  have h' : ¬ a = b := fun e => h e.symm
  induction m with
  | nil => by_cases hv : v = d <;> simp [Sparse.write, Sparse.read, hv, h']
  | cons c t ih =>
    obtain ⟨k, x⟩ := c
    by_cases h1 : a < k
    · by_cases hv : v = d <;> simp [Sparse.write, Sparse.read, h1, hv, h']
    · by_cases h2 : a = k
      · subst h2
        by_cases hv : v = d <;> simp [Sparse.write, Sparse.read, hv, h']
      · rw [Sparse.write, if_neg h1, if_neg h2, Sparse.read, Sparse.read, ih]

/-- A write is read back. -/
theorem Sparse.read_write_same {m : List (Nat × α)} {n a : Nat} (v : α) (hm : Sparse.wf d n m = true) :
    Sparse.read d a (Sparse.write d a v m) = v := by
  induction m with
  | nil => by_cases hv : v = d <;> simp [Sparse.write, Sparse.read, hv]
  | cons c t ih =>
    obtain ⟨k, x⟩ := c
    simp only [Sparse.wf, Bool.and_eq_true, decide_eq_true_eq] at hm
    obtain ⟨⟨⟨-, -⟩, hall⟩, ht⟩ := hm
    by_cases h1 : a < k
    · by_cases hv : v = d
      · have hb : t.all (fun c => decide (a < c.1)) = true := by
          simp only [List.all_eq_true, decide_eq_true_eq] at hall ⊢
          exact fun c hc => lt_trans h1 (hall c hc)
        simp [Sparse.write, Sparse.read, h1, hv, show ¬ k = a by omega, Sparse.read_below hb]
      · simp [Sparse.write, Sparse.read, h1, hv]
    · by_cases h2 : a = k
      · subst h2
        by_cases hv : v = d
        · simp [Sparse.write, hv, Sparse.read_below hall]
        · simp [Sparse.write, Sparse.read, hv]
      · simp [Sparse.write, Sparse.read, h1, h2, show ¬ k = a by omega, ih ht]

/-- What a write lists is above what the map and the written key are above. -/
theorem Sparse.all_write {m : List (Nat × α)} {a k : Nat} {v : α} (hk : k < a)
    (h : m.all (fun c => decide (k < c.1)) = true) :
    (Sparse.write d a v m).all (fun c => decide (k < c.1)) = true := by
  induction m with
  | nil => by_cases hv : v = d <;> simp [Sparse.write, hv, hk]
  | cons c t ih =>
    obtain ⟨j, x⟩ := c
    simp only [List.all_cons, Bool.and_eq_true, decide_eq_true_eq] at h
    simp only [Sparse.write]
    split_ifs <;> simp [hk, h.1, h.2, ih h.2, -List.all_eq_true]

/-- A write keeps the canonical form. -/
theorem Sparse.wf_write {m : List (Nat × α)} {n a : Nat} {v : α} (ha : a < n) (hm : Sparse.wf d n m = true) :
    Sparse.wf d n (Sparse.write d a v m) = true := by
  induction m with
  | nil => by_cases hv : v = d <;> simp [Sparse.write, Sparse.wf, hv, ha]
  | cons c t ih =>
    obtain ⟨k, x⟩ := c
    have hm' := hm
    simp only [Sparse.wf, Bool.and_eq_true, decide_eq_true_eq] at hm'
    obtain ⟨⟨⟨hk, hx⟩, hall⟩, ht⟩ := hm'
    simp only [Sparse.write]
    split_ifs with h1 hv h2 hv
    · exact hm
    · have hb : ((k, x) :: t).all (fun c => decide (a < c.1)) = true := by
        simp only [List.all_cons, List.all_eq_true, Bool.and_eq_true, decide_eq_true_eq] at hall ⊢
        exact ⟨h1, fun c hc => lt_trans h1 (hall c hc)⟩
      rw [Sparse.wf]
      simp only [ha, hv, hb, hm, decide_true, Bool.and_true, ne_eq, not_false_eq_true]
    · exact ht
    · subst h2
      rw [Sparse.wf]
      simp only [ha, hv, hall, ht, decide_true, Bool.and_true, ne_eq, not_false_eq_true]
    · have := Sparse.all_write (d := d) (v := v) (show k < a by omega) hall
      rw [Sparse.wf]
      simp only [hk, hx, this, ih ht, decide_true, Bool.and_true, ne_eq, not_false_eq_true]

end Sparse

/-! ### Memory -/

/-- A physical address exists (20_memory.md R76). -/
theorem phys_lt (seg off : Word) : phys seg off < memSize := Nat.mod_lt _ (by decide)

/-- Distinct offsets of one segment are distinct addresses. -/
theorem phys_inj {seg a b : Word} (h : phys seg a = phys seg b) : a = b := by
  apply BitVec.eq_of_toNat_eq
  have ha := a.isLt
  have hb := b.isLt
  simp only [phys, memSize] at h
  omega

/-- The two bytes of a word are at distinct addresses. -/
theorem phys_succ_ne (seg off : Word) : phys seg (off + 1) ≠ phys seg off := by
  intro h
  have := phys_inj h
  bv_omega

@[simp] theorem Memory.read_write_same {m : List Host.Cell} (hm : Memory.wf m = true) {a : Nat} (ha : a < memSize)
    (v : Byte) : Memory.read (Memory.write m a v) a = v := by
  rw [Memory.write, if_pos ha]
  exact Sparse.read_write_same v hm

theorem Memory.read_write_other (m : List Host.Cell) {a b : Nat} (v : Byte) (h : b ≠ a) :
    Memory.read (Memory.write m a v) b = Memory.read m b := by
  rw [Memory.write]
  split_ifs
  · exact Sparse.read_write_other v h
  · rfl

@[simp] theorem Memory.wf_write {m : List Host.Cell} (hm : Memory.wf m = true) (a : Nat) (v : Byte) :
    Memory.wf (Memory.write m a v) = true := by
  rw [Memory.write]
  split_ifs with ha
  · exact Sparse.wf_write ha hm
  · exact hm

@[simp] theorem Mask.wf_write {m : List (Nat × MaskFlags)} (hm : Mask.wf m = true) (a : Nat) (f : MaskFlags) :
    Mask.wf (Mask.write m a f) = true := by
  rw [Mask.write]
  split_ifs with ha
  · exact Sparse.wf_write ha hm
  · exact hm

/-- Memory is in its canonical form at reset. -/
theorem reset_mem_wf : Memory.wf State.reset.board.mem = true := by decide

end Sys2Proof.Machine
end

