-- ==== Sys2Proof/Laws/Board.lean ====
section
/-! SUPPORT. Every operation on the board keeps `Board.Inv`, memory's canonical form included, whatever is scheduled; every
operation of the floppy engine keeps the sectors of its image `128 << N` bytes long. -/

namespace Sys2Proof.Machine

/-- What `Board.Inv` asks of the serial port's registers, apart from its output. -/
structure Uart.Fits (u : Uart) : Prop where
  ier : u.ier &&& 0xF0 = 0
  mcr : u.mcr &&& 0xE0 = 0

theorem Board.Inv.fits {b : Board} (h : b.Inv) : b.uart.Fits := ⟨h.ier, h.mcr⟩

/-! ### The floppy engine -/

/-- The sectors of the inserted disk are `128 << N` bytes long (60_exceptions.md R510). -/
def Drive.Sized (d : Drive) : Prop := ∀ im, d.image = some im → im.isSized = true

/-- A sector that is `128 << N` bytes long. -/
def Sector.Sized (q : Sector) : Prop := q.data.length = sectorBytes q.n

theorem DiskImage.isSized_iff (im : DiskImage) :
    im.isSized = true ↔ ∀ t ∈ im.tracks, ∀ q ∈ t.sectors, q.Sized := by
  simp [DiskImage.isSized, Sector.Sized]

theorem takeBytes_length (k : Nat) (l : List Byte) : (takeBytes k l).length = k := by
  induction k generalizing l with
  | zero => rfl
  | succ k ih => cases l <;> simp [takeBytes, ih]

theorem Drive.sectorsAt_sized {d : Drive} {im : DiskImage} (h : im.isSized = true) (hd : Nat) :
    ∀ q ∈ d.sectorsAt im hd, q.Sized := by
  unfold Drive.sectorsAt DiskImage.sectorsOf
  split
  · split
    next t e => exact (DiskImage.isSized_iff im).mp h t (List.mem_of_find?_eq_some e)
    · exact fun q k => nomatch k
  · exact fun q k => nomatch k

theorem putSector_sized {qs : List Sector} {n : Nat} {data : List Byte} (h : ∀ q ∈ qs, q.Sized)
    (l : data.length = sectorBytes n) (c hd s : Nat) : ∀ q ∈ putSector qs c hd s n data, q.Sized := by
  induction qs with
  | nil => exact fun q k => nomatch k
  | cons r rest ih =>
    have hr := h r (by simp)
    have hrest := fun q k => h q (List.mem_cons_of_mem r k)
    unfold putSector
    split
    next e =>
      intro q k
      rcases List.mem_cons.mp k with rfl | k
      · have : r.n = n := by simp [Sector.matchesId] at e; exact e.2
        simpa [Sector.Sized, this] using l
      · exact hrest q k
    · intro q k
      rcases List.mem_cons.mp k with rfl | k
      · exact hr
      · exact ih hrest q k

theorem DiskImage.putTrack_sized {im : DiskImage} (h : im.isSized = true) (cyl hd : Nat) {qs : List Sector}
    (k : ∀ q ∈ qs, q.Sized) : (im.putTrack cyl hd qs).isSized = true := by
  rw [DiskImage.isSized_iff] at h ⊢
  unfold DiskImage.putTrack
  split
  · intro t m
    obtain ⟨u, mu, rfl⟩ := List.mem_map.mp m
    split
    · exact k
    · exact h u mu
  · intro t m
    rcases List.mem_append.mp m with m | m
    · exact h t m
    · rw [List.mem_singleton.mp m]; exact k

theorem Drive.writeData_sized (d : Drive) (c h n ct : Nat) (im : DiskImage) (s done : Nat) (data : List Byte)
    (k : im.isSized = true) : (Drive.writeData d im c h n ct s done data).Sized := by
  have keep : ∀ (im : DiskImage) r st f buf, im.isSized = true →
      (({ d with image := some im } : Drive).report r st f buf).Sized := by
    intro im r st f buf k i e
    cases e; exact k
  induction ct generalizing im s done data with
  | zero => exact keep _ _ _ _ _ k
  | succ ct ih =>
    unfold Drive.writeData
    dsimp only
    split
    · exact keep _ _ _ _ _ k
    · split
      · exact keep _ _ _ _ _ k
      · exact ih _ _ _ _ (DiskImage.putTrack_sized k _ _ (putSector_sized (Drive.sectorsAt_sized k h) (takeBytes_length _ _) _ _ _))

theorem Drive.formatTrack_sized {d : Drive} {im : DiskImage} (h : d.Sized) (k : im.isSized = true) (hd : Nat)
    (ids : List (Nat × Nat × Nat × Nat)) (fill : Byte) : (d.formatTrack im hd ids fill).Sized := by
  unfold Drive.formatTrack
  dsimp only
  split
  · intro i e
    cases e
    refine DiskImage.putTrack_sized k _ _ fun q m => ?_
    obtain ⟨u, -, rfl⟩ := List.mem_map.mp m
    simp [Sector.Sized]
  · exact h

/-- Every operation of the engine keeps the sectors of its image at their length. -/
theorem Drive.Sized.run {d v : Drive} (h : d.Sized) {op : FloppyOp} (e : d.run op = some v) : v.Sized := by
  have image : ∀ f : DiskImage → Drive, (∀ im, im.isSized = true → (f im).Sized) → d.withImage f = some v → v.Sized := by
    intro f k e
    unfold Drive.withImage at e
    split at e
    · cases e
    next im i =>
      cases e
      split
      · exact k im (h im i)
      · exact h
  cases op with
  | readData => refine image _ ?_ e; exact fun im k => h
  | writeData => exact image _ (fun im k => Drive.writeData_sized _ _ _ _ _ _ _ _ _ k) e
  | readTrack => refine image _ ?_ e; exact fun im k => h
  | formatTrack => exact image _ (fun im k => Drive.formatTrack_sized h k _ _ _) e
  | seek => refine image _ ?_ e; exact fun im k => h
  | motor on =>
    cases e
    unfold Drive.motor
    split
    · exact h
    · split <;> exact h

theorem low_four_bits (v : Byte) : (v &&& 0x0F) &&& 0xF0 = 0 := by decide +revert
theorem low_five_bits (v : Byte) : (v &&& 0x1F) &&& 0xE0 = 0 := by decide +revert

namespace Board

variable {b : Board}

theorem Inv.drawByte (h : b.Inv) : b.drawByte.2.Inv := by cases h; constructor <;> assumption

theorem Inv.emit (h : b.Inv) (e : OutEvent) : (b.emit e).Inv := by cases h; constructor <;> assumption

theorem Inv.pins (h : b.Inv) (st : BusStatus) (a : Nat) (v : Byte) : (b.pins st a v).Inv := by
  cases h; constructor <;> first | assumption | rfl

theorem Inv.flush (h : b.Inv) (ip : Word) : (b.flush ip).Inv := by
  cases h; constructor <;> first | assumption | (exact Nat.zero_le _)

theorem Inv.withSlots (h : b.Inv) (l : List (List BusEvent)) : ({ b with slots := l } : Board).Inv := by
  cases h; constructor <;> assumption

theorem Inv.withLocked (h : b.Inv) (l : Bool) : ({ b with locked := l } : Board).Inv := by
  cases h; constructor <;> assumption

theorem Inv.withDma (h : b.Inv) (d : Dma) : ({ b with dma := d } : Board).Inv := by cases h; constructor <;> assumption

theorem Inv.memRead (h : b.Inv) (a : Nat) : (b.memRead a).2.Inv := by
  unfold Board.memRead
  split
  · dsimp only
    split
    · exact h.drawByte.emit _
    · exact h.drawByte.emit _
  · exact h

theorem Inv.memWrite (h : b.Inv) (a : Nat) (v : Byte) : (b.memWrite a v).Inv := by
  unfold Board.memWrite
  split
  · split
    · exact h.emit _
    · exact h.emit _
  · split
    · exact h
    · have m := Memory.wf_write h.mem a v
      cases h; constructor <;> assumption

theorem Inv.withUndescribed (h : b.Inv) (r : Option Refusal) : ({ b with undescribed := r } : Board).Inv := by
  cases h; constructor <;> assumption

theorem Inv.withQueueOp (h : b.Inv) (q : QueueOp) : ({ b with queueOp := q } : Board).Inv := by
  cases h; constructor <;> assumption

theorem Inv.dmaRead (h : b.Inv) (a : Nat) : (b.dmaRead a).2.Inv := by
  unfold Board.dmaRead
  split
  · exact h.memRead a
  · exact h.drawByte.emit _

theorem Inv.dmaWrite (h : b.Inv) (a : Nat) (v : Byte) : (b.dmaWrite a v).Inv := by
  unfold Board.dmaWrite
  split
  · exact h.memWrite a v
  · exact h.emit _

/-! ### Devices -/

theorem Inv.withPic (h : b.Inv) {p : Pic} (hp : p.vectorBase &&& 7 = 0) : ({ b with pic := p } : Board).Inv := by
  cases h; constructor <;> assumption

/-- Driving the output gives it its level, and requests or clears one level of the PIC only. -/
theorem Inv.driveUart (h : b.Inv) {u : Uart} (hu : u.Fits) : (b.driveUart u).Inv := by
  have hv : (b.driveUart u).pic.vectorBase &&& 7 = 0 := by
    unfold Board.driveUart
    dsimp only
    split
    · exact h.vector
    · split <;> exact h.vector
  cases h
  exact ⟨‹_›, ‹_›, ‹_›, ‹_›, ‹_›, rfl, hu.ier, hu.mcr, hv, ‹_›, ‹_›⟩


end Board

theorem Uart.Fits.noteModem {u : Uart} (h : u.Fits) (old : Bool × Bool × Bool × Bool) : (u.noteModem old).Fits :=
  ⟨h.ier, h.mcr⟩

theorem Uart.Fits.rxStep {u : Uart} (h : u.Fits) : u.rxStep.Fits := by
  unfold Uart.rxStep
  split <;> exact ⟨h.ier, h.mcr⟩

theorem Uart.Fits.txStep {u : Uart} (h : u.Fits) : u.txStep.2.Fits := by
  unfold Uart.txStep
  split
  · exact h
  · dsimp only
    split <;> exact ⟨h.ier, h.mcr⟩

theorem Uart.Fits.read {u : Uart} (h : u.Fits) (off : Nat) : (u.read off).2.Fits := by
  obtain ⟨h1, h2⟩ := h
  unfold Uart.read
  split <;> first | exact ⟨h1, h2⟩ | (split_ifs <;> exact ⟨h1, h2⟩)

theorem Uart.Fits.write {u : Uart} (h : u.Fits) (off : Nat) (v : Byte) : (u.write off v).Fits := by
  have h1 := h.ier
  have h2 := h.mcr
  unfold Uart.write
  split
  · split_ifs <;> exact ⟨h1, h2⟩
  · split_ifs
    · exact ⟨h1, h2⟩
    · exact ⟨low_four_bits v, h2⟩
  · exact ⟨h1, h2⟩
  · exact ⟨h1, low_five_bits v⟩
  · exact h

theorem Pic.acknowledge_vectorBase (p : Pic) : p.acknowledge.2.vectorBase = p.vectorBase := by
  unfold Pic.acknowledge
  split
  · rfl
  · dsimp only; split <;> rfl

theorem high_five_bits (v : Byte) : (v &&& 0xF8) &&& 7 = 0 := by decide +revert

theorem Pic.writeCommand_vectorBase (p : Pic) (v : Byte) : (p.writeCommand v).vectorBase = p.vectorBase := by
  unfold Pic.writeCommand Pic.ocw2 Pic.ocw3
  split_ifs
  · rfl
  · split <;> rfl
  · dsimp only
    split <;> first | rfl | (split <;> rfl)

theorem Pic.writeData_vectorBase {p : Pic} (h : p.vectorBase &&& 7 = 0) (v : Byte) : (p.writeData v).vectorBase &&&
  7 = 0 := by
  unfold Pic.writeData
  split
  · exact high_five_bits v
  · exact h
  · exact h
  · exact h

namespace Board

variable {b : Board}

theorem Inv.uartRx (h : b.Inv) : b.uartRx.Inv := h.driveUart h.fits.rxStep

theorem Inv.uartTx (h : b.Inv) : b.uartTx.Inv := by
  have k := h.driveUart h.fits.txStep
  unfold Board.uartTx
  dsimp only
  split
  · exact k.emit _
  · exact k

theorem Inv.deviceRead (h : b.Inv) {port : Word} {v : Byte} {c : Board} (e : b.deviceRead port = some (v,
  c)) : c.Inv := by
  unfold Board.deviceRead at e
  split at e
  · cases e; exact h
  · cases e; exact h
  · dsimp only at e
    split at e
    · cases e; exact h.withDma _
    · cases e; exact h.drawByte
  · cases e; exact h.drawByte
  · cases e
  · cases e
  · split at e
    · cases e; exact h.drawByte
    · cases e; exact h.driveUart (h.fits.read _)
  · cases e; exact h.drawByte

theorem Inv.deviceWrite (h : b.Inv) {port : Word} {v : Byte} {c : Board} (e : b.deviceWrite port v = some c) : c.Inv
  := by
  unfold Board.deviceWrite at e
  split at e
  · cases e; exact h.withPic (by rw [Pic.writeCommand_vectorBase]; exact h.vector)
  · cases e; exact h.withPic (Pic.writeData_vectorBase h.vector v)
  · cases e; exact h.withDma _
  · cases e; exact h.withDma _
  · cases e
  · cases e
  · cases e; exact h.driveUart (h.fits.write _ v)
  · cases e; exact h

/-! ### The other agents -/

theorem Inv.fetchNext (h : b.Inv) (cs : Word) (room : b.queue.length < queueCap) : (b.fetchNext cs).Inv := by
  have k := h.memRead (phys cs b.pc)
  have q : (b.memRead (phys cs b.pc)).2.queue = b.queue := by
    unfold Board.memRead
    split
    · dsimp only
      split <;> rfl
    · rfl
  unfold Board.fetchNext
  refine Inv.pins ?_ _ _ _
  have : ((b.memRead (phys cs b.pc)).2.queue ++ [(b.memRead (phys cs b.pc)).1]).length ≤ queueCap := by
    simp [q]; omega
  cases k; constructor <;> assumption

theorem Inv.prefetchStep (h : b.Inv) (cs : Word) : (b.prefetchStep cs).Inv := by
  unfold Board.prefetchStep
  split
  · rename_i c
    simp only [Bool.and_eq_true, decide_eq_true_eq] at c
    exact h.fetchNext cs c.1
  · exact h

theorem Inv.dmaTransfer (h : b.Inv) (n : BitVec 2) (din : Byte) : (b.dmaTransfer n din).Inv := by
  unfold Board.dmaTransfer
  dsimp only
  split
  · split
    · exact h.withUndescribed _
    · refine Inv.withDma ?_ _
      split
      · exact h.dmaWrite _ _
      · exact (h.dmaRead _).emit _
      · exact h
      · exact h
  · exact h

theorem Inv.dmaRun (h : b.Inv) (p : BitVec 2) (din : Byte) : (b.dmaRun p din).Inv := by
  unfold Board.dmaRun
  split
  · exact h
  · exact (h.dmaTransfer _ _).withDma _

theorem Inv.sized (h : b.Inv) (d : DriveName) : (b.drive d).Sized := by
  cases d
  · exact h.diskA
  · exact h.diskB

theorem Inv.withDrive (h : b.Inv) (d : DriveName) {v : Drive} (s : v.Sized) : (b.withDrive d v).Inv := by
  cases h; cases d <;> constructor <;> assumption

theorem Inv.runFloppy (h : b.Inv) (d : DriveName) (op : FloppyOp) : (b.runFloppy d op).Inv := by
  unfold Board.runFloppy
  split
  · exact h.withUndescribed _
  next v e =>
    have k := h.withDrive d ((h.sized d).run e)
    split
    · exact k.withPic (p := b.pic.request b.params.fdcIrq) h.vector
    · exact k

theorem Inv.runEvent (h : b.Inv) (cs : Word) (boundary : Bool) (e : BusEvent) : (b.runEvent cs boundary e).Inv := by
  cases e with
  | prefetch => exact h.prefetchStep cs
  | dmaRequest n => exact h.withDma _
  | dmaRun p din =>
    unfold Board.runEvent
    dsimp only
    split
    · exact h
    · exact h.dmaRun p din
  | uartRx => exact h.uartRx
  | uartTx => exact h.uartTx
  | floppy d op => exact h.runFloppy d op
  | requestInterrupt n => exact h.withPic h.vector
  | clearInterrupt n => exact h.withPic h.vector

theorem Inv.runEvents (h : b.Inv) (cs : Word) (boundary : Bool) (l : List BusEvent) :
    (l.foldl (Board.runEvent cs boundary) b).Inv := by
  induction l generalizing b with
  | nil => exact h
  | cons e l ih => exact ih (h.runEvent cs boundary e)

theorem Inv.slot (h : b.Inv) (cs : Word) (boundary : Bool) : (b.slot cs boundary).Inv := by
  unfold Board.slot
  split
  · exact h
  · exact (h.withSlots _).runEvents cs boundary _

/-! ### Transfers of the CPU -/

theorem Inv.rd8 (h : b.Inv) (cs seg off : Word) : (b.rd8 cs seg off).2.Inv := ((h.slot cs false).memRead _).pins _ _ _

theorem Inv.wr8 (h : b.Inv) (cs seg off : Word) (v : Byte) : (b.wr8 cs seg off v).Inv :=
  ((h.slot cs false).memWrite _ v).pins _ _ _

theorem Inv.rd16 (h : b.Inv) (cs seg off : Word) : (b.rd16 cs seg off).2.Inv := (h.rd8 cs seg off).rd8 cs seg (off + 1)

theorem Inv.wr16 (h : b.Inv) (cs seg off v : Word) : (b.wr16 cs seg off v).Inv :=
  (h.wr8 cs seg off _).wr8 cs seg (off + 1) _

theorem Inv.fetch8 (h : b.Inv) (cs : Word) (op : QueueOp) : (b.fetch8 cs op).2.Inv := by
  have tail : ∀ c : Board, c.Inv → ({ c with queue := c.queue.tail, queueOp := op } : Board).Inv := by
    intro c k
    have : c.queue.tail.length ≤ queueCap := by simpa using Nat.le_trans (Nat.sub_le _ _) k.queue
    cases k; constructor <;> assumption
  unfold Board.fetch8
  refine tail _ ?_
  split
  · rename_i e
    exact (h.slot cs false).fetchNext cs (by simp [e, queueCap])
  · exact h.slot cs false

theorem Inv.ioRead (h : b.Inv) {cs port : Word} {v : Byte} {c : Board} (e : b.ioRead cs port = some (v,
  c)) : c.Inv := by
  unfold Board.ioRead at e
  split at e
  · rename_i r k
    cases e
    exact ((h.slot cs false).deviceRead k).pins _ _ _
  · cases e

theorem Inv.ioWrite (h : b.Inv) {cs port : Word} {v : Byte} {c : Board} (e : b.ioWrite cs port v = some c) : c.Inv := by
  unfold Board.ioWrite at e
  split at e
  · rename_i r k
    cases e
    exact ((h.slot cs false).deviceWrite k).pins _ _ _
  · cases e

/-! ### The host -/

theorem Inv.copyBytes (ro : Bool) (l : List Byte) (a : Nat) (h : b.Inv) : (copyBytes ro l a b).Inv := by
  induction l generalizing a b with
  | nil => exact h
  | cons v l ih =>
    refine ih (a + 1) ?_
    have m := Memory.wf_write h.mem a v
    have k := Mask.wf_write h.mask a { Mask.read b.mask a with rom := true }
    unfold Board.loadByte Board.hostWrite
    split
    · cases ro <;> cases h <;> constructor <;> assumption
    · exact h.emit _

end Board

end Sys2Proof.Machine
end

