-- ==== Sys2Proof/Laws/Bus.lean ====
section
/-! SUPPORT. What one access of the CPU can do to the board when no other agent is scheduled: the pins, the free-value
counter, the outbox and the bytes stored to; and the value it reads. -/

namespace Sys2Proof.Machine

/-- `c` is `b` but for the pins, the queue operation, the free-value counter, the outbox and the memory bytes at `as`. -/
structure Board.Touches (as : List Nat) (b c : Board) : Prop where
  rest : c = { b with bus := c.bus, queueOp := c.queueOp, draws := c.draws, events := c.events, mem := c.mem }
  mem  : ∀ a, a ∉ as → Memory.read c.mem a = Memory.read b.mem a

namespace Board

variable {b c e : Board} {as bs : List Nat}

theorem Touches.refl (b : Board) : b.Touches [] b := ⟨rfl, fun _ _ => rfl⟩

theorem Touches.trans (h : b.Touches as c) (k : c.Touches bs e) : b.Touches (as ++ bs) e := by
  refine ⟨?_, fun a ha => ?_⟩
  · rw [k.rest, h.rest]
  · simp only [List.mem_append, not_or] at ha
    rw [k.mem a ha.2, h.mem a ha.1]

theorem Touches.mono (h : b.Touches as c) (k : ∀ a, a ∈ as → a ∈ bs) : b.Touches bs c :=
  ⟨h.rest, fun a ha => h.mem a fun hb => ha (k a hb)⟩

theorem Touches.slots (h : b.Touches as c) : c.slots = b.slots := by rw [h.rest]
theorem Touches.mask (h : b.Touches as c) : c.mask = b.mask := by rw [h.rest]
theorem Touches.params (h : b.Touches as c) : c.params = b.params := by rw [h.rest]
theorem Touches.pc (h : b.Touches as c) : c.pc = b.pc := by rw [h.rest]
theorem Touches.queue (h : b.Touches as c) : c.queue = b.queue := by rw [h.rest]

theorem slot_quiet (cs : Word) (bd : Bool) (h : b.slots = []) : b.slot cs bd = b := by simp [slot, h]

theorem pins_touches (b : Board) (st : BusStatus) (a : Nat) (v : Byte) : b.Touches [] (b.pins st a v) :=
  ⟨rfl, fun _ _ => rfl⟩

theorem memRead_touches (b : Board) (a : Nat) : b.Touches [] (b.memRead a).2 := by
  unfold memRead
  split
  · dsimp only
    split <;> exact ⟨rfl, fun _ _ => rfl⟩
  · exact Touches.refl b

theorem memWrite_touches (b : Board) (a : Nat) (v : Byte) : b.Touches [a] (b.memWrite a v) := by
  unfold memWrite
  split
  · split <;> exact ⟨rfl, fun _ _ => rfl⟩
  · split
    · exact (Touches.refl b).mono (by simp)
    · exact ⟨rfl, fun x hx => Memory.read_write_other _ _ (by simpa using hx)⟩

theorem rd8_touches (cs seg off : Word) (h : b.slots = []) : b.Touches [] (b.rd8 cs seg off).2 := by
  unfold rd8
  simp only [slot_quiet cs false h]
  exact (memRead_touches b _).trans (pins_touches _ _ _ _)

theorem rd16_touches (cs seg off : Word) (h : b.slots = []) : b.Touches [] (b.rd16 cs seg off).2 :=
  (rd8_touches cs seg off h).trans (rd8_touches cs seg (off + 1) ((rd8_touches cs seg off h).slots.trans h))

theorem wr8_touches (cs seg off : Word) (v : Byte) (h : b.slots = []) :
    b.Touches [phys seg off] (b.wr8 cs seg off v) := by
  unfold wr8
  simp only [slot_quiet cs false h]
  exact (memWrite_touches b _ v).trans (pins_touches _ _ _ _)

theorem wr16_touches (cs seg off : Word) (v : Word) (h : b.slots = []) :
    b.Touches (byteAddrs .word seg off) (b.wr16 cs seg off v) :=
  (wr8_touches cs seg off _ h).trans (wr8_touches cs seg (off + 1) _ ((wr8_touches cs seg off _ h).slots.trans h))

/-! ### Values -/

theorem rd8_value (cs seg off : Word) (h : b.slots = []) (r : (Mask.read b.mask (phys seg off)).mmio = false) :
    (b.rd8 cs seg off).1 = Memory.read b.mem (phys seg off) := by
  simp [rd8, slot_quiet cs false h, memRead, r]

theorem rd8_mem (cs seg off : Word) (h : b.slots = []) : (b.rd8 cs seg off).2.mem = b.mem := by
  simp only [rd8, slot_quiet cs false h, memRead, pins]
  split
  · split <;> rfl
  · rfl

theorem rd16_mem (cs seg off : Word) (h : b.slots = []) : (b.rd16 cs seg off).2.mem = b.mem := by
  unfold rd16
  rw [rd8_mem _ _ _ ((rd8_touches cs seg off h).slots.trans h), rd8_mem _ _ _ h]

theorem rd16_value (cs seg off : Word) (h : b.slots = []) (r : (Mask.read b.mask (phys seg off)).mmio = false)
    (r' : (Mask.read b.mask (phys seg (off + 1))).mmio = false) : (b.rd16 cs seg off).1 =
      mkWord (Memory.read b.mem (phys seg off)) (Memory.read b.mem (phys seg (off + 1))) := by
  have t := rd8_touches cs seg off h
  unfold rd16
  dsimp only
  rw [rd8_value cs seg off h r, rd8_value cs seg (off + 1) (t.slots.trans h) (by rw [t.mask]; exact r')]
  simp [rd8_mem cs seg off h]

theorem wr8_mem (cs seg off : Word) (v : Byte) (h : b.slots = [])
    (w : (Mask.read b.mask (phys seg off)).mmio = false) (r : (Mask.read b.mask (phys seg off)).rom = false) :
    (b.wr8 cs seg off v).mem = Memory.write b.mem (phys seg off) v := by
  simp [wr8, slot_quiet cs false h, memWrite, w, r, pins]

theorem wr16_mem (cs seg off : Word) (v : Word) (h : b.slots = [])
    (w : (Mask.read b.mask (phys seg off)).mmio = false) (r : (Mask.read b.mask (phys seg off)).rom = false)
    (w' : (Mask.read b.mask (phys seg (off + 1))).mmio = false)
    (r' : (Mask.read b.mask (phys seg (off + 1))).rom = false) :
    (b.wr16 cs seg off v).mem =
      Memory.write (Memory.write b.mem (phys seg off) (loByte v)) (phys seg (off + 1)) (hiByte v) := by
  have t := wr8_touches cs seg off (loByte v) h
  unfold wr16
  rw [wr8_mem cs seg (off + 1) _ (t.slots.trans h) (by rw [t.mask]; exact w') (by rw [t.mask]; exact r'),
    wr8_mem cs seg off _ h w r]

/-- The canonical form of memory survives every store, whatever is at the address. -/
theorem memWrite_wf (a : Nat) (v : Byte) (h : Memory.wf b.mem = true) : Memory.wf (b.memWrite a v).mem = true := by
  unfold memWrite
  split
  · split <;> exact h
  · split
    · exact h
    · exact Memory.wf_write h a v

theorem wr8_wf (cs seg off : Word) (v : Byte) (q : b.slots = []) (h : Memory.wf b.mem = true) :
    Memory.wf (b.wr8 cs seg off v).mem = true := by
  simp only [wr8, slot_quiet cs false q, pins]
  exact memWrite_wf _ v h

theorem wr16_wf (cs seg off : Word) (v : Word) (q : b.slots = []) (h : Memory.wf b.mem = true) :
    Memory.wf (b.wr16 cs seg off v).mem = true :=
  wr8_wf cs seg (off + 1) _ ((wr8_touches cs seg off _ q).slots.trans q) (wr8_wf cs seg off _ q h)

end Board

end Sys2Proof.Machine
end

