-- ==== Sys2Proof/Laws/Ops.lean ====
section
/-! SUPPORT. What each shared operation of the CPU can do: it leaves the CPU alone but for what it names, touches the
board as `Board.Touches` says, and reads and writes the values one expects. -/

namespace Sys2Proof.Machine

/-! ### Words and halves -/

theorem toNat_mkWord (lo hi : Byte) : (mkWord lo hi).toNat = hi.toNat * 256 + lo.toNat := by
  have := lo.isLt
  simp only [mkWord, BitVec.toNat_append, Nat.shiftLeft_eq]
  rw [Nat.mul_comm, ← Nat.two_pow_add_eq_or_of_lt this]

theorem toNat_loByte (v : Word) : (loByte v).toNat = v.toNat % 256 := by simp [loByte]

theorem toNat_hiByte (v : Word) : (hiByte v).toNat = v.toNat / 256 := by
  have := v.isLt
  simp [hiByte, Nat.shiftRight_eq_div_pow]
  omega

@[simp] theorem loByte_mkWord (lo hi : Byte) : loByte (mkWord lo hi) = lo := by
  apply BitVec.eq_of_toNat_eq
  have := lo.isLt
  rw [toNat_loByte, toNat_mkWord]
  omega

@[simp] theorem hiByte_mkWord (lo hi : Byte) : hiByte (mkWord lo hi) = hi := by
  apply BitVec.eq_of_toNat_eq
  have := lo.isLt
  rw [toNat_hiByte, toNat_mkWord]
  omega

@[simp] theorem mkWord_halves (v : Word) : mkWord (loByte v) (hiByte v) = v := by
  apply BitVec.eq_of_toNat_eq
  rw [toNat_mkWord, toNat_loByte, toNat_hiByte]
  omega

/-! ### Registers -/

@[simp] theorem Regs.get_set_same (r : Regs) (g : GReg) (v : Word) : (r.set g v).get g = v := by cases g <;> rfl

theorem Regs.get_set_other (r : Regs) {g h : GReg} (v : Word) (n : h ≠ g) : (r.set g v).get h = r.get h := by
  cases g <;> cases h <;> first | rfl | exact absurd rfl n

@[simp] theorem Sregs.get_set_same (r : Sregs) (g : SReg) (v : Word) : (r.set g v).get g = v := by cases g <;> rfl

theorem Sregs.get_set_other (r : Sregs) {g h : SReg} (v : Word) (n : h ≠ g) : (r.set g v).get h = r.get h := by
  cases g <;> cases h <;> first | rfl | exact absurd rfl n

@[simp] theorem Regs.get8_set8_same (r : Regs) (g : GReg) (v : Byte) : (r.set8 g v).get8 g = v := by
  cases g <;> simp [Regs.set8, Regs.get8, byteHome]

/-- The half `h` of a register file. -/
def Regs.half (r : Regs) (h : GReg × Bool) : Byte := if h.2 then hiByte (r.get h.1) else loByte (r.get h.1)

theorem State.half_eq (s : State) (h : GReg × Bool) : s.half h = s.cpu.regs.half h := rfl

/-- A word write changes the two halves of its register only. -/
theorem Regs.half_set (r : Regs) (g : GReg) (v : Word) (h : GReg × Bool) (n : h ∉ wordHalves g) :
    (r.set g v).half h = r.half h := by
  obtain ⟨k, b⟩ := h
  have : k ≠ g := by
    rintro rfl
    cases b <;> simp [wordHalves] at n
  simp [Regs.half, Regs.get_set_other r v this]

/-- A byte write changes its half only (10_state.md R23). -/
theorem Regs.half_set8 (r : Regs) (g : GReg) (v : Byte) (h : GReg × Bool) (n : h ≠ byteHome g) :
    (r.set8 g v).half h = r.half h := by
  obtain ⟨k, b⟩ := h
  cases g <;> cases b <;> cases k <;>
    first
    | exact absurd rfl n
    | simp [Regs.half, Regs.set8, byteHome, Regs.get, Regs.set]

namespace State

variable (s : State)

@[simp] theorem reg16_setReg16_same (g : GReg) (v : Word) : (s.setReg16 g v).reg16 g = v := Regs.get_set_same _ _ _

theorem reg16_setReg16_other {g h : GReg} (v : Word) (n : h ≠ g) : (s.setReg16 g v).reg16 h = s.reg16 h :=
  Regs.get_set_other _ v n

/-! ### The CPU under memory accesses -/

@[simp] theorem rd8_cpu (seg off : Word) : (s.rd8 seg off).2.cpu = s.cpu := rfl
@[simp] theorem rd16_cpu (seg off : Word) : (s.rd16 seg off).2.cpu = s.cpu := rfl
@[simp] theorem rd_cpu (w : Width) (seg off : Word) : (s.rd w seg off).2.cpu = s.cpu := by cases w <;> rfl
@[simp] theorem wr8_cpu (seg off : Word) (v : Byte) : (s.wr8 seg off v).cpu = s.cpu := rfl
@[simp] theorem wr16_cpu (seg off v : Word) : (s.wr16 seg off v).cpu = s.cpu := rfl
@[simp] theorem wr_cpu (w : Width) (seg off : Word) (v : BitVec w.bits) : (s.wr w seg off v).cpu = s.cpu := by
  cases w <;> rfl

@[simp] theorem readPlace_cpu (w : Width) (p : Place) : (s.readPlace w p).2.cpu = s.cpu := by
  cases p <;> simp [readPlace]

/-- `touch` changes `last_ea` alone. -/
theorem touch_eq (o : Operand) :
    s.touch o = { s with cpu := { s.cpu with lastEa := (s.touch o).cpu.lastEa } } := by
  cases o with
  | rm e => cases e <;> rfl
  | reg _ => rfl
  | imm8 _ => rfl
  | imm16 _ => rfl
  | imm8s _ => rfl

@[simp] theorem touch_regs (o : Operand) : (s.touch o).cpu.regs = s.cpu.regs := by rw [touch_eq]
@[simp] theorem touch_sregs (o : Operand) : (s.touch o).cpu.sregs = s.cpu.sregs := by rw [touch_eq]
@[simp] theorem touch_flags (o : Operand) : (s.touch o).cpu.flags = s.cpu.flags := by rw [touch_eq]
@[simp] theorem touch_pfx (o : Operand) : (s.touch o).cpu.pfx = s.cpu.pfx := by rw [touch_eq]
@[simp] theorem touch_board (o : Operand) : (s.touch o).board = s.board := by rw [touch_eq]

/-- A write to an operand changes registers or the board, nothing else. -/
theorem writePlace_eq (w : Width) (p : Place) (v : BitVec w.bits) :
    s.writePlace w p v = { s with cpu := { s.cpu with regs := (s.writePlace w p v).cpu.regs },
                                  board := (s.writePlace w p v).board } := by
  cases p <;> cases w <;> rfl

@[simp] theorem writePlace_sregs (w : Width) (p : Place) (v : BitVec w.bits) :
    (s.writePlace w p v).cpu.sregs = s.cpu.sregs := by rw [writePlace_eq]
@[simp] theorem writePlace_flags (w : Width) (p : Place) (v : BitVec w.bits) :
    (s.writePlace w p v).cpu.flags = s.cpu.flags := by rw [writePlace_eq]

@[simp] theorem setReg_sregs (w : Width) (g : GReg) (v : BitVec w.bits) : (s.setReg w g v).cpu.sregs = s.cpu.sregs := by
  cases w <;> rfl
@[simp] theorem setReg_flags (w : Width) (g : GReg) (v : BitVec w.bits) : (s.setReg w g v).cpu.flags = s.cpu.flags := by
  cases w <;> rfl
@[simp] theorem setReg_board (w : Width) (g : GReg) (v : BitVec w.bits) : (s.setReg w g v).board = s.board := by
  cases w <;> rfl

/-- A register write changes its own halves only. -/
theorem half_setReg (w : Width) (g : GReg) (v : BitVec w.bits) (h : GReg × Bool) (n : h ∉ regHalves w g) :
    (s.setReg w g v).half h = s.half h := by
  cases w
  · exact Regs.half_set8 _ _ _ _ (by simpa [regHalves] using n)
  · exact Regs.half_set _ _ _ _ (by simpa [regHalves] using n)

@[simp] theorem push16_sregs (v : Word) : (s.push16 v).cpu.sregs = s.cpu.sregs := rfl
@[simp] theorem push16_flags (v : Word) : (s.push16 v).cpu.flags = s.cpu.flags := rfl
@[simp] theorem push16_regs (v : Word) : (s.push16 v).cpu.regs = s.cpu.regs.set .sp (s.reg16 .sp - 2) := rfl
@[simp] theorem pop16_sregs : s.pop16.2.cpu.sregs = s.cpu.sregs := rfl
@[simp] theorem pop16_flags : s.pop16.2.cpu.flags = s.cpu.flags := rfl
@[simp] theorem pop16_regs : s.pop16.2.cpu.regs = s.cpu.regs.set .sp (s.reg16 .sp + 2) := rfl

/-! ### The board under memory accesses, when nothing is scheduled -/

section Quiet

variable {s} (q : s.Quiet)
include q

theorem rd_touches (w : Width) (seg off : Word) : s.board.Touches [] (s.rd w seg off).2.board := by
  cases w
  · exact Board.rd8_touches _ _ _ q
  · exact Board.rd16_touches _ _ _ q

theorem wr_touches (w : Width) (seg off : Word) (v : BitVec w.bits) :
    s.board.Touches (byteAddrs w seg off) (s.wr w seg off v).board := by
  cases w
  · exact Board.wr8_touches _ _ _ _ q
  · exact Board.wr16_touches _ _ _ _ q

theorem readPlace_touches (w : Width) (p : Place) : s.board.Touches [] (s.readPlace w p).2.board := by
  cases p with
  | reg g => exact Board.Touches.refl _
  | mem seg off => exact rd_touches q w seg off
  | imm v => exact Board.Touches.refl _

theorem writePlace_touches (w : Width) (p : Place) (v : BitVec w.bits) :
    s.board.Touches (p.addrs w) (s.writePlace w p v).board := by
  cases p with
  | reg g => simpa [writePlace, Place.addrs] using Board.Touches.refl _
  | mem seg off => exact wr_touches q w seg off v
  | imm v => exact Board.Touches.refl _

theorem push16_touches (v : Word) :
    s.board.Touches (byteAddrs .word (s.sreg .ss) (s.reg16 .sp - 2)) (s.push16 v).board := by
  have h := Board.wr16_touches s.cpu.sregs.cs (s.sreg .ss) (s.reg16 .sp - 2) v q
  simpa [push16, wr16, sreg] using h

theorem pop16_touches : s.board.Touches [] s.pop16.2.board := Board.rd16_touches _ _ _ q

/-- A readable operand is read as what a side-effect-free look shows. -/
theorem readPlace_value (w : Width) (p : Place) (r : s.readable (p.addrs w) = true) :
    (s.readPlace w p).1 = s.val w p := by
  cases p with
  | reg g => rfl
  | imm v => rfl
  | mem seg off =>
    cases w
    · exact Board.rd8_value _ _ _ q (by simpa [readable, Place.addrs, byteAddrs] using r)
    · have r' : (Mask.read s.board.mask (phys seg off)).mmio = false ∧
          (Mask.read s.board.mask (phys seg (off + 1))).mmio = false := by
        simpa [readable, Place.addrs, byteAddrs] using r
      exact Board.rd16_value _ _ _ q r'.1 r'.2

/-- Reading an operand changes no memory. -/
theorem readPlace_mem (w : Width) (p : Place) : (s.readPlace w p).2.board.mem = s.board.mem := by
  cases p with
  | reg g => rfl
  | imm v => rfl
  | mem seg off =>
    cases w
    · exact Board.rd8_mem _ _ _ q
    · exact Board.rd16_mem _ _ _ q

end Quiet

/-- A writable operand holds what was written to it. -/
theorem writePlace_value {s : State} (c : s.Calm) (w : Width) (p : Place) (v : BitVec w.bits)
    (r : s.writable (p.addrs w) = true) (i : ∀ x, p ≠ .imm x) : (s.writePlace w p v).val w p = v := by
  cases p with
  | imm x => exact absurd rfl (i x)
  | reg g => cases w <;> simp [writePlace, val, setReg, reg, reg8, reg16]
  | mem seg off =>
    cases w
    · have r' : (Mask.read s.board.mask (phys seg off)).mmio = false ∧
          (Mask.read s.board.mask (phys seg off)).rom = false := by
        simpa [writable, Place.addrs, byteAddrs] using r
      have m := Board.wr8_mem s.cpu.sregs.cs seg off v c.quiet r'.1 r'.2
      have l := Memory.read_write_same c.mem (phys_lt seg off) v
      simpa [writePlace, wr, wr8, val, peek, byteAt, m] using l
    · have r' : ((Mask.read s.board.mask (phys seg off)).mmio = false ∧
          (Mask.read s.board.mask (phys seg off)).rom = false) ∧
          (Mask.read s.board.mask (phys seg (off + 1))).mmio = false ∧
          (Mask.read s.board.mask (phys seg (off + 1))).rom = false := by
        simpa [writable, Place.addrs, byteAddrs] using r
      have m := Board.wr16_mem s.cpu.sregs.cs seg off v c.quiet r'.1.1 r'.1.2 r'.2.1 r'.2.2
      have w1 := Memory.wf_write c.mem (phys seg off) (loByte v)
      have h1 := Memory.read_write_same w1 (phys_lt seg (off + 1)) (hiByte v)
      have h0 := (Memory.read_write_other (Memory.write s.board.mem (phys seg off) (loByte v)) (hiByte v)
        (phys_succ_ne seg off).symm).trans (Memory.read_write_same c.mem (phys_lt seg off) (loByte v))
      simp only [writePlace, wr, wr16, val, peek, byteAt, setBoard_board, m]
      rw [h0, h1, mkWord_halves]

end State

end Sys2Proof.Machine
end

