-- ==== Sys2Proof/Laws/Shapes.lean ====
section
/-! SUPPORT. What the shapes of execution leave: two-operand, one-operand, shifting, storing, string, transferring
instructions and interrupt entry. -/

namespace Sys2Proof.Machine

namespace State

variable (s : State)

/-! ### Locating and reading -/

@[simp] theorem touch_reg16 (o : Operand) (g : GReg) : (s.touch o).reg16 g = s.reg16 g := by simp [reg16]
@[simp] theorem touch_reg8 (o : Operand) (g : GReg) : (s.touch o).reg8 g = s.reg8 g := by simp [reg8]
@[simp] theorem touch_reg (w : Width) (o : Operand) (g : GReg) : (s.touch o).reg w g = s.reg w g := by
  cases w <;> simp [reg]
@[simp] theorem touch_sreg (o : Operand) (r : SReg) : (s.touch o).sreg r = s.sreg r := by simp [sreg]

theorem touch_val (w : Width) (o : Operand) (p : Place) : (s.touch o).val w p = s.val w p := by
  cases p <;> cases w <;> simp [val, peek, byteAt]

@[simp] theorem touch_quiet (o : Operand) : (s.touch o).Quiet ↔ s.Quiet := by simp [Quiet]

theorem touch_calm {s : State} (c : s.Calm) (o : Operand) : (s.touch o).Calm :=
  ⟨(touch_quiet s o).2 c.quiet, by simpa using c.mem⟩

@[simp] theorem touch_readable (o : Operand) (as : List Nat) : (s.touch o).readable as = s.readable as := by
  simp [readable]

@[simp] theorem touch_writable (o : Operand) (as : List Nat) : (s.touch o).writable as = s.writable as := by
  simp [writable]

/-- No immediate is ever a destination. -/
theorem place_rm_ne_imm (e : RM) (x : Word) : s.place (.rm e) ≠ .imm x := by cases e <;> simp [place]

theorem place_dst_ne_imm (f : AluForm) (x : Word) : s.place f.dst ≠ .imm x := by
  cases f <;> first | exact place_rm_ne_imm s _ x | simp [AluForm.dst, place]

/-- A write to a located operand changes that operand's halves only. -/
theorem half_writePlace (t : State) (w : Width) (o : Operand) (v : BitVec w.bits) (h : GReg × Bool)
    (n : h ∉ o.halves w) : (t.writePlace w (s.place o) v).half h = t.half h := by
  cases o with
  | rm e =>
    cases e with
    | reg g => exact half_setReg t w g v h n
    | mem m => cases w <;> rfl
  | reg g => exact half_setReg t w g v h n
  | imm8 _ => rfl
  | imm16 _ => rfl
  | imm8s _ => rfl

/-- An operand that was loaded early is taken as it is. -/
theorem readLoaded_some {s : State} {v : Word} (h : s.cpu.loaded = some v) (w : Width) (p : Place) :
    s.readLoaded w p = (v.setWidth w.bits, s) := by simp [readLoaded, h]

theorem readLoaded_none {s : State} (h : s.cpu.loaded = none) (w : Width) (p : Place) :
    s.readLoaded w p = s.readPlace w p := by simp [readLoaded, h]

@[simp] theorem readLoaded_cpu (w : Width) (p : Place) : (s.readLoaded w p).2.cpu = s.cpu := by
  unfold readLoaded
  split <;> simp

@[simp] theorem touch_loaded (o : Operand) : (s.touch o).cpu.loaded = s.cpu.loaded := by rw [touch_eq]

@[simp] theorem fetchPair_cpu (w : Width) (d o : Operand) :
    (s.fetchPair w d o).2.2.cpu = ((s.touch d).touch o).cpu := by simp [fetchPair]

section Quiet

variable {s} (q : s.Quiet)
include q

theorem Touches.load (w : Width) (o : Operand) : s.board.Touches [] (s.load w o).2.board := by
  have h := readPlace_touches ((touch_quiet s o).2 q) w (s.place o)
  simpa [State.load] using h

theorem readLoaded_touches (w : Width) (p : Place) : s.board.Touches [] (s.readLoaded w p).2.board := by
  unfold State.readLoaded
  split
  · exact Board.Touches.refl _
  · exact readPlace_touches q w p

theorem Touches.fetchPair (w : Width) (d o : Operand) : s.board.Touches [] (s.fetchPair w d o).2.2.board := by
  have q1 : ((s.touch d).touch o).Quiet := by simpa using q
  have h := readLoaded_touches q1 w (s.place d)
  have q2 : (((s.touch d).touch o).readLoaded w (s.place d)).2.Quiet := by
    have := h.slots
    simp only [touch_board] at this
    exact this.trans q
  have k := h.trans (readPlace_touches q2 w (s.place o))
  simpa [State.fetchPair] using k

theorem Touches.binary (w : Width) (d o : Operand) (f : Flags → BitVec w.bits → BitVec w.bits → BitVec w.bits × Flags) :
    s.board.Touches ((s.place d).addrs w) (s.binary w d o f).board := by
  have h := Touches.fetchPair q w d o
  have q' : (s.fetchPair w d o).2.2.Quiet := h.slots.trans q
  exact h.trans (writePlace_touches q' w (s.place d) _)

theorem Touches.compare (w : Width) (d o : Operand) (f : Flags → BitVec w.bits → BitVec w.bits → BitVec w.bits ×
  Flags) :
    s.board.Touches [] (s.compare w d o f).board := Touches.fetchPair q w d o

theorem Touches.unary (w : Width) (o : Operand) (f : Flags → BitVec w.bits → BitVec w.bits × Flags) :
    s.board.Touches ((s.place o).addrs w) (s.unary w o f).board := by
  have h := Touches.load q w o
  have q' : (s.load w o).2.Quiet := h.slots.trans q
  exact h.trans (writePlace_touches q' w (s.place o) _)

theorem Touches.store (w : Width) (o : Operand) (v : BitVec w.bits) :
    s.board.Touches ((s.place o).addrs w) (s.store w o v).board := by
  have h := writePlace_touches ((touch_quiet s o).2 q) w (s.place o) v
  simpa [State.store] using h

theorem Touches.readFar (e : RM) : s.board.Touches [] (s.readFar e).2.2.board := by
  have h := Board.rd16_touches s.cpu.sregs.cs (s.farPlace e).1 (s.farPlace e).2 q
  have k := h.trans (Board.rd16_touches s.cpu.sregs.cs (s.farPlace e).1 ((s.farPlace e).2 + 2) (h.slots.trans q))
  simpa [State.readFar, rd16] using k

end Quiet

/-- What reading the operands of a two-operand instruction gives, where they are readable. -/
theorem fetchPair_value {s : State} (q : s.Quiet) (w : Width) (d o : Operand)
    (rd : s.readable ((s.place d).addrs w) = true) (ro : s.readable ((s.place o).addrs w) = true) :
    (s.fetchPair w d o).1 = s.loadedVal w d ∧ (s.fetchPair w d o).2.1 = s.val w (s.place o) ∧
      (s.fetchPair w d o).2.2.board.mem = s.board.mem := by
  have q1 : ((s.touch d).touch o).Quiet := by simpa using q
  have h := readLoaded_touches q1 w (s.place d)
  have q2 : (((s.touch d).touch o).readLoaded w (s.place d)).2.Quiet := by
    have := h.slots
    simp only [touch_board] at this
    exact this.trans q
  have m1 : (((s.touch d).touch o).readLoaded w (s.place d)).2.board.mem = ((s.touch d).touch o).board.mem := by
    unfold readLoaded
    split
    · rfl
    · exact readPlace_mem q1 w (s.place d)
  have v2 : (((s.touch d).touch o).readLoaded w (s.place d)).2.readable ((s.place o).addrs w) = true := by
    simpa [readable, h.mask] using ro
  refine ⟨?_, ?_, ?_⟩
  · rw [State.fetchPair]
    unfold loadedVal
    split
    · rename_i v e
      rw [readLoaded_some (by simpa using e)]
    · rename_i e
      rw [readLoaded_none (by simpa using e)]
      exact (readPlace_value q1 w (s.place d) (by simpa using rd)).trans (by rw [touch_val, touch_val])
  · have k := readPlace_value q2 w (s.place o) v2
    rw [State.fetchPair]
    refine k.trans ?_
    cases hp : s.place o with
    | reg g => cases w <;> simp [val, reg, reg16, reg8]
    | imm v => rfl
    | mem seg off => cases w <;> simp [val, peek, byteAt, m1]
  · have k := readPlace_mem q2 w (s.place o)
    simp only [State.fetchPair]
    rw [k, m1]; simp

/-- What reading one operand gives, where it is readable. -/
theorem load_value {s : State} (q : s.Quiet) (w : Width) (o : Operand)
    (r : s.readable ((s.place o).addrs w) = true) :
    (s.load w o).1 = s.val w (s.place o) ∧ (s.load w o).2.board.mem = s.board.mem := by
  have q1 : (s.touch o).Quiet := by simpa using q
  refine ⟨?_, ?_⟩
  · exact (readPlace_value q1 w (s.place o) (by simpa using r)).trans (by rw [touch_val])
  · exact (readPlace_mem q1 w (s.place o)).trans (by simp)

@[simp] theorem load_cpu (w : Width) (o : Operand) : (s.load w o).2.cpu = (s.touch o).cpu := by simp [State.load]

@[simp] theorem readFar_cpu (e : RM) : (s.readFar e).2.2.cpu = (s.touch (.rm e)).cpu := by simp [State.readFar]

/-- After reads that keep the mask array and memory, a state is as calm as before. -/
theorem calm_of_touches {s : State} (c : s.Calm) {t : State} {as : List Nat} (h : s.board.Touches as t.board)
    (m : t.board.mem = s.board.mem) : t.Calm := ⟨h.slots.trans c.quiet, by rw [m]; exact c.mem⟩

theorem writable_of_touches {s t : State} {as : List Nat} (h : s.board.Touches as t.board) (bs : List Nat) :
    t.writable bs = s.writable bs := by simp [writable, h.mask]

theorem readable_of_touches {s t : State} {as : List Nat} (h : s.board.Touches as t.board) (bs : List Nat) :
    t.readable bs = s.readable bs := by simp [readable, h.mask]

/-- A value survives a change of flags. -/
@[simp] theorem val_setFlags (w : Width) (p : Place) (f : Flags) : (s.setFlags f).val w p = s.val w p := by
  cases p <;> cases w <;> rfl

@[simp] theorem val_spend (w : Width) (p : Place) (k : Nat) : (s.spend k).val w p = s.val w p := by
  cases p <;> cases w <;> rfl

/-- The whole effect of a two-operand instruction on operands that can be read. -/
theorem binary_next {s : State} (c : s.Calm) (w : Width) (d o : Operand)
    (f : Flags → BitVec w.bits → BitVec w.bits → BitVec w.bits × Flags)
    (rd : s.readable ((s.place d).addrs w) = true) (ro : s.readable ((s.place o).addrs w) = true)
    (i : ∀ x, s.place d ≠ .imm x) :
    let r := f s.cpu.flags (s.loadedVal w d) (s.val w (s.place o))
    (s.binary w d o f).cpu.flags = r.2 ∧
      (s.writable ((s.place d).addrs w) = true → (s.binary w d o f).val w (s.place d) = r.1) := by
  obtain ⟨h1, h2, h3⟩ := fetchPair_value c.quiet w d o rd ro
  have t := Touches.fetchPair c.quiet w d o
  have c' := calm_of_touches c t h3
  simp only [State.binary, h1, h2, fetchPair_cpu, touch_flags, setFlags_flags, val_setFlags, true_and]
  intro wr
  exact writePlace_value c' w (s.place d) _ (by rw [writable_of_touches t]; exact wr) i

/-- The whole effect of a comparing instruction on operands that can be read. -/
theorem compare_next {s : State} (c : s.Calm) (w : Width) (d o : Operand)
    (f : Flags → BitVec w.bits → BitVec w.bits → BitVec w.bits × Flags)
    (rd : s.readable ((s.place d).addrs w) = true) (ro : s.readable ((s.place o).addrs w) = true) :
    (s.compare w d o f).cpu.flags = (f s.cpu.flags (s.loadedVal w d) (s.val w (s.place o))).2 ∧
      (s.compare w d o f).board.mem = s.board.mem ∧ (s.compare w d o f).cpu.regs = s.cpu.regs := by
  obtain ⟨h1, h2, h3⟩ := fetchPair_value c.quiet w d o rd ro
  simp [State.compare, h1, h2, h3]

/-- The whole effect of a one-operand instruction on an operand that can be read. -/
theorem unary_next {s : State} (c : s.Calm) (w : Width) (o : Operand) (f : Flags → BitVec w.bits → BitVec w.bits ×
  Flags)
    (r : s.readable ((s.place o).addrs w) = true) (i : ∀ x, s.place o ≠ .imm x) :
    (s.unary w o f).cpu.flags = (f s.cpu.flags (s.val w (s.place o))).2 ∧
      (s.writable ((s.place o).addrs w) = true →
        (s.unary w o f).val w (s.place o) = (f s.cpu.flags (s.val w (s.place o))).1) := by
  obtain ⟨h1, h3⟩ := load_value c.quiet w o r
  have t := Touches.load c.quiet w o
  have c' := calm_of_touches c t h3
  have e : s.unary w o f = ((s.load w o).2.writePlace w (s.place o) (f (s.load w o).2.cpu.flags (s.load w
    o).1).1).setFlags
      (f (s.load w o).2.cpu.flags (s.load w o).1).2 := rfl
  simp only [e, h1, load_cpu, touch_flags, setFlags_flags, val_setFlags, true_and]
  intro wr
  exact writePlace_value c' w (s.place o) _ (by rw [writable_of_touches t]; exact wr) i

/-- The whole effect of storing to an operand. -/
theorem store_next {s : State} (c : s.Calm) (w : Width) (o : Operand) (v : BitVec w.bits)
    (wr : s.writable ((s.place o).addrs w) = true) (i : ∀ x, s.place o ≠ .imm x) :
    (s.store w o v).val w (s.place o) = v :=
  writePlace_value (touch_calm c o) w (s.place o) v (by simpa using wr) i

end State

end Sys2Proof.Machine
end

