-- ==== Sys2Proof/Laws/Control.lean ====
section
/-! SUPPORT. What control transfers, pushes, pops, interrupt entry and the iterations of a string instruction do. -/

namespace Sys2Proof.Machine

@[simp] theorem Regs.set_set (r : Regs) (g : GReg) (u v : Word) : (r.set g u).set g v = r.set g v := by cases g <;> rfl

@[simp] theorem Sregs.set_set (r : Sregs) (g : SReg) (u v : Word) : (r.set g u).set g v = r.set g v := by cases g
  <;> rfl

namespace State

variable (s : State)

/-! ### Transfers -/

theorem jumpNear_jumpedTo (ip : Word) : (s.jumpNear ip).JumpedTo (s.sreg .cs) ip := ⟨rfl, rfl, rfl, rfl, rfl⟩

theorem jumpFar_jumpedTo (cs ip : Word) : (s.jumpFar cs ip).JumpedTo cs ip := ⟨rfl, rfl, rfl, rfl, rfl⟩

@[simp] theorem jumpNear_flags (ip : Word) : (s.jumpNear ip).cpu.flags = s.cpu.flags := rfl
@[simp] theorem jumpNear_regs (ip : Word) : (s.jumpNear ip).cpu.regs = s.cpu.regs := rfl
@[simp] theorem jumpNear_mem (ip : Word) : (s.jumpNear ip).board.mem = s.board.mem := rfl
@[simp] theorem jumpFar_flags (cs ip : Word) : (s.jumpFar cs ip).cpu.flags = s.cpu.flags := rfl
@[simp] theorem jumpFar_regs (cs ip : Word) : (s.jumpFar cs ip).cpu.regs = s.cpu.regs := rfl
@[simp] theorem jumpFar_mem (cs ip : Word) : (s.jumpFar cs ip).board.mem = s.board.mem := rfl

/-! ### The stack -/

@[simp] theorem push16_sp (v : Word) : (s.push16 v).reg16 .sp = s.reg16 .sp - 2 := rfl
@[simp] theorem push16_sreg (v : Word) (r : SReg) : (s.push16 v).sreg r = s.sreg r := rfl
@[simp] theorem pop16_sp : s.pop16.2.reg16 .sp = s.reg16 .sp + 2 := rfl
@[simp] theorem pop16_sreg (r : SReg) : s.pop16.2.sreg r = s.sreg r := rfl

variable {s}

/-- Memory stays in its canonical form through a push. -/
theorem push16_calm (c : s.Calm) (v : Word) : (s.push16 v).Calm :=
  ⟨(push16_touches c.quiet v).slots.trans c.quiet, Board.wr16_wf s.cpu.sregs.cs _ _ v c.quiet c.mem⟩

/-- A pushed word is at the new top of the stack. -/
theorem push16_value (c : s.Calm) (v : Word)
    (w : s.writable (byteAddrs .word (s.sreg .ss) (s.reg16 .sp - 2)) = true) :
    (s.push16 v).peek .word (s.sreg .ss) (s.reg16 .sp - 2) = v := by
  have c' : (s.setReg16 .sp (s.reg16 .sp - 2)).Calm := ⟨c.quiet, c.mem⟩
  exact writePlace_value c' .word (.mem (s.sreg .ss) (s.reg16 .sp - 2)) v w (by simp)

/-- A popped word is the one a side-effect-free look shows. -/
theorem pop16_value (q : s.Quiet) (r : s.readable (byteAddrs .word (s.sreg .ss) (s.reg16 .sp)) = true) :
    s.pop16.1 = s.peek .word (s.sreg .ss) (s.reg16 .sp) :=
  readPlace_value q .word (.mem (s.sreg .ss) (s.reg16 .sp)) r

theorem pop16_calm (c : s.Calm) : s.pop16.2.Calm :=
  calm_of_touches c (pop16_touches c.quiet) (Board.rd16_mem _ _ _ c.quiet)

variable (s)

/-! ### Interrupt entry (60_exceptions.md R440) -/

/-- The CPU after an entry, but for the CS that the vector gives. -/
theorem enter_cpu (n : Byte) (ret : Word) :
    (s.enter n ret).cpu =
      { s.cpu with
        regs := s.cpu.regs.set .sp (s.reg16 .sp - 2 - 2 - 2),
        sregs := s.cpu.sregs.set .cs ((s.enter n ret).sreg .cs),
        flags := { s.cpu.flags with intf := false, tf := false },
        inRep := false, halted := false, decoded := none } := by
  simp only [enter, flushTo, setSreg, setFlags, push16, setReg16, rd16, wr16, setBoard, sreg, reg16, Regs.set_set,
    Regs.get_set_same, Sregs.get_set_same]

/-- The queue is empty after an entry. -/
theorem enter_queue (n : Byte) (ret : Word) : (s.enter n ret).board.queue = [] := rfl

/-! ### Strings (44_string.md R321) -/

/-- An iteration decrements CX once, after its element. -/
theorem repIterate_cx (i : Instr) (k : RepKind) (c : Bool) (prim : State → State) :
    (s.repIterate i k c prim).reg16 .cx = (prim s).reg16 .cx - 1 := by
  unfold repIterate
  dsimp only
  split <;> exact reg16_setReg16_same (prim s) .cx _

/-- An iteration touches the board only as its element does. -/
theorem repIterate_board (i : Instr) (k : RepKind) (c : Bool) (prim : State → State) :
    (s.repIterate i k c prim).board = (prim s).board := by
  unfold repIterate
  dsimp only
  split <;> rfl

/-- An iteration goes on exactly while CX is not 0 and, for a compare, the condition of the prefix holds. -/
theorem repIterate_inRep (i : Instr) (k : RepKind) (c : Bool) (prim : State → State) :
    (s.repIterate i k c prim).cpu.inRep =
      ((prim s).reg16 .cx - 1 != 0 && (!c || (prim s).repCond k)) := by
  unfold repIterate
  dsimp only
  have e : ((prim s).setReg16 .cx ((prim s).reg16 .cx - 1)).repCond k = (prim s).repCond k := by cases k <;> rfl
  rw [reg16_setReg16_same, e]
  split
  · rename_i h; rw [h]; rfl
  · rename_i h; simp only [Bool.not_eq_true] at h; rw [h]; rfl

end State

end Sys2Proof.Machine
end

