-- ==== Sys2Proof/Laws/Flags.lean ====
section
/-! SUPPORT. The flag computations as integer facts. -/

namespace Sys2Proof.Machine

/-- The parity of 00_scope.md section 7 counts ones. -/
theorem evenParity_eq (b : Byte) : evenParity b = evenOnes b := by
  simp only [evenParity, evenOnes, show List.range 8 = [0, 1, 2, 3, 4, 5, 6, 7] from rfl, List.countP_cons,
    List.countP_nil]
  cases b.getLsbD 0 <;> cases b.getLsbD 1 <;> cases b.getLsbD 2 <;> cases b.getLsbD 3 <;> cases b.getLsbD 4 <;>
    cases b.getLsbD 5 <;> cases b.getLsbD 6 <;> cases b.getLsbD 7 <;> rfl

theorem szpOf_szp {n : Nat} (f : Flags) (r : BitVec n) : SzpOf r (f.szp r) := by
  refine ⟨rfl, ?_, ?_⟩
  · show (r == 0) = decide (r = 0)
    by_cases h : r = 0
    · rw [decide_eq_true h]; exact beq_iff_eq.2 h
    · rw [decide_eq_false h]; exact beq_eq_false_iff_ne.2 h
  · simp [Flags.szp, evenParity_eq]

/-- The number and the sign of a two's-complement value, by its top bit. -/
theorem toInt_cases {n : Nat} (hn : 0 < n) (a : BitVec n) :
    a.toNat < 2 ^ n ∧ 2 ^ n = 2 * 2 ^ (n - 1) ∧
      ((a.msb = false ∧ a.toNat < 2 ^ (n - 1) ∧ a.toInt = a.toNat) ∨
        (a.msb = true ∧ 2 ^ (n - 1) ≤ a.toNat ∧ a.toInt = (a.toNat : Int) - 2 ^ n)) := by
  have h2 : 2 ^ n = 2 * 2 ^ (n - 1) := by
    obtain ⟨m, rfl⟩ : ∃ m, n = m + 1 := ⟨n - 1, by omega⟩
    rw [Nat.pow_succ]; simp [Nat.mul_comm]
  refine ⟨a.isLt, h2, ?_⟩
  rw [BitVec.msb_eq_decide, BitVec.toInt_eq_toNat_cond]
  by_cases h : 2 ^ (n - 1) ≤ a.toNat
  · right
    refine ⟨by simpa using h, h, ?_⟩
    rw [if_neg (by omega)]; simp
  · left
    refine ⟨by simpa using h, by omega, ?_⟩
    rw [if_pos (by omega)]

theorem addN_value {n : Nat} (f : Flags) (a b : BitVec n) (c : Bool) :
    (addN f a b c).1 = a + b + BitVec.ofNat n c.toNat := by
  apply BitVec.eq_of_toNat_eq
  simp [addN, BitVec.toNat_add]

theorem addN_flags {n : Nat} (hn : 0 < n) (f : Flags) (a b : BitVec n) (c : Bool) :
    AddFlags a b c (addN f a b c).2 := by
  have hv := addN_value f a b c
  refine ⟨rfl, rfl, ?_, ?_⟩
  · obtain ⟨la, h2, ha⟩ := toInt_cases hn a
    obtain ⟨lb, -, hb⟩ := toInt_cases hn b
    obtain ⟨lr, -, hr⟩ := toInt_cases hn (addN f a b c).1
    have hc : c.toNat ≤ 1 := Bool.toNat_le c
    have hm : (addN f a b c).1.toNat = (a.toNat + b.toNat + c.toNat) % 2 ^ n := by simp [addN]
    have hq := Nat.div_add_mod (a.toNat + b.toNat + c.toNat) (2 ^ n)
    have hlt : (a.toNat + b.toNat + c.toNat) / 2 ^ n < 2 := Nat.div_lt_of_lt_mul (by omega)
    show (a.msb == b.msb && (addN f a b c).1.msb != a.msb) = true ↔ _
    simp only [FitsSigned]
    have hp : ((2 : Int) ^ (n - 1)) = ((2 ^ (n - 1) : Nat) : Int) := by simp
    have hp' : ((2 : Int) ^ n) = ((2 ^ n : Nat) : Int) := by simp
    rw [hp]
    rw [hp'] at ha hb hr
    generalize (a.toNat + b.toNat + c.toNat) / 2 ^ n = q at hq hlt
    generalize (addN f a b c).1 = r at *
    generalize 2 ^ (n - 1) = M at *
    generalize 2 ^ n = N at *
    have hq' : q = 0 ∨ q = 1 := by omega
    rcases ha with ⟨ma, ha, ea⟩ | ⟨ma, ha, ea⟩ <;> rcases hb with ⟨mb, hb, eb⟩ | ⟨mb, hb, eb⟩ <;>
      rcases hr with ⟨mr, hr, er⟩ | ⟨mr, hr, er⟩ <;> rcases hq' with rfl | rfl <;>
      simp only [ma, mb, mr, ea, eb] <;> simp <;> omega
  · rw [← hv]
    exact szpOf_szp f _

theorem subN_value {n : Nat} (f : Flags) (a b : BitVec n) (c : Bool) :
    (subN f a b c).1 = a - b - BitVec.ofNat n c.toNat := rfl

theorem subN_flags {n : Nat} (hn : 0 < n) (f : Flags) (a b : BitVec n) (c : Bool) :
    SubFlags a b c (subN f a b c).2 := by
  refine ⟨rfl, rfl, ?_, szpOf_szp f _⟩
  obtain ⟨la, h2, ha⟩ := toInt_cases hn a
  obtain ⟨lb, -, hb⟩ := toInt_cases hn b
  obtain ⟨lr, -, hr⟩ := toInt_cases hn (subN f a b c).1
  have hc : c.toNat ≤ 1 := Bool.toNat_le c
  have h1 : 1 < 2 ^ n := Nat.one_lt_two_pow (by omega)
  have hm : (subN f a b c).1.toNat = (a.toNat + (2 ^ n - b.toNat) + (2 ^ n - c.toNat)) % 2 ^ n := by
    simp only [subN_value, BitVec.toNat_sub, BitVec.toNat_ofNat]
    rw [Nat.mod_eq_of_lt (show c.toNat < 2 ^ n by omega), Nat.add_mod_mod, ← Nat.add_assoc]
    congr 1
    omega
  have hq := Nat.div_add_mod (a.toNat + (2 ^ n - b.toNat) + (2 ^ n - c.toNat)) (2 ^ n)
  have hlt : (a.toNat + (2 ^ n - b.toNat) + (2 ^ n - c.toNat)) / 2 ^ n < 3 := Nat.div_lt_of_lt_mul (by omega)
  show (a.msb != b.msb && (subN f a b c).1.msb != a.msb) = true ↔ _
  simp only [FitsSigned]
  have hp : ((2 : Int) ^ (n - 1)) = ((2 ^ (n - 1) : Nat) : Int) := by simp
  have hp' : ((2 : Int) ^ n) = ((2 ^ n : Nat) : Int) := by simp
  rw [hp]
  rw [hp'] at ha hb hr
  generalize (a.toNat + (2 ^ n - b.toNat) + (2 ^ n - c.toNat)) / 2 ^ n = q at hq hlt
  generalize (subN f a b c).1 = r at *
  generalize 2 ^ (n - 1) = M at *
  generalize 2 ^ n = N at *
  have hq' : q = 0 ∨ q = 1 ∨ q = 2 := by omega
  rcases ha with ⟨ma, ha, ea⟩ | ⟨ma, ha, ea⟩ <;> rcases hb with ⟨mb, hb, eb⟩ | ⟨mb, hb, eb⟩ <;>
    rcases hr with ⟨mr, hr, er⟩ | ⟨mr, hr, er⟩ <;> rcases hq' with rfl | rfl | rfl <;>
    simp only [ma, mb, mr, ea, eb] <;> simp <;> omega

theorem logicN_flags {n : Nat} (f : Flags) (r : BitVec n) (af : Bool) : LogicFlags r (logicN f r af) :=
  ⟨rfl, rfl, szpOf_szp f r⟩

/-- Both operand widths are positive. -/
theorem Width.bits_pos (w : Width) : 0 < w.bits := by cases w <;> decide

theorem getElem_ite (c : Prop) [Decidable c] (a b : Word) (i : Nat) (h : i < 16) :
    (if c then a else b)[i] = if c then a[i] else b[i] := by split <;> rfl

/-- FLAGS read back from its word; the seven other bits are as 10_state.md R28 says. -/
theorem word_ofWord (v : Word) : (Flags.ofWord v).word = (v &&& 0x0FD5) ||| 0xF002 := by
  ext i hi
  have : i = 0 ∨ i = 1 ∨ i = 2 ∨ i = 3 ∨ i = 4 ∨ i = 5 ∨ i = 6 ∨ i = 7 ∨ i = 8 ∨ i = 9 ∨ i = 10 ∨ i = 11 ∨ i = 12 ∨
      i = 13 ∨ i = 14 ∨ i = 15 := by omega
  rcases this with rfl | rfl | rfl | rfl | rfl | rfl | rfl | rfl | rfl | rfl | rfl | rfl | rfl | rfl | rfl | rfl <;>
    simp [Flags.word, Flags.ofWord, getElem_ite, BitVec.getLsbD_eq_getElem]

/-- The flags survive the round trip through the word. -/
theorem ofWord_word (f : Flags) : Flags.ofWord f.word = f := by
  cases f
  simp [Flags.word, Flags.ofWord, getElem_ite, BitVec.getLsbD_eq_getElem]

end Sys2Proof.Machine
end

