-- ==== Sys2Proof/Laws/Step.lean ====
section
/-! SUPPORT. What a step does before it runs an instruction, and what a held bus (LOCK) keeps from the DMA controller. -/

namespace Sys2Proof.Machine

/-! ### The step -/

@[simp] theorem described_fault (f : Fault) : described (.fault f) = .fault f := rfl
@[simp] theorem described_refused (r : Refusal) : described (.refused r) = .refused r := rfl

theorem described_next {t : State} (h : t.board.undescribed = none) : described (.next t) = .next t := by
  simp [described, h]

theorem State.fail_described {s : State} (h : s.board.undescribed = none) (f : Fault) : s.fail f = .fault f := by
  simp [State.fail, h]

/-- A next state of a step is one of the step before the check, and nothing without a described effect has happened. -/
theorem described_eq_next {o : Out} {t : State} (h : described o = .next t) :
    o = .next t ∧ t.board.undescribed = none := by
  cases o with
  | next u =>
    simp only [described] at h
    split at h
    next k => cases h; exact ⟨rfl, k⟩
    · cases h
  | fault f => cases h
  | refused r => cases h

/-- A step before which the host does nothing. -/
theorem step_alone {s : State} (h : s.inputs.headD [] = []) (d : s.cpu.attempts = 0) :
    step s = described
      (({ s with inputs := s.inputs.tail, skipBp := false, started := true } : State).stepCore s.skipBp) := by
  rw [step, State.cycle, if_pos d, State.wholeStep, h]
  rfl

/-- A further attempt at an instruction: the host does not act. -/
theorem step_again {s : State} (d : s.cpu.attempts ≠ 0) : step s = described s.runFresh := by
  rw [step, State.cycle, if_neg d]

/-! ### The decode loop -/

@[simp] theorem Taken.state_instr (i : Instr) (t : State) : (Taken.instr i t).state = t := rfl
@[simp] theorem Taken.state_more (t : State) : (Taken.more t).state = t := rfl
@[simp] theorem Taken.state_stop (t : State) (o : Out) : (Taken.stop t o).state = t := rfl

/-- An instruction that is no prefix ends the loop. -/
theorem State.takeUnits_instr {s t : State} {op : QueueOp} {i : Instr} (n : Nat) (h : s.fetchUnit op [] 6 = some (i, t))
    (a : admits t.board.params.undoc t.cpu.pfx i = true) (k : isPrefix i = false) :
    s.takeUnits op (n + 1) = .instr i t := by
  simp [takeUnits, h, a, k]

/-- A prefix is run, and the loop goes on behind it. -/
theorem State.takeUnits_prefix {s t u : State} {op : QueueOp} {i : Instr} (n : Nat)
    (h : s.fetchUnit op [] 6 = some (i, t)) (a : admits t.board.params.undoc t.cpu.pfx i = true)
    (k : isPrefix i = true) (e : exec i t = .next u) :
    s.takeUnits op (n + 1) = u.takeUnits .subsequent n := by
  simp [takeUnits, h, a, k, e]

/-- The units behind a prefix byte are taken as they come, and then no LOCK is among the prefixes; or they are taken with
the bus held. -/
theorem State.takeRest_cases (s : State) (n : Nat) :
    (s.takeRest n = s.takeUnits .subsequent n ∧ (s.takeRest n).state.cpu.pfx.lock = false) ∨
      s.takeRest n = s.holdBus.takeUnits .subsequent n := by
  unfold takeRest
  dsimp only
  split
  · exact .inr rfl
  next h => exact .inl ⟨rfl, by simpa using h⟩

/-- What an attempt does: the instruction runs, or it ends before it could, or nothing but the count changes. -/
theorem State.attempt_cases (s : State) (n : Nat) :
    let r := ({ s with cpu := { s.cpu with attempts := 0 } } : State).takeAll n
    (∃ i t, r = .instr i t ∧ s.attempt n = t.finishExec i) ∨ (∃ t o, r = .stop t o ∧ s.attempt n = o) ∨
      ∃ t, r = .more t ∧ s.attempt n = .next { s with cpu := { s.cpu with attempts := s.cpu.attempts + 1 } } := by
  unfold attempt
  dsimp only
  split
  next i t e => exact .inl ⟨i, t, e, rfl⟩
  next t e => exact .inr (.inr ⟨t, e, rfl⟩)
  next t o e => exact .inr (.inl ⟨t, o, e, rfl⟩)

/-! ### The bus held by LOCK (20_memory.md R103) -/

theorem DmaChannel.Untouched.refl (c : DmaChannel) : c.Untouched c := ⟨rfl, id⟩

theorem DmaChannel.Untouched.trans {c d e : DmaChannel} (h : c.Untouched d) (k : d.Untouched e) : c.Untouched e := by
  refine ⟨?_, fun r => k.2 (h.2 r)⟩
  rw [k.1, h.1]

/-- The four channel numbers. -/
theorem channel_cases (n : BitVec 2) : n = 0 ∨ n = 1 ∨ n = 2 ∨ n = 3 := by revert n; decide

theorem Dma.get_set_same (d : Dma) (n : BitVec 2) (c : DmaChannel) : (d.set n c).get n = c := by
  obtain rfl | rfl | rfl | rfl := channel_cases n <;> rfl

theorem Dma.get_set_other (d : Dma) {m n : BitVec 2} (c : DmaChannel) (h : m ≠ n) : (d.set n c).get m = d.get m := by
  obtain rfl | rfl | rfl | rfl := channel_cases m <;> obtain rfl | rfl | rfl | rfl := channel_cases n <;>
    first | rfl | exact absurd rfl h

namespace Board

/-- The bus is held, no transfer has fallen on a channel, and no byte of memory outside `as` has changed. -/
structure Held (as : List Nat) (b c : Board) : Prop where
  locked : c.locked = true
  dma    : ∀ n, (b.dma.get n).Untouched (c.dma.get n)
  mem    : ∀ a, a ∉ as → Memory.read c.mem a = Memory.read b.mem a

variable {b c e : Board} {as bs : List Nat}

theorem Held.refl (h : b.locked = true) : b.Held [] b := ⟨h, fun _ => .refl _, fun _ _ => rfl⟩

theorem Held.trans (h : b.Held as c) (k : c.Held bs e) : b.Held (as ++ bs) e := by
  refine ⟨k.locked, fun n => (h.dma n).trans (k.dma n), fun a m => ?_⟩
  simp only [List.mem_append, not_or] at m
  rw [k.mem a m.2, h.mem a m.1]

/-- What leaves the lock, the DMA controller and memory alone. -/
theorem Held.of_eq (h : b.locked = true) (l : c.locked = b.locked) (d : c.dma = b.dma) (m : c.mem = b.mem) :
    b.Held [] c :=
  ⟨l.trans h, fun n => by rw [d]; exact .refl _, fun a _ => by rw [m]⟩

theorem memRead_keeps (b : Board) (a : Nat) :
    (b.memRead a).2.locked = b.locked ∧ (b.memRead a).2.dma = b.dma ∧ (b.memRead a).2.mem = b.mem := by
  unfold memRead; split
  · dsimp only; split <;> exact ⟨rfl, rfl, rfl⟩
  · exact ⟨rfl, rfl, rfl⟩

theorem memRead_held (h : b.locked = true) (a : Nat) : b.Held [] (b.memRead a).2 :=
  .of_eq h (memRead_keeps b a).1 (memRead_keeps b a).2.1 (memRead_keeps b a).2.2

theorem memWrite_held (h : b.locked = true) (a : Nat) (v : Byte) : b.Held [a] (b.memWrite a v) := by
  have t := memWrite_touches b a v
  exact ⟨by rw [t.rest]; exact h, fun n => by rw [t.rest]; exact .refl _, t.mem⟩

theorem fetchNext_held (h : b.locked = true) (cs : Word) : b.Held [] (b.fetchNext cs) :=
  .of_eq h (memRead_keeps b _).1 (memRead_keeps b _).2.1 (memRead_keeps b _).2.2

theorem runFloppy_held (h : b.locked = true) (d : DriveName) (op : FloppyOp) : b.Held [] (b.runFloppy d op) := by
  unfold runFloppy
  split
  · exact .of_eq h rfl rfl rfl
  · split <;> cases d <;> exact .of_eq h rfl rfl rfl

theorem requestService_held (h : b.locked = true) (n : BitVec 2) :
    b.Held [] { b with dma := b.dma.requestService n } := by
  refine ⟨h, fun m => ?_, fun _ _ => rfl⟩
  by_cases e : m = n
  · subst e; simp only [Dma.requestService, Dma.get_set_same]; exact ⟨rfl, fun _ => rfl⟩
  · simp only [Dma.requestService, Dma.get_set_other _ _ e]; exact .refl _

/-- No agent but the CPU takes or ends a hold on the bus. -/
theorem runEvent_locked (cs : Word) (bd : Bool) (b : Board) (ev : BusEvent) :
    (b.runEvent cs bd ev).locked = b.locked := by
  have write (b : Board) (a : Nat) (v : Byte) : (b.memWrite a v).locked = b.locked := by
    rw [(memWrite_touches b a v).rest]
  cases ev with
  | prefetch =>
    simp only [runEvent, prefetchStep]
    split
    · exact (memRead_keeps b _).1
    · rfl
  | dmaRun pick din =>
    simp only [runEvent, dmaRun, dmaTransfer, dmaWrite, dmaRead]
    split
    · rfl
    · split
      · rfl
      · dsimp only
        split
        · split
          · rfl
          · split
            · dsimp only; split
              · exact write _ _ _
              · rfl
            · dsimp only; split
              · exact (memRead_keeps b _).1
              · rfl
            · rfl
            · rfl
        · rfl
  | uartTx =>
    simp only [runEvent, uartTx]
    split <;> rfl
  | floppy d op =>
    simp only [runEvent, runFloppy]
    split
    · rfl
    · split <;> cases d <;> rfl
  | dmaRequest _ | uartRx | requestInterrupt _ | clearInterrupt _ => rfl

theorem slot_locked (cs : Word) (bd : Bool) (b : Board) : (b.slot cs bd).locked = b.locked := by
  have all (l : List BusEvent) : ∀ b : Board, (l.foldl (runEvent cs bd) b).locked = b.locked := by
    induction l with
    | nil => exact fun _ => rfl
    | cons ev rest ih => exact fun b => (ih _).trans (runEvent_locked cs bd b ev)
  unfold slot
  split
  · rfl
  · exact all _ _

/-- No event of another agent moves a byte by DMA while the bus is held. -/
theorem runEvent_held (h : b.locked = true) (cs : Word) (bd : Bool) (ev : BusEvent) :
    b.Held [] (b.runEvent cs bd ev) := by
  cases ev with
  | prefetch =>
    simp only [runEvent, prefetchStep]
    split
    · exact fetchNext_held h cs
    · exact .refl h
  | dmaRequest n => exact requestService_held h n
  | dmaRun pick din => simp only [runEvent, h, Bool.true_or, if_true]; exact .refl h
  | uartRx => exact .of_eq h rfl rfl rfl
  | uartTx =>
    simp only [runEvent, uartTx]
    split <;> exact .of_eq h rfl rfl rfl
  | floppy d op => exact runFloppy_held h d op
  | requestInterrupt n => exact .of_eq h rfl rfl rfl
  | clearInterrupt n => exact .of_eq h rfl rfl rfl

theorem runEvents_held (cs : Word) (bd : Bool) (l : List BusEvent) (h : b.locked = true) :
    b.Held [] (l.foldl (runEvent cs bd) b) := by
  induction l generalizing b with
  | nil => exact .refl h
  | cons ev rest ih =>
    have k := runEvent_held h cs bd ev
    exact k.trans (ih k.locked)

theorem slot_held (h : b.locked = true) (cs : Word) (bd : Bool) : b.Held [] (b.slot cs bd) := by
  unfold slot
  split
  · exact .refl h
  next rest _ =>
    exact (Held.of_eq (c := { b with slots := rest }) h rfl rfl rfl).trans
      (runEvents_held (b := { b with slots := rest }) cs bd _ h)

theorem rd8_held (h : b.locked = true) (cs seg off : Word) : b.Held [] (b.rd8 cs seg off).2 := by
  have k := slot_held h cs false
  have m := memRead_held k.locked (phys seg off)
  exact (k.trans m).trans (.of_eq m.locked rfl rfl rfl)

theorem wr8_held (h : b.locked = true) (cs seg off : Word) (v : Byte) :
    b.Held [phys seg off] (b.wr8 cs seg off v) := by
  have k := slot_held h cs false
  have m := memWrite_held k.locked (phys seg off) v
  exact (k.trans m).trans (.of_eq m.locked rfl rfl rfl)

theorem rd16_held (h : b.locked = true) (cs seg off : Word) : b.Held [] (b.rd16 cs seg off).2 := by
  have k := rd8_held h cs seg off
  exact k.trans (rd8_held k.locked cs seg (off + 1))

theorem wr16_held (h : b.locked = true) (cs seg off v : Word) :
    b.Held (byteAddrs .word seg off) (b.wr16 cs seg off v) := by
  have k := wr8_held h cs seg off (loByte v)
  exact k.trans (wr8_held k.locked cs seg (off + 1) (hiByte v))

theorem fetch8_held (h : b.locked = true) (cs : Word) (op : QueueOp) : b.Held [] (b.fetch8 cs op).2 := by
  have k := slot_held h cs false
  unfold fetch8
  dsimp only
  split
  · exact (k.trans (fetchNext_held k.locked cs)).trans (.of_eq (fetchNext_held k.locked cs).locked rfl rfl rfl)
  · exact k.trans (.of_eq k.locked rfl rfl rfl)

end Board

end Sys2Proof.Machine
end

