-- ==== Sys2Proof/Tests/Slice0.lean ====
section
/-! SUPPORT. Tests: the checks of WellFormed; words written out from the spec's encodings; one step each of the vectors
of spec/95_test_vectors.md (their expected results are the spec's); and for every statement with hypotheses a concrete
state and operands that meet them. -/

namespace Sys2Proof.Tests

open Sys2Proof.Machine

set_option maxRecDepth 20000

/-! ### Terms without an encoding are refused (30_encoding.md R140, R291) -/

theorem test_wf_bp_without_displacement : Mem.wf (.noDisp .bp) = false := by decide

theorem test_wf_bp_in_rm : RM.wf (.mem (.noDisp .bp)) = false := by decide

theorem test_wf_bp_in_alu_forms :
    [AluForm.rmReg .byte (.mem (.noDisp .bp)) .ax, .regRm .word .ax (.mem (.noDisp .bp)),
      .rmImm8 (.mem (.noDisp .bp)) 1,
      .rmImm16 (.mem (.noDisp .bp)) 1, .rmImm8Alias (.mem (.noDisp .bp)) 1, .rmImm8Sext (.mem (.noDisp .bp)) 1].any
      AluForm.wf = false := by decide

theorem test_wf_bp_in_test_forms :
    [TestForm.rmReg .byte (.mem (.noDisp .bp)) .ax, .rmImm8 (.mem (.noDisp .bp)) 1, .rmImm16 (.mem (.noDisp .bp)) 1,
      .rmImm8Alias (.mem (.noDisp .bp)) 1, .rmImm16Alias (.mem (.noDisp .bp)) 1].any TestForm.wf = false := by decide

theorem test_wf_bp_in_instructions :
    ([fun e => Instr.add (.rmReg .byte e .ax), fun e => .test (.rmImm8 e 1), .incRm .byte, .decRm .word, .not .byte,
      .neg .word, .mul .byte, .imul .byte, .div .word, .idiv .word, fun e => .rol .byte e .one,
        fun e => .ror .byte e .cl,
      fun e => .rcl .byte e .one, fun e => .rcr .byte e .one, fun e => .shl .word e .cl, fun e => .shr .word e .one,
      fun e => .setmo .word e .one, fun e => .sar .word e .one, fun e => .movRmReg .byte e .ax,
      fun e => .movRegRm .byte .ax e, fun e => .movRmImm8 0 e 1, fun e => .movRmImm16 0 e 1].any
      fun f => (f (.mem (.noDisp .bp))).wf) = false := by decide

theorem test_wf_bp_in_other_instructions :
    ([fun e => Instr.movRmSeg false e .es, .movSegRm false .es, .pushRm false, .popRm 0, fun e => .xchgRm .byte e .ax,
      .lea .ax, .lds .ax, .les .ax, .jmpRm, .jmpFarRm, .callRm, .callFarRm, .esc 0 0, .fe2, .fe3, .fe4, .fe5, .fe6,
      .fe7].any fun f => (f (.mem (.noDisp .bp))).wf) = false := by decide

theorem test_wf_xchg_ax_ax : Instr.wf (.xchgAx .ax) = false := by decide

/-! ### Decoding: the bits as 30_encoding.md sections 2 to 6 lay them out -/

theorem test_decode_alu : (decode [0b00000001, 0b11011000]).toOption = some (.add (.rmReg .word (.reg .ax) .bx),
  []) := by
  decide

theorem test_decode_immediate_group :
    (decode [0b10000011, 0b11111001, 0x80]).toOption = some (.cmp (.rmImm8Sext (.reg .cx) 0x80), []) := by decide

theorem test_decode_muldiv : (decode [0b11110110, 0b11110011]).toOption = some (.div .byte (.reg .bx), []) := by decide

theorem test_decode_shift :
    (decode [0b11010011, 0b00100111]).toOption = some (.shl .word (.mem (.noDisp .bx)) .cl, []) := by decide

theorem test_decode_mov_displacements :
    (decode [0b10001011, 0b01000110, 0xFE]).toOption = some (.movRegRm .word .ax (.mem (.disp8 .bp 0xFE)), []) ∧
      (decode [0b10001010, 0b10000111, 0x00,
        0x80]).toOption = some (.movRegRm .byte .ax (.mem (.disp16 .bx 0x8000)), []) ∧
      (decode [0b10001001, 0b00000110, 0x34, 0x12]).toOption = some (.movRmReg .word (.mem (.direct 0x1234)) .ax,
        []) := by
  decide

theorem test_decode_register_in_opcode :
    (decode [0b10110111, 0x12]).toOption = some (.movRegImm8 .di 0x12, []) ∧
      (decode [0b01010110]).toOption = some (.pushReg .si, []) ∧ (decode [0b10010000]).toOption = some (.nop,
        []) := by decide

theorem test_decode_string : (decode [0b10100111]).toOption = some (.cmpsw, []) := by decide

theorem test_decode_transfer :
    (decode [0b11101010, 0x78, 0x56, 0x34, 0x12]).toOption = some (.jmpFar 0x5678 0x1234, []) ∧
      (decode [0b01110101, 0x7F]).toOption = some (.jnz false 0x7F, []) ∧
      (decode [0b11111111, 0b00011111]).toOption = some (.callFarRm (.mem (.noDisp .bx)), []) := by decide

theorem test_decode_control :
    (decode [0b11011001, 0b00000110, 0x00, 0x02]).toOption = some (.esc 1 0 (.mem (.direct 0x0200)), []) ∧
      (decode [0b11110010, 0x90]).toOption = some (.repnz, [0x90]) ∧ (decode [0b11110100]).toOption = some (.hlt,
        []) := by
  decide

/-! ### One step each: the start state of 95_test_vectors.md section 1 -/

def r0 : Regs := ⟨0, 0, 0, 0, 0x100, 0, 0, 0⟩

def f0 : Flags := ⟨false, false, false, false, false, false, false, false, false⟩

def g0 : Sregs := ⟨0x4000, 0x1000, 0x2000, 0x3000⟩

/-- Memory with the listed bytes. -/
def bytes (l : List (Nat × Byte)) : List Host.Cell := l.foldl (fun m c => Memory.write m c.1 c.2) []

/-- The start state with these registers, flags and bytes. -/
def start (r : Regs) (f : Flags) (l : List (Nat × Byte)) : State :=
  { State.reset with
    cpu := { State.reset.cpu with regs := r, sregs := g0, flags := f },
    board := { State.reset.board with pc := 0x100, mem := bytes l } }

/-- The state with the instruction's bytes at 1000:0100. -/
def placed (code : List Byte) (s : State) : State :=
  { s with board := { placeBytes 0x1000 code 0x100 s.board with pc := 0x100 } }

/-- One step of the instruction. -/
def go (code : List Byte) (s : State) : Out := step (placed code s)

/-- The place of a flag in FLAGS (10_state.md R27). -/
def place : FlagName → Nat
  | .cf => 0 | .pf => 2 | .af => 4 | .zf => 6 | .sf => 7 | .tf => 8 | .intf => 9 | .df => 10 | .ovf => 11

/-- The flags named by a mask over FLAGS have the values of `flags`; the others may be free. -/
def flagsAre (f : Flags) (mask flags : Word) : Bool :=
  allFlags.all fun n => !mask.getLsbD (place n) || f.get n == flags.getLsbD (place n)

/-- The step ends at this IP with these registers, these bits of FLAGS and these bytes. -/
def ends (o : Out) (ip : Word) (r : Regs) (g : Sregs) (mask flags : Word) (l : List (Nat × Byte)) : Bool :=
  match o with
  | .next t => t.ip == ip && t.cpu.regs == r && t.cpu.sregs == g && flagsAre t.cpu.flags mask flags &&
      l.all fun c => t.byteAt c.1 == c.2
  | .fault _ | .refused _ => false

/-- The step ends in a fault. -/
def faults (o : Out) (f : Fault) : Bool :=
  match o with
  | .fault e => e == f
  | .next _ | .refused _ => false

/-- The step is refused. -/
def refuses (o : Out) (r : Refusal) : Bool :=
  match o with
  | .refused q => q == r
  | .next _ | .fault _ => false

/-- What the next state shows. -/
def shows (o : Out) (p : State → Bool) : Bool :=
  match o with
  | .next t => p t
  | .fault _ | .refused _ => false

/-- V1. -/
theorem test_add_ax_bx : ends (go [0x01, 0xD8]
    (start { r0 with ax := 0x8000, bx := 0x8000 } f0 []))
    0x102 { r0 with ax := 0x0, bx := 0x8000 } g0 0x8D5 0x845 [] = true := by decide

/-- V10. -/
theorem test_add_ax_bp_2 : ends (go [0x03, 0x46, 0x02]
    (start { r0 with ax := 0x1, bp := 0x80 } f0 [(0x20082, 0xFF), (0x20083, 0x7F)]))
    0x103 { r0 with ax := 0x8000, bp := 0x80 } g0 0x8D5 0x894 [] = true := by decide

/-- V14. -/
theorem test_add_si_1000_1234 : ends (go [0x81, 0x84, 0x00, 0x10, 0x34, 0x12]
    (start { r0 with si := 0x20 } f0 [(0x31020, 0x1)]))
    0x106 { r0 with si := 0x20 } g0 0x8D5 0x4 [(0x31020, 0x35), (0x31021, 0x12)] = true := by decide

/-- V17. -/
theorem test_adc_ax_bx : ends (go [0x11, 0xD8]
    (start { r0 with ax := 0x7FFF, bx := 0x0 } { f0 with cf := true } []))
    0x102 { r0 with ax := 0x8000, bx := 0x0 } g0 0x8D5 0x894 [] = true := by decide

/-- V20. -/
theorem test_sub_al_bl : ends (go [0x28, 0xD8]
    (start { r0 with ax := 0x80, bx := 0x1 } f0 []))
    0x102 { r0 with ax := 0x7F, bx := 0x1 } g0 0x8D5 0x810 [] = true := by decide

/-- V26. -/
theorem test_sbb_ax_bx : ends (go [0x1B, 0xC3]
    (start { r0 with ax := 0x8000, bx := 0x0 } { f0 with cf := true } []))
    0x102 { r0 with ax := 0x7FFF, bx := 0x0 } g0 0x8D5 0x814 [] = true := by decide

/-- V30. -/
theorem test_cmp_byte_bx_41 : ends (go [0x80, 0x3F, 0x41]
    (start { r0 with bx := 0x40 } f0 [(0x30040, 0x40)]))
    0x103 { r0 with bx := 0x40 } g0 0x8D5 0x95 [] = true := by decide

/-- V33. -/
theorem test_inc_ax : ends (go [0x40]
    (start { r0 with ax := 0x7FFF } { f0 with cf := true } []))
    0x101 { r0 with ax := 0x8000 } g0 0x8D5 0x895 [] = true := by decide

/-- V36. -/
theorem test_inc_word_0300 : ends (go [0xFF, 0x06, 0x00, 0x03]
    (start r0 f0 [(0x30300, 0xFF)]))
    0x104 r0 g0 0x8D5 0x14 [(0x30300, 0x0), (0x30301, 0x1)] = true := by decide

/-- V43. -/
theorem test_neg_ax : ends (go [0xF7, 0xD8]
    (start { r0 with ax := 0x8000 } f0 []))
    0x102 { r0 with ax := 0x8000 } g0 0x8D5 0x885 [] = true := by decide

/-- V53. -/
theorem test_or_cx_80 : ends (go [0x83, 0xC9, 0x80]
    (start { r0 with cx := 0x1 } f0 []))
    0x103 { r0 with cx := 0xFF81 } g0 0x8C5 0x84 [] = true := by decide

/-- V61. -/
theorem test_test_word_bx_0001 : ends (go [0xF7, 0x07, 0x01, 0x00]
    (start { r0 with bx := 0x10 } f0 [(0x30010, 0xFE), (0x30011, 0xFF)]))
    0x104 { r0 with bx := 0x10 } g0 0x8C5 0x44 [] = true := by decide

/-- V67. -/
theorem test_mul_word_0500 : ends (go [0xF7, 0x26, 0x00, 0x05]
    (start { r0 with ax := 0x100 } f0 [(0x30501, 0x1)]))
    0x104 { r0 with ax := 0x0, dx := 0x1 } g0 0x801 0x801 [] = true := by decide

/-- V72. -/
theorem test_imul_bx : ends (go [0xF7, 0xEB]
    (start { r0 with ax := 0x8000, bx := 0x2 } f0 []))
    0x102 { r0 with ax := 0x0, bx := 0x2, dx := 0xFFFF } g0 0x801 0x801 [] = true := by decide

/-- V77. -/
theorem test_div_bx : ends (go [0xF7, 0xF3]
    (start { r0 with dx := 0x1, ax := 0x0, bx := 0x2 } f0 []))
    0x102 { r0 with dx := 0x0, ax := 0x8000, bx := 0x2 } g0 0x0 0x0 [] = true := by decide

/-- V80. -/
theorem test_idiv_bl : ends (go [0xF6, 0xFB]
    (start { r0 with ax := 0xFFF9, bx := 0x2 } f0 []))
    0x102 { r0 with ax := 0xFFFD, bx := 0x2 } g0 0x0 0x0 [] = true := by decide

/-- V84. -/
theorem test_idiv_bl_v84 : ends (go [0xF6, 0xFB]
    (start { r0 with ax := 0xFF80, bx := 0x1 } { f0 with intf := true } [(0x1, 0x2), (0x2, 0x50)]))
    0x200 { r0 with ax := 0xFF80, bx := 0x1, sp := 0xFA } { g0 with cs := 0x50 } 0xAD5 0x0 [(0x200FA, 0x0),
      (0x200FB, 0x1), (0x200FC, 0x0), (0x200FD, 0x10), (0x200FE, 0x2), (0x200FF, 0xF2)] = true := by decide

/-- V91. -/
theorem test_daa : ends (go [0x27]
    (start { r0 with ax := 0x9A } f0 []))
    0x101 { r0 with ax := 0x0 } g0 0xD5 0x55 [] = true := by decide

/-- V95. -/
theorem test_das : ends (go [0x2F]
    (start { r0 with ax := 0xFF } f0 []))
    0x101 { r0 with ax := 0x99 } g0 0xD5 0x95 [] = true := by decide

/-- V100. -/
theorem test_aaa : ends (go [0x37]
    (start { r0 with ax := 0xFF0A } f0 []))
    0x101 { r0 with ax := 0x0 } g0 0x11 0x11 [] = true := by decide

/-- V102. -/
theorem test_aas : ends (go [0x3F]
    (start { r0 with ax := 0x3 } { f0 with af := true } []))
    0x101 { r0 with ax := 0xFF0D } g0 0x11 0x11 [] = true := by decide

/-- V103. -/
theorem test_aam : ends (go [0xD4, 0x0A]
    (start { r0 with ax := 0xFF3F } f0 []))
    0x102 { r0 with ax := 0x603 } g0 0xC4 0x4 [] = true := by decide

/-- V109. -/
theorem test_aad : ends (go [0xD5, 0x0A]
    (start { r0 with ax := 0xFFFF } f0 []))
    0x102 { r0 with ax := 0xF5 } g0 0xC4 0x84 [] = true := by decide

/-- V116. -/
theorem test_ror_al_cl : ends (go [0xD2, 0xC8]
    (start { r0 with ax := 0x1, cx := 0x11 } f0 []))
    0x102 { r0 with ax := 0x80, cx := 0x11 } g0 0xD5 0x1 [] = true := by decide

/-- V119. -/
theorem test_rcl_al_cl : ends (go [0xD2, 0xD0]
    (start { r0 with ax := 0xA5, cx := 0x9 } { f0 with cf := true } []))
    0x102 { r0 with ax := 0xA5, cx := 0x9 } g0 0xD5 0x1 [] = true := by decide

/-- V121. -/
theorem test_rcr_al_1 : ends (go [0xD0, 0xD8]
    (start { r0 with ax := 0x1 } { f0 with cf := true } []))
    0x102 { r0 with ax := 0x80 } g0 0x8D5 0x801 [] = true := by decide

/-- V128. -/
theorem test_shl_al_cl : ends (go [0xD2, 0xE0]
    (start { r0 with ax := 0xFF, cx := 0x9 } f0 []))
    0x102 { r0 with ax := 0x0, cx := 0x9 } g0 0xC5 0x44 [] = true := by decide

/-- V137. -/
theorem test_sar_ax_cl : ends (go [0xD3, 0xF8]
    (start { r0 with ax := 0x8000, cx := 0xFF } f0 []))
    0x102 { r0 with ax := 0xFFFF, cx := 0xFF } g0 0xC5 0x85 [] = true := by decide

/-- V142. -/
theorem test_mov_bl_al : ends (go [0x88, 0xC3]
    (start { r0 with ax := 0x1234 } f0 []))
    0x102 { r0 with ax := 0x1234, bx := 0x34 } g0 0x0 0x0 [] = true := by decide

/-- V156. -/
theorem test_mov_ax_bx_si_7f : ends (go [0x8B, 0x40, 0x7F]
    (start { r0 with bx := 0xFF00, si := 0xFF } f0 [(0x3007E, 0x3F), (0x3007F, 0x12)]))
    0x103 { r0 with bx := 0xFF00, si := 0xFF, ax := 0x123F } g0 0x0 0x0 [] = true := by decide

/-- V160. -/
theorem test_mov_ax_bx : ends (go [0x8B, 0x07]
    (start { r0 with bx := 0xFFFF } f0 [(0x30000, 0x12), (0x3FFFF, 0x43)]))
    0x102 { r0 with bx := 0xFFFF, ax := 0x1243 } g0 0x0 0x0 [] = true := by decide

/-- V164. -/
theorem test_mov_word_0200_abcd : ends (go [0xC7, 0x06, 0x00, 0x02, 0xCD, 0xAB]
    (start r0 f0 []))
    0x106 r0 g0 0x0 0x0 [(0x30200, 0xCD), (0x30201, 0xAB)] = true := by decide

/-- V172. -/
theorem test_mov_ffff_ax : ends (go [0xA3, 0xFF, 0xFF]
    (start { r0 with ax := 0x1122 } f0 []))
    0x103 { r0 with ax := 0x1122 } g0 0x0 0x0 [(0x30000, 0x11), (0x3FFFF, 0x22)] = true := by decide

/-- V174. -/
theorem test_mov_bx_cs : ends (go [0x8C, 0x0F]
    (start { r0 with bx := 0x90 } f0 []))
    0x102 { r0 with bx := 0x90 } g0 0x0 0x0 [(0x30090, 0x0), (0x30091, 0x10)] = true := by decide

/-- V175. -/
theorem test_mov_es_ax : ends (go [0x8E, 0xC0]
    (start { r0 with ax := 0x5000 } f0 []))
    0x102 { r0 with ax := 0x5000 } { g0 with es := 0x5000 } 0x0 0x0 [] = true := by decide

/-- V180. -/
theorem test_push_sp : ends (go [0x54]
    (start r0 f0 []))
    0x101 { r0 with sp := 0xFE } g0 0x0 0x0 [(0x200FE, 0xFE), (0x200FF, 0x0)] = true := by decide

/-- V184. -/
theorem test_push_ax : ends (go [0x50]
    (start { r0 with ax := 0x1234, sp := 0x1 } f0 []))
    0x101 { r0 with ax := 0x1234, sp := 0xFFFF } g0 0x0 0x0 [(0x20000, 0x12), (0x2FFFF, 0x34)] = true := by decide

/-- V188. -/
theorem test_pop_sp : ends (go [0x5C]
    (start r0 f0 [(0x20101, 0x30)]))
    0x101 { r0 with sp := 0x3000 } g0 0x0 0x0 [] = true := by decide

/-- V191. -/
theorem test_pop_word_00fe : ends (go [0x8F, 0x06, 0xFE, 0x00]
    (start r0 f0 [(0x20100, 0x78), (0x20101, 0x56)]))
    0x104 { r0 with sp := 0x102 } g0 0x0 0x0 [(0x300FE, 0x78), (0x300FF, 0x56)] = true := by decide

/-- V196. -/
theorem test_pushf : ends (go [0x9C]
    (start r0 { f0 with cf := true, zf := true, intf := true, ovf := true } []))
    0x101 { r0 with sp := 0xFE } g0 0x0 0x0 [(0x200FE, 0x43), (0x200FF, 0xFA)] = true := by decide

/-- V202. -/
theorem test_xchg_bx_ax : ends (go [0x87, 0x07]
    (start { r0 with ax := 0x1111, bx := 0x10 } f0 [(0x30010, 0x22), (0x30011, 0x22)]))
    0x102 { r0 with ax := 0x2222, bx := 0x10 } g0 0x0 0x0 [(0x30010, 0x11), (0x30011, 0x11)] = true := by decide

/-- V203. -/
theorem test_xchg_ax_bx : ends (go [0x93]
    (start { r0 with ax := 0x1111, bx := 0x2222 } f0 []))
    0x101 { r0 with ax := 0x2222, bx := 0x1111 } g0 0x0 0x0 [] = true := by decide

/-- V209. -/
theorem test_lds_si_bx : ends (go [0xC5, 0x37]
    (start { r0 with bx := 0x10 } f0 [(0x30010, 0x34), (0x30011, 0x12), (0x30013, 0x50)]))
    0x102 { r0 with bx := 0x10, si := 0x1234 } { g0 with ds := 0x5000 } 0x0 0x0 [] = true := by decide

/-- V211. -/
theorem test_lds_bx_bx : ends (go [0xC5, 0x1F]
    (start { r0 with bx := 0xFFFE } f0 [(0x30001, 0x50), (0x3FFFE, 0x34), (0x3FFFF, 0x12)]))
    0x102 { r0 with bx := 0x1234 } { g0 with ds := 0x5000 } 0x0 0x0 [] = true := by decide

/-- V213. -/
theorem test_xlat : ends (go [0xD7]
    (start { r0 with bx := 0xFFFF, ax := 0x2 } f0 [(0x30001, 0x66)]))
    0x101 { r0 with bx := 0xFFFF, ax := 0x66 } g0 0x0 0x0 [] = true := by decide

/-- V215. -/
theorem test_lahf : ends (go [0x9F]
    (start { r0 with ax := 0x0 }
      { f0 with sf := true, zf := true, af := true, pf := true, cf := true, ovf := true } []))
    0x101 { r0 with ax := 0xD700 } g0 0x0 0x0 [] = true := by decide

/-- V217. -/
theorem test_sahf : ends (go [0x9E]
    (start { r0 with ax := 0xFF00 } { f0 with ovf := true } []))
    0x101 { r0 with ax := 0xFF00 } g0 0x8D5 0x8D5 [] = true := by decide

/-- V225. -/
theorem test_in_al_dx : ends (go [0xEC]
    (start { r0 with dx := 0x3FD } f0 []))
    0x101 { r0 with dx := 0x3FD, ax := 0x60 } g0 0x0 0x0 [] = true := by decide

/-- V226. -/
theorem test_out_20_al : ends (go [0xE6, 0x20]
    (start { r0 with ax := 0x20 } f0 []))
    0x102 { r0 with ax := 0x20 } g0 0x0 0x0 [] = true := by decide

/-- V229. -/
theorem test_movsw : ends (go [0xA5]
    (start { r0 with si := 0x10, di := 0x20 } { f0 with df := true } [(0x30010, 0xAA), (0x30011, 0xBB)]))
    0x101 { r0 with si := 0xE, di := 0x1E } g0 0x0 0x0 [(0x40020, 0xAA), (0x40021, 0xBB)] = true := by decide

/-- V240. -/
theorem test_cmpsb : ends (go [0xA6]
    (start { r0 with si := 0x10, di := 0x20 } f0 [(0x40020, 0x1)]))
    0x101 { r0 with si := 0x11, di := 0x21 } g0 0x8D5 0x95 [] = true := by decide

/-- V243. -/
theorem test_scasb : ends (go [0xAE]
    (start { r0 with ax := 0x80, di := 0x20 } f0 [(0x40020, 0x1)]))
    0x101 { r0 with ax := 0x80, di := 0x21 } g0 0x8D5 0x810 [] = true := by decide

/-- V245. -/
theorem test_lodsb_es : ends (go [0x26, 0xAC]
    (start { r0 with si := 0x10, ax := 0xFF00 } { f0 with df := true } [(0x40010, 0x99)]))
    0x102 { r0 with si := 0xF, ax := 0xFF99 } g0 0x0 0x0 [] = true := by decide

/-- V244. -/
theorem test_lodsw : ends (go [0xAD]
    (start { r0 with si := 0x10 } f0 [(0x30010, 0x34), (0x30011, 0x12)]))
    0x101 { r0 with si := 0x12, ax := 0x1234 } g0 0x0 0x0 [] = true := by decide

/-- V247. -/
theorem test_stosb : ends (go [0xAA]
    (start { r0 with ax := 0x2A, di := 0x20 } f0 []))
    0x101 { r0 with ax := 0x2A, di := 0x21 } g0 0x0 0x0 [(0x40020, 0x2A)] = true := by decide

/-- V257. -/
theorem test_jmp_1234_5678 : ends (go [0xEA, 0x78, 0x56, 0x34, 0x12]
    (start r0 f0 []))
    0x5678 r0 { g0 with cs := 0x1234 } 0x0 0x0 [] = true := by decide

/-- V259. -/
theorem test_jmp_bx : ends (go [0xFF, 0x27]
    (start { r0 with bx := 0x10 } f0 [(0x30011, 0x5)]))
    0x500 { r0 with bx := 0x10 } g0 0x0 0x0 [] = true := by decide

/-- V260. -/
theorem test_jmp_far_bx : ends (go [0xFF, 0x2F]
    (start { r0 with bx := 0x10 } f0 [(0x30010, 0x78), (0x30011, 0x56), (0x30012, 0x34), (0x30013, 0x12)]))
    0x5678 { r0 with bx := 0x10 } { g0 with cs := 0x1234 } 0x0 0x0 [] = true := by decide

/-- V264. -/
theorem test_call_1234_5678 : ends (go [0x9A, 0x78, 0x56, 0x34, 0x12]
    (start r0 f0 []))
    0x5678 { r0 with sp := 0xFC } { g0 with cs := 0x1234 } 0x0 0x0 [(0x200FC, 0x5), (0x200FD, 0x1), (0x200FE, 0x0),
      (0x200FF, 0x10)] = true := by decide

/-- V268. -/
theorem test_call_far_bx : ends (go [0xFF, 0x1F]
    (start { r0 with bx := 0x10 } f0 [(0x30010, 0x78), (0x30011, 0x56), (0x30012, 0x34), (0x30013, 0x12)]))
    0x5678 { r0 with bx := 0x10, sp := 0xFC } { g0 with cs := 0x1234 } 0x0 0x0 [(0x200FC, 0x2), (0x200FD, 0x1),
      (0x200FE, 0x0), (0x200FF, 0x10)] = true := by decide

/-- V271. -/
theorem test_ret_ffff : ends (go [0xC2, 0xFF, 0xFF]
    (start r0 f0 [(0x20100, 0x34), (0x20101, 0x12)]))
    0x1234 { r0 with sp := 0x101 } g0 0x0 0x0 [] = true := by decide

/-- V273. -/
theorem test_retf_2 : ends (go [0xCA, 0x02, 0x00]
    (start r0 f0 [(0x20100, 0x78), (0x20101, 0x56), (0x20102, 0x34), (0x20103, 0x12)]))
    0x5678 { r0 with sp := 0x106 } { g0 with cs := 0x1234 } 0x0 0x0 [] = true := by decide

/-- V275. -/
theorem test_jz_4 : ends (go [0x74, 0xFC]
    (start r0 { f0 with zf := true } []))
    0xFE r0 g0 0x0 0x0 [] = true := by decide

/-- V281. -/
theorem test_loop_2 : ends (go [0xE2, 0xFE]
    (start { r0 with cx := 0x0 } f0 []))
    0x100 { r0 with cx := 0xFFFF } g0 0x0 0x0 [] = true := by decide

/-- V284. -/
theorem test_loopz_10 : ends (go [0xE1, 0x10]
    (start { r0 with cx := 0x2 } f0 []))
    0x102 { r0 with cx := 0x1 } g0 0x0 0x0 [] = true := by decide

/-- V286. -/
theorem test_loopnz_10 : ends (go [0xE0, 0x10]
    (start { r0 with cx := 0x2 } f0 []))
    0x112 { r0 with cx := 0x1 } g0 0x0 0x0 [] = true := by decide

/-- V288. -/
theorem test_jcxz_10 : ends (go [0xE3, 0x10]
    (start { r0 with cx := 0x0 } f0 []))
    0x112 { r0 with cx := 0x0 } g0 0x0 0x0 [] = true := by decide

/-- V290. -/
theorem test_int_21 : ends (go [0xCD, 0x21]
    (start r0 { f0 with intf := true, cf := true, df := true } [(0xD, 0x3), (0xE, 0x60), (0x11, 0x4), (0x12, 0x60),
      (0x84, 0x21), (0x86, 0x70)]))
    0x21 { r0 with sp := 0xFA } { g0 with cs := 0x70 } 0x200 0x0 [(0x200FA, 0x2), (0x200FB, 0x1), (0x200FC, 0x0),
      (0x200FD, 0x10), (0x200FE, 0x3), (0x200FF, 0xF6)] = true := by decide

/-- V291. -/
theorem test_int3 : ends (go [0xCC]
    (start r0 { f0 with intf := true } [(0xD, 0x3), (0xE, 0x60), (0x11, 0x4), (0x12, 0x60), (0x84, 0x21), (0x86,
      0x70)]))
    0x300 { r0 with sp := 0xFA } { g0 with cs := 0x60 } 0x200 0x0 [(0x200FA, 0x1), (0x200FB, 0x1), (0x200FC, 0x0),
      (0x200FD, 0x10), (0x200FE, 0x2), (0x200FF, 0xF2)] = true := by decide

/-- V293. -/
theorem test_into : ends (go [0xCE]
    (start r0 { f0 with ovf := true } [(0xD, 0x3), (0xE, 0x60), (0x11, 0x4), (0x12, 0x60), (0x84, 0x21), (0x86, 0x70)]))
    0x400 { r0 with sp := 0xFA } { g0 with cs := 0x60 } 0x0 0x0 [(0x200FA, 0x1), (0x200FB, 0x1), (0x200FC, 0x0),
      (0x200FD, 0x10), (0x200FE, 0x2), (0x200FF, 0xF8)] = true := by decide

/-- V296. -/
theorem test_iret : ends (go [0xCF]
    (start r0 f0 [(0x20100, 0x2), (0x20101, 0x1), (0x20103, 0x10), (0x20104, 0x3), (0x20105, 0xF6)]))
    0x102 { r0 with sp := 0x106 } g0 0xED5 0x601 [] = true := by decide

/-- V306. -/
theorem test_hlt : ends (go [0xF4]
    (start r0 { f0 with intf := true } []))
    0x101 r0 g0 0x0 0x0 [] = true := by decide

/-- V308. -/
theorem test_nop : ends (go [0x90]
    (start { r0 with ax := 0x1234 } f0 []))
    0x101 { r0 with ax := 0x1234 } g0 0x0 0x0 [] = true := by decide

/-- V309. -/
theorem test_wait : ends (go [0x9B]
    (start r0 f0 []))
    0x101 r0 g0 0x0 0x0 [] = true := by decide

/-- V310. -/
theorem test_esc_1_0200 : ends (go [0xD9, 0x06, 0x00, 0x02]
    (start r0 f0 [(0x30200, 0x11), (0x30201, 0x22)]))
    0x104 r0 g0 0x0 0x0 [] = true := by decide

/-- V312. -/
theorem test_lock_xchg_0200_al : ends (go [0xF0, 0x86, 0x06, 0x00, 0x02]
    (start { r0 with ax := 0x1 } f0 []))
    0x105 { r0 with ax := 0x0 } g0 0x0 0x0 [(0x30200, 0x1)] = true := by decide

/-- V76. -/
theorem test_div_bl : ends (go [0xF6, 0xF3]
    (start { r0 with ax := 0x100, bx := 0x1 } { f0 with intf := true, cf := true, zf := true } [(0x1, 0x2), (0x2,
      0x50)]))
    0x200 { r0 with ax := 0x100, bx := 0x1, sp := 0xFA } { g0 with cs := 0x50 } 0xAD5 0x41 [(0x200FA, 0x0),
      (0x200FB, 0x1), (0x200FC, 0x0), (0x200FD, 0x10), (0x200FE, 0x43), (0x200FF, 0xF2)] = true := by decide

/-! ### Rules that the vectors of that file do not show, or not for this value of a parameter -/

/-- 42_shift_rotate.md R258: FE, F0 with `P_UNDOC = execute`. -/
theorem test_setmo : ends (go [0xD0, 0xF0] (start { r0 with ax := 0x12 } f0 []))
    0x102 { r0 with ax := 0xFF } g0 0x8C5 0x84 [] = true := by decide

/-- 46_processor_control.md R404. -/
theorem test_salc : ends (go [0xD6] (start { r0 with ax := 0x1234 } { f0 with cf := true } []))
    0x101 { r0 with ax := 0x12FF } g0 0x1 0x1 [] = true := by decide

/-- 46_processor_control.md R405: POP CS leaves the queue; the next byte comes from the new CS. -/
theorem test_pop_cs : ends (go [0x0F] (start r0 f0 [(0x20101, 0x70)]))
    0x101 { r0 with sp := 0x102 } { g0 with cs := 0x7000 } 0 0 [] = true := by decide

/-- 46_processor_control.md R406, R407. -/
theorem test_aliases : ends (go [0x64, 0x10] (start r0 { f0 with zf := true } [])) 0x112 r0 g0 0 0 [] = true ∧
    ends (go [0xC1] (start r0 f0 [(0x20100, 0x34), (0x20101,
      0x12)])) 0x1234 { r0 with sp := 0x102 } g0 0 0 [] = true := by
  decide

/-- 46_processor_control.md R411, R413: no semantics under either value of `P_UNDOC`; the address is that of the first
prefix. -/
theorem test_no_semantics : faults (go [0xF0, 0xFE, 0xD0] (start r0 f0 [])) (.instructionDecodeError 0x10100) = true ∧
    faults (go [0xFF, 0xEB] (start r0 f0 [])) (.instructionDecodeError 0x10100) = true := by decide

/-- 41_muldiv_bcd.md R231. -/
theorem test_rep_div : faults (go [0xF3, 0xF6, 0xF3] (start r0 f0 [])) (.instructionDecodeError 0x10100) = true := by
  decide

/-- 60_exceptions.md R471. -/
theorem test_hlt_disabled : faults (go [0xF4] (start r0 f0 [])) (.cpuHaltedError 0x10100) = true := by decide

/-- 95_test_vectors.md V4, first step: the repetition stays, IP reads `last_ip` and the result is OkayRep. -/
theorem test_rep_movsb : shows (go [0xF3, 0xA4] (start { r0 with cx := 5, si := 0x10, di := 0x20 } f0 [(0x30010,
  0x11)]))
    (fun t => t.cpu.result == .okayRep && t.ip == 0x100 && t.reg16 .cx == 4 && t.byteAt 0x40020 == 0x11) = true :=
      by decide

/-- 95_test_vectors.md V241, last step: REPNE SCASB ends on a match. -/
theorem test_repne_scasb : shows (go [0xF2, 0xAE] (start { r0 with cx := 7, di := 0x20 } f0 []))
    (fun t => t.cpu.result == .okay && t.ip == 0x102 && t.reg16 .cx == 6 && t.cpu.flags.zf) = true := by decide

/-- 60_exceptions.md R449: the trap is taken after the instruction, with TF in the pushed FLAGS. -/
theorem test_trap : ends (go [0x40] (start r0 { f0 with tf := true } [(5, 2), (6, 0x50)]))
    0x200 { r0 with ax := 1, sp := 0xFA } { g0 with cs := 0x50 } 0x300 0 [(0x200FA, 1), (0x200FB, 1), (0x200FF, 0xF1)]
    = true := by decide

/-- A state whose PIC requests level 0 and whose vector 8 is 0060:0300. -/
def requested (s : State) : State :=
  { s with board := { s.board with pic := { s.board.pic with irr := 1, imr := 0 },
                                   mem := s.board.mem ++ bytes [(0x21, 3), (0x22, 0x60)] } }

/-- 60_exceptions.md R448, R451: STI holds the sampling off for one boundary. -/
theorem test_sti_inhibits : shows (go [0xFB] (requested (start r0 f0 []))) (fun t => t.ip == 0x101) = true ∧
    shows (go [0x90] (requested (start r0 { f0 with intf := true } [])))
      (fun t => t.ip == 0x300 && t.sreg .cs == 0x60 && t.board.pic.isr == 1 && t.board.pic.irr == 0) = true := by decide

/-- 20_memory.md R81: a store to ROM is dropped. -/
theorem test_rom_store : shows (go [0xC6, 0x07, 0x5A]
      { start { r0 with bx := 0x10 } f0 [(0x30010, 0x77)] with
        board := { (start { r0 with bx := 0x10 } f0 [(0x30010, 0x77)]).board with
          mask := [(0x30010, { MaskFlags.clear with rom := true })] } })
    (fun t => t.byteAt 0x30010 == 0x77) = true := by decide

/-- 60_exceptions.md R484, R487: a non-specific end of interrupt at port 20. -/
theorem test_eoi : shows (go [0xE6, 0x20] { start { r0 with ax := 0x20 } f0 [] with
      board := { (start r0 f0 []).board with pic := { Pic.reset with isr := 0x12 } } })
    (fun t => t.board.pic.isr == 0x10) = true := by decide

/-- 95_test_vectors.md scenario 6, request 16: the terminal count. -/
theorem test_dma_terminal_count :
    (let c : DmaChannel := { DmaChannel.reset with xfer := .writeToMem, service := .single, page := 1, curAddr := 0xF,
                                                   baseCount := 0xF, masked := false }
     let b := ({ State.reset.board with dma := Dma.reset.set 2 c }).dmaTransfer 2 0xF
     Memory.read b.mem 0x1000F == 0xF && (b.dma.get 2).curCount == 0xFFFF && (b.dma.get 2).tc && (b.dma.get
       2).tcLatched &&
       (b.dmaTransfer 2 0x10) == b) = true := by decide

/-- 60_exceptions.md R512, R513: a sector written is read back (R510: N = 0 is 128 bytes). -/
theorem test_floppy_round_trip :
    (let sector : Sector := ⟨0, 0, 1, 0, [], false, true, false⟩
     let d : Drive := { Drive.resetWith .k360 (some ⟨[⟨0, 0, [sector]⟩]⟩) with motorOn := true, ready := true }
     let data : List Byte := List.replicate 127 7 ++ [9]
     match d.run (.writeData 0 0 1 0 1 data) with
     | some e =>
       match e.run (.readData 0 0 1 0 1 false false) with
       | some r => r.buffer == data && r.result.sectorsDone == 1 && !r.result.notFound && !r.status.dataCrcError &&
           r.sector == 2
       | none => false
     | none => false) = true := by decide

/-- 70_reset_and_hazards.md R560: the ROM image is in memory and ROM-locked. -/
theorem test_reset_rom : (State.resetWith { Params.initial with romImage := [(0xFFFF0, 0xEA)] }).byteAt 0xFFFF0 =
  0xEA := by
  decide

/-- 30_encoding.md R144, R162: CMP byte [BX], 5 reads its operand before its immediate byte is taken. -/
theorem test_operand_before_immediate : shows (go [0x80, 0x3F, 0x05] (start { r0 with bx := 0x10 } f0 [(0x30010, 5)]))
    (fun t => t.cpu.flags.zf && t.board.bus.status == .codeFetch && t.board.bus.address == 0x10102) = true := by decide

/-- 70_reset_and_hazards.md R572: four bytes of the old code segment can be queued when MOV CS,AX executes. -/
theorem test_prefetch_before_mov_cs :
    (let s := placed [0x8E, 0xC8, 1, 2, 3, 4] (start { r0 with ax := 0x7000 } f0 [])
     shows (step { s with board := { s.board with slots := [[], [], [.prefetch, .prefetch, .prefetch, .prefetch]] } })
       (fun t => t.sreg .cs == 0x7000 && t.board.queue == [1, 2, 3, 4] && t.ip == 0x102)) = true := by decide

/-- The instruction runs with these slots and a request on DMA channel 1, whose count is 5: the count after the step. -/
def dmaCount (code : List Byte) (s : State) (evs : List (List BusEvent)) (k : Word) : Bool :=
  let c : DmaChannel := { DmaChannel.reset with masked := false, request := true, curCount := 5 }
  shows (step { placed code s with board := { (placed code s).board with dma := Dma.reset.set 1 c, slots := evs } })
    (fun t => (t.board.dma.get 1).curCount == k && !t.board.locked)

/-- 46_processor_control.md R400: between F0 and the next instruction byte, and before NOP executes, DMA is held off; at the
boundary after it, and before its first byte, it is served. -/
theorem test_lock_holds_dma :
    (dmaCount [0xF0, 0x90] (start r0 f0 []) [[], [.dmaRun 0 0], [.dmaRun 0 0]] 5 &&
      dmaCount [0xF0, 0x90] (start r0 f0 []) [[], [], [], [.dmaRun 0 0]] 4 &&
      dmaCount [0xF0, 0x90] (start r0 f0 []) [[.dmaRun 0 0]] 4) = true := by decide

/-- 20_memory.md R103: the fetch of a prefix before F0 is the first bus cycle of the LOCKed instruction. -/
theorem test_lock_holds_dma_before_its_prefix :
    (dmaCount [0x26, 0xF0, 0x90] (start r0 f0 []) [[], [.dmaRun 0 0]] 5 &&
      dmaCount [0x26, 0x3E, 0x90] (start r0 f0 []) [[], [.dmaRun 0 0]] 4) = true := by decide

/-- 20_memory.md R103: a DMA step that would write F0 behind the prefix 26 would fall inside the LOCKed instruction it makes,
so it does not occur; one that writes 3E, or that overwrites an F0 by 90, falls inside an instruction without LOCK. -/
theorem test_dma_writes_no_lock :
    (let c : DmaChannel :=
       { DmaChannel.reset with masked := false, request := true, xfer := .writeToMem, curAddr := 0x101, page := 1,
                               curCount := 5 }
     let dma (code : List Byte) (v : Byte) (k : Word) (b : Byte) : Bool :=
       let s := placed code (start r0 f0 [])
       shows (step { s with board := { s.board with dma := Dma.reset.set 1 c, slots := [[], [.dmaRun 0 v]] } })
         (fun t => (t.board.dma.get 1).curCount == k && t.byteAt (phys (s.sreg .cs) 0x101) == b)
     dma [0x26, 0x90, 0x90] 0xF0 5 0x90 && dma [0x26, 0x90, 0x90] 0x3E 4 0x3E &&
       dma [0x26, 0xF0, 0x90] 0x90 4 0x90) = true := by decide

/-- 44_string.md R328: `LOCK REP STOSB` holds DMA off before its first element and lets it in after it. -/
theorem test_lock_iteration :
    (dmaCount [0xF0, 0xF3, 0xAA] (start { r0 with cx := 2 } f0 []) [[], [], [], [], [.dmaRun 0 0]] 5 &&
      dmaCount [0xF0, 0xF3, 0xAA] (start { r0 with cx := 2 } f0 []) [[], [], [], [], [], [.dmaRun 0 0]] 4) = true := by
  decide

/-- 60_exceptions.md R498, 93_implementation_defined.md section 7: no transfer for a request by software alone; a request that a
device made before is served. -/
theorem test_software_request_refused :
    (let c : DmaChannel := { DmaChannel.reset with masked := false, xfer := .writeToMem }
     let s := placed [0xE6, 0x09] (start { r0 with ax := 0x0006 } f0 [])
     let run (asked : Bool) : Out := step { s with board := { s.board with
       dma := Dma.reset.set 2 { c with request := asked }, slots := [[], [], [], [], [.dmaRun 0 7]] } }
     refuses (run false) .dmaSoftwareRequest && shows (run true) (fun t => t.byteAt 0 == 7)) = true := by decide

/-- 60_exceptions.md R548, 93_implementation_defined.md section 3: a port of two devices is refused, or the last one's. -/
theorem test_shared_port :
    (let s := placed [0xE4, 0x20] (start r0 f0 [])
     let run (c : PortClash) : Out :=
       step { s with board := { s.board with params := { s.board.params with uartBase := 0x1B, portClash := c } } }
     refuses (run .refuse) (.sharedPort 0x20) && shows (run .lastWins) (fun t => t.reg8 .ax == 0x60)) = true := by decide

/-- A 360K drive that is ready, with the last sector of a track. -/
def spinning : Drive :=
  { Drive.resetWith .k360 (some ⟨[⟨0, 0, [Sector.blank 0 0 9 0]⟩]⟩) with motorOn := true, ready := true }

/-- 60_exceptions.md R480, R489, 00_scope.md R7: a floppy command that completes requests IRQ6, here between two bus
cycles of an instruction. -/
theorem test_floppy_interrupt :
    (let s := placed [0x90] (start r0 f0 [])
     shows (step { s with board := { s.board with driveA := spinning, slots := [[], [.floppy .a (.seek 3)]] } })
       (fun t => t.board.pic.irr == 0x40 && t.board.driveA.cyl == 3)) = true := by decide

/-- 93_implementation_defined.md section 7: no operation on a drive without an image, ready or not; a fault in the step
does not hide it. -/
theorem test_floppy_without_image :
    (let s := placed [0xF4] (start r0 f0 [])
     refuses (step { s with board := { s.board with slots := [[.floppy .b (.seek 3)]] } }) .floppyNoImage) = true := by
  decide

/-- 70_reset_and_hazards.md R590: `copy_from` is a move before the first step only. 20_memory.md R85: a byte beyond the end
of memory is an error. -/
theorem test_copy_from :
    (let s := placed [0x90] (start r0 f0 [])
     let load := [[HostAction.copyFrom [1, 2] 0xFFFFF false]]
     refuses (step { s with started := true, inputs := load }) .copyFromRunning &&
       shows (step { s with inputs := load })
         (fun t => t.byteAt 0xFFFFF == 1 && t.board.events == [.writeOutOfBounds 0x100000])) = true := by decide

/-- 20_memory.md R83: `peek_u16` gives what the two reads give, MMIO bytes too. -/
theorem test_peek_word :
    (let b := { State.reset.board with mask := [(0, { MaskFlags.clear with mmio := true }),
                                                (1, { MaskFlags.clear with mmio := true })] }
     b.peek16 0 0 = mkWord (Config.freeByte 0) (Config.freeByte 1) ∧ b.peek16 0 0 = (b.rd16 0 0 0).1) := ⟨rfl, rfl⟩

/-- 60_exceptions.md R511: a 360K disk in the standard format holds 40 cylinders of 2 heads of 9 sectors. -/
theorem test_standard_disk : (DriveKind.standardDisk .k360 0xF6).count = 720 := by decide

/-- 30_encoding.md R131: an attempt that takes too few of the prefixes leaves the machine as it was; a later step runs the
instruction. -/
theorem test_prefixes_go_on :
    (let s := placed [0x26, 0x2E, 0xF3, 0xA4] (start { r0 with cx := 5, si := 0x10, di := 0x20 } f0 [(0x10010, 0x11)])
     let again : State := { s with cpu := { s.cpu with attempts := 1 } }
     shows (s.attempt 2) (fun t => t == again) && shows (s.attempt 3) (fun t => t.cpu.inRep) &&
       shows (step again) (fun t => t.cpu.inRep && t.ip == 0x100 && t.reg16 .cx == 4 && t.byteAt 0x40020 == 0x11 &&
         t.cpu.attempts == 0)) = true := by decide

/-- The step decodes the bytes that `withFetchWord` places (log 14). -/
theorem test_fetch_word : decodeTableWord 16 0x01D8 = some (.add (.rmReg .word (.reg .ax) .bx)) ∧
    shows (step (State.reset.withFetchWord 16 0x01D8)) (fun t => t.ip == 2 && t.cpu.flags.zf) = true := by decide

/-! ### Witnesses -/

/-- The start state with operands at the ends of their ranges: DS:BX is DS:FFFF, so that a word wraps in its segment. -/
def w : State := start { r0 with ax := 0xFF81, cx := 1, bx := 0xFFFF, si := 0xFFFF, di := 0xFFFF } f0 [(0x3FFFF, 1)]

theorem w_calm : w.Calm := ⟨rfl, by decide⟩

theorem witness_DecodeOfEncode : Instr.wf (.movRmImm16 7 (.mem (.disp16 .bp 0xFFFF)) 0xFFFF) = true := by decide

theorem witness_EncodeOfDecode : decode [0x8F, 0xFF, 0x00] = .ok (.popRm 7 (.reg .di), [0x00]) := rfl

theorem witness_EncodingLengths :
    Instr.wf (.movRmImm16 0 (.mem (.direct 0)) 0) = true ∧ (Instr.wf .lockAlias = true ∧ isPrefix .lockAlias = true) ∧
      6 ≤ [(0xFF : Byte), 0xFF, 0xFF, 0xFF, 0xFF, 0xFF].length := by decide

theorem witness_ResetMemory : 0 < memSize ∧ 0xFFFFF < memSize := by decide

/-- Three states ready for an instruction: all bytes in memory, some in the queue, all in the queue. -/
def code (s : State) (queue : List Byte) (rest : List Byte) : State :=
  { placed rest s with board := { (placed rest s).board with queue := queue } }

theorem placed_described (r : List Byte) (s : State) (h : s.board.undescribed = none) :
    (placed r s).board.undescribed = none := by
  have all (bs : List Byte) : ∀ (ip : Word) (b : Board), (placeBytes 0x1000 bs ip b).undescribed = b.undescribed := by
    induction bs with
    | nil => exact fun _ _ => rfl
    | cons v rest ih => exact fun ip b => ih (ip + 1) _
  exact (all r 0x100 s.board).trans h

theorem code_ready (q r : List Byte) (h : (code w q r).codeMask = MaskFlags.clear) : (code w q r).Ready :=
  ⟨rfl, rfl, rfl, rfl, by rw [h]; rfl, by rw [h]; rfl, rfl, placed_described _ _ rfl⟩

/-- The last conjuncts: a form whose operand is loaded before its immediate bytes, from readable memory. -/
theorem witness_StepRunsDecoded :
    ((code w [] [0x8B, 0x07]).Ready ∧ (code w [] [0x8B, 0x07]).Quiet ∧
      (code w [] [0x8B, 0x07]).Fetches (encode (.movRegRm .word .ax (.mem (.noDisp .bx))))) ∧
    ((code w [0x8B] [0x07]).Ready ∧ (code w [0x8B] [0x07]).Quiet ∧
      (code w [0x8B] [0x07]).Fetches (encode (.movRegRm .word .ax (.mem (.noDisp .bx))))) ∧
    (Instr.wf (.movRegRm .word .ax (.mem (.noDisp .bx))) = true ∧
      isPrefix (.movRegRm .word .ax (.mem (.noDisp .bx))) = false ∧
      admits w.board.params.undoc .none (.movRegRm .word .ax (.mem (.noDisp .bx))) = true) ∧
    ((code w [0x83] [0x07, 0xFF]).Ready ∧ (code w [0x83] [0x07, 0xFF]).Quiet ∧
      (code w [0x83] [0x07, 0xFF]).Fetches (encode (.add (.rmImm8Sext (.mem (.noDisp .bx)) 0xFF))) ∧
      (Instr.add (.rmImm8Sext (.mem (.noDisp .bx)) 0xFF)).memImm = some (.word, .noDisp .bx) ∧
      (code w [0x83] [0x07, 0xFF]).readable (byteAddrs .word (w.sreg .ds) (w.ea (.noDisp .bx))) = true) := by
  refine ⟨⟨code_ready _ _ (by decide), rfl, ?_⟩, ⟨code_ready _ _ (by decide), rfl, ?_⟩, by decide,
    ⟨code_ready _ _ (by decide), rfl, ?_, by decide, by decide⟩⟩ <;>
    (unfold State.Fetches; decide)

theorem witness_StepRunsPrefixed :
    ((code w [0x26] [0xF3, 0xA4]).Ready ∧ (code w [0x26] [0xF3, 0xA4]).Quiet ∧
      (code w [0x26] [0xF3, 0xA4]).Fetches ([Instr.segEs, .rep].flatMap encode ++ encode .movsb)) ∧
    [Instr.segEs, .rep].length < State.prefixFuel ∧
    (∀ p ∈ [Instr.segEs, .rep], isPrefix p = true ∧ admits w.board.params.undoc .none p = true) ∧
    Instr.wf .movsb = true ∧ isPrefix .movsb = false ∧
    admits w.board.params.undoc ([Instr.segEs, .rep].foldl Prefixes.after .none) .movsb = true := by
  refine ⟨⟨code_ready _ _ (by decide), rfl, ?_⟩, by decide, by decide, by decide, by decide, by decide⟩
  unfold State.Fetches; decide

/-- The same under `P_UNDOC = fault`. -/
def strict (s : State) : State :=
  { s with board := { s.board with params := { s.board.params with undoc := .fault } } }

theorem strict_ready (r : List Byte) (h : (strict (code w [] r)).codeMask = MaskFlags.clear) :
    (strict (code w [] r)).Ready :=
  ⟨rfl, rfl, rfl, rfl, by rw [h]; rfl, by rw [h]; rfl, rfl, placed_described _ _ rfl⟩

/-- An undocumented instruction, the prefix byte F1, an encoding without semantics, REPNE DIV, REP NOP. -/
theorem witness_RefusedEncodingsFault :
    ((strict (code w [] [0xD6])).Ready ∧ (strict (code w [] [0xD6])).Quiet ∧
      (strict (code w [] [0xD6])).Fetches (encode .salc) ∧
      (strict (code w [] [0xD6])).board.params.undoc = .fault ∧ Instr.undocumented .salc = true) ∧
    ((strict (code w [] [0xF2, 0xF1])).Ready ∧ (strict (code w [] [0xF2, 0xF1])).Quiet ∧
      (strict (code w [] [0xF2, 0xF1])).Fetches ([Instr.repnz].flatMap encode ++ encode .lockAlias) ∧
      (strict (code w [] [0xF2, 0xF1])).board.params.undoc = .fault ∧ Instr.undocumented .lockAlias = true ∧
      admits .fault .none .repnz = true) ∧
    ((code w [] [0xFE, 0xF8]).Ready ∧ (code w [] [0xFE, 0xF8]).Quiet ∧
      (code w [] [0xFE, 0xF8]).Fetches (encode (.fe7 (.reg .ax))) ∧ lacksSemantics (.fe7 (.reg .ax)) = true) ∧
    ((code w [] [0xF2, 0xF6, 0xF3]).Ready ∧ (code w [] [0xF2, 0xF6, 0xF3]).Quiet ∧
      (code w [] [0xF2, 0xF6, 0xF3]).Fetches ([Instr.repnz].flatMap encode ++ encode (.div .byte (.reg .bx))) ∧
      ([Instr.repnz].foldl Prefixes.after .none).rep.isSome = true ∧ isMulDiv (.div .byte (.reg .bx)) = true) ∧
    ((strict (code w [] [0xF3, 0x90])).Ready ∧ (strict (code w [] [0xF3, 0x90])).Quiet ∧
      (strict (code w [] [0xF3, 0x90])).Fetches ([Instr.rep].flatMap encode ++ encode .nop) ∧
      ([Instr.rep].foldl Prefixes.after .none).rep.isSome = true ∧ isString .nop = false ∧ isPrefix .nop = false) := by
  refine ⟨⟨strict_ready _ (by decide), rfl, ?_, rfl, rfl⟩, ⟨strict_ready _ (by decide), rfl, ?_, rfl, rfl, rfl⟩,
    ⟨code_ready _ _ (by decide), rfl, ?_, rfl⟩, ⟨code_ready _ _ (by decide), rfl, ?_, rfl, rfl⟩,
    ⟨strict_ready _ (by decide), rfl, ?_, rfl, rfl, rfl⟩⟩ <;>
    (unfold State.Fetches; decide)

/-- `n` cells of one value from an address on. -/
def filled (v : Byte) : Nat → Nat → List Host.Cell
  | 0, _ => []
  | n + 1, a => (a, v) :: filled v n (a + 1)

theorem filled_read (v : Byte) : ∀ n a x, a ≤ x → x < a + n → Memory.read (filled v n a) x = v
  | 0, _, _, h, k => by omega
  | n + 1, a, x, h, k => by
    by_cases e : a = x
    · simp [filled, Memory.read, Sparse.read, e]
    · have := filled_read v n (a + 1) x (by omega) (by omega)
      simpa [filled, Memory.read, Sparse.read, e] using this

/-- 65536 bytes 26h from 1000:0000 on, the first four queued; then, at 1000:0000 again, `v`. -/
def longPrefixed (v : Byte) : State :=
  { w with board := { w.board with pc := 4, queue := [0x26, 0x26, 0x26, 0x26],
                                   mem := (0x10000, v) :: filled 0x26 65535 0x10001 } }

theorem longPrefixed_ready (v : Byte) : (longPrefixed v).Ready := ⟨rfl, rfl, rfl, rfl, rfl, rfl, rfl, rfl⟩

theorem replicate_get (x v : Byte) (n k : Nat) (h : k ≤ n) :
    (List.replicate n x ++ [v])[k]? = some (if k < n then x else v) := by
  split
  next l => rw [List.getElem?_append_left (by simpa using l), List.getElem?_replicate, if_pos l]
  next l =>
    obtain rfl : k = n := by omega
    rw [List.getElem?_append_right (by simp)]
    simp

theorem overrides_encode (n : Nat) : (List.replicate n Instr.segEs).flatMap encode = List.replicate n 0x26 := by
  induction n with
  | zero => rfl
  | succ n ih => rw [List.replicate_succ, List.flatMap_cons, ih]; rfl

theorem longPrefixed_byte (v : Byte) (k : Nat) (h : k ≤ 65536) :
    (longPrefixed v).codeByte k = if k < 65536 then 0x26 else v := by
  rcases Nat.lt_or_ge k 4 with q | q
  · rw [if_pos (by omega)]
    have : k = 0 ∨ k = 1 ∨ k = 2 ∨ k = 3 := by omega
    rcases this with rfl | rfl | rfl | rfl <;> rfl
  · have far : (longPrefixed v).board.queue[k]? = none := List.getElem?_eq_none q
    have a : phys 0x1000 ((4 : Word) - 4 + BitVec.ofNat 16 k) = 0x10000 + k % 65536 := by
      simp [phys, memSize]; omega
    have c : (longPrefixed v).codeByte k =
        Memory.read ((0x10000, v) :: filled 0x26 65535 0x10001) (phys 0x1000 ((4 : Word) - 4 + BitVec.ofNat 16 k)) := by
      rw [State.codeByte, far]; rfl
    rw [c, a, Memory.read, Sparse.read]
    split
    next l => rw [if_neg (by omega)]
    next l =>
      rw [if_pos (by omega)]
      exact filled_read 0x26 65535 0x10001 _ (by omega) (by omega)

theorem longPrefixed_fetches (v : Byte) :
    (longPrefixed v).Fetches ((List.replicate 65536 Instr.segEs).flatMap encode ++ [v]) := by
  rw [overrides_encode]
  intro k h
  rw [List.length_append, List.length_replicate, List.length_singleton] at h
  rw [replicate_get _ _ _ _ (by omega), longPrefixed_byte v k (by omega)]
  exact ⟨rfl, fun _ => rfl⟩

/-- As many prefixes as take a second step: 65536 overrides before NOP, and before SALC where it is not admitted. -/
theorem witness_prefixes_past_one_step :
    (List.replicate 65536 Instr.segEs).length / State.prefixFuel = 1 ∧
    (∀ p ∈ List.replicate 65536 Instr.segEs, isPrefix p = true ∧ (∀ u, admits u .none p = true)) ∧
    ((longPrefixed 0x90).Ready ∧ (longPrefixed 0x90).Quiet ∧
      (longPrefixed 0x90).Fetches ((List.replicate 65536 Instr.segEs).flatMap encode ++ encode .nop) ∧
      admits .execute ((List.replicate 65536 Instr.segEs).foldl Prefixes.after .none) .nop = true) ∧
    ((strict (longPrefixed 0xD6)).Ready ∧ (strict (longPrefixed 0xD6)).Quiet ∧
      (strict (longPrefixed 0xD6)).Fetches ((List.replicate 65536 Instr.segEs).flatMap encode ++ encode .salc) ∧
      (strict (longPrefixed 0xD6)).board.params.undoc = .fault ∧ Instr.undocumented .salc = true) := by
  refine ⟨by rw [List.length_replicate]; rfl, fun p h => ?_, ⟨longPrefixed_ready _, rfl, longPrefixed_fetches _, ?_⟩,
    ⟨rfl, rfl, rfl, rfl, rfl, rfl, rfl, rfl⟩, rfl, longPrefixed_fetches _, rfl, rfl⟩
  · rw [List.eq_of_mem_replicate h]; exact ⟨rfl, fun u => by cases u <;> rfl⟩
  · have all (n : Nat) : (List.replicate n Instr.segEs).foldl Prefixes.after ⟨some .es, none, false⟩ =
        ⟨some .es, none, false⟩ := by
      induction n with
      | zero => rfl
      | succ n ih => rw [List.replicate_succ, List.foldl_cons]; exact ih
    rw [show (65536 : Nat) = 65535 + 1 from rfl, List.replicate_succ, List.foldl_cons]
    rw [show Prefixes.after .none .segEs = ⟨some .es, none, false⟩ from rfl, all]
    rfl

/-- A suspended `REP STOSB` with CX = 3. -/
def suspended : State :=
  { start { r0 with cx := 3 } f0 [] with
    cpu := { (start { r0 with cx := 3 } f0 []).cpu with
      inRep := true, decoded := some ⟨.stosb, ⟨none, some .repz, false⟩, 2, false⟩ } }

theorem witness_SuspendedStepFetchesNothing :
    suspended.cpu.error = none ∧ suspended.cpu.halted = false ∧ suspended.cpu.inRep = true ∧
      suspended.cpu.decoded = some ⟨.stosb, ⟨none, some .repz, false⟩, 2, false⟩ ∧ suspended.cpu.attempts = 0 ∧
      suspended.inputs.headD [] = [] :=
  ⟨rfl, rfl, rfl, rfl, rfl, rfl⟩

/-- The start state with interrupts enabled, halted, and with or without a request of each kind. -/
def waiting (halted nmi irq trap : Bool) : State :=
  let s := start r0 { f0 with intf := true } []
  { s with cpu := { s.cpu with halted := halted, nmiLatch := nmi, trapArmed := trap },
           board := { s.board with pic := { s.board.pic with irr := if irq then 1 else 0, imr := 0 } } }

theorem waiting_calm (h n i t : Bool) : (waiting h n i t).Calm := ⟨rfl, rfl⟩

theorem witness_HaltedStep :
    ((waiting true false false false).cpu.error = none ∧ (waiting true false false false).cpu.halted = true ∧
      (waiting true false false false).cpu.inRep = false ∧ (waiting true false false false).cpu.flags.tf = false ∧
      (waiting true false false false).cpu.attempts = 0 ∧ (waiting true false false false).board.undescribed = none ∧
      (waiting true false false false).inputs.headD [] = [] ∧ (waiting true false false false).Calm ∧
      ((waiting true false false false).cpu.flags.intf && (waiting true false false false).board.pic.query) = false) ∧
    ((waiting true true false false).Calm ∧ (waiting true true false false).cpu.nmiLatch = true ∧
      (waiting true true false false).canEnter 2 = true) ∧
    ((waiting true false true false).Calm ∧
      ((waiting true false true false).cpu.flags.intf && (waiting true false true false).board.pic.query) = true ∧
      (waiting true false true false).canEnter (waiting true false true false).board.pic.acknowledge.1 = true) :=
  ⟨⟨rfl, rfl, rfl, rfl, rfl, rfl, rfl, waiting_calm _ _ _ _, by decide⟩, ⟨waiting_calm _ _ _ _, by decide, by decide⟩,
    ⟨waiting_calm _ _ _ _, by decide, by decide⟩⟩

theorem witness_BoundaryArbitration :
    (({ waiting false true true true with cpu := { (waiting false true true true).cpu with intInhibit := true } } :
        State).Calm) ∧
    (({ suspended with board := (waiting false false true false).board, cpu := { suspended.cpu with
        flags := { f0 with intf := true } } } : State).Calm ∧
      (f0.intf || (waiting false false true false).board.pic.query) = true) ∧
    ((waiting false true true true).Calm ∧ (waiting false true true true).cpu.inRep = false ∧
      (waiting false true true true).canEnter 2 = true) ∧
    ((waiting false false true true).Calm ∧ (waiting false false true true).cpu.nmiLatch = false ∧
      (waiting false false true true).canEnter (waiting false false true true).board.pic.acknowledge.1 = true) ∧
    ((waiting false false false true).Calm ∧ (waiting false false false true).cpu.trapArmed = true ∧
      (waiting false false false true).canEnter 1 = true) ∧
    ((waiting false false false false).Calm ∧ (waiting false false false false).cpu.trapArmed = false) :=
  ⟨⟨rfl, rfl⟩, ⟨⟨rfl, rfl⟩, by decide⟩, ⟨waiting_calm _ _ _ _, rfl, by decide⟩, ⟨waiting_calm _ _ _ _, rfl, by decide⟩,
    ⟨waiting_calm _ _ _ _, rfl, by decide⟩, ⟨waiting_calm _ _ _ _, rfl⟩⟩

/-- SP = 0, so that the pushes wrap to the top of the stack segment; the last vector. -/
theorem witness_EntryFrame : (start { r0 with sp := 0 } f0 []).Calm ∧
  (start { r0 with sp := 0 } f0 []).canEnter 0xFF = true :=
  ⟨⟨rfl, rfl⟩, by decide⟩

theorem witness_PicPriorityAndAcknowledge :
    ({ Pic.reset with irr := 0x80, imr := 0 } : Pic).eligible = some 7 ∧ Pic.reset.eligible = none := by decide

theorem reset_inv : State.reset.Inv where
  board := ⟨by decide, by decide, by decide, rfl, rfl, by decide, by decide, by decide, by decide,
    (fun _ h => nomatch h), (fun _ h => nomatch h)⟩
  described := rfl
  locked := rfl
  transient := ⟨rfl, rfl⟩
  loaded := rfl
  again := fun h => absurd rfl h
  error := rfl
  fresh := fun _ => rfl
  suspended := fun h => absurd h (by decide)
  deferred := fun h => absurd h (by decide)
  awake := fun h => absurd h (by decide)

theorem witness_StepKeepsInvariant : State.reset.Inv ∧ shows (step State.reset) (fun _ => true) = true :=
  ⟨reset_inv, by decide⟩

theorem witness_RomAndConfigurationKept :
    w.inputs.headD [] = [] ∧ shows (go [0xC6, 0x07, 0x5A] w) (fun _ => true) = true ∧
      (Mask.read [(0x3FFFF, { MaskFlags.clear with rom := true })] 0x3FFFF).rom = true ∧
      (∀ evs ∈ w.board.slots, ∀ op, BusEvent.floppy .a op ∉ evs) := ⟨rfl, by decide, by decide, fun _ h => nomatch h⟩

/-- The frames: a form that stores, a register outside its destinations, an address outside the stored ones. -/
theorem witness_frames :
    w.Quiet ∧ (∃ t, exec (.add (.rmReg .word (.mem (.noDisp .bx)) .ax)) w = .next t) ∧
      (GReg.ax, false) ∉ changedHalves (.add (.rmReg .word (.mem (.noDisp .bx)) .ax)) w ∧
      SReg.cs ∉ changedSregs (.add (.rmReg .word (.mem (.noDisp .bx)) .ax)) w ∧
      FlagName.df ∉ changedFlags (.add (.rmReg .word (.mem (.noDisp .bx)) .ax)) w ∧
      0x30001 ∉ storedAddrs (.add (.rmReg .word (.mem (.noDisp .bx)) .ax)) w :=
  ⟨rfl, ⟨_, rfl⟩, by decide, by decide, by decide, by decide⟩

/-- The clauses of the two frames of the rest: an instruction that is none of the exceptions they name. -/
theorem witness_HiddenStateFrame_BoardFrame :
    (∃ t, exec .cbw w = .next t) ∧ setsInhibit .cbw = false ∧ Instr.cbw ≠ .hlt ∧ raises .cbw w = false ∧
      isString .cbw = false ∧ isPrefix .cbw = false ∧ isPortAccess .cbw = false ∧ mayTransfer .cbw = false :=
  ⟨⟨_, rfl⟩, by decide, by decide, by decide, by decide, by decide, by decide, by decide⟩

/-- For AddAndAdc, SubtractResults, LogicResults, and with the operand alone IncAndDec, MultiplyResults, RotateResults,
ShiftResults, MoveResults, SegmentLoads, StackResults, Jumps, Calls and the exchange. -/
theorem witness_operands :
    w.Calm ∧ w.readable ((w.place (AluForm.dst (.rmReg .word (.mem (.noDisp .bx)) .ax))).addrs .word) = true ∧
      w.readable ((w.place (AluForm.src (.rmReg .word (.mem (.noDisp .bx)) .ax))).addrs .word) = true ∧
      w.writable ((w.place (AluForm.dst (.rmReg .word (.mem (.noDisp .bx)) .ax))).addrs .word) = true ∧
      w.readable ((w.place (.rm (.mem (.noDisp .bx)))).addrs .word) = true ∧
      w.writable ((w.place (.rm (.mem (.noDisp .bx)))).addrs .word) = true ∧
      w.readable ((w.place (TestForm.dst (.rmReg .byte (.reg .ax) .bx))).addrs .byte) = true :=
  ⟨w_calm, by decide, by decide, by decide, by decide, by decide, by decide⟩

theorem witness_ConditionsOrderNumbers : SubFlags (0x7F : BitVec Width.byte.bits) 0x80 false (subN (n := 8) f0 0x7F
  0x80 false).2 :=
  subN_flags (by decide) f0 _ _ false

/-- V75 and V83: the largest quotient DIV accepts, the smallest IDIV accepts. -/
theorem witness_DivideResults :
    ((start { r0 with ax := 0xFEFF, bx := 0xFF } f0 []).Calm ∧
      dividend (0xFE : BitVec Width.byte.bits) (0xFF : BitVec Width.byte.bits) / 0xFF < 2 ^ Width.byte.bits) ∧
    (w.Calm ∧ (Int.tdiv (dividendS (w.accHi .byte) (w.reg .byte .ax)) 1).natAbs < 2 ^ (Width.byte.bits - 1)) :=
  ⟨⟨⟨rfl, rfl⟩, by decide⟩, ⟨w_calm, by decide⟩⟩

/-- A zero divisor, V76 and V84: the first quotients refused. -/
theorem witness_DivideError :
    (w.Calm ∧ w.canEnter 0 = true ∧ w.val .byte (w.place (.rm (.reg .dx))) = 0) ∧
    (2 ^ Width.byte.bits ≤ dividend (1 : BitVec Width.byte.bits) (0 : BitVec Width.byte.bits) / 1) ∧
    (2 ^ (Width.byte.bits - 1) ≤
      (Int.tdiv (dividendS (0xFF : BitVec Width.byte.bits) (0x80 : BitVec Width.byte.bits)) 1).natAbs) :=
  ⟨⟨w_calm, by decide, by decide⟩, by decide, by decide⟩

/-- Under either value of `P_BCD`; on the documented domain under the second. -/
theorem witness_DecimalAdjusts :
    w.board.params.bcd = .asWritten ∧ bcdDomain .daa ⟨0x7D, 0, 0, false, false⟩ = true ∧
      bcdDomain .aam ⟨0x3F, 0xFF, 10, false, false⟩ = true ∧ (10 : Byte) ≠ 0 := by decide

/-- The counts 0, 1 and 255 of RotateResults and ShiftResults. -/
theorem witness_counts :
    (start { r0 with cx := 0xFF00 } f0 []).count .cl = 0 ∧ w.count .one = 1 ∧
      (start { r0 with cx := 0x00FF } f0 []).count .cl = 255 ∧
      w.readable ((w.place (.rm (.mem (.noDisp .bx)))).addrs .word) = true := by decide

theorem witness_MoveResults :
    w.Calm ∧ w.readable (byteAddrs .word (w.sreg (w.cpu.pfx.seg.getD .ds)) 0xFFFF) = true ∧
      w.writable (byteAddrs .word (w.sreg (w.cpu.pfx.seg.getD .ds)) 0xFFFF) = true := ⟨w_calm, by decide, by decide⟩

/-- SP = FFFF and SP = 0: the words on the stack wrap in its segment. -/
theorem witness_stack :
    ((start { r0 with sp := 0xFFFF } f0 []).Calm ∧ (start { r0 with sp := 0xFFFF } f0 []).readable
      ((start { r0 with sp := 0xFFFF } f0 []).popAddrs 3) = true) ∧
    ((start { r0 with sp := 0 } f0 []).Calm ∧ (start { r0 with sp := 0 } f0 []).writable
      ((start { r0 with sp := 0 } f0 []).stackAddrs 3) = true) := ⟨⟨⟨rfl, rfl⟩, by decide⟩, ⟨⟨rfl, rfl⟩, by decide⟩⟩

theorem witness_ExchangesAndAccumulatorMoves :
    w.Calm ∧ w.readable (byteAddrs .byte (w.sreg (w.cpu.pfx.seg.getD .ds)) (w.reg16 .bx + (w.reg8 .ax).setWidth 16))
      = true :=
  ⟨w_calm, by decide⟩

/-- A far pointer across the end of its segment, as in AddressLoads, Jumps and Calls; and the stale `last_ea`. -/
theorem witness_far_pointers :
    w.Calm ∧ w.readable (byteAddrs .word (w.easeg (.noDisp .bx)) (w.ea (.noDisp .bx)) ++
        byteAddrs .word (w.easeg (.noDisp .bx)) (w.ea (.noDisp .bx) + 2)) = true ∧
      w.readable (byteAddrs .word (w.sreg (w.cpu.pfx.seg.getD .ds)) w.cpu.lastEa ++
        byteAddrs .word (w.sreg (w.cpu.pfx.seg.getD .ds)) (w.cpu.lastEa + 2)) = true := ⟨w_calm, by decide, by decide⟩

/-- Ports 20 and 21, and FFFF and 0000 (43_data_transfer.md R301: the number wraps). -/
theorem witness_PortAccess :
    (start { r0 with dx := 0xFFFF } f0 []).Calm ∧ Params.answers w.board.params 0xFFFF = true ∧
      Params.answers w.board.params (0xFFFF + 1) = true ∧ (0x20 : Word) = (0x20 : Byte).setWidth 16 ∧
      Params.answers w.board.params 0x20 = true ∧ Params.answers w.board.params (0x20 + 1) = true ∧
      (0xFFFF : Word) = (start { r0 with dx := 0xFFFF } f0 []).reg16 .dx :=
  ⟨⟨rfl, rfl⟩, by decide, by decide, by decide, by decide, by decide, by decide⟩

/-- Alone, first entering a repetition with CX = 1, and suspended; the elements wrap in their segments. -/
theorem witness_StringElements :
    (w.Calm ∧ w.iterates = true ∧ w.readable (byteAddrs .word (w.sreg (w.cpu.pfx.seg.getD .ds)) (w.reg16 .si)) = true ∧
      w.readable (byteAddrs .word (w.sreg .es) (w.reg16 .di)) = true ∧
      w.writable (byteAddrs .word (w.sreg .es) (w.reg16 .di)) = true) ∧
    (({ w with cpu := { w.cpu with pfx := ⟨none, some .repnz, false⟩ } } : State).iterates = true) ∧
    ({ suspended with cpu := { suspended.cpu with pfx := ⟨none, some .repz, false⟩ } } : State).iterates = true :=
  ⟨⟨w_calm, by decide, by decide, by decide, by decide⟩, by decide, by decide⟩

theorem witness_RepeatControl :
    isString .scasw = true ∧ w.cpu.pfx.rep = none ∧
    (({ start r0 f0 [] with cpu := { (start r0 f0 []).cpu with pfx := ⟨none, some .repz, false⟩ }
      } : State).reg16 .cx = 0) ∧
    ({ suspended with cpu := { suspended.cpu with pfx := ⟨none, some .repz, false⟩ } } : State).iterates = true ∧
    (({ suspended with cpu := { suspended.cpu with pfx := ⟨none, some .repz, false⟩, intrPending := true } } :
      State).cpu.inRep = true) := by decide

theorem suspended_inv : suspended.Inv where
  board := ⟨by decide, by decide, by decide, rfl, rfl, by decide, by decide, by decide, by decide,
    (fun _ h => nomatch h), (fun _ h => nomatch h)⟩
  described := rfl
  locked := rfl
  transient := ⟨rfl, rfl⟩
  loaded := rfl
  again := fun h => absurd rfl h
  error := rfl
  fresh := fun h => absurd h (by decide)
  suspended := fun _ => ⟨_, rfl, rfl, rfl, rfl⟩
  deferred := fun h => absurd h (by decide)
  awake := fun h => absurd h (by decide)

theorem witness_RepeatRunsCxTimes :
    suspended.Inv ∧ suspended.Calm ∧ suspended.cpu.inRep = true ∧
      suspended.cpu.decoded = some ⟨.stosb, ⟨none, some .repz, false⟩, 2, false⟩ ∧ suspended.inputs = [] ∧
      Instr.stosb ∈ [Instr.movsb, .movsw, .lodsb, .lodsw, .stosb, .stosw] ∧ suspended.reg16 .cx ≠ 0 ∧
      suspended.cpu.halted = false ∧ suspended.cpu.intrPending = false ∧ suspended.cpu.nmiLatch = false ∧
      suspended.cpu.flags.intf = false ∧ suspended.cpu.flags.tf = false :=
  ⟨suspended_inv, ⟨rfl, rfl⟩, rfl, rfl, rfl, by decide, by decide, rfl, rfl, rfl, rfl, rfl⟩

/-- CX = 1 is the last iteration of LOOP, CX = 0 is taken by JCXZ only. -/
theorem witness_ConditionalBranches :
    (w.reg16 .cx = 1 ∧ w.cpu.flags.zf = false) ∧ (start { r0 with cx := 2 } { f0 with zf := true } []).reg16 .cx ≠ 1 ∧
      (start r0 f0 []).reg16 .cx = 0 := by decide

theorem witness_SoftwareInterrupts :
    (w.Calm ∧ w.canEnter 0 = true ∧ w.canEnter 0xFF = true ∧ w.canEnter 3 = true ∧ w.cpu.flags.ovf = false) ∧
      (start r0 { f0 with ovf := true } []).canEnter 4 = true :=
  ⟨⟨w_calm, by decide, by decide, by decide, by decide⟩, by decide⟩

theorem witness_InterruptReturn :
    (w.Calm ∧ w.readable (w.popAddrs 3) = true) ∧
    w.canEnter 0x21 = true ∧ Entered (w.enter 0x21 0x102) w 0x21 0x102 ∧ (w.enter 0x21 0x102).Calm ∧
      (w.enter 0x21 0x102).board.mask = w.board.mask ∧ (w.enter 0x21 0x102).sreg .ss = w.sreg .ss :=
  ⟨⟨w_calm, by decide⟩, by decide,
    ⟨by decide, by decide, by decide, by decide, by decide, by decide, rfl, by decide⟩, ⟨rfl, by decide⟩, by decide,
      by decide⟩

theorem witness_HaltWaitEscape :
    w.Quiet ∧ w.cpu.flags.intf = false ∧ (waiting false false false false).cpu.flags.intf = true ∧
      w.board.params.testPin = true ∧ ({ w.board.params with testPin := false } : Params).testPin = false :=
  ⟨rfl, by decide, by decide, by decide, by decide⟩

/-- A LOCKed state with a request that the DMA controller would serve; the unit fetched, the instruction executed. -/
def lockedState : State :=
  { code w [] [0x90] with board := { (code w [] [0x90]).board with
      locked := true, dma := Dma.reset.set 2 { DmaChannel.reset with masked := false, request := true },
      slots := [[.dmaRun 0 1], [.dmaRequest 1]] } }

theorem witness_PrefixesAndLock :
    isPrefix .repnz = true ∧ isPrefix .lockAlias = true ∧ lockedState.board.locked = true ∧
      (lockedState.fetchUnit .first [] 6).isSome = true ∧ isPortAccess .nop = false ∧
      shows (exec .nop lockedState) (fun _ => true) = true ∧
      ((code w [] [0xF1, 0x90]).takeRest 2).state.cpu.pfx.lock = true ∧
      ((code w [] [0x26, 0x90]).takeUnits .subsequent 2).state.cpu.pfx.lock = false :=
  ⟨rfl, rfl, rfl, by decide, rfl, by decide, by decide, by decide⟩

theorem witness_BusCycleClocks : BusPins.reset.tState = .ti := rfl

theorem witness_WordsInMemory : w.Calm ∧ w.writable (byteAddrs .word 0xFFFF 0xFFFF) = true := ⟨w_calm, by decide⟩

/-- Each way in which a transfer does nothing; a transfer with count 1, count 0, and count 0 with auto-init; a request by
software with and without a byte to move. -/
theorem witness_DmaTransfer :
    (let c : DmaChannel := { DmaChannel.reset with masked := false, xfer := .writeToMem, curAddr := 0xFFFF, page :=
      0x0F }
     DmaChannel.reset.masked = true ∧ ({ Dma.reset with enable := false } : Dma).enable = false ∧
       ({ c with tc := true } : DmaChannel).tc = true ∧
         ({ c with service := .cascade } : DmaChannel).service = .cascade ∧
       (c.masked = false ∧ Dma.reset.enable = true ∧ c.tc = false ∧ c.service ≠ .cascade ∧ c.curCount = 0 ∧
         c.autoInit = false) ∧ ({ c with curCount := 1 } : DmaChannel).curCount ≠ 0 ∧
       ({ c with autoInit := true } : DmaChannel).autoInit = true ∧ Memory.wf State.reset.board.mem = true ∧
       (Mask.read State.reset.board.mask 0xFFFFF).mmio = false ∧
         (Mask.read State.reset.board.mask 0xFFFFF).rom = false ∧
       (({ c with soft := true } : DmaChannel).soft = true ∧ c.xfer = .writeToMem) ∧
         ¬ (({ c with soft := true, xfer := .verify } : DmaChannel).xfer = .writeToMem)) := by
  decide

theorem witness_UartInterrupts :
    Uart.reset.dlab = false ∧ Uart.reset.ier.getLsbD 1 = false ∧ (0x02 : Byte).getLsbD 1 = true ∧
      Uart.reset.thr = none ∧
      ({ Uart.reset with actTx := true } : Uart).actTx = true ∧
      (Uart.reset.actLine || Uart.reset.actRx || !Uart.reset.actTx) = true := by decide

/-- The last cylinder below the cap of a 360K drive and the first above it; the motor off and on; a drive
without an image, ready or not, and one with an image that is not ready; a sector to write, and none. -/
theorem witness_FloppyOperations :
    (39 < DriveKind.k360.cylinders ∧ ¬ 40 < DriveKind.k360.cylinders) ∧
      (Drive.resetWith .k360 (some ⟨[]⟩)).motorOn = false ∧ (Drive.resetWith .k360 (some ⟨[]⟩)).image.isSome = true ∧
      ({ Drive.resetWith .k360 (some ⟨[]⟩) with motorOn := true, ready := true } : Drive).ready = true ∧
      (Drive.resetWith .k360 none).ready = false ∧ (Drive.resetWith .k360 none).image = none ∧
      ({ Drive.resetWith .k360 none with ready := true } : Drive).ready = true ∧
      (Drive.resetWith .k360 (some ⟨[]⟩)).ready = false ∧
      (spinning.ready = true ∧ spinning.image = some ⟨[⟨0, 0, [Sector.blank 0 0 9 0]⟩]⟩ ∧
        spinning.find ⟨[⟨0, 0, [Sector.blank 0 0 9 0]⟩]⟩ 0 spinning.cyl 0 (9 + 0) 2 = some (Sector.blank 0 0 9 0) ∧
        (Sector.blank 0 0 9 0).addressCrcBad = false ∧ (List.replicate 512 (7 : Byte)).length = 1 * sectorBytes 2 ∧
        ([] : List Byte).length = 0 * sectorBytes 2) := by decide

end Sys2Proof.Tests
end

section
/-! PROOFS. What the meaning of an instruction may do, as permissions: the frames of the CPU and of the board are read
off them, and so is the invariant of the board. -/

namespace Sys2Proof.Machine

/-! ### Permissions -/

/-- What an instruction may change of the CPU, and which accesses beyond memory cycles it may make of the board. -/
structure Effects where
  halves    : List (GReg × Bool)
  sregs     : List SReg
  flags     : List FlagName
  inhibits  : Bool
  halts     : Bool
  enters    : Bool
  strings   : Bool
  prefixes  : Bool
  ports     : Bool
  transfers : Bool

/-- The permissions of an instruction, in the terms of the frame statements (Sys2Proof/Safety.lean). -/
def Effects.of (i : Instr) (s : State) : Effects where
  halves    := changedHalves i s
  sregs     := changedSregs i s
  flags     := changedFlags i s
  inhibits  := setsInhibit i
  halts     := decide (i = .hlt)
  enters    := raises i s
  strings   := isString i
  prefixes  := isPrefix i
  ports     := isPortAccess i
  transfers := mayTransfer i || raises i s || (isString i && s.cpu.inRep && s.cpu.intrPending)

/-- `d` differs from `c` only where the permissions allow; the fields that no instruction changes, once its operand is
located, have no condition (10_state.md R33, R34). `idle`: no repetition begins but by a string instruction. -/
structure Effects.Permits (A : Effects) (c d : Cpu) : Prop where
  half     : ∀ h, h ∉ A.halves → d.regs.half h = c.regs.half h := by intros; rfl
  sreg     : ∀ r, r ∉ A.sregs → d.sregs.get r = c.sregs.get r := by intros; rfl
  flag     : ∀ n, n ∉ A.flags → d.flags.get n = c.flags.get n := by intros; rfl
  lastEa   : d.lastEa = c.lastEa := by rfl
  lastCs   : d.lastCs = c.lastCs := by rfl
  lastIp   : d.lastIp = c.lastIp := by rfl
  error    : d.error = c.error := by rfl
  nmiLatch : d.nmiLatch = c.nmiLatch := by rfl
  trap     : d.trapArmed = c.trapArmed := by rfl
  size     : d.size = c.size := by rfl
  loaded   : d.loaded = c.loaded := by rfl
  attempts : d.attempts = c.attempts := by rfl
  inhibit  : A.inhibits = false → d.intInhibit = c.intInhibit := by intros; rfl
  halted   : A.halts = false → A.enters = false → d.halted = c.halted := by intros; rfl
  rep      : A.strings = false → A.enters = false → d.inRep = c.inRep ∧ d.decoded = c.decoded := by
    intros; exact ⟨rfl, rfl⟩
  idle     : A.strings = false → c.inRep = false ∧ c.decoded = none → d.inRep = false ∧ d.decoded = none := by
    intro _ h; exact h
  deferred : A.strings = false → d.intrPending = c.intrPending := by intros; rfl
  pfx      : A.prefixes = false → d.pfx = c.pfx := by intros; rfl

theorem Effects.Permits.trans {A : Effects} {c d e : Cpu} (h : A.Permits c d) (k : A.Permits d e) : A.Permits c e where
  half x n := (k.half x n).trans (h.half x n)
  sreg x n := (k.sreg x n).trans (h.sreg x n)
  flag x n := (k.flag x n).trans (h.flag x n)
  lastEa := k.lastEa.trans h.lastEa
  lastCs := k.lastCs.trans h.lastCs
  lastIp := k.lastIp.trans h.lastIp
  error := k.error.trans h.error
  nmiLatch := k.nmiLatch.trans h.nmiLatch
  trap := k.trap.trans h.trap
  size := k.size.trans h.size
  loaded := k.loaded.trans h.loaded
  attempts := k.attempts.trans h.attempts
  inhibit p := (k.inhibit p).trans (h.inhibit p)
  halted p q := (k.halted p q).trans (h.halted p q)
  rep p q := ⟨(k.rep p q).1.trans (h.rep p q).1, (k.rep p q).2.trans (h.rep p q).2⟩
  idle p q := k.idle p (h.idle p q)
  deferred p := (k.deferred p).trans (h.deferred p)
  pfx p := (k.pfx p).trans (h.pfx p)

/-! ### The board -/

/-- The boards that a sequence of the CPU's accesses leads to. Of the permissions those of ports, transfers and prefixes
matter here. -/
inductive Board.Moves (A : Effects) (b : Board) : Board → Prop
  | refl : Moves A b b
  | rd8 {c : Board} (h : Moves A b c) (cs seg off : Word) : Moves A b (c.rd8 cs seg off).2
  | wr8 {c : Board} (h : Moves A b c) (cs seg off : Word) (v : Byte) : Moves A b (c.wr8 cs seg off v)
  | spend {c : Board} (h : Moves A b c) (k : Nat) : Moves A b { c with draws := c.draws + k }
  | flush {c : Board} (h : Moves A b c) (p : A.transfers = true) (ip : Word) : Moves A b (c.flush ip)
  | ioRead {c d : Board} {cs port : Word} {v : Byte} (h : Moves A b c) (p : A.ports = true)
      (e : c.ioRead cs port = some (v, d)) : Moves A b d
  | ioWrite {c d : Board} {cs port : Word} {v : Byte} (h : Moves A b c) (p : A.ports = true)
      (e : c.ioWrite cs port v = some d) : Moves A b d
  | lock {c : Board} (h : Moves A b c) (p : A.prefixes = true) : Moves A b { c with locked := true }

namespace Board

variable {A : Effects} {b c : Board}

/-- The invariant of the board survives every sequence of accesses, whatever the other agents do between them. -/
theorem Moves.inv (m : b.Moves A c) (h : b.Inv) : c.Inv := by
  induction m with
  | refl => exact h
  | rd8 _ cs seg off ih => exact ih.rd8 cs seg off
  | wr8 _ cs seg off v ih => exact ih.wr8 cs seg off v
  | spend _ k ih => cases ih; constructor <;> assumption
  | flush _ _ ip ih => exact ih.flush ip
  | ioRead _ _ e ih => exact ih.ioRead e
  | ioWrite _ _ e ih => exact ih.ioWrite e
  | lock _ _ ih => exact ih.withLocked true

/-- One port cycle (20_memory.md R84): a slot, an access that changes no more than the devices and the free-value
counter, and the pins. -/
def PortCycle (cs : Word) (b c : Board) : Prop :=
  ∃ (d : Board) (st : BusStatus) (a : Nat) (v : Byte),
    d = { b.slot cs false with pic := d.pic, dma := d.dma, uart := d.uart, draws := d.draws } ∧ c = d.pins st a v

theorem deviceRead_rest {port : Word} {v : Byte} (e : b.deviceRead port = some (v, c)) :
    c = { b with pic := c.pic, dma := c.dma, uart := c.uart, draws := c.draws } := by
  unfold deviceRead at e
  split at e
  · cases e; rfl
  · cases e; rfl
  · dsimp only at e
    split at e <;> cases e <;> rfl
  · cases e; rfl
  · cases e
  · cases e
  · split at e <;> cases e <;> rfl
  · cases e; rfl

theorem deviceWrite_rest {port : Word} {v : Byte} (e : b.deviceWrite port v = some c) :
    c = { b with pic := c.pic, dma := c.dma, uart := c.uart, draws := c.draws } := by
  unfold deviceWrite at e
  split at e
  · cases e; rfl
  · cases e; rfl
  · cases e; rfl
  · cases e; rfl
  · cases e
  · cases e
  · cases e; rfl
  · cases e; rfl

theorem ioRead_cycle {cs port : Word} {v : Byte} (e : b.ioRead cs port = some (v, c)) : b.PortCycle cs c := by
  unfold ioRead at e
  split at e
  next r k => cases e; exact ⟨r.2, _, _, _, deviceRead_rest k, rfl⟩
  · cases e

theorem ioWrite_cycle {cs port : Word} {v : Byte} (e : b.ioWrite cs port v = some c) : b.PortCycle cs c := by
  unfold ioWrite at e
  split at e
  next d k => cases e; exact ⟨d, _, _, _, deviceWrite_rest k, rfl⟩
  · cases e

/-! #### The lock -/

theorem rd8_locked (b : Board) (cs seg off : Word) : (b.rd8 cs seg off).2.locked = b.locked :=
  (memRead_keeps _ _).1.trans (slot_locked cs false b)

theorem wr8_locked (b : Board) (cs seg off : Word) (v : Byte) : (b.wr8 cs seg off v).locked = b.locked :=
  calc (b.wr8 cs seg off v).locked
    _ = ((b.slot cs false).memWrite (phys seg off) v).locked := rfl
    _ = (b.slot cs false).locked := by rw [(memWrite_touches _ _ _).rest]
    _ = b.locked := slot_locked cs false b

theorem PortCycle.locked {cs : Word} (h : b.PortCycle cs c) : c.locked = b.locked := by
  obtain ⟨d, st, a, v, r, rfl⟩ := h
  calc d.locked
    _ = (b.slot cs false).locked := by rw [r]
    _ = b.locked := slot_locked cs false b

/-- Only LOCK and its alias take the bus, whatever is scheduled (20_memory.md R103). -/
theorem Moves.locked (m : b.Moves A c) (p : A.prefixes = false) : c.locked = b.locked := by
  induction m with
  | refl => rfl
  | rd8 _ cs seg off ih => exact (rd8_locked _ cs seg off).trans ih
  | wr8 _ cs seg off v ih => exact (wr8_locked _ cs seg off v).trans ih
  | spend _ _ ih => exact ih
  | flush _ _ _ ih => exact ih
  | ioRead _ _ e ih => exact (ioRead_cycle e).locked.trans ih
  | ioWrite _ _ e ih => exact (ioWrite_cycle e).locked.trans ih
  | lock _ k => rw [p] at k; cases k

/-! #### The frame when nothing is scheduled -/

/-- What no instruction changes of the board (10_state.md R45). -/
def fixed (b : Board) : Params × List (Nat × MaskFlags) × Drive × Drive × Option Refusal :=
  (b.params, b.mask, b.driveA, b.driveB, b.undescribed)

/-- The devices behind ports. -/
def devices (b : Board) : Pic × Dma × Uart := (b.pic, b.dma, b.uart)

/-- `c` differs from `b` only where the permissions allow. -/
structure Framed (A : Effects) (b c : Board) : Prop where
  slots   : c.slots = b.slots := by rfl
  fixed   : c.fixed = b.fixed := by rfl
  devices : A.ports = false → c.devices = b.devices := by intros; rfl
  queue   : A.transfers = false →
      c.pc = b.pc ∧ c.queue = b.queue ∧ (c.queueOp = b.queueOp ∨ c.queueOp = .idle) := by
    intros; exact ⟨rfl, rfl, .inl rfl⟩

theorem Framed.trans {d : Board} (h : b.Framed A c) (k : c.Framed A d) : b.Framed A d where
  slots := k.slots.trans h.slots
  fixed := k.fixed.trans h.fixed
  devices p := (k.devices p).trans (h.devices p)
  queue p := by
    obtain ⟨hpc, hq, ho⟩ := h.queue p
    obtain ⟨kpc, kq, ko⟩ := k.queue p
    exact ⟨kpc.trans hpc, kq.trans hq, ko.elim (fun e => e ▸ ho) .inr⟩

/-- A memory cycle, in which the queue is idle (20_memory.md R98). -/
theorem Touches.framed {as : List Nat} (h : b.Touches as c) (o : c.queueOp = .idle) : b.Framed A c where
  slots := h.slots
  fixed := by rw [h.rest]; rfl
  devices _ := by rw [h.rest]; rfl
  queue _ := ⟨h.pc, h.queue, .inr o⟩

theorem PortCycle.framed {cs : Word} (h : b.PortCycle cs c) (q : b.slots = []) (p : A.ports = true) : b.Framed A c := by
  obtain ⟨d, st, a, v, r, rfl⟩ := h
  rw [slot_quiet cs false q] at r
  exact {
    slots := by rw [r]; rfl
    fixed := by rw [r]; rfl
    devices := fun n => by simp [p] at n
    queue := fun _ => by rw [r]; exact ⟨rfl, rfl, .inr rfl⟩ }

/-- With nothing scheduled a sequence of accesses changes what the permissions allow. -/
theorem Moves.framed (m : b.Moves A c) (q : b.slots = []) : b.Framed A c := by
  induction m with
  | refl => exact {}
  | rd8 _ cs seg off ih => exact ih.trans ((rd8_touches cs seg off (ih.slots.trans q)).framed rfl)
  | wr8 _ cs seg off v ih => exact ih.trans ((wr8_touches cs seg off v (ih.slots.trans q)).framed rfl)
  | spend _ k ih => exact ih.trans {}
  | flush _ p ip ih => exact ih.trans { queue := fun n => by simp [p] at n }
  | ioRead _ p e ih => exact ih.trans ((ioRead_cycle e).framed (ih.slots.trans q) p)
  | ioWrite _ p e ih => exact ih.trans ((ioWrite_cycle e).framed (ih.slots.trans q) p)
  | lock _ _ ih => exact ih.trans {}

end Board

end Sys2Proof.Machine
end

section
/-! PROOFS. Every operation of the CPU stays within the permissions that it names. -/

namespace Sys2Proof.Machine

/-- From `s` the permitted operations lead to `t`. -/
structure State.Does (A : Effects) (s t : State) : Prop where
  cpu     : A.Permits s.cpu t.cpu
  board   : s.board.Moves A t.board
  inputs  : t.inputs = s.inputs
  skipBp  : t.skipBp = s.skipBp
  started : t.started = s.started

/-- The permissions cover an interrupt entry (60_exceptions.md R440). -/
structure Effects.Enters (A : Effects) : Prop where
  sp        : wordHalves .sp ⊆ A.halves
  cs        : SReg.cs ∈ A.sregs
  tf        : FlagName.tf ∈ A.flags
  intf      : FlagName.intf ∈ A.flags
  enters    : A.enters = true
  transfers : A.transfers = true

/-! ### Flags -/

/-- The control flags. -/
def Flags.control (f : Flags) : Bool × Bool × Bool := (f.tf, f.intf, f.df)

/-- What leaves the control flags alone changes status flags only. -/
theorem Flags.get_control {f g : Flags} (e : g.control = f.control) {n : FlagName} (h : n ∉ statusFlags) :
    g.get n = f.get n := by
  simp only [Flags.control, Prod.mk.injEq] at e
  obtain ⟨tf, intf, df⟩ := e
  cases n with
  | tf => exact tf
  | intf => exact intf
  | df => exact df
  | cf | pf | af | zf | sf | ovf => exact absurd (by decide) h

/-- A rotate changes CF and OF only (42_shift_rotate.md R259). -/
theorem Flags.rotated_get (f : Flags) (k : Nat) (cf ovf free : Bool) {x : FlagName}
    (h : x ∉ [FlagName.cf, .ovf]) : (f.rotated k cf ovf free).get x = f.get x := by
  cases x with
  | cf | ovf => exact absurd (by decide) h
  | pf | af | zf | sf | tf | intf | df => rfl

/-- INC and DEC keep CF (40_alu.md R190, R191). -/
theorem incN_get {n : Nat} (f : Flags) (a : BitVec n) {k : FlagName} (h : k ∉ [FlagName.pf, .af, .zf, .sf, .ovf]) :
    (incN f a).2.get k = f.get k := by
  cases k with
  | cf | tf | intf | df => rfl
  | pf | af | zf | sf | ovf => exact absurd (by decide) h

theorem decN_get {n : Nat} (f : Flags) (a : BitVec n) {k : FlagName} (h : k ∉ [FlagName.pf, .af, .zf, .sf, .ovf]) :
    (decN f a).2.get k = f.get k := by
  cases k with
  | cf | tf | intf | df => rfl
  | pf | af | zf | sf | ovf => exact absurd (by decide) h

/-! ### The board over several accesses -/

namespace Board

variable {A : Effects} {b c : Board}

theorem Moves.rd16 (m : b.Moves A c) (cs seg off : Word) : b.Moves A (c.rd16 cs seg off).2 :=
  (m.rd8 cs seg off).rd8 cs seg (off + 1)

theorem Moves.wr16 (m : b.Moves A c) (cs seg off v : Word) : b.Moves A (c.wr16 cs seg off v) :=
  (m.wr8 cs seg off _).wr8 cs seg (off + 1) _

end Board

namespace State.Does

variable {A : Effects} {s t : State}

theorem start (s : State) : s.Does A s := ⟨{}, .refl, rfl, rfl, rfl⟩

/-! ### Single operations -/

section

variable (d : s.Does A t)
include d

/-- A permitted change of the CPU. -/
theorem withCpu {c : Cpu} (p : A.Permits t.cpu c) : s.Does A { t with cpu := c } :=
  ⟨d.cpu.trans p, d.board, d.inputs, d.skipBp, d.started⟩

/-- A permitted access of the board. -/
theorem withBoard {b : Board} (m : s.board.Moves A b) : s.Does A (t.setBoard b) :=
  ⟨d.cpu, m, d.inputs, d.skipBp, d.started⟩

theorem setReg16 {g : GReg} (p : wordHalves g ⊆ A.halves) (v : Word) : s.Does A (t.setReg16 g v) :=
  d.withCpu { half := fun _ n => Regs.half_set _ _ _ _ fun m => n (p m) }

theorem setReg8 {g : GReg} (p : byteHome g ∈ A.halves) (v : Byte) : s.Does A (t.setReg8 g v) :=
  d.withCpu { half := fun _ n => Regs.half_set8 _ _ _ _ fun m => n (m ▸ p) }

theorem setReg {w : Width} {g : GReg} (p : regHalves w g ⊆ A.halves) (v : BitVec w.bits) : s.Does A (t.setReg w g v) :=
  match w with
  | .byte => d.setReg8 (p (List.mem_singleton_self _)) v
  | .word => d.setReg16 p v

theorem setSreg {r : SReg} (p : r ∈ A.sregs) (v : Word) : s.Does A (t.setSreg r v) :=
  d.withCpu { sreg := fun _ n => Sregs.get_set_other _ _ fun e => n (e ▸ p) }

theorem setFlags {f : Flags} (p : ∀ n, n ∉ A.flags → f.get n = t.cpu.flags.get n) : s.Does A (t.setFlags f) :=
  d.withCpu { flag := p }

theorem setResult (r : ResultTag) : s.Does A (t.setResult r) := d.withCpu {}

theorem setPfx (p : A.prefixes = true) (x : Prefixes) : s.Does A (t.setPfx x) :=
  d.withCpu { pfx := fun n => by simp [p] at n }

theorem holdBus (p : A.prefixes = true) : s.Does A t.holdBus := d.withBoard (d.board.lock p)

theorem inhibit (p : A.inhibits = true) : s.Does A t.inhibit := by
  unfold State.inhibit
  split
  · exact d.withCpu { inhibit := fun n => by simp [p] at n }
  · exact d

theorem spend (k : Nat) : s.Does A (t.spend k) := d.withBoard (d.board.spend k)

theorem rd16 (seg off : Word) : s.Does A (t.rd16 seg off).2 := d.withBoard (d.board.rd16 _ seg off)

theorem rd (w : Width) (seg off : Word) : s.Does A (t.rd w seg off).2 :=
  match w with
  | .byte => d.withBoard (d.board.rd8 _ seg off)
  | .word => d.rd16 seg off

theorem wr16 (seg off v : Word) : s.Does A (t.wr16 seg off v) := d.withBoard (d.board.wr16 _ seg off v)

theorem wr {w : Width} (seg off : Word) (v : BitVec w.bits) : s.Does A (t.wr w seg off v) :=
  match w with
  | .byte => d.withBoard (d.board.wr8 _ seg off v)
  | .word => d.wr16 seg off v

theorem flushTo (p : A.transfers = true) (ip : Word) : s.Does A (t.flushTo ip) := d.withBoard (d.board.flush p ip)

/-! ### Shared operations -/

theorem readPlace (w : Width) (p : Place) : s.Does A (t.readPlace w p).2 :=
  match p with
  | .reg _ | .imm _ => d
  | .mem seg off => d.rd w seg off

theorem readLoaded (w : Width) (p : Place) : s.Does A (t.readLoaded w p).2 := by
  unfold State.readLoaded
  split
  · exact d
  · exact d.readPlace w p

/-- The place of an operand as any state `u` gives it: its register halves do not depend on the state. -/
theorem writePlace {w : Width} {o : Operand} (p : o.halves w ⊆ A.halves) (u : State) (v : BitVec w.bits) :
    s.Does A (t.writePlace w (u.place o) v) :=
  match o with
  | .rm (.reg _) | .reg _ => d.setReg p v
  | .rm (.mem _) => d.wr _ _ v
  | .imm8 _ | .imm16 _ | .imm8s _ => d

theorem push16 (p : wordHalves .sp ⊆ A.halves) (v : Word) : s.Does A (t.push16 v) := (d.setReg16 p _).wr16 _ _ v

theorem pop16 (p : wordHalves .sp ⊆ A.halves) : s.Does A t.pop16.2 := (d.rd16 _ _).setReg16 p _

theorem jumpNear (p : A.transfers = true) (ip : Word) : s.Does A (t.jumpNear ip) := (d.flushTo p ip).setResult _

theorem jumpFar (p : A.transfers = true) (q : SReg.cs ∈ A.sregs) (cs ip : Word) : s.Does A (t.jumpFar cs ip) :=
  (d.setSreg q cs).jumpNear p ip

theorem jumpIf (p : A.transfers = true) (c : Bool) (x : Byte) : s.Does A (t.jumpIf c x) := by
  unfold State.jumpIf
  split
  · exact d.jumpNear p _
  · exact d

theorem setAcc {w : Width} (p : accHalves w ⊆ A.halves) (hi lo : BitVec w.bits) : s.Does A (t.setAcc w hi lo) :=
  match w with
  | .byte => d.setReg16 p _
  | .word => (d.setReg16 (List.append_subset.mp p).2 _).setReg16 (List.append_subset.mp p).1 _

/-- Interrupt entry. -/
theorem enter (p : A.Enters) (n : Byte) (ret : Word) : s.Does A (t.enter n ret) := by
  have pushed := ((d.push16 p.sp t.cpu.flags.word).push16 p.sp (t.sreg .cs)).push16 p.sp ret
  have masked := pushed.setFlags (f := { t.cpu.flags with intf := false, tf := false }) fun n h => by
    cases n with
    | tf => exact absurd p.tf h
    | intf => exact absurd p.intf h
    | cf | pf | af | zf | sf | df | ovf => rfl
  have read := (masked.rd16 0 (4 * n.setWidth 16)).rd16 0 (4 * n.setWidth 16 + 2)
  refine ((read.setSreg p.cs _).flushTo p.transfers _).withCpu ?_
  have e := p.enters
  exact { halted := fun _ h => by simp [e] at h, rep := fun _ h => by simp [e] at h, idle := fun _ _ => ⟨rfl, rfl⟩ }

theorem raise (p : A.Enters) (n : Byte) (ret : Word) : s.Does A (t.raise n ret) := (d.enter p n ret).setResult _

theorem divideFault (p : A.Enters) : s.Does A t.divideFault := d.raise p 0 _

end

end State.Does

end Sys2Proof.Machine
end

section
/-! PROOFS. The meaning of every instruction stays within the permissions of that instruction. -/

namespace Sys2Proof.Machine

/-- The state once a memory operand is located: its address is in `last_ea` (30_encoding.md R143). -/
def State.located (s : State) : Option Mem → State
  | some m => { s with cpu := { s.cpu with lastEa := s.ea m } }
  | none => s

theorem State.touch_eq_located (s : State) (o : Operand) : s.touch o = s.located o.memOf := by
  cases o with
  | rm e => cases e <;> rfl
  | reg _ | imm8 _ | imm16 _ | imm8s _ => rfl

/-- At most one operand of an ALU form is in memory. -/
theorem State.touch_aluForm (s : State) (f : AluForm) :
    (s.touch f.dst).touch f.src = s.located (f.dst.memOf <|> f.src.memOf) := by
  cases f with
  | rmReg _ e _ | rmImm8 e _ | rmImm16 e _ | rmImm8Alias e _ | rmImm8Sext e _ | regRm _ _ e => cases e <;> rfl
  | accImm8 _ | accImm16 _ => rfl

theorem State.touch_testForm (s : State) (f : TestForm) : (s.touch f.dst).touch f.src = s.located f.dst.memOf := by
  cases f with
  | rmReg _ e _ | rmImm8 e _ | rmImm16 e _ | rmImm8Alias e _ | rmImm16Alias e _ => cases e <;> rfl
  | accImm8 _ | accImm16 _ => rfl

/-- An instruction that enters a handler has the permissions of an entry. -/
theorem enters_of_raises {i : Instr} {s : State} (h : raises i s = true) : (Effects.of i s).Enters := by
  have halves : changedHalves i s = wordHalves .sp := if_pos h
  have sregs : changedSregs i s = [.cs] := if_pos h
  have flags : changedFlags i s = [.tf, .intf] := if_pos h
  constructor <;> simp [Effects.of, halves, sregs, flags, h]

namespace State.Does

variable {A : Effects} {s t u : State}

/-! ### Shapes of execution; `u` is the state with the operand located -/

/-- A change of status flags only. -/
theorem setStatus (d : u.Does A t) (p : statusFlags ⊆ A.flags) {f : Flags} (h : f.control = t.cpu.flags.control) :
    u.Does A (t.setFlags f) := d.setFlags fun _ n => Flags.get_control h fun m => n (p m)

theorem fetchPair (w : Width) (o x : Operand) (d : u.Does A ((s.touch o).touch x)) :
    u.Does A (s.fetchPair w o x).2.2 := (d.readLoaded w _).readPlace w _

theorem binary {w : Width} {o x : Operand} (d : u.Does A ((s.touch o).touch x)) (p : o.halves w ⊆ A.halves)
    (q : statusFlags ⊆ A.flags) {f : Flags → BitVec w.bits → BitVec w.bits → BitVec w.bits × Flags}
    (hf : ∀ fl a b, (f fl a b).2.control = fl.control) : u.Does A (s.binary w o x f) :=
  ((d.fetchPair w o x).writePlace p s _).setStatus q (by simpa using hf _ _ _)

theorem compare {w : Width} {o x : Operand} (d : u.Does A ((s.touch o).touch x)) (q : statusFlags ⊆ A.flags)
    {f : Flags → BitVec w.bits → BitVec w.bits → BitVec w.bits × Flags}
    (hf : ∀ fl a b, (f fl a b).2.control = fl.control) : u.Does A (s.compare w o x f) :=
  (d.fetchPair w o x).setStatus q (hf _ _ _)

theorem load (w : Width) (o : Operand) (d : u.Does A (s.touch o)) : u.Does A (s.load w o).2 := d.readPlace w _

theorem store {w : Width} {o : Operand} (d : u.Does A (s.touch o)) (p : o.halves w ⊆ A.halves) (v : BitVec w.bits) :
    u.Does A (s.store w o v) := d.writePlace p s v

theorem unary {w : Width} {o : Operand} (d : u.Does A (s.touch o)) (p : o.halves w ⊆ A.halves)
    {f : Flags → BitVec w.bits → BitVec w.bits × Flags}
    (hf : ∀ fl a n, n ∉ A.flags → (f fl a).2.get n = fl.get n) : u.Does A (s.unary w o f) :=
  ((d.load w o).writePlace p s _).setFlags fun n h => by simpa using hf _ _ n h

theorem shiftRotate {w : Width} {e : RM} {c : Count} (d : u.Does A (s.touch (.rm e)))
    (p : s.count c ≠ 0 → (Operand.rm e).halves w ⊆ A.halves) {step : BitVec w.bits × Bool → BitVec w.bits × Bool}
    {fl : Flags → BitVec w.bits → BitVec w.bits → Bool → Flags}
    (hf : s.count c ≠ 0 → ∀ f a r b n, n ∉ A.flags → (fl f a r b).get n = f.get n) (k : Nat) :
    u.Does A (s.shiftRotate w e c step fl k) := by
  have read := d.load w (.rm e)
  unfold State.shiftRotate
  dsimp only
  split
  · exact read
  next z => exact ((read.writePlace (p z) s _).setFlags fun n h => by simpa using hf z _ _ _ _ n h).spend k

theorem readFar (e : RM) (d : u.Does A (s.touch (.rm e))) : u.Does A (s.readFar e).2.2 :=
  (d.rd16 _ _).rd16 _ _

/-- The end of MUL, IMUL, and of DIV and IDIV where they do not trap (41_muldiv_bcd.md R226 to R229). -/
theorem setAccStatus {w : Width} (d : u.Does A t) (p : accHalves w ⊆ A.halves) (q : statusFlags ⊆ A.flags)
    (hi lo : BitVec w.bits) {f : Flags} (h : f.control = t.cpu.flags.control) (k : Nat) :
    u.Does A (((t.setAcc w hi lo).setFlags f).spend k) := by
  have flags : (t.setAcc w hi lo).cpu.flags = t.cpu.flags := by cases w <;> rfl
  exact ((d.setAcc p hi lo).setStatus q (flags ▸ h)).spend k

theorem finishDiv {w : Width} {r : Option (BitVec w.bits × BitVec w.bits)} (d : u.Does A t)
    (pe : r.isNone = true → A.Enters) (pa : r.isNone = false → accHalves w ⊆ A.halves)
    (pf : r.isNone = false → statusFlags ⊆ A.flags) : u.Does A (finishDiv w r t) :=
  match r with
  | none => d.divideFault (pe rfl)
  | some _ => d.setAccStatus (pa rfl) (pf rfl) _ _ (by rfl) 6

theorem packedAdjust (p : (GReg.ax, false) ∈ A.halves) (q : statusFlags ⊆ A.flags) (op : BcdOp) :
    s.Does A (s.packedAdjust op) := (((start s).setReg8 (g := .ax) p _).setStatus q (by rfl)).spend 1

theorem asciiAdjust (p : wordHalves .ax ⊆ A.halves) (q : statusFlags ⊆ A.flags) (op : BcdOp) :
    s.Does A (s.asciiAdjust op) := (((start s).setReg16 p _).setStatus q (by rfl)).spend 4

theorem baseAdjust (p : wordHalves .ax ⊆ A.halves) (q : statusFlags ⊆ A.flags) (op : BcdOp) (base : Byte) :
    s.Does A (s.baseAdjust op base) := (((start s).setReg16 p _).setStatus q (by rfl)).spend 3

theorem located (s : State) (o : Operand) : (s.located o.memOf).Does A (s.touch o) := by
  rw [touch_eq_located]; exact start _

theorem locatedAlu (s : State) (f : AluForm) :
    (s.located (f.dst.memOf <|> f.src.memOf)).Does A ((s.touch f.dst).touch f.src) := by
  rw [touch_aluForm]; exact start _

theorem locatedTest (s : State) (f : TestForm) : (s.located f.dst.memOf).Does A ((s.touch f.dst).touch f.src) := by
  rw [touch_testForm]; exact start _

/-! ### Transfers, ports and strings -/

theorem callNear (d : u.Does A t) (p : wordHalves .sp ⊆ A.halves) (q : A.transfers = true) (ip : Word) :
    u.Does A (t.callNear ip) := (d.push16 p _).jumpNear q ip

theorem callFar (d : u.Does A t) (p : wordHalves .sp ⊆ A.halves) (q : A.transfers = true) (r : SReg.cs ∈ A.sregs)
    (cs ip : Word) : u.Does A (t.callFar cs ip) := ((d.push16 p _).push16 p _).jumpFar q r cs ip

theorem retNear (d : u.Does A t) (p : wordHalves .sp ⊆ A.halves) (q : A.transfers = true) (extra : Word) :
    u.Does A (t.retNear extra) := ((d.pop16 p).setReg16 p _).jumpNear q _

theorem retFar (d : u.Does A t) (p : wordHalves .sp ⊆ A.halves) (q : A.transfers = true) (r : SReg.cs ∈ A.sregs)
    (extra : Word) : u.Does A (t.retFar extra) := (((d.pop16 p).pop16 p).setReg16 p _).jumpFar q r _ _

theorem inPort {w : Width} {port : Word} (h : inPort w port s = .next t) (p : A.ports = true)
    (q : regHalves w .ax ⊆ A.halves) : s.Does A t := by
  unfold Machine.inPort at h
  split at h
  · cases h
  next lo e =>
    have first : s.Does A (s.setBoard lo.2) := (start s).withBoard (.ioRead .refl p e)
    cases w with
    | byte => cases h; exact first.setReg8 (q (by decide)) _
    | word =>
      dsimp only at h
      split at h
      · cases h
      next hi k =>
        cases h
        have low := first.setReg8 (g := .ax) (q (by decide)) lo.1
        exact (low.withBoard (.ioRead low.board p k)).setReg8 (q (by decide)) _

theorem outPort {w : Width} {port : Word} (h : outPort w port s = .next t) (p : A.ports = true) : s.Does A t := by
  unfold Machine.outPort at h
  split at h
  · cases h
  next b e =>
    have first : s.Does A (s.setBoard b) := (start s).withBoard (.ioWrite .refl p e)
    cases w with
    | byte => cases h; exact first
    | word =>
      dsimp only at h
      split at h
      · cases h
      next c k => cases h; exact first.withBoard (.ioWrite first.board p k)

theorem advance (d : u.Does A t) (w : Width) {g : GReg} (p : wordHalves g ⊆ A.halves) : u.Does A (t.advance w g) :=
  d.setReg16 p _

theorem leaveRep (d : u.Does A t) (p : A.strings = true) : u.Does A t.leaveRep :=
  d.withCpu { rep := fun n => by simp [p] at n, idle := fun _ _ => ⟨rfl, rfl⟩ }

theorem stayRep (d : u.Does A t) (p : A.strings = true) (i : Instr) : u.Does A (t.stayRep i) :=
  d.withCpu { rep := fun n => by simp [p] at n, idle := fun n => by simp [p] at n }

theorem stopRep (d : u.Does A t) (p : A.strings = true) (q : A.transfers = true) : u.Does A t.stopRep :=
  have cleared := d.withCpu (c := { t.cpu with intrPending := false }) { deferred := fun n => by simp [p] at n }
  (cleared.leaveRep p).jumpNear q _

theorem repIterate (p : A.strings = true) (cx : wordHalves .cx ⊆ A.halves) {prim : State → State}
    (d : s.Does A (prim s)) (i : Instr) (k : RepKind) (c : Bool) : s.Does A (s.repIterate i k c prim) := by
  unfold State.repIterate
  dsimp only
  split
  · exact (d.setReg16 cx _).stayRep p i
  · exact (d.setReg16 cx _).leaveRep p

/-- A string instruction (44_string.md R321): the element's own registers, and CX where it is repeated. -/
theorem runString {own : List (GReg × Bool)} {prim : State → State} {i : Instr} (h : A.halves = s.stringHalves own)
    (p : A.strings = true) (q : A.transfers = (s.cpu.inRep && s.cpu.intrPending)) (c : Bool)
    (d : s.iterates = true → own ⊆ A.halves → s.Does A (prim s)) : s.Does A (s.runString i c prim) := by
  have element (it : s.iterates = true) : s.Does A (prim s) :=
    d it (by rw [h, stringHalves, if_pos it]; split <;> simp)
  have iteration (k : RepKind) (hk : s.cpu.pfx.rep = some k) (it : s.iterates = true) :
      s.Does A (s.repIterate i k c prim) :=
    repIterate p (by rw [h, stringHalves, if_pos it, hk]; exact List.subset_append_left _ _) (element it) i k c
  unfold State.runString
  split
  next k => exact element (by simp [iterates, k])
  next k hk =>
    split
    next r =>
      split
      next n => exact (start s).stopRep p (by rw [q, r, n]; rfl)
      next n => exact iteration k hk (by simpa [iterates, hk, r] using n)
    next r =>
      split
      · exact start s
      next z => exact iteration k hk (by simpa [iterates, hk, r] using z)

theorem movs {w : Width} (p : wordHalves .si ++ wordHalves .di ⊆ A.halves) : s.Does A (s.movs w) :=
  ((((start s).rd w _ _).wr _ _ _).advance w (List.append_subset.mp p).1).advance w (List.append_subset.mp p).2

theorem cmps {w : Width} (p : wordHalves .si ++ wordHalves .di ⊆ A.halves) (f : statusFlags ⊆ A.flags) :
    s.Does A (s.cmps w) := by
  have read := ((start (A := A) s).rd w (s.segFor .ds) (s.reg16 .si)).rd w
    ((s.readSource w).2.sreg .es) ((s.readSource w).2.reg16 .di)
  have compared := read.setStatus f (f := (subN ((s.readSource w).2.readDest w).2.cpu.flags (s.readSource w).1
    ((s.readSource w).2.readDest w).1 false).2) rfl
  exact (compared.advance w (List.append_subset.mp p).1).advance w (List.append_subset.mp p).2

theorem scas {w : Width} (p : wordHalves .di ⊆ A.halves) (f : statusFlags ⊆ A.flags) : s.Does A (s.scas w) := by
  have read := (start (A := A) s).rd w (s.sreg .es) (s.reg16 .di)
  have compared := read.setStatus f (f := (subN (s.readDest w).2.cpu.flags ((s.readDest w).2.reg w .ax)
    (s.readDest w).1 false).2) rfl
  exact compared.advance w p

theorem lods {w : Width} (p : regHalves w .ax ++ wordHalves .si ⊆ A.halves) : s.Does A (s.lods w) :=
  (((start s).rd w _ _).setReg (List.append_subset.mp p).1 _).advance w (List.append_subset.mp p).2

theorem stos {w : Width} (p : wordHalves .di ⊆ A.halves) : s.Does A (s.stos w) := ((start s).wr _ _ _).advance w p

end State.Does

/-- CLI and STI change IF only. -/
theorem setIntf_get (f : Flags) (b : Bool) (n : FlagName) (h : n ∉ [FlagName.intf]) :
    ({ f with intf := b } : Flags).get n = f.get n := by
  cases n with
  | intf => exact absurd (List.mem_singleton_self _) h
  | cf | pf | af | zf | sf | tf | df | ovf => rfl

/-- CBW: AL stays in the low half of AX (43_data_transfer.md R298). -/
theorem loByte_sext16 (v : Byte) : loByte (sext16 v) = v := by decide +revert

theorem half_cbw (r : Regs) (h : GReg × Bool) (n : h ∉ [(GReg.ax, true)]) :
    (r.set .ax (sext16 (r.get8 .ax))).half h = r.half h := by
  by_cases e : h = (.ax, false)
  · subst e; simp [Regs.half, loByte_sext16, Regs.get8, byteHome]
  · exact Regs.half_set r .ax _ h fun m => by
      rcases List.mem_cons.mp m with k | k
      · exact e k
      · exact n k

/-- Where an instruction does not enter a handler, its own permissions are in force. -/
theorem subset_of_not {α : Type} {c : Prop} [Decidable c] (h : ¬ c) (k l : List α) : l ⊆ if c then k else l := by
  rw [if_neg h]; exact List.Subset.refl l

theorem mem_allFlags (n : FlagName) : n ∈ allFlags := by cases n <;> decide

theorem subset_of_pos {α : Type} {c : Prop} [Decidable c] (h : c) (k l : List α) : k ⊆ if c then k else l := by
  rw [if_pos h]; exact List.Subset.refl k

open State.Does in
/-- Every instruction that answers, from the state with its memory operand located, stays within its permissions. -/
theorem exec_does {i : Instr} {s t : State} (h : exec i s = .next t) :
    (s.located (memOperand i)).Does (Effects.of i s) t := by
  have whole {α : Type} (l : List α) : l ⊆ l := List.Subset.refl l
  cases i with
  | add f | adc f | sub f | sbb f => cases h; exact binary (locatedAlu s f) (whole _) (whole _) fun _ _ _ => rfl
  | and f | or f | xor f => cases h; exact spend (binary (locatedAlu s f) (whole _) (whole _) fun _ _ _ => rfl) 1
  | cmp f => cases h; exact compare (locatedAlu s f) (whole _) fun _ _ _ => rfl
  | test f => cases h; exact spend (compare (locatedTest s f) (whole _) fun _ _ _ => rfl) 1
  | incReg g => cases h; exact (located s (.reg g)).unary (whole _) fun fl a _ => incN_get fl a
  | decReg g => cases h; exact (located s (.reg g)).unary (whole _) fun fl a _ => decN_get fl a
  | incRm w e => cases h; exact (located s (.rm e)).unary (whole _) fun fl a _ => incN_get fl a
  | decRm w e => cases h; exact (located s (.rm e)).unary (whole _) fun fl a _ => decN_get fl a
  | not w e => cases h; exact (located s (.rm e)).unary (whole _) fun _ _ _ _ => rfl
  | neg w e => cases h; exact (located s (.rm e)).unary (whole _) fun fl a _ => Flags.get_control (f := fl) (by rfl)
  | mul w e | imul w e =>
    cases h; exact setAccStatus ((located s (.rm e)).load w _) (whole _) (whole _) _ _ (by rfl) 4
  | div w e | idiv w e =>
    cases h
    exact ((located s (.rm e)).load w _).finishDiv (fun r => enters_of_raises r)
      (fun r => subset_of_not (Bool.eq_false_iff.mp r) (wordHalves .sp) (accHalves w))
      (fun r => subset_of_not (Bool.eq_false_iff.mp r) [FlagName.tf, .intf] statusFlags)
  | daa | das => cases h; exact packedAdjust (List.mem_singleton_self _) (whole _) _
  | aaa | aas => cases h; exact asciiAdjust (whole _) (whole _) _
  | aad base => cases h; exact baseAdjust (whole _) (whole _) _ base
  | aam base =>
    cases h
    split
    next z => exact (start s).divideFault (enters_of_raises (beq_iff_eq.mpr z))
    next z =>
      have r : ¬ (base == 0) = true := fun e => z (beq_iff_eq.mp e)
      exact baseAdjust (subset_of_not r (wordHalves .sp) (wordHalves .ax))
        (subset_of_not r [FlagName.tf, .intf] statusFlags) _ base
  | rol w e c | ror w e c | rcl w e c | rcr w e c =>
    cases h
    exact (located s (.rm e)).shiftRotate (fun z => subset_of_not z [] ((Operand.rm e).halves w))
      (fun z f _ _ _ n k => Flags.rotated_get f _ _ _ _ fun m => k (subset_of_not z [] [FlagName.cf, .ovf] m)) 1
  | shl w e c | shr w e c | sar w e c =>
    cases h
    exact (located s (.rm e)).shiftRotate (fun z => subset_of_not z [] ((Operand.rm e).halves w))
      (fun z f _ r _ n k => Flags.get_control (f := f) (by rfl) fun m => k (subset_of_not z [] statusFlags m)) 2
  | setmo w e c =>
    cases h
    exact (located s (.rm e)).shiftRotate (fun z => subset_of_not z [] ((Operand.rm e).halves w))
      (fun z f _ r _ n k => Flags.get_control (f := f) (by rfl) fun m => k (subset_of_not z [] statusFlags m)) 1
  | movRmReg w e g => cases h; exact (located s (.rm e)).store (whole _) _
  | movRmImm8 _ e v => cases h; exact (located s (.rm e)).store (w := .byte) (whole _) v
  | movRmImm16 _ e v => cases h; exact (located s (.rm e)).store (w := .word) (whole _) v
  | movRmSeg _ e r => cases h; exact (located s (.rm e)).store (w := .word) (whole _) _
  | movRegRm w g e => cases h; exact ((located s (.rm e)).load w _).setReg (whole _) _
  | movRegImm8 g v => cases h; exact (start s).setReg8 (List.mem_singleton_self _) v
  | movRegImm16 g v => cases h; exact (start s).setReg16 (whole _) v
  | movAccMem w off => cases h; exact ((start s).rd w _ off).setReg (whole _) _
  | movMemAcc w off => cases h; exact (start s).wr _ off _
  | movSegRm _ r e =>
    cases h; exact (((located s (.rm e)).load .word _).setSreg (List.mem_singleton_self _) _).inhibit rfl
  | pushReg g => cases h; exact (start s).push16 (whole _) _
  | pushRm _ e =>
    cases e with
    | reg g => cases h; exact (start s).push16 (whole _) _
    | mem m => cases h; exact ((located s (.rm (.mem m))).load .word _).push16 (whole _) _
  | pushSeg r => cases h; exact (start s).push16 (whole _) _
  | popReg g => cases h; exact ((start s).pop16 (List.subset_append_left _ _)).setReg16 (List.subset_append_right _ _) _
  | popRm _ e =>
    cases h
    exact ((located s (.rm e)).pop16 (List.subset_append_left _ _)).writePlace (w := .word)
      (List.subset_append_right _ _) s _
  | popSeg r => cases h; exact (((start s).pop16 (whole _)).setSreg (List.mem_singleton_self _) _).inhibit rfl
  | pushf => cases h; exact (start s).push16 (whole _) _
  | popf => cases h; exact ((start s).pop16 (whole _)).setFlags fun n k => absurd (mem_allFlags n) k
  | xchgRm w e g =>
    cases h
    exact (((located s (.rm e)).load w _).writePlace (List.subset_append_left _ _) s _).setReg
      (List.subset_append_right _ _) _
  | xchgAx g =>
    cases h; exact ((start s).setReg16 (List.subset_append_left _ _) _).setReg16 (List.subset_append_right _ _) _
  | lea g e => cases h; exact (located s (.rm e)).setReg16 (whole _) _
  | lds g e | les g e =>
    cases h; exact ((readFar e (located s (.rm e))).setReg16 (whole _) _).setSreg (List.mem_singleton_self _) _
  | xlat => cases h; exact ((start s).rd .byte _ _).setReg8 (List.mem_singleton_self _) _
  | lahf | salc => cases h; exact (start s).setReg8 (List.mem_singleton_self _) _
  | sahf =>
    cases h
    exact (start s).setFlags fun n k => by
      cases n with
      | cf | pf | af | zf | sf => exact absurd (show _ ∈ [FlagName.cf, .pf, .af, .zf, .sf] by decide) k
      | tf | intf | df | ovf => rfl
  | cbw => cases h; exact (start s).withCpu { half := half_cbw s.cpu.regs }
  | cwd => cases h; exact (start s).setReg16 (whole _) _
  | inImm w port => exact State.Does.inPort h rfl (whole _)
  | inDx w => exact State.Does.inPort h rfl (whole _)
  | outImm w port => exact State.Does.outPort h rfl
  | outDx w => exact State.Does.outPort h rfl
  | movsb | movsw => cases h; exact runString rfl rfl rfl _ fun _ p => movs p
  | cmpsb | cmpsw =>
    cases h
    exact runString rfl rfl rfl _ fun it p => cmps p (subset_of_pos it statusFlags [])
  | scasb | scasw =>
    cases h
    exact runString rfl rfl rfl _ fun it p => scas p (subset_of_pos it statusFlags [])
  | stosb | stosw => cases h; exact runString rfl rfl rfl _ fun _ p => stos p
  | lodsb => cases h; exact runString rfl rfl rfl _ fun _ p => lods (w := .byte) p
  | lodsw => cases h; exact runString rfl rfl rfl _ fun _ p => lods (w := .word) p
  | jo _ d | jno _ d | jb _ d | jnb _ d | jz _ d | jnz _ d | jbe _ d | ja _ d | js _ d | jns _ d | jp _ d | jnp _ d
  | jl _ d | jge _ d | jle _ d | jg _ d | jcxz d => cases h; exact (start s).jumpIf rfl _ d
  | loopnz d | loopz d | loop d => cases h; exact ((start s).setReg16 (whole _) _).jumpIf rfl _ d
  | jmpShort d => cases h; exact (start s).jumpNear rfl _
  | jmpNear d => cases h; exact (start s).jumpNear rfl _
  | jmpFar off seg => cases h; exact (start s).jumpFar rfl (List.mem_singleton_self _) seg off
  | jmpRm e => cases h; exact ((located s (.rm e)).load .word _).jumpNear rfl _
  | jmpFarRm e =>
    cases e with
    | reg g => cases h
    | mem m => cases h; exact (readFar (.mem m) (located s (.rm (.mem m)))).jumpFar rfl (List.mem_singleton_self _) _ _
  | callNear d => cases h; exact (start s).callNear (whole _) rfl _
  | callFar off seg => cases h; exact (start s).callFar (whole _) rfl (List.mem_singleton_self _) seg off
  | callRm e => cases h; exact ((located s (.rm e)).load .word _).callNear (whole _) rfl _
  | callFarRm e =>
    cases e with
    | reg g => cases h
    | mem m =>
      cases h
      exact (readFar (.mem m) (located s (.rm (.mem m)))).callFar (whole _) rfl (List.mem_singleton_self _) _ _
  | ret _ => cases h; exact (start s).retNear (whole _) rfl 0
  | retImm _ v => cases h; exact (start s).retNear (whole _) rfl v
  | retf _ => cases h; exact (start s).retFar (whole _) rfl (List.mem_singleton_self _) 0
  | retfImm _ v => cases h; exact (start s).retFar (whole _) rfl (List.mem_singleton_self _) v
  | int3 => cases h; exact (start s).raise (enters_of_raises rfl) 3 _
  | intN n => cases h; exact (start s).raise (enters_of_raises rfl) n _
  | into =>
    cases h
    split
    next o => exact (start s).raise (enters_of_raises (i := .into) o) 4 _
    · exact start s
  | iret =>
    cases h
    have popped := (((start s).pop16 (whole _)).pop16 (whole _)).pop16 (A := Effects.of .iret s) (whole _)
    exact (popped.setFlags fun n k => absurd (mem_allFlags n) k).jumpFar rfl (List.mem_singleton_self _) _ _
  | nop => cases h; exact start s
  | hlt =>
    rw [exec, execHlt] at h
    split at h
    · cases h; exact ((start s).withCpu { halted := fun n => by cases n }).setResult _
    · cases h
  | wait =>
    cases h
    split
    · exact start s
    · exact (start s).flushTo rfl _
  | cmc | clc | stc =>
    cases h
    exact (start s).setFlags fun n k => by
      cases n with
      | cf => exact absurd (List.mem_singleton_self _) k
      | pf | af | zf | sf | tf | intf | df | ovf => rfl
  | cld | std =>
    cases h
    exact (start s).setFlags fun n k => by
      cases n with
      | df => exact absurd (List.mem_singleton_self _) k
      | cf | pf | af | zf | sf | tf | intf | ovf => rfl
  | cli => cases h; exact (start s).setFlags (setIntf_get s.cpu.flags false)
  | sti => cases h; exact ((start s).setFlags (setIntf_get s.cpu.flags true)).inhibit rfl
  | esc _ _ e =>
    cases e with
    | reg g => cases h; exact start s
    | mem m => cases h; exact (located s (.rm (.mem m))).load .word _
  | segEs | segCs | segSs | segDs | repnz | rep => cases h; exact (start s).setPfx rfl _
  | lock | lockAlias => cases h; exact ((start s).setPfx rfl _).holdBus rfl
  | fe2 _ | fe3 _ | fe4 _ | fe5 _ | fe6 _ | fe7 _ => cases h

end Sys2Proof.Machine
end

section
/-! PROOFS. The frame statements: what `exec` leaves unchanged of the CPU and of the board. -/

namespace Sys2Proof.Machine

/-- The address that `last_ea` holds after an instruction with this memory operand (30_encoding.md R143). -/
def State.eaAfter (s : State) : Option Mem → Word
  | some m => s.ea m
  | none => s.cpu.lastEa

theorem State.located_eq (s : State) (m : Option Mem) :
    s.located m = { s with cpu := { s.cpu with lastEa := s.eaAfter m } } := by cases m <;> rfl

/-- The meaning of an instruction permits itself no change of the CPU but those of its frame, once `last_ea` is set. -/
theorem exec_permits {i : Instr} {s t : State} (h : exec i s = .next t) :
    (Effects.of i s).Permits { s.cpu with lastEa := s.eaAfter (memOperand i) } t.cpu := by
  have d := (exec_does h).cpu
  rwa [State.located_eq] at d

theorem exec_moves {i : Instr} {s t : State} (h : exec i s = .next t) : s.board.Moves (Effects.of i s) t.board := by
  have d := (exec_does h).board
  rwa [State.located_eq] at d

end Sys2Proof.Machine

open Sys2Proof Sys2Proof.Machine

/-- Settles O19: every general register half that a meaning writes is among the halves it has a permission for. -/
theorem generalRegisterFrame : Obligations.GeneralRegisterFrame := by
  intro i s t h
  exact (exec_permits h).half

/-- Settles O20: likewise the segment registers and the flags. -/
theorem segmentAndFlagFrame : Obligations.SegmentAndFlagFrame :=
  ⟨fun _ _ _ h => (exec_permits h).sreg, fun _ _ _ h => (exec_permits h).flag⟩

/-- Settles O22: the hidden state, where `last_ea` is set before anything else happens. -/
theorem hiddenStateFrame : Obligations.HiddenStateFrame := by
  intro i s t h
  have d := exec_does h
  have p := exec_permits h
  rw [State.located_eq] at d
  refine ⟨?_, p.lastCs, p.lastIp, p.error, p.nmiLatch, p.trap, p.size, p.loaded, p.attempts, d.started, p.inhibit, ?_,
    p.rep, p.deferred, p.pfx, d.inputs, d.skipBp⟩
  · rw [p.lastEa]; cases memOperand i <;> rfl
  · exact fun n => p.halted (decide_eq_false n)

/-- Settles O23: the board is reached by memory cycles alone, but for ports, transfers and prefixes. -/
theorem boardFrame : Obligations.BoardFrame := by
  intro i s t q h
  have m := exec_moves h
  have f := m.framed q
  have fixed := f.fixed
  simp only [Board.fixed, Prod.mk.injEq] at fixed
  obtain ⟨params, mask, driveA, driveB, undescribed⟩ := fixed
  refine ⟨params, mask, f.slots.trans q, m.locked, undescribed, driveA, driveB, ?_, ?_⟩
  · intro p
    simpa [Board.devices] using f.devices p
  · intro a b c
    exact f.queue (by simp [Effects.of, a, b, c])

end

section
/-! PROOFS. Between steps: what the host does keeps the board's invariant, leaves the bus free and disturbs no suspended
repetition. -/

namespace Sys2Proof.Machine

/-- What holds of a function's argument and is kept by it holds after any number of applications. -/
theorem iter_keeps {α : Type} {P : α → Prop} {f : α → α} (h : ∀ x, P x → P (f x)) (k : Nat) {x : α} (hx : P x) :
    P (iter f k x) := by
  induction k generalizing x with
  | zero => exact hx
  | succ k ih => exact ih (h x hx)

/-- A disk is sized when it is inserted (60_exceptions.md R510). -/
theorem DiskImage.sized_isSized (im : DiskImage) : im.sized.isSized = true := by
  rw [DiskImage.isSized_iff]
  intro t ht q hq
  obtain ⟨t', -, rfl⟩ := List.mem_map.mp ht
  obtain ⟨q', -, rfl⟩ := List.mem_map.mp hq
  exact takeBytes_length _ _

theorem Uart.reset_fits : Uart.reset.Fits := ⟨by decide, by decide⟩

theorem Pic.reset_vectorBase : Pic.reset.vectorBase &&& 7 = 0 := by decide

/-! ### The board between steps -/

/-- The board as it is between steps: its invariant, and the bus not held. -/
structure Board.Settled (b : Board) : Prop where
  inv    : b.Inv
  locked : b.locked = false

namespace Board

variable {b : Board}

theorem Inv.withMask (h : b.Inv) {m : List (Nat × MaskFlags)} (k : Mask.wf m = true) :
    ({ b with mask := m } : Board).Inv := by cases h; constructor <;> assumption

theorem Inv.withEvents (h : b.Inv) (l : List OutEvent) : ({ b with events := l } : Board).Inv := by
  cases h; constructor <;> assumption

/-- A change of the serial port that leaves its interrupt output at its level. -/
theorem Inv.withUart (h : b.Inv) {u : Uart} (f : u.Fits) (o : u.irqOut = u.irqLevel) :
    ({ b with uart := u } : Board).Inv := by
  obtain ⟨ier, mcr⟩ := f
  cases h; constructor <;> assumption

namespace Settled

variable (h : b.Settled)
include h

theorem emit (e : OutEvent) : (b.emit e).Settled := ⟨h.inv.emit e, h.locked⟩

theorem slot (cs : Word) (bd : Bool) : (b.slot cs bd).Settled :=
  ⟨h.inv.slot cs bd, (slot_locked cs bd b).trans h.locked⟩

theorem runEvent (cs : Word) (bd : Bool) (e : BusEvent) : (b.runEvent cs bd e).Settled :=
  ⟨h.inv.runEvent cs bd e, (runEvent_locked cs bd b e).trans h.locked⟩

theorem runEvents (cs : Word) (bd : Bool) (l : List BusEvent) : (l.foldl (Board.runEvent cs bd) b).Settled := by
  induction l generalizing b with
  | nil => exact h
  | cons e l ih => exact ih (h.runEvent cs bd e)

theorem hostWrite (a : Nat) {f : Board → Board} (k : (f b).Settled) : (b.hostWrite a f).Settled := by
  unfold Board.hostWrite
  split
  · exact k
  · exact h.emit _

theorem setFlag (a : Nat) (n : MaskName) : (b.setFlag a n).Settled :=
  h.hostWrite a ⟨h.inv.withMask (Mask.wf_write h.inv.mask a _), h.locked⟩

theorem clearFlag (a : Nat) (n : MaskName) : (b.clearFlag a n).Settled := by
  unfold Board.clearFlag
  split
  · exact h
  · exact h.hostWrite a ⟨h.inv.withMask (Mask.wf_write h.inv.mask a _), h.locked⟩

theorem loadByte (ro : Bool) (a : Nat) (v : Byte) : (b.loadByte ro a v).Settled :=
  ⟨h.inv.copyBytes ro [v] a, by unfold Board.loadByte Board.hostWrite; split <;> exact h.locked⟩

theorem copyBytes (ro : Bool) (l : List Byte) (a : Nat) : (copyBytes ro l a b).Settled := by
  induction l generalizing a b with
  | nil => exact h
  | cons v l ih => exact ih (h.loadByte ro a v) (a + 1)

theorem loadRom (l : List (Nat × Byte)) : (loadRom l b).Settled := by
  induction l generalizing b with
  | nil => exact h
  | cons p l ih => exact ih (h.loadByte true p.1 p.2)

theorem withDrive (d : DriveName) {v : Drive} (s : v.Sized) : (b.withDrive d v).Settled :=
  ⟨h.inv.withDrive d s, by cases d <;> exact h.locked⟩

theorem driveUart {u : Uart} (f : u.Fits) : (b.driveUart u).Settled := ⟨h.inv.driveUart f, h.locked⟩

theorem withUart {u : Uart} (f : u.Fits) (o : u.irqOut = u.irqLevel) : ({ b with uart := u } : Board).Settled :=
  ⟨h.inv.withUart f o, h.locked⟩

theorem uartRun (us : Nat) : (b.uartRun us).Settled := by
  unfold Board.uartRun
  dsimp only
  split
  · exact h
  · exact iter_keeps (fun _ k => k.runEvent 0 true .uartTx) _
      (iter_keeps (fun _ k => k.runEvent 0 true .uartRx) _ (h.withUart ⟨h.inv.ier, h.inv.mcr⟩ h.inv.irqOut))

end Settled

theorem markMmio_wf (n : Nat) (a : Nat) {m : List (Nat × MaskFlags)} (h : Mask.wf m = true) :
    Mask.wf (markMmio n a m) = true := by
  induction n generalizing a m with
  | zero => exact h
  | succ n ih => exact ih (a + 1) (Mask.wf_write h a _)

theorem markRegions_wf (l : List (Nat × Option MmioDevice)) {m : List (Nat × MaskFlags)} (h : Mask.wf m = true) :
    Mask.wf (markRegions l m) = true := by
  induction l generalizing m with
  | nil => exact h
  | cons r l ih => exact ih (markMmio_wf 4096 _ h)

/-- The board after reset (R560), whatever the parameters and the inserted disks. -/
theorem resetWith_settled (p : Params) (ka kb : DriveKind) {ia ib : Option DiskImage}
    (ha : ∀ im, ia = some im → im.isSized = true) (hb : ∀ im, ib = some im → im.isSized = true) :
    (Board.resetWith p ka ia kb ib).Settled := by
  have rom := Settled.loadRom (b :=
    { params := p, pc := 0, queue := [], queueOp := .idle, bus := .reset, locked := false, mem := [], mask := [],
      pic := .reset, dma := .reset, uart := .reset, driveA := .resetWith ka ia, driveB := .resetWith kb ib,
      draws := 0, slots := [], events := (Params.collisions p).map .portCollision, undescribed := none })
    ⟨⟨rfl, rfl, Nat.zero_le _, rfl, rfl, rfl, Uart.reset_fits.ier, Uart.reset_fits.mcr, Pic.reset_vectorBase, ha, hb⟩,
      rfl⟩ p.romImage
  exact ⟨rom.inv.withMask (markRegions_wf p.mmioMap rom.inv.mask), rom.locked⟩

end Board

/-! ### The CPU between steps -/

/-- The clauses of `State.Inv` on the CPU. -/
structure Cpu.Inv (c : Cpu) : Prop where
  transient : c.pfx = .none ∧ c.size = 0
  loaded    : c.loaded = none
  again     : c.attempts ≠ 0 → c.inRep = false ∧ c.halted = false
  error     : c.error = none
  fresh     : c.inRep = false → c.decoded = none
  suspended : c.inRep = true → ∃ d, c.decoded = some d ∧ isString d.instr = true ∧ d.pfx.rep.isSome = true ∧
    d.loadsEa = d.instr.loadsEa
  deferred  : c.intrPending = true → c.inRep = true
  awake     : c.halted = true → c.inRep = false

/-- `State.Inv` but for what the step checks last: that nothing without a described effect has happened. -/
structure State.Sound (s : State) : Prop where
  cpu   : s.cpu.Inv
  board : s.board.Settled

theorem State.Inv.sound {s : State} (h : s.Inv) : s.Sound := by
  obtain ⟨board, -, locked, transient, loaded, again, error, fresh, suspended, deferred, awake⟩ := h
  exact ⟨⟨transient, loaded, again, error, fresh, suspended, deferred, awake⟩, board, locked⟩

theorem State.Sound.inv {s : State} (h : s.Sound) (d : s.board.undescribed = none) : s.Inv := by
  obtain ⟨⟨transient, loaded, again, error, fresh, suspended, deferred, awake⟩, board, locked⟩ := h
  exact ⟨board, d, locked, transient, loaded, again, error, fresh, suspended, deferred, awake⟩

/-- Where the machine stands in its course: attempts, error, halt, repetition. -/
def Cpu.course (c : Cpu) : Nat × Option Fault × Bool × Bool × Option Decoded × Bool :=
  (c.attempts, c.error, c.halted, c.inRep, c.decoded, c.intrPending)

/-- The transient state (10_state.md R34). -/
def Cpu.transients (c : Cpu) : Prefixes × Nat × Option Word := (c.pfx, c.size, c.loaded)

/-- The clauses on the CPU speak of its course and of the transient state only. -/
theorem Cpu.Inv.of_eq {c d : Cpu} (h : c.Inv) (e : d.course = c.course) (f : d.transients = c.transients) : d.Inv := by
  simp only [Cpu.course, Cpu.transients, Prod.mk.injEq] at e f
  obtain ⟨attempts, error, halted, inRep, decoded, pending⟩ := e
  obtain ⟨pfx, size, loaded⟩ := f
  constructor
  case transient => rw [pfx, size]; exact h.transient
  case loaded => rw [loaded]; exact h.loaded
  case again => rw [attempts, inRep, halted]; exact h.again
  case error => rw [error]; exact h.error
  case fresh => rw [inRep, decoded]; exact h.fresh
  case suspended => rw [inRep, decoded]; exact h.suspended
  case deferred => rw [pending, inRep]; exact h.deferred
  case awake => rw [halted, inRep]; exact h.awake

theorem Cpu.resetWith_inv (g : ResetGpr) : (Cpu.resetWith g).Inv where
  transient := ⟨rfl, rfl⟩
  loaded := rfl
  again h := absurd rfl h
  error := rfl
  fresh _ := rfl
  suspended h := by cases h
  deferred h := by cases h
  awake h := by cases h

/-- The machine after reset under any parameters. -/
theorem State.resetWith_sound (p : Params) : (State.resetWith p).Sound :=
  ⟨Cpu.resetWith_inv _, Board.resetWith_settled p _ _ (fun _ e => by cases e) (fun _ e => by cases e)⟩

theorem State.reset_eq : State.reset = State.resetWith Params.initial := rfl

/-! ### The host (70_reset_and_hazards.md R590) -/

namespace State

variable {s : State}

theorem Sound.withBoard (h : s.Sound) {b : Board} (k : b.Settled) : (s.setBoard b).Sound := ⟨h.cpu, k⟩

theorem hostReset_sound (h : s.Sound) : s.hostReset.Sound := by
  have k := Board.resetWith_settled s.board.params s.board.driveA.kind s.board.driveB.kind h.board.inv.diskA
    h.board.inv.diskB
  refine ⟨Cpu.resetWith_inv _, ?_, k.locked⟩
  obtain ⟨inv, -⟩ := k
  unfold hostReset
  cases inv; constructor <;> assumption

theorem act_sound (h : s.Sound) (a : HostAction) : (s.act a).Sound := by
  have b := h.board
  cases a with
  | reset => exact hostReset_sound h
  | copyFrom bytes a ro =>
    refine h.withBoard ?_
    split
    · exact ⟨b.inv.withUndescribed _, b.locked⟩
    · exact b.copyBytes ro bytes a
  | setBreakpoint a on | setStopwatch a on =>
    refine h.withBoard ?_
    split
    · exact b.setFlag a _
    · exact b.clearFlag a _
  | nmi => exact ⟨h.cpu.of_eq rfl rfl, b⟩
  | requestInterrupt n | clearInterrupt n => exact h.withBoard (b.runEvent _ true _)
  | devicePeriod us evs => exact h.withBoard ((b.uartRun us).runEvents _ true evs)
  | insertDisk d kind im => exact h.withBoard (b.withDrive d fun _ e => by cases e; exact im.sized_isSized)
  | removeDisk d => exact h.withBoard (b.withDrive d fun _ e => by cases e)
  | floppy d op => exact h.withBoard (b.runEvent 0 true (.floppy d op))
  | serialIn bytes => exact h.withBoard (b.withUart ⟨b.inv.ier, b.inv.mcr⟩ b.inv.irqOut)
  | lineError p f k => exact h.withBoard (b.withUart ⟨b.inv.ier, b.inv.mcr⟩ b.inv.irqOut)
  | modemLines c d r k => exact h.withBoard (b.driveUart ⟨b.inv.ier, b.inv.mcr⟩)
  | takeEvents => exact h.withBoard ⟨b.inv.withEvents [], b.locked⟩
  | skipBreakpoint on => exact ⟨h.cpu, b⟩

theorem applyActions_sound (l : List HostAction) (h : s.Sound) : (s.applyActions l).Sound := by
  induction l generalizing s with
  | nil => exact h
  | cons a l ih => exact ih (act_sound h a)

end State

end Sys2Proof.Machine
end

section
/-! PROOFS. Every step keeps `State.Inv`: taking an instruction, running it, retiring it, sampling interrupts, and the
halted state. -/

namespace Sys2Proof.Machine

/-- A Bool that implies one that is false. -/
theorem eq_false_of_imp {a b : Bool} (h : a = true → b = true) (n : b = false) : a = false :=
  Bool.eq_false_iff.mpr fun p => absurd (n.symm.trans (h p)) nofun

theorem State.fail_ne_next (s : State) (f : Fault) (t : State) : s.fail f ≠ .next t := by
  unfold State.fail
  split <;> exact nofun

/-! ### Sampling (60_exceptions.md R445) -/

/-- The permissions of an interrupt entry and of nothing else. -/
def Effects.entry : Effects where
  halves    := wordHalves .sp
  sregs     := [.cs]
  flags     := [.tf, .intf]
  inhibits  := false
  halts     := false
  enters    := true
  strings   := false
  prefixes  := false
  ports     := false
  transfers := true

theorem Effects.entry_enters : Effects.entry.Enters := by constructor <;> decide

namespace State

variable {s t : State}

/-- An entry ends a repetition and a halt; no INTR may then be deferred. -/
theorem enter_sound (h : s.Sound) (d : s.cpu.intrPending = false) (n : Byte) (ret : Word) : (s.enter n ret).Sound := by
  have m := ((Does.start s).enter Effects.entry_enters n ret).board
  refine ⟨?_, m.inv h.board.inv, (m.locked rfl).trans h.board.locked⟩
  obtain ⟨transient, loaded, again, error, fresh, suspended, deferred, awake⟩ := h.cpu
  rw [enter_cpu]
  have pending (p : s.cpu.intrPending = true) : False := absurd (d.symm.trans p) nofun
  exact ⟨transient, loaded, fun _ => ⟨rfl, rfl⟩, error, fun _ => rfl, nofun, fun p => (pending p).elim, nofun⟩

theorem stepFinish_sound (h : s.Sound) (d : s.cpu.intrPending = false) : s.stepFinish.Sound := by
  have b := h.board
  obtain ⟨transient, loaded, again, error, fresh, suspended, deferred, awake⟩ := h.cpu
  unfold stepFinish
  dsimp only
  split
  · exact h
  · split
    next r =>
      have r : s.cpu.inRep = true := (Bool.and_eq_true _ _ ▸ r).1
      exact ⟨⟨transient, loaded, again, error, fresh, suspended, fun _ => r, awake⟩, b⟩
    · split
      · have cleared : ({ s with cpu := { s.cpu with nmiLatch := false } } : State).Sound := ⟨h.cpu.of_eq rfl rfl, b⟩
        exact enter_sound cleared d 2 _
      · split
        · have vector : s.board.pic.acknowledge.2.vectorBase &&& 7 = 0 := by
            rw [Pic.acknowledge_vectorBase]; exact b.inv.vector
          exact enter_sound (h.withBoard ⟨b.inv.withPic vector, b.locked⟩) d _ _
        · split
          · exact enter_sound h d 1 _
          · exact h

end State

/-! ### Running an instruction -/

/-- After the meaning of an instruction: a record is kept exactly while a repetition of a string instruction is
suspended (10_state.md R33, 44_string.md R321), and no INTR is deferred. -/
structure Cpu.Repeats (c : Cpu) : Prop where
  fresh     : c.inRep = false → c.decoded = none
  suspended : c.inRep = true → ∃ d, c.decoded = some d ∧ isString d.instr = true ∧ d.pfx.rep.isSome = true ∧
    d.loadsEa = d.instr.loadsEa
  deferred  : c.intrPending = false

/-- What the CPU holds when the instruction `i` executes: a repetition is suspended only where `i` is the string
instruction repeated. -/
structure Cpu.Runs (c : Cpu) (i : Instr) : Prop where
  attempts : c.attempts = 0
  error    : c.error = none
  halted   : c.halted = false
  fresh    : c.inRep = false → c.decoded = none
  deferred : c.intrPending = true → c.inRep = true
  string   : c.inRep = true → isString i = true ∧ c.pfx.rep.isSome = true

/-- The permissions of one element of a string instruction. -/
def Effects.element : Effects where
  halves    := wordHalves .ax ++ wordHalves .si ++ wordHalves .di
  sregs     := []
  flags     := statusFlags
  inhibits  := false
  halts     := false
  enters    := false
  strings   := false
  prefixes  := false
  ports     := false
  transfers := false

/-- A string instruction is `runString` over an element that leaves the repetition alone. -/
theorem exec_string {i : Instr} (k : isString i = true) (s : State) :
    ∃ c prim, exec i s = .next (s.runString i c prim) ∧ s.Does .element (prim s) := by
  cases i with
  | movsb | movsw => exact ⟨_, _, rfl, .movs (by decide)⟩
  | cmpsb | cmpsw => exact ⟨_, _, rfl, .cmps (by decide) (by decide)⟩
  | stosb | stosw => exact ⟨_, _, rfl, .stos (by decide)⟩
  | lodsb => exact ⟨_, _, rfl, .lods (w := .byte) (by decide)⟩
  | lodsw => exact ⟨_, _, rfl, .lods (w := .word) (by decide)⟩
  | scasb | scasw => exact ⟨_, _, rfl, .scas (by decide) (by decide)⟩
  | _ => cases k

theorem isString_effects {i : Instr} (k : isString i = true) (s : State) : i ≠ .hlt ∧ raises i s = false := by
  cases i with
  | movsb | movsw | cmpsb | cmpsw | stosb | stosw | lodsb | lodsw | scasb | scasw => exact ⟨nofun, rfl⟩
  | _ => cases k

theorem State.repIterate_repeats {s : State} {prim : State → State} (e : s.Does .element (prim s))
    (p : s.cpu.pfx.rep.isSome = true) (d : s.cpu.intrPending = false) {i : Instr} (n : isString i = true) (k : RepKind)
    (c : Bool) : (s.repIterate i k c prim).cpu.Repeats := by
  have pfx := e.cpu.pfx rfl
  have deferred := (e.cpu.deferred rfl).trans d
  unfold State.repIterate
  dsimp only
  split
  · exact ⟨nofun, fun _ => ⟨_, rfl, n, pfx ▸ p, rfl⟩, deferred⟩
  · exact ⟨fun _ => rfl, nofun, deferred⟩

/-- An instruction that begins with no repetition suspended and leaves it so. -/
theorem Cpu.Runs.repeats {c d : Cpu} {i : Instr} (r : c.Runs i) (n : c.inRep = false)
    (rep : d.inRep = false ∧ d.decoded = none) (pending : d.intrPending = c.intrPending) : d.Repeats :=
  ⟨fun _ => rep.2, fun k => absurd (rep.1.symm.trans k) nofun, pending.trans (eq_false_of_imp r.deferred n)⟩

theorem State.runString_repeats {s : State} {i : Instr} (k : isString i = true) (r : s.cpu.Runs i)
    {prim : State → State} (e : s.Does .element (prim s)) (c : Bool) : (s.runString i c prim).cpu.Repeats := by
  unfold State.runString
  split
  next p =>
    have n : s.cpu.inRep = false := eq_false_of_imp (fun m => (r.string m).2) (by rw [p]; rfl)
    exact r.repeats n (e.cpu.idle rfl ⟨n, r.fresh n⟩) (e.cpu.deferred rfl)
  next x p =>
    have rep : s.cpu.pfx.rep.isSome = true := by rw [p]; rfl
    split
    · split
      · exact ⟨fun _ => rfl, nofun, rfl⟩
      next d => exact repIterate_repeats e rep (by simpa using d) k x c
    next n =>
      have n : s.cpu.inRep = false := by simpa using n
      split
      · exact r.repeats n ⟨n, r.fresh n⟩ rfl
      · exact repIterate_repeats e rep (eq_false_of_imp r.deferred n) k x c

/-- Any instruction: only a string instruction leaves a repetition suspended, and nothing else is run in one. -/
theorem exec_repeats {i : Instr} {s t : State} (r : s.cpu.Runs i) (h : exec i s = .next t) :
    t.cpu.Repeats ∧ (t.cpu.halted = true → t.cpu.inRep = false) := by
  have p := exec_permits h
  cases k : isString i with
  | true =>
    obtain ⟨c, prim, e, d⟩ := exec_string k s
    cases e.symm.trans h
    obtain ⟨x, y⟩ := isString_effects k s
    have halted := (p.halted (decide_eq_false x) y).trans r.halted
    exact ⟨State.runString_repeats k r d c, fun m => absurd (halted.symm.trans m) nofun⟩
  | false =>
    have n : s.cpu.inRep = false := eq_false_of_imp (fun n => (r.string n).1) k
    have rep := p.idle k ⟨n, r.fresh n⟩
    exact ⟨r.repeats n rep (p.deferred k), fun _ => rep.1⟩

/-- What is left of `Cpu.Inv` once the transient state is dropped. -/
theorem exec_inv {i : Instr} {s t : State} (r : s.cpu.Runs i) (h : exec i s = .next t) :
    t.dropTransient.cpu.Inv ∧ t.cpu.intrPending = false := by
  have p := exec_permits h
  obtain ⟨⟨fresh, suspended, deferred⟩, awake⟩ := exec_repeats r h
  have again : t.cpu.attempts = 0 := p.attempts.trans r.attempts
  have error : t.cpu.error = none := p.error.trans r.error
  have pending (q : t.cpu.intrPending = true) : t.cpu.inRep = true := absurd (deferred.symm.trans q) nofun
  exact ⟨⟨⟨rfl, rfl⟩, rfl, fun n => absurd again n, error, fresh, suspended, pending, awake⟩, deferred⟩

namespace State

variable {s t : State}

theorem retire_sound (c : s.dropTransient.cpu.Inv) (d : s.cpu.intrPending = false) (b : s.board.Inv) :
    s.retire.Sound :=
  stepFinish_sound ⟨c, Board.Settled.slot ⟨b.withLocked false, rfl⟩ _ true⟩ d

theorem finishExec_sound {i : Instr} (r : s.cpu.Runs i) (b : s.board.Inv) (h : s.finishExec i = .next t) : t.Sound := by
  unfold finishExec at h
  split at h
  next u e =>
    cases h
    obtain ⟨c, d⟩ := exec_inv (s := s.innerSlot) r e
    exact retire_sound c d ((exec_moves e).inv (b.slot _ false))
  next f e => exact absurd h (fail_ne_next _ f t)
  · cases h

end State

/-! ### Taking an instruction (30_encoding.md R162) -/

/-- An instruction is being taken from its first byte: nothing is halted, suspended, deferred or in error. -/
structure State.Fresh (s : State) : Prop where
  cpu   : s.cpu.course = (0, none, false, false, none, false)
  board : s.board.Inv

/-- What a decode loop answers is fresh, and no next state where it stops. -/
def Taken.Fresh : Taken → Prop
  | .instr _ t | .more t => t.Fresh
  | .stop _ o => ∀ u, o ≠ .next u

theorem isPrefix_effects {i : Instr} (k : isPrefix i = true) (s : State) :
    i ≠ .hlt ∧ raises i s = false ∧ isString i = false := by
  cases i with
  | segEs | segCs | segSs | segDs | lock | lockAlias | repnz | rep => exact ⟨nofun, rfl, rfl⟩
  | _ => cases k

namespace State

variable {s t : State}

theorem Fresh.runs (h : s.Fresh) (i : Instr) : s.cpu.Runs i := by
  have c := h.cpu
  simp only [Cpu.course, Prod.mk.injEq] at c
  obtain ⟨attempts, error, halted, inRep, decoded, deferred⟩ := c
  exact ⟨attempts, error, halted, fun _ => decoded, fun p => absurd (deferred.symm.trans p) nofun,
    fun p => absurd (inRep.symm.trans p) nofun⟩

theorem Fresh.loadEarly (h : s.Fresh) (bs : List Byte) : (s.loadEarly bs).Fresh := by
  unfold State.loadEarly
  split
  · exact h
  next w m _ => cases w with
    | byte => exact ⟨h.cpu, h.board.rd8 _ _ _⟩
    | word => exact ⟨h.cpu, h.board.rd16 _ _ _⟩

theorem Fresh.takeCode (h : s.Fresh) (op : QueueOp) : (s.takeCode op).2.Fresh := ⟨h.cpu, h.board.fetch8 _ op⟩

theorem Fresh.fetchUnit (n : Nat) {op : QueueOp} {acc : List Byte} {i : Instr} (h : s.Fresh)
    (e : s.fetchUnit op acc n = some (i, t)) : t.Fresh := by
  induction n generalizing s op acc with
  | zero =>
    unfold State.fetchUnit at e
    split at e <;> cases e
    exact h
  | succ n ih =>
    unfold State.fetchUnit at e
    split at e
    · cases e; exact h
    · exact ih ((h.loadEarly acc).takeCode op) e

/-- The bytes before an instruction change the prefixes and the hold of the bus only. -/
theorem Fresh.execPrefix {i : Instr} (h : s.Fresh) (k : isPrefix i = true) (e : exec i s = .next t) : t.Fresh := by
  have p := exec_permits e
  obtain ⟨x, y, z⟩ := isPrefix_effects k s
  obtain ⟨inRep, decoded⟩ := p.rep z y
  refine ⟨?_, (exec_moves e).inv h.board⟩
  rw [← h.cpu]
  simp only [Cpu.course, p.attempts, p.error, p.halted (decide_eq_false x) y, inRep, decoded, p.deferred z]

theorem Fresh.takeUnits (n : Nat) {op : QueueOp} (h : s.Fresh) : (s.takeUnits op n).Fresh := by
  induction n generalizing s op with
  | zero => exact h
  | succ n ih =>
    unfold State.takeUnits
    split
    · exact fail_ne_next _ _
    next i t e =>
      have u := h.fetchUnit 6 e
      split
      · split
        next k =>
          split
          next v d => exact ih (u.execPrefix k d)
          · exact fun _ c => by cases c
          · exact fun _ c => by cases c
        · exact u
      · exact fail_ne_next _ _

theorem Fresh.takeRest (h : s.Fresh) (n : Nat) : (s.takeRest n).Fresh := by
  obtain ⟨e, -⟩ | e := s.takeRest_cases n
  · rw [e]; exact h.takeUnits n
  · rw [e]; exact Fresh.takeUnits n ⟨h.cpu, h.board.withLocked true⟩

theorem Fresh.takeAll (h : s.Fresh) (n : Nat) : (s.takeAll n).Fresh := by
  have first := h.takeUnits 1 (op := .first)
  unfold State.takeAll
  split <;> rename_i e <;> rw [e] at first
  · exact Fresh.takeRest first n
  · exact first
  · exact first

/-! ### The step -/

/-- A sound machine that is neither halted nor in a repetition can take an instruction. -/
theorem Sound.fresh (h : s.Sound) (halted : s.cpu.halted = false) (inRep : s.cpu.inRep = false) :
    ({ s with cpu := { s.cpu with attempts := 0 } } : State).Fresh := by
  have d : s.cpu.intrPending = false := eq_false_of_imp h.cpu.deferred inRep
  refine ⟨?_, h.board.inv⟩
  simp only [Cpu.course, h.cpu.error, halted, inRep, h.cpu.fresh inRep, d]

theorem attempt_sound (n : Nat) (h : s.Sound) (halted : s.cpu.halted = false) (inRep : s.cpu.inRep = false)
    (e : s.attempt n = .next t) : t.Sound := by
  have taken := (h.fresh halted inRep).takeAll n
  obtain ⟨i, u, r, k⟩ | ⟨u, o, r, k⟩ | ⟨u, r, k⟩ := s.attempt_cases n <;> rw [k] at e <;> rw [r] at taken
  · exact finishExec_sound (Fresh.runs taken i) (Fresh.board taken) e
  · exact absurd e (taken t)
  · cases e
    obtain ⟨transient, loaded, again, error, fresh, suspended, deferred, awake⟩ := h.cpu
    exact ⟨⟨transient, loaded, fun _ => ⟨inRep, halted⟩, error, fresh, suspended, deferred, awake⟩, h.board⟩

theorem runFresh_sound (h : s.Sound) (halted : s.cpu.halted = false) (inRep : s.cpu.inRep = false)
    (e : s.runFresh = .next t) : t.Sound := by
  have transients : s.cpu.transients = (.none, 0, none) := by
    rw [Cpu.transients, h.cpu.transient.1, h.cpu.transient.2, h.cpu.loaded]
  have k : ({ s with cpu := { s.cpu with lastCs := s.sreg .cs, lastIp := s.ip } } : State).dropTransient.Sound :=
    ⟨h.cpu.of_eq rfl transients.symm, h.board⟩
  exact attempt_sound _ k halted inRep e

theorem beginStep_sound (h : s.Sound) : s.beginStep.Sound :=
  ⟨h.cpu.of_eq rfl rfl, h.board.inv.withQueueOp _, h.board.locked⟩

/-- The next iteration of a suspended repetition runs under the record that was kept (R33). -/
theorem Sound.resumed (h : s.Sound) (halted : s.cpu.halted = false) (inRep : s.cpu.inRep = true) {d : Decoded}
    (e : s.cpu.decoded = some d) : (s.resumeRep d).cpu.Runs d.instr := by
  obtain ⟨transient, loaded, again, error, fresh, suspended, deferred, awake⟩ := h.cpu
  obtain ⟨d', k, string, rep, -⟩ := suspended inRep
  cases e.symm.trans k
  have attempts : s.cpu.attempts = 0 := by
    by_contra n
    exact absurd (inRep.symm.trans (again n).1) nofun
  exact ⟨attempts, error, halted, fresh, deferred, fun _ => ⟨string, rep⟩⟩

theorem runStep_sound (h : s.Sound) (halted : s.cpu.halted = false) (e : s.runStep = .next t) : t.Sound := by
  have b := beginStep_sound h
  unfold runStep at e
  dsimp only at e
  split at e
  next r =>
    split at e
    next d k => exact finishExec_sound (b.resumed halted r k) (b.board.inv.withLocked _) e
    · exact absurd e (fail_ne_next _ _ _)
  next r => exact runFresh_sound b halted (by simpa using r) e

/-- The idle window of a halted step lets the other agents act on the board only. -/
theorem idleWindow_keeps (b : s.board.Settled) (k : Nat) :
    (iter boundarySlot k s).cpu = s.cpu ∧ (iter boundarySlot k s).board.Settled :=
  iter_keeps (P := fun u : State => u.cpu = s.cpu ∧ u.board.Settled) (f := boundarySlot)
    (fun _ p => ⟨p.1, p.2.slot _ true⟩) k ⟨rfl, b⟩

theorem idleStep_sound (h : s.Sound) (halted : s.cpu.halted = true) (e : s.idleStep = .next t) : t.Sound := by
  obtain ⟨c, b⟩ := idleWindow_keeps (s := s.setBoard { s.board with queueOp := .idle })
    ⟨h.board.inv.withQueueOp _, h.board.locked⟩ s.board.params.idleWindow
  have course := congrArg Cpu.course c
  have transients := congrArg Cpu.transients c
  have deferred := congrArg Cpu.intrPending c
  have pending : s.cpu.intrPending = false := eq_false_of_imp h.cpu.deferred (h.cpu.awake halted)
  unfold idleStep at e
  split at e
  · cases e
  · cases e
    exact stepFinish_sound ⟨h.cpu.of_eq course transients, b⟩ (deferred.trans pending)

theorem stepCore_sound (h : s.Sound) {skip : Bool} (e : s.stepCore skip = .next t) : t.Sound := by
  unfold stepCore at e
  split at e
  · exact absurd e (fail_ne_next _ _ _)
  · split at e
    next halted => exact idleStep_sound h halted e
    next halted =>
      have halted : s.cpu.halted = false := by simpa using halted
      split at e
      · exact runStep_sound h halted e
      · split at e
        · cases e; exact ⟨h.cpu.of_eq rfl rfl, h.board⟩
        · split at e
          · exact runStep_sound (h.withBoard (h.board.emit _)) halted e
          · exact runStep_sound h halted e

theorem step_sound (h : s.Sound) (e : step s = .next t) : t.Sound := by
  obtain ⟨e, -⟩ := described_eq_next e
  split at e
  · have acted := applyActions_sound (s.inputs.headD []) h
    exact stepCore_sound (s := { s.applyActions (s.inputs.headD []) with
      inputs := s.inputs.tail, skipBp := false, started := true }) ⟨acted.cpu, acted.board⟩ e
  next n =>
    obtain ⟨inRep, halted⟩ := h.cpu.again n
    exact runFresh_sound h halted inRep e

end State

end Sys2Proof.Machine

open Sys2Proof Sys2Proof.Machine

/-- Settles O15: reset with the initial parameters is one of the resets that leave a sound machine. -/
theorem resetMeetsInvariant : Obligations.ResetMeetsInvariant := by
  unfold Obligations.ResetMeetsInvariant
  rw [State.reset_eq]
  exact (State.resetWith_sound Params.initial).inv rfl

/-- Settles O16: every part of a step keeps `State.Sound`, and a step that answers has nothing undescribed. -/
theorem stepKeepsInvariant : Obligations.StepKeepsInvariant := by
  intro s t h e
  exact (State.step_sound h.sound e).inv (described_eq_next e).2

end

section
/-! PROOFS. What no step changes, whatever instruction runs and whatever the other agents do: the ROM bytes, the
parameters, the mask array, and a drive that no operation is scheduled on. -/

namespace Sys2Proof.Machine

/-- An agent is scheduled to act so (00_scope.md R7). -/
def Board.Schedules (b : Board) (e : BusEvent) : Prop := ∃ evs ∈ b.slots, e ∈ evs

/-- `c` keeps the ROM bytes and the configuration of `b`, and every drive without a scheduled operation. It composes, as
nothing joins the schedule. -/
structure Board.Keeps (b c : Board) : Prop where
  params : c.params = b.params := by rfl
  mask   : c.mask = b.mask := by rfl
  rom    : ∀ a, (Mask.read b.mask a).rom = true → Memory.read c.mem a = Memory.read b.mem a := by intros; rfl
  drive  : ∀ d, (∀ op, ¬ b.Schedules (.floppy d op)) → c.drive d = b.drive d := by intros; rfl
  slots  : c.slots ⊆ b.slots := by exact List.Subset.refl _

namespace Board

variable {b c e : Board}

theorem Keeps.refl (b : Board) : b.Keeps b := {}

theorem Schedules.of_subset {ev : BusEvent} (h : c.Schedules ev) (k : c.slots ⊆ b.slots) : b.Schedules ev := by
  obtain ⟨evs, m, n⟩ := h
  exact ⟨evs, k m, n⟩

theorem Keeps.trans (h : b.Keeps c) (k : c.Keeps e) : b.Keeps e where
  params := k.params.trans h.params
  mask := k.mask.trans h.mask
  rom a r := (k.rom a (h.mask ▸ r)).trans (h.rom a r)
  drive d n := (k.drive d fun op m => n op (m.of_subset h.slots)).trans (h.drive d n)
  slots := List.Subset.trans k.slots h.slots

/-! ### Memory cycles -/

/-- What only touches memory keeps everything once it keeps the ROM bytes. -/
theorem Touches.keeps {as : List Nat} (h : b.Touches as c)
    (r : ∀ a, (Mask.read b.mask a).rom = true → Memory.read c.mem a = Memory.read b.mem a) : b.Keeps c where
  params := h.params
  mask := h.mask
  rom := r
  drive d _ := by rw [h.rest]; rfl
  slots := h.slots ▸ List.Subset.refl _

theorem keeps_memRead (b : Board) (a : Nat) : b.Keeps (b.memRead a).2 :=
  (memRead_touches b a).keeps fun x _ => (memRead_touches b a).mem x List.not_mem_nil

/-- 20_memory.md R81: a write to a ROM byte is dropped. -/
theorem memWrite_rom {a : Nat} (r : (Mask.read b.mask a).rom = true) (v : Byte) : (b.memWrite a v).mem = b.mem := by
  rw [memWrite, if_pos r]
  split
  · split <;> rfl
  · rfl

theorem keeps_memWrite (b : Board) (a : Nat) (v : Byte) : b.Keeps (b.memWrite a v) := by
  refine (memWrite_touches b a v).keeps fun x r => ?_
  by_cases e : x = a
  · subst e; rw [memWrite_rom r]
  · exact (memWrite_touches b a v).mem x (by simpa using e)

/-! ### The other agents -/

theorem keeps_fetchNext (b : Board) (cs : Word) : b.Keeps (b.fetchNext cs) := (keeps_memRead b _).trans {}

theorem keeps_prefetchStep (b : Board) (cs : Word) : b.Keeps (b.prefetchStep cs) := by
  unfold prefetchStep
  split
  · exact keeps_fetchNext b cs
  · exact .refl b

theorem keeps_dmaRead (b : Board) (a : Nat) : b.Keeps (b.dmaRead a).2 := by
  unfold dmaRead
  split
  · exact keeps_memRead b a
  · exact {}

theorem keeps_dmaWrite (b : Board) (a : Nat) (v : Byte) : b.Keeps (b.dmaWrite a v) := by
  unfold dmaWrite
  split
  · exact keeps_memWrite b a v
  · exact {}

/-- 60_exceptions.md R496: the controller reaches memory by the same reads and writes as the CPU. -/
theorem keeps_dmaTransfer (b : Board) (n : BitVec 2) (din : Byte) : b.Keeps (b.dmaTransfer n din) := by
  unfold dmaTransfer
  dsimp only
  split
  · split
    · exact {}
    · split
      · exact (keeps_dmaWrite b _ din).trans {}
      · exact (keeps_dmaRead b _).trans {}
      · exact {}
      · exact {}
  · exact .refl b

theorem keeps_dmaRun (b : Board) (pick : BitVec 2) (din : Byte) : b.Keeps (b.dmaRun pick din) := by
  unfold dmaRun
  split
  · exact .refl b
  next n _ => exact (keeps_dmaTransfer b n din).trans {}

theorem keeps_uartTx (b : Board) : b.Keeps b.uartTx := by
  unfold uartTx
  dsimp only
  split <;> exact {}

/-- An operation of the floppy engine changes its drive, the PIC, and the note of what is not described. -/
theorem runFloppy_rest (b : Board) (d : DriveName) (op : FloppyOp) :
    b.runFloppy d op = { b with driveA := (b.runFloppy d op).driveA, driveB := (b.runFloppy d op).driveB,
                                pic := (b.runFloppy d op).pic, undescribed := (b.runFloppy d op).undescribed } := by
  unfold runFloppy
  split
  · rfl
  · split <;> cases d <;> rfl

theorem runFloppy_drive_other (b : Board) {d k : DriveName} (n : k ≠ d) (op : FloppyOp) :
    (b.runFloppy d op).drive k = b.drive k := by
  have other (v : Drive) : (b.withDrive d v).drive k = b.drive k := by
    cases d with
    | a => cases k with
      | a => exact absurd rfl n
      | b => rfl
    | b => cases k with
      | a => rfl
      | b => exact absurd rfl n
  unfold runFloppy
  split
  · rfl
  next v _ =>
    split
    · exact other v
    · exact other v

theorem Keeps.runFloppy (h : b.Keeps c) {d : DriveName} {op : FloppyOp} (p : b.Schedules (.floppy d op)) :
    b.Keeps (c.runFloppy d op) where
  params := by rw [runFloppy_rest]; exact h.params
  mask := by rw [runFloppy_rest]; exact h.mask
  rom := by rw [runFloppy_rest]; exact h.rom
  drive k n := by
    have other : k ≠ d := fun e => n op (e ▸ p)
    exact (runFloppy_drive_other c other op).trans (h.drive k n)
  slots := by rw [runFloppy_rest]; exact h.slots

/-- An agent acts as it was scheduled to. -/
theorem Keeps.runEvent (h : b.Keeps c) {ev : BusEvent} (p : b.Schedules ev) (cs : Word) (bd : Bool) :
    b.Keeps (c.runEvent cs bd ev) := by
  cases ev with
  | prefetch => exact h.trans (keeps_prefetchStep c cs)
  | dmaRun pick din =>
    unfold Board.runEvent
    dsimp only
    split
    · exact h
    · exact h.trans (keeps_dmaRun c pick din)
  | uartTx => exact h.trans (keeps_uartTx c)
  | floppy d op => exact h.runFloppy p
  | dmaRequest _ | uartRx | requestInterrupt _ | clearInterrupt _ => exact h.trans {}

theorem Keeps.runEvents (cs : Word) (bd : Bool) (l : List BusEvent) (p : ∀ ev ∈ l, b.Schedules ev) (h : b.Keeps c) :
    b.Keeps (l.foldl (Board.runEvent cs bd) c) := by
  induction l generalizing c with
  | nil => exact h
  | cons ev l ih =>
    exact ih (fun e m => p e (List.mem_cons_of_mem ev m)) (h.runEvent (p ev List.mem_cons_self) cs bd)

theorem keeps_slot (b : Board) (cs : Word) (bd : Bool) : b.Keeps (b.slot cs bd) := by
  unfold slot
  split
  · exact .refl b
  next evs rest e =>
    have popped : b.Keeps { b with slots := rest } := { slots := e ▸ List.subset_cons_self evs rest }
    exact popped.runEvents cs bd evs fun ev m => ⟨evs, e ▸ List.mem_cons_self, m⟩

/-! ### The accesses of the CPU -/

theorem keeps_rd8 (b : Board) (cs seg off : Word) : b.Keeps (b.rd8 cs seg off).2 :=
  ((keeps_slot b cs false).trans (keeps_memRead _ _)).trans {}

theorem keeps_wr8 (b : Board) (cs seg off : Word) (v : Byte) : b.Keeps (b.wr8 cs seg off v) :=
  ((keeps_slot b cs false).trans (keeps_memWrite _ _ v)).trans {}

theorem keeps_fetch8 (b : Board) (cs : Word) (op : QueueOp) : b.Keeps (b.fetch8 cs op).2 := by
  have slot := keeps_slot b cs false
  unfold fetch8
  dsimp only
  split
  · exact (slot.trans (keeps_fetchNext _ cs)).trans {}
  · exact slot.trans {}

theorem PortCycle.keeps {cs : Word} (h : b.PortCycle cs c) : b.Keeps c := by
  obtain ⟨d, st, a, v, r, rfl⟩ := h
  refine (keeps_slot b cs false).trans ?_
  rw [r]
  exact {}

theorem Moves.keeps {A : Effects} (m : b.Moves A c) : b.Keeps c := by
  induction m with
  | refl => exact .refl b
  | rd8 _ cs seg off ih => exact ih.trans (keeps_rd8 _ cs seg off)
  | wr8 _ cs seg off v ih => exact ih.trans (keeps_wr8 _ cs seg off v)
  | spend _ _ ih | flush _ _ _ ih | lock _ _ ih => exact ih.trans {}
  | ioRead _ _ e ih => exact ih.trans (ioRead_cycle e).keeps
  | ioWrite _ _ e ih => exact ih.trans (ioWrite_cycle e).keeps

end Board

/-! ### Taking an instruction (30_encoding.md R162) -/

/-- The state that a decode loop has reached keeps what `b` holds; no next state comes from where it stops. -/
def Taken.KeepsFrom (b : Board) : Taken → Prop
  | .instr _ t | .more t => b.Keeps t.board
  | .stop _ o => ∀ u, o ≠ .next u

namespace State

variable {s t : State} {b : Board}

theorem keeps_loadEarly (s : State) (bs : List Byte) : s.board.Keeps (s.loadEarly bs).board := by
  unfold loadEarly
  split
  · exact .refl _
  next w m _ =>
    cases w with
    | byte => exact Board.keeps_rd8 _ _ _ _
    | word => exact (Board.keeps_rd8 _ _ _ _).trans (Board.keeps_rd8 _ _ _ _)

theorem keeps_fetchUnit (n : Nat) {op : QueueOp} {acc : List Byte} {i : Instr} (h : b.Keeps s.board)
    (e : s.fetchUnit op acc n = some (i, t)) : b.Keeps t.board := by
  induction n generalizing s op acc with
  | zero =>
    unfold fetchUnit at e
    split at e <;> cases e
    exact h
  | succ n ih =>
    unfold fetchUnit at e
    split at e
    · cases e; exact h
    · exact ih ((h.trans (keeps_loadEarly s acc)).trans (Board.keeps_fetch8 _ _ op)) e

theorem keeps_takeUnits (n : Nat) {op : QueueOp} (h : b.Keeps s.board) : (s.takeUnits op n).KeepsFrom b := by
  induction n generalizing s op with
  | zero => exact h
  | succ n ih =>
    unfold takeUnits
    split
    · exact fail_ne_next _ _
    next i t e =>
      have unit := keeps_fetchUnit 6 h e
      split
      · split
        · split
          next v d => exact ih (unit.trans (exec_moves d).keeps)
          · exact fun _ c => by cases c
          · exact fun _ c => by cases c
        · exact unit
      · exact fail_ne_next _ _

theorem keeps_takeRest (n : Nat) (h : b.Keeps s.board) : (s.takeRest n).KeepsFrom b := by
  obtain ⟨e, -⟩ | e := s.takeRest_cases n
  · rw [e]; exact keeps_takeUnits n h
  · rw [e]; exact keeps_takeUnits n (h.trans {})

theorem keeps_takeAll (n : Nat) (h : b.Keeps s.board) : (s.takeAll n).KeepsFrom b := by
  have first := keeps_takeUnits 1 (op := .first) h
  unfold takeAll
  split <;> rename_i e <;> rw [e] at first
  · exact keeps_takeRest n first
  · exact first
  · exact first

/-! ### The step -/

theorem keeps_enter {n : Byte} {ret : Word} (h : b.Keeps s.board) : b.Keeps (s.enter n ret).board :=
  h.trans ((Does.start s).enter Effects.entry_enters n ret).board.keeps

theorem keeps_stepFinish (h : b.Keeps s.board) : b.Keeps s.stepFinish.board := by
  unfold stepFinish
  dsimp only
  split
  · exact h
  · split
    · exact h
    · split
      · exact keeps_enter h
      · split
        · exact keeps_enter (h.trans {})
        · split
          · exact keeps_enter h
          · exact h

theorem keeps_boundarySlot (h : b.Keeps s.board) : b.Keeps s.boundarySlot.board := h.trans (Board.keeps_slot _ _ true)

theorem keeps_innerSlot (h : b.Keeps s.board) : b.Keeps s.innerSlot.board := h.trans (Board.keeps_slot _ _ false)

theorem keeps_retire (h : b.Keeps s.board) : b.Keeps s.retire.board := by
  have released : b.Keeps (s.setBoard { s.board with locked := false }).dropTransient.board := h.trans {}
  exact keeps_stepFinish (keeps_boundarySlot released)

theorem keeps_finishExec {i : Instr} (e : s.finishExec i = .next t) (h : b.Keeps s.board) : b.Keeps t.board := by
  unfold finishExec at e
  split at e
  next u k => cases e; exact keeps_retire ((keeps_innerSlot h).trans (exec_moves k).keeps)
  next f _ => exact absurd e (fail_ne_next _ f t)
  · cases e

theorem keeps_attempt {n : Nat} (e : s.attempt n = .next t) (h : b.Keeps s.board) : b.Keeps t.board := by
  have taken := keeps_takeAll (s := { s with cpu := { s.cpu with attempts := 0 } }) n h
  obtain ⟨i, u, r, k⟩ | ⟨u, o, r, k⟩ | ⟨u, r, k⟩ := s.attempt_cases n <;> rw [k] at e
  · rw [r] at taken; exact keeps_finishExec e taken
  · rw [r] at taken; exact absurd e (taken t)
  · cases e; exact h

theorem keeps_runFresh (e : s.runFresh = .next t) (h : b.Keeps s.board) : b.Keeps t.board := by
  unfold runFresh at e
  exact keeps_attempt e h

theorem keeps_runStep (e : s.runStep = .next t) (h : b.Keeps s.board) : b.Keeps t.board := by
  have begun : b.Keeps s.beginStep.board := h.trans {}
  unfold runStep at e
  dsimp only at e
  split at e
  · split at e
    · exact keeps_finishExec e (begun.trans {})
    · exact absurd e (fail_ne_next _ _ _)
  · exact keeps_runFresh e begun

theorem keeps_idleStep (e : s.idleStep = .next t) (h : b.Keeps s.board) : b.Keeps t.board := by
  have window := iter_keeps (P := fun u : State => b.Keeps u.board) (fun _ => keeps_boundarySlot)
    s.board.params.idleWindow (x := s.setBoard { s.board with queueOp := .idle }) (h.trans {})
  unfold idleStep at e
  split at e
  · cases e
  · cases e; exact keeps_stepFinish window

theorem keeps_stepCore {skip : Bool} (e : s.stepCore skip = .next t) (h : b.Keeps s.board) : b.Keeps t.board := by
  unfold stepCore at e
  split at e
  · exact absurd e (fail_ne_next _ _ _)
  · split at e
    · exact keeps_idleStep e h
    · split at e
      · exact keeps_runStep e h
      · split at e
        · cases e; exact h
        · split at e
          · exact keeps_runStep e (h.trans {})
          · exact keeps_runStep e h

/-- A step before which the host does nothing, whether it begins an instruction or attempts one again. -/
theorem keeps_step (h : s.inputs.headD [] = []) (e : step s = .next t) : s.board.Keeps t.board := by
  by_cases d : s.cpu.attempts = 0
  · rw [step_alone h d] at e
    exact keeps_stepCore (described_eq_next e).1 (.refl _)
  · rw [step_again d] at e
    exact keeps_runFresh (described_eq_next e).1 (.refl _)

end State

end Sys2Proof.Machine

open Sys2Proof Sys2Proof.Machine

/-- Settles O17: every agent, the CPU among them, reaches memory through the mask flags, and only the floppy engine
reaches a drive. -/
theorem romAndConfigurationKept : Obligations.RomAndConfigurationKept := by
  intro s t h e
  obtain ⟨params, mask, rom, drive, -⟩ := State.keeps_step h e
  exact ⟨rom, params, mask, fun d n => drive d fun op ⟨evs, m, k⟩ => n evs m op k⟩

end

section
/-! PROOFS. One bus cycle of the pins, and words in memory. -/

namespace Sys2Proof.Machine

/-- From T3 on the wait states still asked for pass, one more clock latches the byte, and the next ends the cycle
(20_memory.md R92). -/
theorem BusPins.iter_clock_waiting (r : BusRequest) (k : Nat) (p : BusPins) (h : p.tState = .t3 ∨ p.tState = .tw)
    (w : p.waitCycles = k) :
    iter (BusPins.clock r none) (k + 2) p =
      { p with tState := .ti, waitCycles := 0, dataBus := r.data, inFlight := false } := by
  induction k generalizing p with
  | zero =>
    have latched : p.clock r none = { p with tState := .t4, dataBus := r.data } := by
      rcases h with h | h <;> simp [clock, h, w]
    rw [iter, latched]
    simp [iter, clock, w]
  | succ k ih =>
    have waited : p.clock r none = { p with tState := .tw, waitCycles := k } := by
      rcases h with h | h <;> simp [clock, h, w]
    rw [iter, waited]
    exact ih _ (.inr rfl) rfl

/-- A requested cycle, from the idle bus to the idle bus. -/
theorem BusPins.iter_clock_cycle (r : BusRequest) (p : BusPins) (h : p.tState = .ti) :
    iter (BusPins.clock r none) (4 + r.wait) (p.clock r (some r)) = p.cycle r := by
  have started : p.clock r (some r) = p.start r := by simp [clock, h]
  rw [started, Nat.add_comm]
  -- two clocks by evaluation lead to T3 with the wait states of the request
  exact iter_clock_waiting r r.wait
    { p.start r with tState := .t3, ale := false, status := r.status, waitCycles := r.wait } (.inl rfl) rfl

namespace State

variable {s : State}

/-- A byte of a word in memory is seen at its own offset (20_memory.md R77, R78). -/
theorem peek_halves (s : State) (seg off : Word) : s.peek .byte seg off = loByte (s.peek .word seg off) ∧
    s.peek .byte seg (off + 1) = hiByte (s.peek .word seg off) :=
  ⟨(loByte_mkWord _ _).symm, (hiByte_mkWord _ _).symm⟩

theorem wr16_calm (c : s.Calm) (seg off v : Word) : (s.wr16 seg off v).Calm :=
  ⟨(wr_touches c.quiet .word seg off v).slots.trans c.quiet, Board.wr16_wf _ _ _ _ c.quiet c.mem⟩

theorem peek_wr16 (c : s.Calm) {seg off : Word} (v : Word) (w : s.writable (byteAddrs .word seg off) = true) :
    (s.wr16 seg off v).peek .word seg off = v :=
  writePlace_value c .word (.mem seg off) v w nofun

/-- What can be written can be read. -/
theorem readable_of_writable {as : List Nat} (w : s.writable as = true) : s.readable as = true := by
  simp only [writable, readable, List.all_eq_true, Bool.and_eq_true] at w ⊢
  exact fun a m => (w a m).1

theorem rd16_wr16 (c : s.Calm) {seg off : Word} (v : Word) (w : s.writable (byteAddrs .word seg off) = true) :
    ((s.wr16 seg off v).rd16 seg off).1 = v := by
  have r : (s.wr16 seg off v).readable (byteAddrs .word seg off) = true :=
    (readable_of_touches (wr_touches c.quiet .word seg off v) _).trans (readable_of_writable w)
  exact (readPlace_value (wr16_calm c seg off v).quiet .word (.mem seg off) r).trans (peek_wr16 c v w)

theorem byteAt_wr16_other (c : s.Calm) (seg off v : Word) {a : Nat} (lo : a ≠ phys seg off)
    (hi : a ≠ phys seg (off + 1)) : (s.wr16 seg off v).byteAt a = s.byteAt a :=
  (wr_touches c.quiet .word seg off v).mem a fun m => (List.mem_pair.mp m).elim lo hi

end State

end Sys2Proof.Machine

open Sys2Proof Sys2Proof.Machine

/-- Settles O56, by induction on the wait states. -/
theorem busCycleClocks : Obligations.BusCycleClocks :=
  fun r p h => BusPins.iter_clock_cycle r p h

/-- Settles O57: a store of a word is two writes to distinct addresses. -/
theorem wordsInMemory : Obligations.WordsInMemory := by
  refine ⟨fun _ _ => rfl, fun s seg off v c w => ?_⟩
  have word := State.peek_wr16 c v w
  obtain ⟨lo, hi⟩ := State.peek_halves (s.wr16 seg off v) seg off
  exact ⟨word, State.rd16_wr16 c v w, lo.trans (congrArg loByte word), hi.trans (congrArg hiByte word),
    State.wr16_calm c seg off v, fun _ => State.byteAt_wr16_other c seg off v⟩

end

section
/-! PROOFS. Which bytes of memory the meaning of an instruction stores to, when nothing is scheduled. -/

namespace Sys2Proof.Machine

/-- With the schedule as it was, no byte outside `as` has changed; of the rest of the board nothing is said. -/
structure Board.Stores (as : List Nat) (b c : Board) : Prop where
  slots : c.slots = b.slots := by rfl
  mem   : ∀ a, a ∉ as → Memory.read c.mem a = Memory.read b.mem a := by intros; rfl

namespace Board

variable {b c e : Board} {as bs : List Nat}

theorem Stores.refl (b : Board) : b.Stores as b := {}

theorem Stores.trans (h : b.Stores as c) (k : c.Stores as e) : b.Stores as e :=
  ⟨k.slots.trans h.slots, fun a n => (k.mem a n).trans (h.mem a n)⟩

theorem Stores.mono (h : b.Stores as c) (p : as ⊆ bs) : b.Stores bs c :=
  ⟨h.slots, fun a n => h.mem a fun m => n (p m)⟩

theorem Touches.stores (h : b.Touches bs c) (p : bs ⊆ as) : b.Stores as c := Stores.mono ⟨h.slots, h.mem⟩ p

/-- An access to a port changes no memory. -/
theorem PortCycle.stores {cs : Word} (h : b.PortCycle cs c) (q : b.slots = []) : b.Stores as c := by
  obtain ⟨d, st, a, v, r, rfl⟩ := h
  rw [slot_quiet cs false q] at r
  rw [r]
  exact {}

end Board

namespace State

variable {s t : State} {as : List Nat}

/-! ### Accesses that store nothing -/

section

variable (q : s.Quiet) (d : s.board.Stores as t.board)
include q d

theorem stores_quiet : t.Quiet := d.slots.trans q

theorem stores_rd (w : Width) (seg off : Word) : s.board.Stores as (t.rd w seg off).2.board :=
  d.trans ((rd_touches (stores_quiet q d) w seg off).stores (List.nil_subset as))

theorem stores_rd16 (seg off : Word) : s.board.Stores as (t.rd16 seg off).2.board := stores_rd q d .word seg off

theorem stores_pop16 : s.board.Stores as t.pop16.2.board :=
  d.trans ((pop16_touches (stores_quiet q d)).stores (List.nil_subset as))

end

theorem stores_load (q : s.Quiet) (w : Width) (o : Operand) : s.board.Stores as (s.load w o).2.board :=
  (Touches.load q w o).stores (List.nil_subset as)

theorem stores_readFar (q : s.Quiet) (e : RM) : s.board.Stores as (s.readFar e).2.2.board :=
  (Touches.readFar q e).stores (List.nil_subset as)

theorem stores_inPort {w : Width} {port : Word} (q : s.Quiet) (h : inPort w port s = .next t) :
    s.board.Stores as t.board := by
  unfold inPort at h
  split at h
  · cases h
  next lo e =>
    have first : s.board.Stores as lo.2 := (Board.ioRead_cycle e).stores q
    cases w with
    | byte => cases h; exact first
    | word =>
      dsimp only at h
      split at h
      · cases h
      next hi k => cases h; exact first.trans ((Board.ioRead_cycle k).stores (first.slots.trans q))

theorem stores_outPort {w : Width} {port : Word} (q : s.Quiet) (h : outPort w port s = .next t) :
    s.board.Stores as t.board := by
  unfold outPort at h
  split at h
  · cases h
  next b e =>
    have first : s.board.Stores as b := (Board.ioWrite_cycle e).stores q
    cases w with
    | byte => cases h; exact first
    | word =>
      dsimp only at h
      split at h
      · cases h
      next c k => cases h; exact first.trans ((Board.ioWrite_cycle k).stores (first.slots.trans q))

/-! ### Changes of the CPU and of the queue -/

theorem stores_touch (s : State) (o : Operand) : s.board.Stores as (s.touch o).board := by
  rw [touch_board]; exact .refl _

section

variable (d : s.board.Stores as t.board)
include d

theorem stores_setFlags {f : Flags} : s.board.Stores as (t.setFlags f).board := d

theorem stores_flushTo {ip : Word} : s.board.Stores as (t.flushTo ip).board := d.trans {}

theorem stores_jumpNear {ip : Word} : s.board.Stores as (t.jumpNear ip).board := stores_flushTo d

theorem stores_jumpFar {cs ip : Word} : s.board.Stores as (t.jumpFar cs ip).board := stores_flushTo d

theorem stores_inhibit : s.board.Stores as t.inhibit.board := by
  unfold inhibit
  split
  · exact d
  · exact d

theorem stores_setReg {w : Width} {g : GReg} {v : BitVec w.bits} : s.board.Stores as (t.setReg w g v).board := by
  rw [setReg_board]; exact d

/-- The end of MUL, IMUL, and of DIV and IDIV where they do not trap. -/
theorem stores_setAcc {w : Width} {hi lo : BitVec w.bits} {f : Flags} {k : Nat} :
    s.board.Stores as (((t.setAcc w hi lo).setFlags f).spend k).board := by
  cases w with
  | byte => exact d.trans {}
  | word => exact d.trans {}

end

theorem stores_retNear (q : s.Quiet) (extra : Word) : s.board.Stores as (s.retNear extra).board :=
  stores_jumpNear (t := s.pop16.2) (stores_pop16 q (.refl _))

theorem stores_retFar (q : s.Quiet) (extra : Word) : s.board.Stores as (s.retFar extra).board :=
  stores_jumpFar (t := s.pop16.2.pop16.2) (cs := s.pop16.2.pop16.1) (stores_pop16 q (stores_pop16 q (.refl _)))

theorem stores_iret (q : s.Quiet) : s.board.Stores as s.iret.board := by
  have popped := stores_pop16 q (stores_pop16 q (stores_pop16 (as := as) q (.refl _)))
  exact stores_jumpFar (stores_setFlags popped)

theorem stores_jumpIf (s : State) (c : Bool) (d : Byte) : s.board.Stores as (s.jumpIf c d).board := by
  unfold jumpIf
  split
  · exact stores_jumpNear (.refl _)
  · exact .refl _

/-! ### Stores -/

theorem stores_writePlace (q : s.Quiet) (d : s.board.Stores as t.board) {w : Width} {p : Place} (v : BitVec w.bits)
    (k : p.addrs w ⊆ as) : s.board.Stores as (t.writePlace w p v).board :=
  d.trans ((writePlace_touches (stores_quiet q d) w p v).stores k)

theorem stores_shiftRotate (q : s.Quiet) {w : Width} {e : RM} {c : Count}
    (k : s.count c ≠ 0 → (s.place (.rm e)).addrs w ⊆ as) (step : BitVec w.bits × Bool → BitVec w.bits × Bool)
    (fl : Flags → BitVec w.bits → BitVec w.bits → Bool → Flags) (n : Nat) :
    s.board.Stores as (s.shiftRotate w e c step fl n).board := by
  have read : s.board.Stores as (s.load w (.rm e)).2.board := stores_load q w (.rm e)
  unfold shiftRotate
  dsimp only
  split
  · exact read
  next z => exact (stores_writePlace q read _ (k z)).trans {}

/-- A repetition stores what its element stores. -/
theorem stores_runString {i : Instr} {c : Bool} {prim : State → State}
    (d : s.iterates = true → s.board.Stores as (prim s).board) : s.board.Stores as (s.runString i c prim).board := by
  have iteration (k : RepKind) (it : s.iterates = true) : s.board.Stores as (s.repIterate i k c prim).board := by
    rw [repIterate_board]; exact d it
  unfold runString
  split
  next k => exact d (by simp [iterates, k])
  next k hk =>
    split
    next r =>
      split
      · exact {}
      next n => exact iteration k (by simpa [iterates, hk, r] using n)
    next r =>
      split
      · exact .refl _
      next z => exact iteration k (by simpa [iterates, hk, r] using z)

/-! ### The stack (43_data_transfer.md R280) -/

/-- From `s`, `k` words have been pushed on the way to `t` and nothing else has been stored. -/
structure Pushes (k : Nat) (s t : State) : Prop where
  ss     : t.sreg .ss = s.sreg .ss
  sp     : t.reg16 .sp = s.reg16 .sp - BitVec.ofNat 16 (2 * k)
  stores : s.board.Stores (s.stackAddrs k) t.board

theorem Pushes.start (d : s.board.Stores [] t.board) (ss : t.sreg .ss = s.sreg .ss) (sp : t.reg16 .sp = s.reg16 .sp) :
    s.Pushes 0 t := ⟨ss, by simp [sp], d⟩

theorem Pushes.push16 (q : s.Quiet) {k : Nat} (h : s.Pushes k t) (v : Word) : s.Pushes (k + 1) (t.push16 v) := by
  have sp : t.reg16 .sp - 2 = s.reg16 .sp - BitVec.ofNat 16 (2 * (k + 1)) := by
    rw [h.sp, Nat.mul_succ, BitVec.ofNat_add, BitVec.sub_sub]
    rfl
  refine ⟨h.ss, sp, (h.stores.mono (List.subset_append_left _ _)).trans ?_⟩
  have pushed := push16_touches (stores_quiet q h.stores) v
  rw [h.ss, sp] at pushed
  exact pushed.stores (List.subset_append_right _ _)

/-- Any operand is read without a change of the stack registers. -/
theorem Pushes.load (q : s.Quiet) (w : Width) (o : Operand) : s.Pushes 0 (s.load w o).2 :=
  .start (stores_load q w o) (by simp [sreg]) (by simp [reg16])

theorem Pushes.readFar (q : s.Quiet) (e : RM) : s.Pushes 0 (s.readFar e).2.2 :=
  .start (stores_readFar q e) (by simp [sreg]) (by simp [reg16])

theorem Pushes.callNear (q : s.Quiet) (h : s.Pushes 0 t) (ip : Word) :
    s.board.Stores (s.stackAddrs 1) (t.callNear ip).board :=
  stores_jumpNear (h.push16 q _).stores

theorem Pushes.callFar (q : s.Quiet) (h : s.Pushes 0 t) (cs ip : Word) :
    s.board.Stores (s.stackAddrs 2) (t.callFar cs ip).board :=
  stores_jumpFar ((h.push16 q _).push16 q _).stores

/-- Interrupt entry stores three words (60_exceptions.md R440) and reads the vector. -/
theorem Pushes.enter (q : s.Quiet) (h : s.Pushes 0 t) (n : Byte) (ret : Word) :
    s.board.Stores (s.stackAddrs 3) (t.enter n ret).board := by
  have pushed := (((h.push16 q t.cpu.flags.word).push16 q (t.sreg .cs)).push16 q ret).stores
  have masked := stores_setFlags (f := { t.cpu.flags with intf := false, tf := false }) pushed
  have vector := stores_rd16 q (stores_rd16 q masked 0 (4 * n.setWidth 16)) 0 (4 * n.setWidth 16 + 2)
  exact stores_flushTo vector

theorem Pushes.finishDiv (q : s.Quiet) (h : s.Pushes 0 t) {w : Width} {r : Option (BitVec w.bits × BitVec w.bits)}
    (k : r.isNone = true → s.stackAddrs 3 ⊆ as) : s.board.Stores as (Machine.finishDiv w r t).board := by
  cases r with
  | none => exact (h.enter q 0 _).mono (k rfl)
  | some _ => exact stores_setAcc (h.stores.mono (List.nil_subset as))

end State

open State in
/-- With nothing scheduled an instruction that answers stores to its own addresses only. -/
theorem exec_stores {i : Instr} {s t : State} (q : s.Quiet) (h : exec i s = .next t) :
    s.board.Stores (storedAddrs i s) t.board := by
  have whole (l : List Nat) : l ⊆ l := List.Subset.refl l
  have same (as : List Nat) : s.board.Stores as s.board := .refl _
  have own : s.Pushes 0 s := .start (.refl _) rfl rfl
  cases i with
  | add f | adc f | sub f | sbb f => cases h; exact (Touches.binary q _ _ _ _).stores (whole _)
  | and f | or f | xor f => cases h; exact ((Touches.binary q _ _ _ _).stores (whole _)).trans {}
  | cmp f => cases h; exact (Touches.compare q _ _ _ _).stores (whole _)
  | test f => cases h; exact ((Touches.compare q _ _ _ _).stores (whole _)).trans {}
  | incReg _ | decReg _ => cases h; exact (Touches.unary q _ _ _).stores (whole _)
  | incRm _ _ | decRm _ _ | not _ _ | neg _ _ => cases h; exact (Touches.unary q _ _ _).stores (whole _)
  | mul w e | imul w e =>
    cases h; exact stores_setAcc (stores_load q w (.rm e))
  | div w e | idiv w e =>
    cases h
    exact Pushes.finishDiv q (.load q w (.rm e)) fun r => subset_of_pos r _ _
  | aam base =>
    cases h
    split
    next z => exact (own.enter q 0 _).mono (subset_of_pos (beq_iff_eq.mpr z) _ _)
    next z => exact {}
  | rol w e c | ror w e c | rcl w e c | rcr w e c | shl w e c | shr w e c | setmo w e c | sar w e c =>
    cases h
    exact stores_shiftRotate q (fun z => subset_of_not z [] _) _ _ _
  | movRmReg w e g => cases h; exact (Touches.store q w (.rm e) _).stores (whole _)
  | movRmImm8 _ e v => cases h; exact (Touches.store q .byte (.rm e) v).stores (whole _)
  | movRmImm16 _ e v => cases h; exact (Touches.store q .word (.rm e) v).stores (whole _)
  | movRmSeg _ e r => cases h; exact (Touches.store q .word (.rm e) _).stores (whole _)
  | movRegRm w g e => cases h; exact stores_setReg (stores_load q w (.rm e))
  | movAccMem w off => cases h; exact stores_setReg (stores_rd q (same _) w _ off)
  | movMemAcc w off => cases h; exact (wr_touches q w _ off _).stores (whole _)
  | movSegRm _ r e => cases h; exact stores_inhibit (stores_load q .word (.rm e))
  | pushReg _ | pushSeg _ | pushf => cases h; exact (own.push16 q _).stores
  | pushRm _ e =>
    cases e with
    | reg g => cases h; exact (own.push16 q _).stores
    | mem m => cases h; exact ((Pushes.load q .word (.rm (.mem m))).push16 q _).stores
  | popReg _ | popf => cases h; exact stores_pop16 q (same _)
  | popRm _ e =>
    cases h
    exact stores_writePlace q (stores_pop16 (t := s.touch (.rm e)) q (stores_touch s (.rm e))) _ (whole _)
  | popSeg r => cases h; exact stores_inhibit (stores_pop16 q (same _))
  | xchgRm w e g =>
    cases h; exact stores_setReg (stores_writePlace q (stores_load q w (.rm e)) _ (whole _))
  | lea g e => cases h; exact stores_touch s (.rm e)
  | lds g e | les g e => cases h; exact stores_readFar q e
  | xlat => cases h; exact stores_rd q (same _) .byte _ _
  | inImm _ _ | inDx _ => exact stores_inPort q h
  | outImm _ _ | outDx _ => exact stores_outPort q h
  | movsb | movsw =>
    cases h
    exact stores_runString fun it =>
      stores_writePlace q (p := .mem _ _) (stores_rd q (same _) _ _ _) _ (subset_of_pos it _ _)
  | stosb | stosw => cases h; exact stores_runString fun it => (wr_touches q _ _ _ _).stores (subset_of_pos it _ _)
  | cmpsb => cases h; exact stores_runString fun _ => stores_rd q (stores_rd q (same _) .byte _ _) .byte _ _
  | cmpsw => cases h; exact stores_runString fun _ => stores_rd q (stores_rd q (same _) .word _ _) .word _ _
  | scasb | lodsb => cases h; exact stores_runString fun _ => stores_rd q (same _) .byte _ _
  | scasw | lodsw => cases h; exact stores_runString fun _ => stores_rd q (same _) .word _ _
  | jo _ _ | jno _ _ | jb _ _ | jnb _ _ | jz _ _ | jnz _ _ | jbe _ _ | ja _ _ | js _ _ | jns _ _ | jp _ _ | jnp _ _
  | jl _ _ | jge _ _ | jle _ _ | jg _ _ | jcxz _ => cases h; exact stores_jumpIf s _ _
  | loopnz _ | loopz _ | loop _ => cases h; exact stores_jumpIf s.decCx _ _
  | jmpRm e => cases h; exact stores_jumpNear (stores_load q .word (.rm e))
  | jmpFarRm e =>
    cases e with
    | reg g => cases h
    | mem m => cases h; exact stores_jumpFar (stores_readFar q (.mem m))
  | callNear d => cases h; exact own.callNear q _
  | callFar off seg => cases h; exact own.callFar q _ _
  | callRm e => cases h; exact (Pushes.load q .word (.rm e)).callNear q _
  | callFarRm e =>
    cases e with
    | reg g => cases h
    | mem m => cases h; exact (Pushes.readFar q (.mem m)).callFar q _ _
  | ret _ | retImm _ _ => cases h; exact stores_retNear q _
  | retf _ | retfImm _ _ => cases h; exact stores_retFar q _
  | iret => cases h; exact stores_iret q
  | int3 | intN _ => cases h; exact own.enter q _ _
  | into =>
    cases h
    split
    next o => exact (own.enter q 4 _).mono (subset_of_pos o _ _)
    · exact {}
  | hlt =>
    rw [exec, execHlt] at h
    split at h <;> cases h
    exact {}
  | wait => cases h; split <;> exact {}
  | sti => cases h; exact stores_inhibit (.refl _)
  | esc _ _ e =>
    cases e with
    | reg g => cases h; exact {}
    | mem m => cases h; exact stores_load q .word (.rm (.mem m))
  | fe2 _ | fe3 _ | fe4 _ | fe5 _ | fe6 _ | fe7 _ => cases h
  | daa | das | aaa | aas | aad _ | movRegImm8 _ _ | movRegImm16 _ _ | xchgAx _ | lahf | salc | sahf | cbw | cwd
  | jmpShort _ | jmpNear _ | jmpFar _ _ | nop | cmc | clc | stc | cld | std | cli | segEs | segCs | segSs | segDs
  | repnz | rep | lock | lockAlias => cases h; exact {}

end Sys2Proof.Machine

open Sys2Proof Sys2Proof.Machine

/-- Settles O21: every store that a meaning makes is at an address that is listed for the instruction. -/
theorem memoryFrame : Obligations.MemoryFrame :=
  fun _ _ _ q h => (exec_stores q h).mem

end

section
/-! PROOFS. What the ALU instructions of 40_alu.md leave in their destination and in the flags, and what some words
decode to. -/

namespace Sys2Proof.Machine

/-! ### The ALU primitives (40_alu.md R180 to R182, R190 to R192) -/

section

variable {n : Nat} (f : Flags) (a b : BitVec n)

theorem addN_value_noCarry : (addN f a b false).1 = a + b := by
  simp [addN_value]

theorem subN_value_noBorrow : (subN f a b false).1 = a - b := by
  simp [subN_value]

theorem subN_value_zero : (subN f 0 a false).1 = -a :=
  (subN_value_noBorrow f 0 a).trans (BitVec.zero_sub a)

/-- INC sets the flags of the sum, but for CF (40_alu.md R190). -/
theorem incN_flags (hn : 0 < n) :
    (incN f a).2.cf = f.cf ∧ AddFlags a 1 false { (incN f a).2 with cf := (addN f a 1 false).2.cf } :=
  ⟨rfl, addN_flags hn f a 1 false⟩

/-- DEC sets the flags of the difference, but for CF (40_alu.md R191). -/
theorem decN_flags (hn : 0 < n) :
    (decN f a).2.cf = f.cf ∧ SubFlags a 1 false { (decN f a).2 with cf := (subN f a 1 false).2.cf } :=
  ⟨rfl, subN_flags hn f a 1 false⟩

variable {f a}

/-- Subtracting from 0 borrows unless 0 is subtracted (40_alu.md R192). -/
theorem SubFlags.cf_zero (h : SubFlags 0 a false f) : f.cf = decide (a ≠ 0) := by
  obtain ⟨hcf, -⟩ := h
  rw [hcf, decide_eq_decide, ← BitVec.toNat_ne_iff_ne]
  simp [Nat.pos_iff_ne_zero]

end

namespace State

/-- The source of TEST is a register or an immediate, never in memory (40_alu.md R196). -/
theorem readable_testForm_src (s : State) (f : TestForm) : s.readable ((s.place f.src).addrs f.width) = true := by
  cases f <;> rfl

variable {s : State} (c : s.Calm)
include c

/-! ### Two-operand forms (40_alu.md R184) -/

section

variable (f : AluForm) (rs : s.readable ((s.place f.src).addrs f.width) = true)
  (rd : s.readable ((s.place f.dst).addrs f.width) = true)
include rs rd

/-- What holds of the result and the flags that `g` computes holds of the destination and the flags afterwards. -/
theorem binary_aluForm (g : Flags → BitVec f.width.bits → BitVec f.width.bits → BitVec f.width.bits × Flags)
    {v : BitVec f.width.bits} {P : Flags → Prop}
    (hv : (g s.cpu.flags (s.loadedVal f.width f.dst) (s.val f.width (s.place f.src))).1 = v)
    (hP : P (g s.cpu.flags (s.loadedVal f.width f.dst) (s.val f.width (s.place f.src))).2) :
    (s.writable ((s.place f.dst).addrs f.width) = true →
      (s.binary f.width f.dst f.src g).val f.width (s.place f.dst) = v) ∧
      P (s.binary f.width f.dst f.src g).cpu.flags := by
  obtain ⟨flags, value⟩ := binary_next c f.width f.dst f.src g rd rs (place_dst_ne_imm s f)
  exact ⟨fun w => (value w).trans hv, flags ▸ hP⟩

/-- A logical instruction writes the bitwise result and shows it in the flags, AF apart (40_alu.md R182). -/
theorem binary_logicOp (op : BitVec f.width.bits → BitVec f.width.bits → BitVec f.width.bits) (af : Bool) :
    let r := op (s.loadedVal f.width f.dst) (s.val f.width (s.place f.src))
    let t := (s.binary f.width f.dst f.src (logicOp op af)).spend 1
    (s.writable ((s.place f.dst).addrs f.width) = true → t.val f.width (s.place f.dst) = r) ∧
      LogicFlags r t.cpu.flags := by
  obtain ⟨value, flags⟩ := binary_aluForm c f rs rd (logicOp op af) rfl (logicN_flags _ _ af)
  exact ⟨fun w => (val_spend _ _ _ 1).trans (value w), flags⟩

end

/-! ### One-operand forms -/

section

variable (w : Width) (o : Operand) (r : s.readable ((s.place o).addrs w) = true) (i : ∀ x, s.place o ≠ .imm x)
include r i

/-- What holds of the result and the flags that `g` computes holds of the operand and the flags afterwards. -/
theorem unary_operand (g : Flags → BitVec w.bits → BitVec w.bits × Flags) {v : BitVec w.bits} {P : Flags → Prop}
    (hv : (g s.cpu.flags (s.val w (s.place o))).1 = v) (hP : P (g s.cpu.flags (s.val w (s.place o))).2) :
    (s.writable ((s.place o).addrs w) = true → (s.unary w o g).val w (s.place o) = v) ∧
      P (s.unary w o g).cpu.flags := by
  obtain ⟨flags, value⟩ := unary_next c w o g r i
  exact ⟨fun wr => (value wr).trans hv, flags ▸ hP⟩

/-- INC adds 1 and shows the sum in the flags, CF apart, which it keeps (40_alu.md R190). -/
theorem unary_incN :
    let a := s.val w (s.place o)
    let t := s.unary w o fun fl a => incN fl a
    (s.writable ((s.place o).addrs w) = true → t.val w (s.place o) = a + 1) ∧ t.cpu.flags.cf = s.cpu.flags.cf ∧
      AddFlags a 1 false { t.cpu.flags with cf := (addN s.cpu.flags a 1 false).2.cf } :=
  unary_operand c w o r i (fun fl a => incN fl a) (addN_value_noCarry s.cpu.flags _ _)
    (P := fun fl => fl.cf = s.cpu.flags.cf ∧ AddFlags _ 1 false { fl with cf := (addN s.cpu.flags _ 1 false).2.cf })
    (incN_flags _ _ (Width.bits_pos w))

/-- DEC subtracts 1 and shows the difference in the flags, CF apart, which it keeps (40_alu.md R191). -/
theorem unary_decN :
    let a := s.val w (s.place o)
    let t := s.unary w o fun fl a => decN fl a
    (s.writable ((s.place o).addrs w) = true → t.val w (s.place o) = a - 1) ∧ t.cpu.flags.cf = s.cpu.flags.cf ∧
      SubFlags a 1 false { t.cpu.flags with cf := (subN s.cpu.flags a 1 false).2.cf } :=
  unary_operand c w o r i (fun fl a => decN fl a) (subN_value_noBorrow s.cpu.flags _ _)
    (P := fun fl => fl.cf = s.cpu.flags.cf ∧ SubFlags _ 1 false { fl with cf := (subN s.cpu.flags _ 1 false).2.cf })
    (decN_flags _ _ (Width.bits_pos w))

end

end State

end Sys2Proof.Machine

open Sys2Proof Sys2Proof.Machine

/-- Settles O24: the destination and the flags hold what `addN` computes. -/
theorem addAndAdc : Obligations.AddAndAdc := fun f _ c rs rd =>
  ⟨⟨_, rfl, State.binary_aluForm c f rs rd _ (addN_value_noCarry _ _ _) (addN_flags (Width.bits_pos _) _ _ _ _)⟩,
    ⟨_, rfl, State.binary_aluForm c f rs rd _ (addN_value _ _ _ _) (addN_flags (Width.bits_pos _) _ _ _ _)⟩⟩

/-- Settles O25: the destination and the flags hold what `subN` computes; CMP drops the result, NEG takes it from 0. -/
theorem subtractResults : Obligations.SubtractResults := by
  refine ⟨fun f s c rs rd => ⟨?sub, ?sbb⟩, fun f s c rs rd => ?cmp, fun w e s c r => ?neg⟩
  case sub =>
    exact ⟨_, rfl, State.binary_aluForm c f rs rd _ (subN_value_noBorrow _ _ _)
      (subN_flags (Width.bits_pos _) _ _ _ _)⟩
  case sbb =>
    exact ⟨_, rfl, State.binary_aluForm c f rs rd _ (subN_value _ _ _ _) (subN_flags (Width.bits_pos _) _ _ _ _)⟩
  case cmp =>
    obtain ⟨flags, kept⟩ := State.compare_next c f.width f.dst f.src (fun fl a b => subN fl a b false) rd rs
    exact ⟨_, rfl, flags ▸ subN_flags (Width.bits_pos _) _ _ _ _, kept⟩
  case neg =>
    obtain ⟨value, flags⟩ := State.unary_operand c w (.rm e) r (State.place_rm_ne_imm s e)
      (fun fl a => subN fl 0 a false) (subN_value_zero _ _) (subN_flags (Width.bits_pos w) _ 0 _ false)
    exact ⟨_, rfl, value, flags, flags.cf_zero⟩

/-- Settles O26: a register is an operand that can always be read and written. -/
theorem incAndDec : Obligations.IncAndDec := by
  refine fun s c => ⟨fun g => ?incReg, fun g => ?decReg, fun w e r => ⟨?incRm, ?decRm⟩⟩
  case incReg =>
    obtain ⟨value, flags⟩ := State.unary_incN c .word (.reg g) rfl nofun
    exact ⟨_, _, rfl, value rfl, flags⟩
  case decReg =>
    obtain ⟨value, flags⟩ := State.unary_decN c .word (.reg g) rfl nofun
    exact ⟨_, _, rfl, value rfl, flags⟩
  case incRm => exact ⟨_, _, rfl, State.unary_incN c w (.rm e) r (State.place_rm_ne_imm s e)⟩
  case decRm => exact ⟨_, _, rfl, State.unary_decN c w (.rm e) r (State.place_rm_ne_imm s e)⟩

/-- Settles O27: AND, OR and XOR are one shape, TEST is its comparing twin, and NOT hands the flags on. -/
theorem logicResults : Obligations.LogicResults := by
  refine ⟨fun f s c rs rd => ?binary, fun f s c rd => ?test, fun w e s c r => ?not⟩
  case binary =>
    exact ⟨⟨_, rfl, State.binary_logicOp c f rs rd _ _⟩, ⟨_, rfl, State.binary_logicOp c f rs rd _ _⟩,
      ⟨_, rfl, State.binary_logicOp c f rs rd _ _⟩⟩
  case test =>
    obtain ⟨flags, kept⟩ := State.compare_next c f.width f.dst f.src (logicOp (· &&& ·) (s.freeBit 0)) rd
      (s.readable_testForm_src f)
    exact ⟨_, rfl, flags ▸ logicN_flags _ _ _, kept⟩
  case not =>
    exact ⟨_, rfl, State.unary_operand c w (.rm e) r (State.place_rm_ne_imm s e) (fun fl a => (~~~ a, fl)) rfl
      (P := (· = s.cpu.flags)) rfl⟩

/-- Settles O4, by running the decoder on each word. -/
theorem decodedWords : Obligations.DecodedWords :=
  ⟨rfl, rfl, rfl, rfl, rfl, rfl, rfl, rfl, rfl, rfl, rfl⟩

end

section
/-! PROOFS. Products and quotients: the co-routines of the microcode compute the relations that the meanings use, and
what the relations say as numbers (41_muldiv_bcd.md sections 1 to 3). -/

namespace Sys2Proof.Machine

section

variable {n : Nat}

/-! ### Double-length numbers -/

/-- The two `n`-bit halves of an integer, high half first. -/
def halves (n : Nat) (x : Int) : BitVec n × BitVec n := (BitVec.ofInt n (x / 2 ^ n), BitVec.ofInt n x)

theorem ofInt_add_mul (x k : Int) : BitVec.ofInt n (x + 2 ^ n * k) = BitVec.ofInt n x := by
  apply BitVec.eq_of_toNat_eq
  simp [BitVec.toNat_ofInt]

/-- The halves show a number modulo `2 ^ n * 2 ^ n`. -/
theorem halves_add_mul (x k : Int) : halves n (x + 2 ^ n * (2 ^ n * k)) = halves n x := by
  have nonzero : (2 : Int) ^ n ≠ 0 := by positivity
  simp only [halves, Int.add_mul_ediv_left _ _ nonzero, ofInt_add_mul]

theorem halves_natCast (x : Nat) : halves n x = (BitVec.ofNat n (x / 2 ^ n), BitVec.ofNat n x) := by
  have high : (x : Int) / 2 ^ n = ((x / 2 ^ n : Nat) : Int) := by simp
  simp only [halves, high, BitVec.ofInt_natCast]

theorem dividend_lt (h l : BitVec n) : dividend h l < 2 ^ n * 2 ^ n :=
  calc h.toNat * 2 ^ n + l.toNat < (h.toNat + 1) * 2 ^ n := by rw [Nat.succ_mul]; exact Nat.add_lt_add_left l.isLt _
    _ ≤ 2 ^ n * 2 ^ n := Nat.mul_le_mul_right _ h.isLt

theorem halves_dividend (h l : BitVec n) : halves n (dividend h l) = (h, l) := by
  have high : dividend h l / 2 ^ n = h.toNat := by
    rw [dividend, Nat.mul_comm, Nat.mul_add_div (by positivity), Nat.div_eq_of_lt l.isLt, Nat.add_zero]
  have low : BitVec.ofNat n (dividend h l) = l := by
    apply BitVec.eq_of_toNat_eq
    rw [BitVec.toNat_ofNat, dividend, Nat.add_comm, Nat.add_mul_mod_self_right, Nat.mod_eq_of_lt l.isLt]
  rw [halves_natCast, high, low, BitVec.ofNat_toNat, BitVec.setWidth_eq]

/-- A number of double length is the one its halves show. -/
theorem dividend_halves {x : Nat} (hx : x < 2 ^ n * 2 ^ n) : dividend (halves n x).1 (halves n x).2 = x := by
  rw [halves_natCast, dividend, BitVec.toNat_ofNat, BitVec.toNat_ofNat, Nat.mod_eq_of_lt (Nat.div_lt_of_lt_mul hx),
    Nat.mul_comm, Nat.div_add_mod]

theorem mulU_eq_halves (b c : BitVec n) : mulU b c = halves n (b.toNat * c.toNat : Nat) := (halves_natCast _).symm

theorem mulS_eq_halves (a m : BitVec n) : mulS a m = halves n (a.toInt * m.toInt) := rfl

theorem natCast_sub_dividend (h l : BitVec n) :
    ((2 ^ n * 2 ^ n - dividend h l : Nat) : Int) = -(dividend h l : Int) + 2 ^ n * (2 ^ n * 1) := by
  rw [Nat.cast_sub (dividend_lt h l).le]
  push_cast
  ring

theorem negate2_eq_halves (h l : BitVec n) : negate2 h l = halves n (-(dividend h l : Int)) := by
  rw [← halves_add_mul _ 1, ← natCast_sub_dividend, halves_natCast, negate2, two_mul, pow_add]

theorem mul_toNat_lt (b c : BitVec n) : b.toNat * c.toNat < 2 ^ n * 2 ^ n := Nat.mul_lt_mul'' b.isLt c.isLt

theorem dividend_mulU (b c : BitVec n) : dividend (mulU b c).1 (mulU b c).2 = b.toNat * c.toNat := by
  rw [mulU_eq_halves, dividend_halves (mul_toNat_lt b c)]

theorem toNat_pos_of_ne_zero {d : BitVec n} (h : d ≠ 0) : 0 < d.toNat :=
  Nat.pos_of_ne_zero fun z => h (BitVec.eq_of_toNat_eq (by simpa using z))

theorem two_pow_eq_double (hn : 0 < n) : 2 ^ n = 2 * 2 ^ (n - 1) := by rw [← pow_succ', Nat.sub_add_cancel hn]

/-! ### CORX (41_muldiv_bcd.md R220) -/

theorem toNat_ofBool_setWidth (hn : 0 < n) (b : Bool) : ((BitVec.ofBool b).setWidth n).toNat = b.toNat := by
  rw [BitVec.toNat_setWidth, BitVec.toNat_ofBool,
    Nat.mod_eq_of_lt ((Bool.toNat_lt b).trans_le (Nat.le_self_pow hn.ne' 2))]

/-- A shift down with `b` coming in at the top. -/
theorem toNat_shiftDown_in (hn : 0 < n) (c : BitVec n) (b : Bool) :
    ((c >>> 1) ||| ((BitVec.ofBool b).setWidth n <<< (n - 1))).toNat = 2 ^ (n - 1) * b.toNat + c.toNat / 2 := by
  have hc := c.isLt
  have double := two_pow_eq_double hn
  have fits : 2 ^ (n - 1) * b.toNat < 2 ^ n := by
    have := Nat.two_pow_pos (n - 1)
    have := Bool.toNat_le b
    nlinarith
  have top : ((BitVec.ofBool b).setWidth n <<< (n - 1)).toNat = 2 ^ (n - 1) * b.toNat := by
    rw [BitVec.toNat_shiftLeft, toNat_ofBool_setWidth hn, Nat.shiftLeft_eq, mul_comm, Nat.mod_eq_of_lt fits]
  rw [BitVec.toNat_or, top, BitVec.toNat_ushiftRight, Nat.shiftRight_eq_div_pow, pow_one, Nat.or_comm,
    ← Nat.two_pow_add_eq_or_of_lt (by omega)]

theorem toNat_getLsbD_zero (c : BitVec n) : (c.getLsbD 0).toNat = c.toNat % 2 := by
  rw [BitVec.getLsbD, Nat.testBit_zero]
  rcases Nat.mod_two_eq_zero_or_one c.toNat with h | h <;> simp [h]

/-- Accumulator, count register and carry of CORX as one shift register. -/
def corxChain (p : BitVec n × BitVec n × Bool) : Nat := 2 * dividend p.1 p.2.1 + p.2.2.toNat

/-- A turn adds the multiplicand above the chain where the carry is set, drops the carry and shifts down. -/
theorem corxChain_turn (hn : 0 < n) (b : BitVec n) (p : BitVec n × BitVec n × Bool) :
    2 * corxChain (corxTurn b p) + p.2.2.toNat = corxChain p + p.2.2.toNat * (2 * 2 ^ n * b.toNat) := by
  obtain ⟨a, c, cy⟩ := p
  have ha := a.isLt
  have hb := b.isLt
  obtain ⟨t, ht⟩ : ∃ t, t = a.toNat + cy.toNat * b.toNat := ⟨_, rfl⟩
  have sum : (if cy then a.toNat + b.toNat else a.toNat) = t := by cases cy <;> simp [ht]
  have acc : (BitVec.ofNat n (t / 2)).toNat = t / 2 := by
    rw [BitVec.toNat_ofNat, Nat.mod_eq_of_lt]
    cases cy <;> (simp [ht]; omega)
  have bit : (decide (t % 2 = 1)).toNat = t % 2 := by
    rcases Nat.mod_two_eq_zero_or_one t with h | h <;> simp [h]
  simp only [corxChain, corxTurn, dividend, sum, acc, toNat_shiftDown_in hn, bit, toNat_getLsbD_zero]
  have count := Nat.div_add_mod c.toNat 2
  have parts : 2 ^ n * (2 * (t / 2)) + 2 ^ n * (t % 2) = 2 ^ n * (a.toNat + cy.toNat * b.toNat) := by
    rw [← Nat.mul_add, Nat.div_add_mod, ht]
  rw [two_pow_eq_double hn] at parts ⊢
  linarith

/-- After `k` turns `m` is the number of the `k` carries that were dropped. -/
theorem corxChain_iter (hn : 0 < n) (b : BitVec n) (k : Nat) (p : BitVec n × BitVec n × Bool) :
    ∃ m < 2 ^ k, 2 ^ k * corxChain (iter (corxTurn b) k p) + m = corxChain p + m * (2 * 2 ^ n * b.toNat) := by
  induction k generalizing p with
  | zero => exact ⟨0, by simp [iter]⟩
  | succ k ih =>
    obtain ⟨m, hm, rest⟩ := ih (corxTurn b p)
    have turn := corxChain_turn hn b p
    have carry := Bool.toNat_le p.2.2
    refine ⟨2 * m + p.2.2.toNat, by rw [pow_succ]; omega, ?_⟩
    rw [iter, pow_succ, add_mul, ← add_assoc, mul_comm _ 2, mul_assoc]
    linarith

/-- CORX multiplies: the dropped carries are the multiplier. -/
theorem corx_eq_mulU (hn : 0 < n) (b c : BitVec n) : corx b c = mulU b c := by
  have start : corxChain ((0, c >>> 1, c.getLsbD 0) : BitVec n × BitVec n × Bool) = c.toNat := by
    simp [corxChain, dividend, toNat_getLsbD_zero, Nat.shiftRight_eq_div_pow]
    omega
  obtain ⟨m, hm, turns⟩ := corxChain_iter hn b n (0, c >>> 1, c.getLsbD 0)
  rw [start] at turns
  set r := iter (corxTurn b) n (0, c >>> 1, c.getLsbD 0)
  have dropped : m = c.toNat := by
    have low := congrArg (· % 2 ^ n) turns
    rw [Nat.mul_add_mod, show m * (2 * 2 ^ n * b.toNat) = 2 ^ n * (m * 2 * b.toNat) by ring, Nat.add_mul_mod_self_left,
      Nat.mod_eq_of_lt hm, Nat.mod_eq_of_lt c.isLt] at low
    exact low
  have chain : corxChain r = 2 * (b.toNat * c.toNat) := by
    subst dropped
    apply Nat.eq_of_mul_eq_mul_left (show 0 < 2 ^ n by positivity)
    linarith
  have product : dividend r.1 r.2.1 = b.toNat * c.toNat := by
    have carry := Bool.toNat_le r.2.2
    rw [corxChain] at chain
    omega
  calc corx b c = (r.1, r.2.1) := rfl
    _ = halves n (dividend r.1 r.2.1) := (halves_dividend _ _).symm
    _ = mulU b c := by rw [product, mulU_eq_halves]

/-! ### CORD (41_muldiv_bcd.md R223) -/

/-- A shift up with `b` coming in below; the top bit leaves. -/
theorem toNat_shiftUp_in (hn : 0 < n) (c : BitVec n) (b : Bool) :
    2 ^ n * c.msb.toNat + ((c <<< 1) ||| (BitVec.ofBool b).setWidth n).toNat = 2 * c.toNat + b.toNat := by
  obtain ⟨m, rfl⟩ : ∃ m, n = m + 1 := ⟨n - 1, by omega⟩
  have hc := c.isLt
  have up : (c <<< 1).toNat = 2 ^ 1 * (c.toNat % 2 ^ m) := by
    rw [BitVec.toNat_shiftLeft, Nat.shiftLeft_eq, mul_comm, pow_succ' 2 m, Nat.pow_one, Nat.mul_mod_mul_left]
  have top : c.toNat % 2 ^ m + 2 ^ m * c.msb.toNat = c.toNat := by
    rw [BitVec.msb_eq_decide, Nat.add_sub_cancel]
    by_cases h : 2 ^ m ≤ c.toNat
    · rw [Nat.mod_eq_sub_mod h, Nat.mod_eq_of_lt (by omega)]
      simp [h]
    · rw [Nat.mod_eq_of_lt (by omega)]
      simp [h]
  rw [BitVec.toNat_or, toNat_ofBool_setWidth hn, up, ← Nat.two_pow_add_eq_or_of_lt (Bool.toNat_lt b), pow_succ]
  linarith

/-- What CORD compares with the divisor: the remainder shifted up, with the top bit of the quotient register. -/
def cordShifted (p : BitVec n × BitVec n) : BitVec n := (p.1 <<< 1) ||| (BitVec.ofBool p.2.msb).setWidth n

/-- The quotient bit of a turn: whether the divisor can be subtracted. -/
def cordBit (d : BitVec n) (p : BitVec n × BitVec n) : Bool := p.1.msb || decide (d.toNat ≤ (cordShifted p).toNat)

theorem cordTurn_eq (hn : 0 < n) (d : BitVec n) (p : BitVec n × BitVec n) :
    cordTurn d p = (if cordBit d p then cordShifted p - d else cordShifted p,
      (p.2 <<< 1) ||| (BitVec.ofBool (cordBit d p)).setWidth n) := by
  have one : (BitVec.ofBool true).setWidth n = 1 := by
    apply BitVec.eq_of_toNat_eq
    rw [toNat_ofBool_setWidth hn]
    exact (Nat.mod_eq_of_lt (Nat.one_lt_two_pow hn.ne')).symm
  have turn : cordTurn d p =
      if cordBit d p then (cordShifted p - d, (p.2 <<< 1) ||| 1) else (cordShifted p, p.2 <<< 1) := rfl
  cases h : cordBit d p with
  | true => rw [turn, h, one]; rfl
  | false => rw [turn, h]; simp

/-- Where the divisor can be subtracted, the difference does not see the bit that was shifted out. -/
theorem toNat_cordShifted_sub (hn : 0 < n) {d : BitVec n} {p : BitVec n × BitVec n} (hp : p.1.toNat < d.toNat)
    (h : cordBit d p = true) : (cordShifted p - d).toNat + d.toNat = 2 * p.1.toNat + p.2.msb.toNat := by
  have hd := d.isLt
  have hx := Bool.toNat_le p.2.msb
  have shifted : 2 ^ n * p.1.msb.toNat + (cordShifted p).toNat = _ := toNat_shiftUp_in hn p.1 p.2.msb
  cases top : p.1.msb with
  | false =>
    have le : d ≤ cordShifted p := by simpa [cordBit, top, BitVec.le_def] using h
    rw [top, Bool.toNat_false, mul_zero, zero_add] at shifted
    rw [BitVec.toNat_sub_of_le le, Nat.sub_add_cancel le, shifted]
  | true =>
    rw [top, Bool.toNat_true, mul_one] at shifted
    rw [BitVec.toNat_sub, Nat.mod_eq_of_lt (by omega)]
    omega

/-- The remainder of a turn is below the divisor again. -/
theorem cordTurn_remainder (hn : 0 < n) (d : BitVec n) (p : BitVec n × BitVec n) (hp : p.1.toNat < d.toNat) :
    (cordTurn d p).1.toNat < d.toNat ∧
      (cordTurn d p).1.toNat + (cordBit d p).toNat * d.toNat = 2 * p.1.toNat + p.2.msb.toNat := by
  have hx := Bool.toNat_le p.2.msb
  rw [cordTurn_eq hn]
  cases h : cordBit d p with
  | false =>
    have shifted : 2 ^ n * p.1.msb.toNat + (cordShifted p).toNat = _ := toNat_shiftUp_in hn p.1 p.2.msb
    simp only [cordBit, Bool.or_eq_false_iff, decide_eq_false_iff_not, not_le] at h
    obtain ⟨top, below⟩ := h
    rw [top, Bool.toNat_false, mul_zero, zero_add] at shifted
    rw [Bool.toNat_false, zero_mul, add_zero]
    exact ⟨below, shifted⟩
  | true =>
    have diff := toNat_cordShifted_sub hn hp h
    rw [Bool.toNat_true, one_mul]
    exact ⟨show (cordShifted p - d).toNat < d.toNat by omega, diff⟩

/-- A turn shifts the double register up, takes away the divisor above and puts the quotient bit in below. -/
theorem cordTurn_dividend (hn : 0 < n) (d : BitVec n) (p : BitVec n × BitVec n) (hp : p.1.toNat < d.toNat) :
    dividend (cordTurn d p).1 (cordTurn d p).2 + (cordBit d p).toNat * (d.toNat * 2 ^ n) =
      2 * dividend p.1 p.2 + (cordBit d p).toNat := by
  obtain ⟨-, rem⟩ := cordTurn_remainder hn d p hp
  have low : (cordTurn d p).2 = (p.2 <<< 1) ||| (BitVec.ofBool (cordBit d p)).setWidth n := by rw [cordTurn_eq hn]
  have quot := toNat_shiftUp_in hn p.2 (cordBit d p)
  rw [← low] at quot
  have high := congrArg (2 ^ n * ·) rem
  simp only [mul_add] at high
  simp only [dividend]
  linarith

/-- After `k` turns `q` is the number of the `k` quotient bits that came in. -/
theorem cordTurn_iter (hn : 0 < n) (d : BitVec n) (k : Nat) (p : BitVec n × BitVec n) (hp : p.1.toNat < d.toNat) :
    let r := iter (cordTurn d) k p
    r.1.toNat < d.toNat ∧ ∃ q < 2 ^ k, dividend r.1 r.2 + q * (d.toNat * 2 ^ n) = 2 ^ k * dividend p.1 p.2 + q := by
  induction k generalizing p with
  | zero => exact ⟨hp, 0, by simp [iter]⟩
  | succ k ih =>
    have turn := congrArg (2 ^ k * ·) (cordTurn_dividend hn d p hp)
    simp only [mul_add] at turn
    obtain ⟨below, q, hq, rest⟩ := ih (cordTurn d p) (cordTurn_remainder hn d p hp).1
    have bit := Nat.mul_le_mul_left (2 ^ k) (Bool.toNat_le (cordBit d p))
    refine ⟨below, q + 2 ^ k * (cordBit d p).toNat, by rw [pow_succ]; omega, ?_⟩
    rw [iter, pow_succ, add_mul, mul_assoc]
    linarith

/-- CORD divides, or gives no result exactly where the quotient does not fit. -/
theorem cord_eq_divU (hn : 0 < n) (h l d : BitVec n) : cord h l d = divU h l d := by
  by_cases hd : d.toNat ≤ h.toNat
  · have fault : d = 0 ∨ 2 ^ n ≤ dividend h l / d.toNat := by
      by_cases z : d = 0
      · exact .inl z
      · have := Nat.mul_le_mul_right (2 ^ n) hd
        exact .inr ((Nat.le_div_iff_mul_le (toNat_pos_of_ne_zero z)).2 (by rw [dividend, mul_comm]; omega))
    rw [cord, if_pos hd, divU, if_pos fault]
  · obtain ⟨below, q, hq, turns⟩ := cordTurn_iter hn d n (h, l) (Nat.lt_of_not_le hd)
    set r := iter (cordTurn d) n (h, l)
    have bits : q = r.2.toNat := by
      have low := congrArg (· % 2 ^ n) turns
      have shape : r.1.toNat * 2 ^ n + r.2.toNat + q * (d.toNat * 2 ^ n) =
          r.2.toNat + 2 ^ n * (r.1.toNat + q * d.toNat) := by ring
      dsimp only at low
      rw [dividend, shape, Nat.add_mul_mod_self_left, Nat.mul_add_mod, Nat.mod_eq_of_lt hq,
        Nat.mod_eq_of_lt r.2.isLt] at low
      exact low.symm
    have euclid : r.1.toNat + d.toNat * r.2.toNat = dividend h l := by
      subst bits
      apply Nat.eq_of_mul_eq_mul_left (show 0 < 2 ^ n by positivity)
      simp only [dividend] at turns ⊢
      linarith
    obtain ⟨quot, rem⟩ := (Nat.div_mod_unique (show 0 < d.toNat by omega)).2 ⟨euclid, below⟩
    have fits : ¬ (d = 0 ∨ 2 ^ n ≤ dividend h l / d.toNat) := by
      rw [quot]
      rintro (rfl | z)
      · exact hd (Nat.zero_le _)
      · exact absurd r.2.isLt (Nat.not_lt_of_le z)
    rw [cord, if_neg hd, divU, if_neg fits, quot, rem, BitVec.ofNat_toNat, BitVec.ofNat_toNat, BitVec.setWidth_eq,
      BitVec.setWidth_eq]

/-! ### Magnitude and sign (41_muldiv_bcd.md R224, R227) -/

theorem toInt_eq_abs (a : BitVec n) : a.toInt = if a.msb then -(a.abs.toNat : Int) else a.abs.toNat := by
  rw [BitVec.toInt_eq_msb_cond, BitVec.toNat_abs]
  cases a.msb with
  | false => rfl
  | true =>
    rw [if_pos rfl, if_pos rfl, if_pos rfl, Nat.cast_sub a.isLt.le]
    push_cast
    ring

theorem natAbs_toInt (a : BitVec n) : a.toInt.natAbs = a.abs.toNat := by
  rw [toInt_eq_abs]
  split
  · exact Int.natAbs_neg _
  · exact Int.natAbs_natCast _

theorem abs_eq_zero {d : BitVec n} : d.abs = 0 ↔ d = 0 := by
  rw [← BitVec.toInt_inj (x := d), ← BitVec.toNat_inj, ← natAbs_toInt]
  simp

/-- IMUL multiplies the magnitudes and negates the product where the signs differ. -/
theorem imulCore_eq_mulS (hn : 0 < n) (m a : BitVec n) : imulCore m a = mulS a m := by
  have core : imulCore m a =
      if m.msb != a.msb then negate2 (corx m.abs a.abs).1 (corx m.abs a.abs).2 else corx m.abs a.abs := rfl
  rw [core, corx_eq_mulU hn, mulS_eq_halves, negate2_eq_halves, dividend_mulU, mulU_eq_halves, toInt_eq_abs m,
    toInt_eq_abs a]
  cases m.msb <;> cases a.msb <;> simp [mul_comm]

/-- PREIDIV: the magnitude of the dividend. -/
def dividendAbs (h l : BitVec n) : BitVec n × BitVec n := if h.msb then negate2 h l else (h, l)

/-- NEGATE on a number that is not 0. -/
theorem dividend_negate2 {h l : BitVec n} (pos : 0 < dividend h l) :
    dividend (negate2 h l).1 (negate2 h l).2 = 2 ^ n * 2 ^ n - dividend h l := by
  have shown := dividend_halves (n := n) (x := 2 ^ n * 2 ^ n - dividend h l) (by have := dividend_lt h l; omega)
  rwa [natCast_sub_dividend, halves_add_mul, ← negate2_eq_halves] at shown

theorem dividendS_eq_abs (h l : BitVec n) : dividendS h l =
    if h.msb then -(dividend (dividendAbs h l).1 (dividendAbs h l).2 : Int)
    else dividend (dividendAbs h l).1 (dividendAbs h l).2 := by
  rw [dividendS, BitVec.toInt_eq_msb_cond, dividendAbs]
  cases sign : h.msb with
  | false => simp [dividend]
  | true =>
    have high : 0 < h.toNat := toNat_pos_of_ne_zero fun z => by simp [z] at sign
    have pos : 0 < dividend h l := Nat.add_pos_left (Nat.mul_pos high (Nat.two_pow_pos n)) _
    rw [if_pos rfl, if_pos rfl, if_pos rfl, dividend_negate2 pos, natCast_sub_dividend, dividend]
    push_cast
    ring

theorem natAbs_dividendS (h l : BitVec n) :
    (dividendS h l).natAbs = dividend (dividendAbs h l).1 (dividendAbs h l).2 := by
  rw [dividendS_eq_abs]
  split
  · exact Int.natAbs_neg _
  · exact Int.natAbs_natCast _

theorem msb_ofNat {q : Nat} (hq : q < 2 ^ n) : (BitVec.ofNat n q).msb = decide (2 ^ (n - 1) ≤ q) := by
  rw [BitVec.msb_eq_decide, BitVec.toNat_ofNat, Nat.mod_eq_of_lt hq]

/-- POSTIDIV: no quotient with its top bit set; the signs of quotient and remainder. -/
def postIdiv (h d : BitVec n) (p : BitVec n × BitVec n) : Option (BitVec n × BitVec n) :=
  if p.1.msb then none else some (if h.msb != d.msb then -p.1 else p.1, if h.msb then -p.2 else p.2)

theorem idivCore_eq_bind (h l d : BitVec n) :
    idivCore h l d = (cord (dividendAbs h l).1 (dividendAbs h l).2 d.abs).bind (postIdiv h d) := by
  have divisor : d.abs = if d.msb then -d else d := rfl
  rw [dividendAbs, divisor]
  unfold idivCore
  dsimp only
  split
  next e => rw [e, Option.bind_none]
  next q r e => rw [e, Option.bind_some, postIdiv]

/-- The symmetric bound of IDIV without a subtraction (decision D26). -/
theorem divS_eq (h l d : BitVec n) : divS h l d =
    if d = 0 ∨ 2 ^ (n - 1) ≤ ((dividendS h l).tdiv d.toInt).natAbs then none
    else some (BitVec.ofInt n ((dividendS h l).tdiv d.toInt), BitVec.ofInt n ((dividendS h l).tmod d.toInt)) := by
  have bound (k : Nat) : 2 ^ (n - 1) - 1 < k ↔ 2 ^ (n - 1) ≤ k := by
    have := Nat.two_pow_pos (n - 1)
    omega
  simp only [divS, bound]

/-- The quotient of the magnitudes is the magnitude of the quotient, and a truncated quotient and its remainder take the
signs that POSTIDIV gives them. -/
theorem idivCore_eq_divS (hn : 0 < n) (h l d : BitVec n) : idivCore h l d = divS h l d := by
  have double := two_pow_eq_double hn
  have magnitude : ((dividendS h l).tdiv d.toInt).natAbs =
      dividend (dividendAbs h l).1 (dividendAbs h l).2 / d.abs.toNat := by
    rw [Int.natAbs_tdiv, natAbs_dividendS, natAbs_toInt]
    rfl
  rw [idivCore_eq_bind, cord_eq_divU hn, divS_eq, divU, magnitude, dividendS_eq_abs, toInt_eq_abs d]
  simp only [abs_eq_zero]
  clear magnitude
  generalize dividend (dividendAbs h l).1 (dividendAbs h l).2 = y, d.abs.toNat = e
  by_cases fault : d = 0 ∨ 2 ^ n ≤ y / e
  · rw [if_pos fault, if_pos (fault.imp_right fun k => by omega), Option.bind_none]
  obtain ⟨nonzero, fits⟩ := not_or.1 fault
  rw [if_neg fault, Option.bind_some, postIdiv, msb_ofNat (Nat.lt_of_not_le fits)]
  by_cases large : 2 ^ (n - 1) ≤ y / e
  · rw [if_pos (decide_eq_true large), if_pos (.inr large)]
  · rw [if_neg (not_or.2 ⟨nonzero, large⟩), if_neg (mt of_decide_eq_true large)]
    have quot : BitVec.ofInt n ((y : Int).tdiv e) = BitVec.ofNat n (y / e) := BitVec.ofInt_natCast n (y / e)
    have rem : BitVec.ofInt n ((y : Int).tmod e) = BitVec.ofNat n (y % e) := BitVec.ofInt_natCast n (y % e)
    cases h.msb <;> cases d.msb <;>
      simp only [Bool.false_eq_true, reduceIte, bne_self_eq_false, Bool.bne_true, Bool.bne_false, Bool.not_false,
        Int.neg_tdiv, Int.tdiv_neg, Int.neg_tmod, Int.tmod_neg, BitVec.ofInt_neg, neg_neg, quot, rem]

/-! ### Products as numbers (41_muldiv_bcd.md R222, R226, R227) -/

/-- The high half of an unsigned product is 0 where the product fits in one length. -/
theorem mulU_high_ne_zero (b c : BitVec n) : ((mulU b c).1 != 0) = decide (2 ^ n ≤ b.toNat * c.toNat) := by
  have high : (mulU b c).1.toNat = b.toNat * c.toNat / 2 ^ n := by
    rw [mulU, BitVec.toNat_ofNat, Nat.mod_eq_of_lt (Nat.div_lt_of_lt_mul (mul_toNat_lt b c))]
  rw [Bool.eq_iff_iff, bne_iff_ne, decide_eq_true_iff, ← BitVec.toNat_ne_iff_ne, high]
  simp [Nat.div_eq_zero_iff]

/-- A signed number of double length is the one its halves show. -/
theorem dividendS_halves (hn : 0 < n) {x : Int} (lower : -(2 ^ (n - 1) * 2 ^ n) ≤ x) (upper : x < 2 ^ (n - 1) * 2 ^ n) :
    dividendS (halves n x).1 (halves n x).2 = x := by
  have pos : (0 : Int) < 2 ^ n := by positivity
  have high : (BitVec.ofInt n (x / 2 ^ n)).toInt = x / 2 ^ n :=
    BitVec.toInt_ofInt_eq_self hn (Int.le_ediv_of_mul_le pos (by linarith)) (Int.ediv_lt_of_lt_mul pos upper)
  have low : ((BitVec.ofInt n x).toNat : Int) = x % 2 ^ n := by
    rw [BitVec.toNat_ofInt, Int.toNat_of_nonneg (Int.emod_nonneg _ (by positivity))]
    push_cast
    rfl
  rw [halves, dividendS, high, low, mul_comm]
  exact Int.mul_ediv_add_emod x _

theorem dividendS_mulS (hn : 0 < n) (a m : BitVec n) :
    dividendS (mulS a m).1 (mulS a m).2 = a.toInt * m.toInt := by
  have aLower := BitVec.le_toInt a
  have aUpper := BitVec.toInt_lt (x := a)
  have mLower := BitVec.le_toInt m
  have mUpper := BitVec.toInt_lt (x := m)
  have double : (2 : Int) ^ n = 2 * 2 ^ (n - 1) := by exact_mod_cast two_pow_eq_double hn
  have pos : (0 : Int) < 2 ^ (n - 1) := by positivity
  rw [mulS_eq_halves]
  apply dividendS_halves hn <;> rw [double] <;> nlinarith

/-- A number fits in one length where its low half alone shows it. -/
theorem fitsSigned_iff (hn : 0 < n) (x : Int) : FitsSigned n x ↔ (BitVec.ofInt n x).toInt = x := by
  constructor
  · rintro ⟨lower, upper⟩
    exact BitVec.toInt_ofInt_eq_self hn lower upper
  · intro h
    rw [← h]
    exact ⟨BitVec.le_toInt _, BitVec.toInt_lt⟩

/-- IMULCOF: the high half is no sign extension where the number does not fit in one length. -/
theorem imulCof_iff (hn : 0 < n) (hi lo : BitVec n) : imulCof hi lo = true ↔ ¬ FitsSigned n (dividendS hi lo) := by
  have low : BitVec.ofInt n (dividendS hi lo) = lo := by
    rw [dividendS, add_comm, mul_comm, ofInt_add_mul, BitVec.ofInt_natCast, BitVec.ofNat_toNat, BitVec.setWidth_eq]
  have extended : (if lo.msb then BitVec.allOnes n else 0).toInt * 2 ^ n + lo.toNat = lo.toInt := by
    rw [BitVec.toInt_eq_msb_cond (x := lo)]
    cases lo.msb with
    | false => simp
    | true =>
      simp [BitVec.toInt_allOnes, hn]
      ring
  have nonzero : (2 : Int) ^ n ≠ 0 := by positivity
  rw [fitsSigned_iff hn, low, imulCof, bne_iff_ne, ← extended, dividendS, not_iff_not, ← BitVec.toInt_inj,
    add_left_inj, mul_left_inj' nonzero]
  exact eq_comm

/-! ### Quotients as numbers (41_muldiv_bcd.md R228, R229) -/

theorem divU_eq_some {h l d : BitVec n} (nonzero : d ≠ 0) (fits : dividend h l / d.toNat < 2 ^ n) :
    ∃ q r, divU h l d = some (q, r) ∧ q.toNat = dividend h l / d.toNat ∧ r.toNat = dividend h l % d.toNat := by
  have rem : dividend h l % d.toNat < 2 ^ n := (Nat.mod_lt _ (toNat_pos_of_ne_zero nonzero)).trans d.isLt
  exact ⟨_, _, if_neg (not_or.2 ⟨nonzero, Nat.not_le_of_lt fits⟩), Nat.mod_eq_of_lt fits, Nat.mod_eq_of_lt rem⟩

theorem toInt_ofInt_of_natAbs_lt (hn : 0 < n) {x : Int} (h : x.natAbs < 2 ^ (n - 1)) :
    (BitVec.ofInt n x).toInt = x := by
  have : ((x.natAbs : Nat) : Int) < 2 ^ (n - 1) := by exact_mod_cast h
  exact BitVec.toInt_ofInt_eq_self hn (by omega) (by omega)

theorem natAbs_toInt_le (d : BitVec n) : d.toInt.natAbs ≤ 2 ^ (n - 1) := by
  zify
  exact abs_le.2 ⟨BitVec.le_toInt d, BitVec.toInt_lt.le⟩

theorem divS_eq_some (hn : 0 < n) {h l d : BitVec n} (nonzero : d ≠ 0)
    (fits : ((dividendS h l).tdiv d.toInt).natAbs < 2 ^ (n - 1)) :
    ∃ q r, divS h l d = some (q, r) ∧ q.toInt = (dividendS h l).tdiv d.toInt ∧
      r.toInt = (dividendS h l).tmod d.toInt := by
  have rem : ((dividendS h l).tmod d.toInt).natAbs < 2 ^ (n - 1) := by
    have pos : 0 < d.toInt.natAbs := Int.natAbs_pos.2 fun z => nonzero (BitVec.eq_of_toInt_eq (by simpa using z))
    rw [Int.natAbs_tmod]
    exact (Nat.mod_lt _ pos).trans_le (natAbs_toInt_le d)
  exact ⟨_, _, (divS_eq h l d).trans (if_neg (not_or.2 ⟨nonzero, Nat.not_le_of_lt fits⟩)),
    toInt_ofInt_of_natAbs_lt hn fits, toInt_ofInt_of_natAbs_lt hn rem⟩

end

end Sys2Proof.Machine

open Sys2Proof Sys2Proof.Machine

/-- Settles O32: a loop of the microcode changes the number in its registers by the same equation at every turn. -/
theorem coroutinesCompute : Obligations.CoroutinesCompute := fun w a b c =>
  ⟨corx_eq_mulU (Width.bits_pos w) a b, imulCore_eq_mulS (Width.bits_pos w) a b, cord_eq_divU (Width.bits_pos w) a b c,
    idivCore_eq_divS (Width.bits_pos w) a b c⟩

end

section
/-! PROOFS. Entering a handler through ordinary memory (60_exceptions.md R440): the words of the stack frame, and what
is read from the vector. -/

namespace Sys2Proof.Machine

@[simp] theorem Board.flush_mem (b : Board) (ip : Word) : (b.flush ip).mem = b.mem := rfl
@[simp] theorem Board.flush_pc (b : Board) (ip : Word) : (b.flush ip).pc = ip := rfl

namespace State

theorem peek_congr {s t : State} (h : t.board.mem = s.board.mem) (w : Width) (seg off : Word) :
    t.peek w seg off = s.peek w seg off := by
  cases w <;> simp [peek, byteAt, h]

section

variable {s : State}

/-- A push leaves the words of memory alone that it does not overlap. -/
theorem peek_push16_other (c : s.Calm) (v : Word) {off : Word} (same : off ≠ s.reg16 .sp - 2)
    (above : off ≠ s.reg16 .sp - 2 + 1) (below : off + 1 ≠ s.reg16 .sp - 2) :
    (s.push16 v).peek .word (s.sreg .ss) off = s.peek .word (s.sreg .ss) off := by
  have kept {o : Word} (lo : o ≠ s.reg16 .sp - 2) (hi : o ≠ s.reg16 .sp - 2 + 1) :
      (s.push16 v).byteAt (phys (s.sreg .ss) o) = s.byteAt (phys (s.sreg .ss) o) :=
    (push16_touches c.quiet v).mem _ fun m => (List.mem_pair.mp m).elim (fun e => lo (phys_inj e))
      fun e => hi (phys_inj e)
  have next : off + 1 ≠ s.reg16 .sp - 2 + 1 := by bv_omega
  exact congrArg₂ mkWord (kept same above) (kept below next)

section

variable {t : State} {k : Nat} (h : s.Pushes k t) (c : t.Calm) (v : Word)
include h c

/-- The word pushed after `k` others. -/
theorem Pushes.stackWord_top
    (w : t.writable (byteAddrs .word (s.sreg .ss) (s.reg16 .sp - BitVec.ofNat 16 (2 * (k + 1)))) = true) :
    (t.push16 v).stackWord s (2 * (k + 1)) = v := by
  have sp : s.reg16 .sp - BitVec.ofNat 16 (2 * (k + 1)) = t.reg16 .sp - 2 := by rw [h.sp]; bv_omega
  rw [sp, ← h.ss] at w
  rw [stackWord, sp, ← h.ss]
  exact push16_value c v w

/-- The words pushed before, as long as the pushes have not wrapped around the segment. -/
theorem Pushes.stackWord_above {j : Nat} (pos : 0 < j) (le : j ≤ k) (small : k < 0x7FFF) :
    (t.push16 v).stackWord s (2 * j) = t.stackWord s (2 * j) := by
  have sp := h.sp
  rw [stackWord, stackWord, ← h.ss]
  exact peek_push16_other c v (by bv_omega) (by bv_omega) (by bv_omega)

end

theorem rd16_value (q : s.Quiet) {seg off : Word} (r : s.readable (byteAddrs .word seg off) = true) :
    (s.rd16 seg off).1 = s.peek .word seg off := readPlace_value q .word (.mem seg off) r

theorem rd16_mem (q : s.Quiet) (seg off : Word) : (s.rd16 seg off).2.board.mem = s.board.mem := Board.rd16_mem _ _ _ q

theorem rd16_touches (q : s.Quiet) (seg off : Word) : s.board.Touches [] (s.rd16 seg off).2.board :=
  Board.rd16_touches _ _ _ q

/-- FLAGS, CS and the return offset on the stack, IF and TF clear, before the vector is read. -/
def entryFrame (s : State) (ret : Word) : State :=
  let pushed := ((s.push16 s.cpu.flags.word).push16 (s.sreg .cs)).push16 ret
  pushed.setFlags { pushed.cpu.flags with intf := false, tf := false }

/-- The offset of the handler is read first, then its segment. -/
theorem enter_eq (s : State) (n : Byte) (ret : Word) :
    let off := (s.entryFrame ret).rd16 0 (4 * n.setWidth 16)
    let seg := off.2.rd16 0 (4 * n.setWidth 16 + 2)
    (s.enter n ret).board = seg.2.board.flush off.1 ∧ (s.enter n ret).sreg .cs = seg.1 := ⟨rfl, rfl⟩

/-- An entry changes no general register but SP. -/
theorem reg16_enter_other (s : State) (n : Byte) (ret : Word) {g : GReg} (h : g ≠ .sp) :
    (s.enter n ret).reg16 g = s.reg16 g := by
  rw [reg16, enter_cpu]
  exact Regs.get_set_other _ _ h

variable (c : s.Calm)
include c

theorem writable_push16 (v : Word) (as : List Nat) : (s.push16 v).writable as = s.writable as :=
  writable_of_touches (push16_touches c.quiet v) as

theorem readable_push16 (v : Word) (as : List Nat) : (s.push16 v).readable as = s.readable as :=
  readable_of_touches (push16_touches c.quiet v) as

theorem entryFrame_quiet (ret : Word) : (s.entryFrame ret).Quiet :=
  (push16_calm (push16_calm (push16_calm c s.cpu.flags.word) (s.sreg .cs)) ret).quiet

theorem entryFrame_readable (ret : Word) (as : List Nat) : (s.entryFrame ret).readable as = s.readable as := by
  have first := push16_calm c s.cpu.flags.word
  have second := push16_calm first (s.sreg .cs)
  exact (readable_push16 second ret as).trans ((readable_push16 first _ as).trans (readable_push16 c _ as))

/-- The three words of the frame. -/
theorem entryFrame_words (w : s.writable (s.stackAddrs 3) = true) (ret : Word) :
    (s.entryFrame ret).stackWord s 2 = s.cpu.flags.word ∧ (s.entryFrame ret).stackWord s 4 = s.sreg .cs ∧
      (s.entryFrame ret).stackWord s 6 = ret := by
  simp only [stackAddrs, writable, List.all_append, Bool.and_eq_true] at w
  obtain ⟨⟨⟨-, w1⟩, w2⟩, w3⟩ := w
  have zero : s.Pushes 0 s := .start (.refl _) rfl rfl
  have one := zero.push16 c.quiet s.cpu.flags.word
  have two := one.push16 c.quiet (s.sreg .cs)
  have first := push16_calm c s.cpu.flags.word
  have second := push16_calm first (s.sreg .cs)
  refine ⟨?_, ?_, ?_⟩
  · exact (two.stackWord_above second ret one_pos one_le_two (by decide)).trans
      ((one.stackWord_above first _ one_pos le_rfl (by decide)).trans (zero.stackWord_top c _ w1))
  · exact (two.stackWord_above second ret two_pos le_rfl (by decide)).trans
      (one.stackWord_top first _ ((writable_push16 c _ _).trans w2))
  · exact two.stackWord_top second ret ((writable_push16 first _ _).trans ((writable_push16 c _ _).trans w3))

/-- Reading the vector changes no memory. -/
theorem enter_mem (n : Byte) (ret : Word) : (s.enter n ret).board.mem = (s.entryFrame ret).board.mem := by
  have q := entryFrame_quiet c ret
  have low := rd16_touches q 0 (4 * n.setWidth 16)
  rw [(enter_eq s n ret).1, Board.flush_mem]
  exact (rd16_mem (low.slots.trans q) _ _).trans (rd16_mem q _ _)

/-- Control goes to the far pointer in the vector. -/
theorem enter_target {n : Byte} (r : s.readable (vectorAddrs n) = true) (ret : Word) :
    (s.enter n ret).sreg .cs = (s.entryFrame ret).peek .word 0 (4 * n.setWidth 16 + 2) ∧
      (s.enter n ret).board.pc = (s.entryFrame ret).peek .word 0 (4 * n.setWidth 16) := by
  have q := entryFrame_quiet c ret
  have low := rd16_touches q 0 (4 * n.setWidth 16)
  rw [← entryFrame_readable c ret] at r
  simp only [vectorAddrs, readable, List.all_append, Bool.and_eq_true] at r
  obtain ⟨r1, r2⟩ := r
  obtain ⟨board, cs⟩ := enter_eq s n ret
  constructor
  · rw [cs, rd16_value (low.slots.trans q) ((readable_of_touches low _).trans r2)]
    exact peek_congr (rd16_mem q _ _) _ _ _
  · rw [board, Board.flush_pc]
    exact rd16_value q r1

/-- What an entry leaves, where it goes through ordinary memory. -/
theorem entered_enter {n : Byte} (k : s.canEnter n = true) (ret : Word) : Entered (s.enter n ret) s n ret := by
  rw [canEnter, Bool.and_eq_true] at k
  obtain ⟨w, r⟩ := k
  have same (seg off : Word) := peek_congr (enter_mem c n ret) .word seg off
  obtain ⟨flags, cs, ip⟩ := entryFrame_words c w ret
  obtain ⟨seg, off⟩ := enter_target c r ret
  have cpu := s.enter_cpu n ret
  exact {
    sp := by
      rw [reg16, cpu, Regs.get_set_same]
      bv_omega
    flags := (same _ _).trans flags
    cs := (same _ _).trans cs
    ip := (same _ _).trans ip
    masked := by rw [cpu]
    target := ⟨seg.trans (same _ _).symm, off.trans (same _ _).symm⟩
    queue := s.enter_queue n ret
    awake := by rw [cpu]; exact ⟨rfl, rfl⟩ }

end

end State

end Sys2Proof.Machine
end

section
/-! PROOFS. MUL, IMUL, DIV and IDIV leave their products and quotients, or enter handler 0
(41_muldiv_bcd.md R226 to R230). -/

namespace Sys2Proof.Machine

/-- The end of MUL and IMUL: the product `p` into the accumulator, CF and OF as `k` says. -/
def finishMul (w : Width) (p : BitVec w.bits × BitVec w.bits) (k : Bool) (u : State) : State :=
  ((u.setAcc w p.1 p.2).setFlags (mulFlags u u.cpu.flags k)).spend 4

namespace State

/-! ### The implicit registers -/

theorem accHi_setAcc (s : State) (w : Width) (hi lo : BitVec w.bits) : (s.setAcc w hi lo).accHi w = hi := by
  cases w with
  | byte => exact hiByte_mkWord lo hi
  | word => rfl

theorem reg_setAcc (s : State) (w : Width) (hi lo : BitVec w.bits) : (s.setAcc w hi lo).reg w .ax = lo := by
  cases w with
  | byte => exact loByte_mkWord lo hi
  | word => rfl

theorem accHi_congr {s t : State} (h : t.cpu.regs = s.cpu.regs) (w : Width) : t.accHi w = s.accHi w := by
  cases w <;> simp [accHi, reg8, reg16, h]

theorem reg_congr {s t : State} (h : t.cpu.regs = s.cpu.regs) (w : Width) (g : GReg) : t.reg w g = s.reg w g := by
  cases w <;> simp [reg, reg8, reg16, h]

/-- The high half after the accumulator is written, whatever flags are set and free bits used up. -/
theorem accHi_written (u : State) (w : Width) (hi lo : BitVec w.bits) (f : Flags) (k : Nat) :
    (((u.setAcc w hi lo).setFlags f).spend k).accHi w = hi :=
  (accHi_congr rfl w).trans (accHi_setAcc u w hi lo)

theorem reg_written (u : State) (w : Width) (hi lo : BitVec w.bits) (f : Flags) (k : Nat) :
    (((u.setAcc w hi lo).setFlags f).spend k).reg w .ax = lo :=
  (reg_congr rfl w .ax).trans (reg_setAcc u w hi lo)

/-! ### What MUL, IMUL, DIV and IDIV run (41_muldiv_bcd.md R226 to R229) -/

section

variable {s : State} (c : s.Calm) {w : Width} {e : RM} (r : s.readable ((s.place (.rm e)).addrs w) = true)
include c r

/-- The explicit operand as read, and the accumulator as it is afterwards. -/
theorem load_operands : (s.load w (.rm e)).1 = s.val w (s.place (.rm e)) ∧
    (s.load w (.rm e)).2.reg w .ax = s.reg w .ax ∧ (s.load w (.rm e)).2.accHi w = s.accHi w := by
  have regs : (s.load w (.rm e)).2.cpu.regs = s.cpu.regs := by rw [load_cpu, touch_regs]
  exact ⟨(load_value c.quiet w (.rm e) r).1, reg_congr regs w .ax, accHi_congr regs w⟩

theorem exec_mul :
    let p := mulU (s.val w (s.place (.rm e))) (s.reg w .ax)
    exec (.mul w e) s = .next (finishMul w p (p.1 != 0) (s.load w (.rm e)).2) := by
  obtain ⟨value, ax, -⟩ := load_operands c r
  rw [← value, ← ax]
  rfl

theorem exec_imul :
    let p := mulS (s.reg w .ax) (s.val w (s.place (.rm e)))
    exec (.imul w e) s = .next (finishMul w p (imulCof p.1 p.2) (s.load w (.rm e)).2) := by
  obtain ⟨value, ax, -⟩ := load_operands c r
  rw [← value, ← ax]
  rfl

theorem exec_div : exec (.div w e) s = .next (finishDiv w
    (divU (s.accHi w) (s.reg w .ax) (s.val w (s.place (.rm e)))) (s.load w (.rm e)).2) := by
  obtain ⟨value, ax, hi⟩ := load_operands c r
  rw [← value, ← ax, ← hi]
  rfl

theorem exec_idiv : exec (.idiv w e) s = .next (finishDiv w
    (divS (s.accHi w) (s.reg w .ax) (s.val w (s.place (.rm e)))) (s.load w (.rm e)).2) := by
  obtain ⟨value, ax, hi⟩ := load_operands c r
  rw [← value, ← ax, ← hi]
  rfl

end

/-! ### The divide error (41_muldiv_bcd.md R230) -/

/-- The offset that a divide error pushes (decision D8). -/
def divideReturn (s : State) : Word := if s.board.params.divFaultIp = .faulting then s.cpu.lastIp else s.ipNext

theorem divideFault_eq (u : State) : u.divideFault = (u.enter 0 u.divideReturn).setResult .okayJump := by
  rw [divideFault, raise, divideReturn]
  cases u.board.params.divFaultIp <;> rfl

/-- An entry counts from the registers and the FLAGS of the state before, whatever else that state holds. -/
theorem entered_congr {s t u : State} {n : Byte} {ret : Word} (h : Entered t u n ret) (regs : u.cpu.regs = s.cpu.regs)
    (sregs : u.cpu.sregs = s.cpu.sregs) (flags : u.cpu.flags = s.cpu.flags) : Entered t s n ret := by
  have sp : u.reg16 .sp = s.reg16 .sp := by rw [reg16, regs, reg16]
  have sreg (g : SReg) : u.sreg g = s.sreg g := by rw [State.sreg, sregs, State.sreg]
  have word (k : Nat) : t.stackWord u k = t.stackWord s k := by rw [stackWord, sreg, sp, stackWord]
  exact {
    sp := by rw [← sp]; exact h.sp
    flags := by rw [← word, ← flags]; exact h.flags
    cs := by rw [← word, ← sreg]; exact h.cs
    ip := by rw [← word]; exact h.ip
    masked := by rw [← flags]; exact h.masked
    target := h.target
    queue := h.queue
    awake := h.awake }

theorem entered_setResult {s t : State} {n : Byte} {ret : Word} (h : Entered t s n ret) (x : ResultTag) :
    Entered (t.setResult x) s n ret :=
  ⟨h.sp, h.flags, h.cs, h.ip, h.masked, h.target, h.queue, h.awake⟩

/-- The divide error enters handler 0 and leaves every general register but SP. -/
theorem divideFault_entered {s : State} (c : s.Calm) (k : s.canEnter 0 = true) :
    Entered s.divideFault s 0 s.divideReturn ∧ ∀ g, g ≠ .sp → s.divideFault.reg16 g = s.reg16 g := by
  rw [divideFault_eq]
  exact ⟨entered_setResult (entered_enter c k s.divideReturn) _, fun g => reg16_enter_other s 0 s.divideReturn⟩

/-- Reading the divisor first changes nothing of that. -/
theorem divideFault_load {s : State} (c : s.Calm) {w : Width} {e : RM}
    (r : s.readable ((s.place (.rm e)).addrs w) = true) (k : s.canEnter 0 = true) :
    let t := (s.load w (.rm e)).2.divideFault
    Entered t s 0 s.divideReturn ∧ ∀ g, g ≠ .sp → t.reg16 g = s.reg16 g := by
  obtain ⟨-, mem⟩ := load_value c.quiet w (.rm e) r
  have touched := Touches.load c.quiet w (.rm e)
  have cpu : (s.load w (.rm e)).2.cpu = { s.cpu with lastEa := (s.touch (.rm e)).cpu.lastEa } := by
    rw [load_cpu, touch_eq]
  generalize (s.load w (.rm e)).2 = u at *
  have regs : u.cpu.regs = s.cpu.regs := by rw [cpu]
  have sregs : u.cpu.sregs = s.cpu.sregs := by rw [cpu]
  have flags : u.cpu.flags = s.cpu.flags := by rw [cpu]
  have ret : u.divideReturn = s.divideReturn := by
    simp only [divideReturn, ipNext, touched.params, touched.pc, touched.queue, cpu]
  have stack : u.stackAddrs 3 = s.stackAddrs 3 := by simp only [stackAddrs, sreg, reg16, cpu]
  have canEnter : u.canEnter 0 = true := by
    rwa [State.canEnter, stack, writable_of_touches touched, readable_of_touches touched]
  obtain ⟨entered, kept⟩ := divideFault_entered (calm_of_touches c touched mem) canEnter
  rw [ret] at entered
  exact ⟨entered_congr entered regs sregs flags, fun g n => (kept g n).trans (by rw [reg16, regs, reg16])⟩

end State

end Sys2Proof.Machine

open Sys2Proof Sys2Proof.Machine

/-- Settles O29: the accumulator holds the halves of the product, and either flag rule says whether it fits in the low
one. -/
theorem multiplyResults : Obligations.MultiplyResults := by
  intro w e s c r
  refine ⟨⟨_, State.exec_mul c r, ?_, ?_, rfl⟩, ⟨_, State.exec_imul c r, ?_, ?_, rfl⟩⟩
  · rw [finishMul, State.accHi_written, State.reg_written, dividend_mulU, mul_comm]
  · rw [mul_comm]; exact mulU_high_ne_zero _ _
  · rw [finishMul, State.accHi_written, State.reg_written, dividendS_mulS (Width.bits_pos w)]
  · rw [← dividendS_mulS (Width.bits_pos w)]
    exact imulCof_iff (Width.bits_pos w) _ _

/-- Settles O30: inside the bound both relations give a result, and no number in it is cut off. -/
theorem divideResults : Obligations.DivideResults := by
  intro w e s c r d x y nonzero
  refine ⟨fun fits => ?div, fun fits => ?idiv⟩
  case div =>
    obtain ⟨q, m, outcome, hq, hm⟩ := divU_eq_some nonzero fits
    refine ⟨_, (State.exec_div c r).trans (by rw [outcome]), ?_, ?_⟩
    · rw [finishDiv, State.reg_written, hq]
    · rw [finishDiv, State.accHi_written, hm]
  case idiv =>
    obtain ⟨q, m, outcome, hq, hm⟩ := divS_eq_some (Width.bits_pos w) nonzero fits
    refine ⟨_, (State.exec_idiv c r).trans (by rw [outcome]), ?_, ?_⟩
    · rw [finishDiv, State.reg_written, hq]
    · rw [finishDiv, State.accHi_written, hm]

/-- Settles O31: all ways to the divide error come to the same entry of handler 0. -/
theorem divideError : Obligations.DivideError := by
  intro s c k ret
  refine ⟨fun w e r => ⟨fun fault => ?div, fun fault => ?idiv⟩, ⟨_, rfl, State.divideFault_entered c k⟩⟩
  case div =>
    have outcome : divU (s.accHi w) (s.reg w .ax) (s.val w (s.place (.rm e))) = none := if_pos fault
    exact ⟨_, (State.exec_div c r).trans (by rw [outcome, finishDiv]), State.divideFault_load c r k⟩
  case idiv =>
    have outcome : divS (s.accHi w) (s.reg w .ax) (s.val w (s.place (.rm e))) = none :=
      (divS_eq _ _ _).trans (if_pos fault)
    exact ⟨_, (State.exec_idiv c r).trans (by rw [outcome, finishDiv]), State.divideFault_load c r k⟩

end

section
/-! PROOFS. The decimal adjusts (41_muldiv_bcd.md section 4), and that they make decimal arithmetic. -/

namespace Sys2Proof.Machine

/-! ### The decimal adjusts (41_muldiv_bcd.md R241 to R247) -/

/-- Where the rules are in force, `P_BCD` makes no difference. -/
theorem bcdResult_inForce {c : BcdChoice} {op : BcdOp} {i : BcdIn} (h : c = .asWritten ∨ bcdDomain op i = true) :
    bcdResult c op i = bcdWritten op i := by
  cases c with
  | asWritten => rfl
  | openOutside => exact if_pos (h.resolve_left nofun)

theorem bcdWritten_daa (i : BcdIn) : bcdWritten .daa i =
    ⟨i.al + (if lowAdjust i then 6 else 0) + (if highAdjust i then 0x60 else 0), i.ah, lowAdjust i, highAdjust i⟩ := by
  rw [bcdWritten]
  cases lowAdjust i <;> cases highAdjust i <;> simp

theorem bcdWritten_das (i : BcdIn) : bcdWritten .das i =
    ⟨i.al - (if lowAdjust i then 6 else 0) - (if highAdjust i then 0x60 else 0), i.ah, lowAdjust i, highAdjust i⟩ := by
  rw [bcdWritten]
  cases lowAdjust i <;> cases highAdjust i <;> simp

theorem bcdWritten_aaa (i : BcdIn) : bcdWritten .aaa i =
    ⟨(i.al + (if lowAdjust i then 6 else 0)) &&& 0x0F, i.ah + (if lowAdjust i then 1 else 0), lowAdjust i,
      lowAdjust i⟩ := by
  rw [bcdWritten]
  cases lowAdjust i <;> simp

theorem bcdWritten_aas (i : BcdIn) : bcdWritten .aas i =
    ⟨(i.al - (if lowAdjust i then 6 else 0)) &&& 0x0F, i.ah - (if lowAdjust i then 1 else 0), lowAdjust i,
      lowAdjust i⟩ := by
  rw [bcdWritten]
  cases lowAdjust i <;> simp

namespace State

variable (s : State)

theorem packedAdjust_result (op : BcdOp) :
    let t := s.packedAdjust op
    t.reg8 .ax = (s.bcd op 0).al ∧ t.cpu.flags.af = (s.bcd op 0).af ∧ t.cpu.flags.cf = (s.bcd op 0).cf ∧
      SzpOf (t.reg8 .ax) t.cpu.flags := by
  have al : (s.packedAdjust op).reg8 .ax = (s.bcd op 0).al := Regs.get8_set8_same _ _ _
  refine ⟨al, rfl, rfl, ?_⟩
  rw [al]
  obtain ⟨sf, zf, pf⟩ := szpOf_szp s.cpu.flags (s.bcd op 0).al
  exact ⟨sf, zf, pf⟩

theorem setBcd_result (o : BcdOut) : (s.setBcd o).reg8 .ax = o.al ∧ (s.setBcd o).reg8 .sp = o.ah :=
  ⟨loByte_mkWord o.al o.ah, hiByte_mkWord o.al o.ah⟩

theorem asciiAdjust_result (op : BcdOp) :
    let t := s.asciiAdjust op
    t.reg8 .ax = (s.bcd op 0).al ∧ t.reg8 .sp = (s.bcd op 0).ah ∧ t.cpu.flags.af = (s.bcd op 0).af ∧
      t.cpu.flags.cf = (s.bcd op 0).cf := by
  obtain ⟨al, ah⟩ := s.setBcd_result (s.bcd op 0)
  exact ⟨al, ah, rfl, rfl⟩

theorem baseAdjust_result (op : BcdOp) (base : Byte) :
    let t := s.baseAdjust op base
    t.reg8 .ax = (s.bcd op base).al ∧ t.reg8 .sp = (s.bcd op base).ah ∧ SzpOf (t.reg8 .ax) t.cpu.flags := by
  obtain ⟨al, ah⟩ := s.setBcd_result (s.bcd op base)
  have al' : (s.baseAdjust op base).reg8 .ax = (s.bcd op base).al := al
  refine ⟨al', ah, ?_⟩
  rw [al']
  obtain ⟨sf, zf, pf⟩ := szpOf_szp s.cpu.flags (s.bcd op base).al
  exact ⟨sf, zf, pf⟩

end State

/-! ### Packed-decimal bytes -/

/-- The packed-decimal byte of a number modulo 100. -/
def packed (n : Nat) : Byte := BitVec.ofNat 8 (n / 10 % 10 * 16 + n % 10)

theorem toNat_packed {n a b : Nat} (ha : a < 10) (hb : b < 10) (h : n % 100 = 10 * a + b) :
    (packed n).toNat = 16 * a + b := by
  have tens : n / 10 % 10 = a := by omega
  have ones : n % 10 = b := by omega
  rw [packed, BitVec.toNat_ofNat, tens, ones]
  omega

/-- One column of an addition in base `B`: the digits `a` and `b` with carry `k` give the digit `u` and the carry `p`.
Read as a subtraction: `u` less `a` with borrow `k` gives the digit `b` and the borrow `p`. -/
structure Column (B a b : Nat) (k p : Bool) (u : Nat) : Prop where
  left  : a < B
  right : b < B
  digit : u < B
  sum   : a + b + k.toNat = B * p.toNat + u

theorem exists_column {B a b : Nat} (ha : a < B) (hb : b < B) (k : Bool) : ∃ p u, Column B a b k p u := by
  have hk := Bool.toNat_le k
  by_cases h : B ≤ a + b + k.toNat
  · exact ⟨true, a + b + k.toNat - B, ha, hb, by omega, by rw [Bool.toNat_true]; omega⟩
  · exact ⟨false, a + b + k.toNat, ha, hb, by omega, by simp⟩

theorem exists_column_borrow {B a u : Nat} (ha : a < B) (hu : u < B) (k : Bool) : ∃ p b, Column B a b k p u := by
  have hk := Bool.toNat_le k
  by_cases h : u < a + k.toNat
  · exact ⟨true, B + u - a - k.toNat, ha, by omega, hu, by rw [Bool.toNat_true]; omega⟩
  · exact ⟨false, u - a - k.toNat, ha, by omega, hu, by rw [Bool.toNat_false]; omega⟩

theorem exists_digits {x : Nat} (hx : x < 100) : ∃ a b, a < 10 ∧ b < 10 ∧ x = 10 * a + b :=
  ⟨x / 10, x % 10, by omega, by omega, by omega⟩

theorem toNat_correction (p : Bool) (v : Byte) : (if p then v else 0).toNat = v.toNat * p.toNat := by
  cases p <;> simp

/-- The corrections of DAA, as numbers. -/
theorem toNat_add_corrections (al : Byte) (p q : Bool) : (al + (if p then 6 else 0) + (if q then 0x60 else 0)).toNat =
    (al.toNat + 6 * p.toNat + 96 * q.toNat) % 256 := by
  rw [BitVec.toNat_add, BitVec.toNat_add, toNat_correction, toNat_correction]
  exact Nat.mod_add_mod _ _ _

/-- The corrections of DAS, where they do not wrap. -/
theorem toNat_sub_corrections {al : Byte} {p q : Bool} {n : Nat} (h : al.toNat = n + 6 * p.toNat + 96 * q.toNat) :
    (al - (if p then 6 else 0) - (if q then 0x60 else 0)).toNat = n := by
  have low : (if p then 6 else 0 : Byte).toNat = 6 * p.toNat := toNat_correction p 6
  have high : (if q then 0x60 else 0 : Byte).toNat = 96 * q.toNat := toNat_correction q 0x60
  have first : (al - if p then 6 else 0).toNat = n + 96 * q.toNat := by
    rw [BitVec.toNat_sub_of_le (by rw [BitVec.le_def]; omega)]
    omega
  rw [BitVec.toNat_sub_of_le (by rw [BitVec.le_def]; omega)]
  omega

theorem decide_eq_of_toNat {P : Prop} [Decidable P] {p : Bool} (h : P ↔ p.toNat = 1) : decide P = p := by
  rw [Bool.eq_iff_iff, decide_eq_true_iff, h, Bool.toNat_eq_one]

theorem decide_or_eq_of_toNat {P : Prop} [Decidable P] {a p : Bool} (h : P ∨ a.toNat = 1 ↔ p.toNat = 1) :
    (decide P || a) = p := by
  rw [Bool.eq_iff_iff, Bool.or_eq_true, decide_eq_true_iff, ← Bool.toNat_eq_one (b := a), h, Bool.toNat_eq_one]

section

variable {i : BcdIn} {x1 x0 y1 y0 hi lo v u : Nat} {k p q : Bool}

/-- What a binary addition of packed-decimal bytes leaves is in the documented domain of DAA, and both of its tests find
the carries of the decimal columns. -/
theorem daa_columns (al : i.al.toNat = 16 * hi + lo) (hex0 : Column 16 x0 y0 k i.af lo)
    (hex1 : Column 16 x1 y1 i.af i.cf hi) (dec0 : Column 10 x0 y0 k p u) (dec1 : Column 10 x1 y1 p q v) :
    bcdDomain .daa i = true ∧ lowAdjust i = p ∧ highAdjust i = q ∧
      i.al.toNat + 6 * p.toNat + 256 * i.cf.toNat = 16 * v + u + 160 * q.toNat := by
  obtain ⟨-, -, hlo, nibble0⟩ := hex0
  obtain ⟨-, -, hhi, nibble1⟩ := hex1
  obtain ⟨hx0, hy0, hu, digit0⟩ := dec0
  obtain ⟨hx1, hy1, hv, digit1⟩ := dec1
  have hk := Bool.toNat_le k
  have hp := Bool.toNat_le p
  have hq := Bool.toNat_le q
  have haf := Bool.toNat_le i.af
  have hcf := Bool.toNat_le i.cf
  have low : i.al.toNat % 16 = lo := by omega
  have high : i.al.toNat / 16 = hi := by omega
  refine ⟨?_, ?_, ?_, by omega⟩
  · rw [bcdDomain, low, high]
    cases haf : i.af <;> cases hcf : i.cf <;> simp [haf, hcf] at nibble0 nibble1 ⊢ <;> omega
  · rw [lowAdjust, low]
    exact decide_or_eq_of_toNat (by omega)
  · rw [highAdjust, al]
    exact decide_or_eq_of_toNat (by omega)

/-- The same for a binary subtraction and DAS: `x1 x0` less `y1 y0`. -/
theorem das_columns (al : i.al.toNat = 16 * hi + lo) (hex0 : Column 16 y0 lo k i.af x0)
    (hex1 : Column 16 y1 hi i.af i.cf x1) (dec0 : Column 10 y0 u k p x0) (dec1 : Column 10 y1 v p q x1) :
    bcdDomain .das i = true ∧ lowAdjust i = p ∧ highAdjust i = q ∧
      i.al.toNat = 16 * v + u + 6 * p.toNat + 96 * q.toNat := by
  obtain ⟨-, hlo, -, nibble0⟩ := hex0
  obtain ⟨-, hhi, -, nibble1⟩ := hex1
  obtain ⟨hy0, hu, hx0, digit0⟩ := dec0
  obtain ⟨hy1, hv, hx1, digit1⟩ := dec1
  have hk := Bool.toNat_le k
  have hp := Bool.toNat_le p
  have hq := Bool.toNat_le q
  have haf := Bool.toNat_le i.af
  have hcf := Bool.toNat_le i.cf
  -- a borrow is the same in both bases, and leaves a digit that is 6 more in base 16
  have borrow0 : i.af.toNat = p.toNat := by omega
  have borrow1 : i.cf.toNat = q.toNat := by omega
  have digits : lo = u + 6 * p.toNat ∧ hi = v + 6 * q.toNat := by omega
  have low : i.al.toNat % 16 = lo := by omega
  have high : i.al.toNat / 16 = hi := by omega
  refine ⟨?_, ?_, ?_, by omega⟩
  · rw [bcdDomain, low, high]
    cases haf : i.af <;> cases hcf : i.cf <;> simp [haf, hcf] at nibble0 nibble1 ⊢ <;> omega
  · rw [lowAdjust, low]
    exact decide_or_eq_of_toNat (by omega)
  · rw [highAdjust, al]
    exact decide_or_eq_of_toNat (by omega)

end

section

variable (f : Flags) {x1 x0 y1 y0 hi lo v u : Nat} {k h e p q : Bool}

/-- AF and CF after ADD and ADC of packed-decimal bytes are the carries of the two columns in base 16. -/
theorem addN_columns (dec0 : Column 10 x0 y0 k p u) (dec1 : Column 10 x1 y1 p q v) (hex0 : Column 16 x0 y0 k h lo)
    (hex1 : Column 16 x1 y1 h e hi) :
    let sum := addN f (packed (10 * x1 + x0)) (packed (10 * y1 + y0)) k
    sum.1.toNat = 16 * hi + lo ∧ sum.2.af = h ∧ sum.2.cf = e := by
  obtain ⟨hx0, hy0, -, -⟩ := dec0
  obtain ⟨hx1, hy1, -, -⟩ := dec1
  obtain ⟨-, -, hlo, nibble0⟩ := hex0
  obtain ⟨-, -, hhi, nibble1⟩ := hex1
  have hh := Bool.toNat_le h
  have he := Bool.toNat_le e
  have hx := toNat_packed hx1 hx0 (n := 10 * x1 + x0) (by omega)
  have hy := toNat_packed hy1 hy0 (n := 10 * y1 + y0) (by omega)
  simp only [addN, hx, hy, BitVec.toNat_ofNat]
  exact ⟨by omega, decide_eq_of_toNat (by omega), decide_eq_of_toNat (by omega)⟩

/-- AF and CF after SUB and SBB of packed-decimal bytes are the borrows. -/
theorem subN_columns (dec0 : Column 10 y0 u k p x0) (dec1 : Column 10 y1 v p q x1) (hex0 : Column 16 y0 lo k h x0)
    (hex1 : Column 16 y1 hi h e x1) :
    let dif := subN f (packed (10 * x1 + x0)) (packed (10 * y1 + y0)) k
    dif.1.toNat = 16 * hi + lo ∧ dif.2.af = h ∧ dif.2.cf = e := by
  obtain ⟨hy0, -, hx0, -⟩ := dec0
  obtain ⟨hy1, -, hx1, -⟩ := dec1
  obtain ⟨-, hlo, -, nibble0⟩ := hex0
  obtain ⟨-, hhi, -, nibble1⟩ := hex1
  have hk := Bool.toNat_le k
  have hh := Bool.toNat_le h
  have he := Bool.toNat_le e
  have hx := toNat_packed hx1 hx0 (n := 10 * x1 + x0) (by omega)
  have hy := toNat_packed hy1 hy0 (n := 10 * y1 + y0) (by omega)
  simp only [subN, hx, hy, BitVec.toNat_sub, BitVec.toNat_ofNat]
  exact ⟨by omega, decide_eq_of_toNat (by omega), decide_eq_of_toNat (by omega)⟩

end

section

variable (c : BcdChoice) (f : Flags) {x y : Nat} (hx : x < 100) (hy : y < 100) (k : Bool) (ah : Byte)
include hx hy

/-- DAA after ADD or ADC gives the decimal sum. -/
theorem daa_packed :
    let sum := addN f (packed x) (packed y) k
    let o := bcdResult c .daa ⟨sum.1, ah, 0, sum.2.af, sum.2.cf⟩
    o.al = packed (x + y + k.toNat) ∧ o.cf = decide (100 ≤ x + y + k.toNat) := by
  obtain ⟨x1, x0, hx1, hx0, rfl⟩ := exists_digits hx
  obtain ⟨y1, y0, hy1, hy0, rfl⟩ := exists_digits hy
  obtain ⟨h, lo, hex0⟩ := exists_column (B := 16) (show x0 < 16 by omega) (show y0 < 16 by omega) k
  obtain ⟨e, hi, hex1⟩ := exists_column (B := 16) (show x1 < 16 by omega) (show y1 < 16 by omega) h
  obtain ⟨p, u, dec0⟩ := exists_column hx0 hy0 k
  obtain ⟨q, v, dec1⟩ := exists_column hx1 hy1 p
  intro sum o
  obtain ⟨al, rfl, rfl⟩ := addN_columns f dec0 dec1 hex0 hex1
  obtain ⟨domain, low, high, total⟩ :=
    daa_columns (i := ⟨sum.1, ah, 0, sum.2.af, sum.2.cf⟩) al hex0 hex1 dec0 dec1
  have written : o = _ := (bcdResult_inForce (.inr domain)).trans (bcdWritten_daa _)
  rw [written, low, high]
  obtain ⟨-, -, hu, digit0⟩ := dec0
  obtain ⟨-, -, hv, digit1⟩ := dec1
  have hq := Bool.toNat_le q
  refine ⟨BitVec.eq_of_toNat_eq ?_, (decide_eq_of_toNat (p := q) (by omega)).symm⟩
  rw [toNat_packed hv hu (by omega), toNat_add_corrections]
  omega

/-- DAS after SUB or SBB gives the decimal difference. -/
theorem das_packed :
    let dif := subN f (packed x) (packed y) k
    let o := bcdResult c .das ⟨dif.1, ah, 0, dif.2.af, dif.2.cf⟩
    o.al = packed (x + 100 - y - k.toNat) ∧ o.cf = decide (x < y + k.toNat) := by
  obtain ⟨x1, x0, hx1, hx0, rfl⟩ := exists_digits hx
  obtain ⟨y1, y0, hy1, hy0, rfl⟩ := exists_digits hy
  obtain ⟨h, lo, hex0⟩ := exists_column_borrow (B := 16) (show y0 < 16 by omega) (show x0 < 16 by omega) k
  obtain ⟨e, hi, hex1⟩ := exists_column_borrow (B := 16) (show y1 < 16 by omega) (show x1 < 16 by omega) h
  obtain ⟨p, u, dec0⟩ := exists_column_borrow hy0 hx0 k
  obtain ⟨q, v, dec1⟩ := exists_column_borrow hy1 hx1 p
  intro dif o
  obtain ⟨al, rfl, rfl⟩ := subN_columns f dec0 dec1 hex0 hex1
  obtain ⟨domain, low, high, total⟩ :=
    das_columns (i := ⟨dif.1, ah, 0, dif.2.af, dif.2.cf⟩) al hex0 hex1 dec0 dec1
  have written : o = _ := (bcdResult_inForce (.inr domain)).trans (bcdWritten_das _)
  rw [written, low, high]
  obtain ⟨-, hu, -, digit0⟩ := dec0
  obtain ⟨-, hv, -, digit1⟩ := dec1
  have hk := Bool.toNat_le k
  have hp := Bool.toNat_le p
  have hq := Bool.toNat_le q
  refine ⟨BitVec.eq_of_toNat_eq ?_, (decide_eq_of_toNat (p := q) (by omega)).symm⟩
  rw [toNat_packed hv hu (by omega), toNat_sub_corrections total]

end

end Sys2Proof.Machine

open Sys2Proof Sys2Proof.Machine

/-- Settles O33: where the rules are in force each adjust leaves what the rule computes from AL, AH, AF and CF. -/
theorem decimalAdjusts : Obligations.DecimalAdjusts := by
  intro s al ah low high rules
  have inForce {op : BcdOp} {base : Byte} (h : rules op base) : s.bcd op base = bcdWritten op (s.bcdIn base) :=
    bcdResult_inForce h
  refine ⟨fun h => ⟨_, rfl, ?daa⟩, fun h => ⟨_, rfl, ?das⟩, fun h => ⟨_, rfl, ?aaa⟩, fun h => ⟨_, rfl, ?aas⟩,
    fun base nonzero h => ⟨_, congrArg Host.Outcome.next (if_neg nonzero), ?aam⟩, fun base h => ⟨_, rfl, ?aad⟩⟩
  case daa =>
    have result := s.packedAdjust_result .daa
    rwa [inForce h, bcdWritten_daa] at result
  case das =>
    have result := s.packedAdjust_result .das
    rwa [inForce h, bcdWritten_das] at result
  case aaa =>
    have result := s.asciiAdjust_result .aaa
    rwa [inForce h, bcdWritten_aaa] at result
  case aas =>
    have result := s.asciiAdjust_result .aas
    rwa [inForce h, bcdWritten_aas] at result
  case aam =>
    obtain ⟨ax, sp, szp⟩ := s.baseAdjust_result .aam base
    rw [inForce h] at ax sp
    refine ⟨?_, ?_, szp⟩
    · rw [sp]; exact BitVec.toNat_udiv
    · rw [ax]; exact BitVec.toNat_umod
  case aad =>
    obtain ⟨ax, sp, szp⟩ := s.baseAdjust_result .aad base
    rw [inForce h] at ax sp
    refine ⟨?_, sp, szp⟩
    rw [ax]
    simp [bcdWritten, State.bcdIn, BitVec.toNat_add, BitVec.toNat_mul, al, ah]

/-- Settles O34, column by column: the operation before the adjust works in base 16, the adjust finds the carries in
base 10. -/
theorem packedDecimalArithmetic : Obligations.PackedDecimalArithmetic := by
  intro c f x y k ah bcd sum dif daa das
  obtain ⟨sumAl, sumCf⟩ := daa_packed c f x.isLt y.isLt k ah
  obtain ⟨difAl, difCf⟩ := das_packed c f x.isLt y.isLt k ah
  exact ⟨sumAl, sumCf, difAl, difCf⟩

end

section
/-! PROOFS. The shifts and rotates of 42_shift_rotate.md in closed form: what `count` single-bit steps come to, and what
an instruction leaves in its operand and in the flags. -/

namespace Sys2Proof.Machine

/-! ### Repeated single-bit steps -/

theorem iter_succ' {α : Type} (f : α → α) (k : Nat) (x : α) : iter f (k + 1) x = f (iter f k x) := by
  induction k generalizing x with
  | zero => rfl
  | succ k ih => exact ih (f x)

/-- Where one step is `g · 1` as `φ` sees it, `k` steps are `g · k`. -/
theorem map_iter {α β : Type} {f : α → α} {φ : α → β} {g : β → Nat → β} (zero : ∀ y, g y 0 = y)
    (succ : ∀ y k, g y (k + 1) = g (g y k) 1) (one : ∀ x, φ (f x) = g (φ x) 1) (k : Nat) (x : α) :
    φ (iter f k x) = g (φ x) k := by
  induction k with
  | zero => exact (zero _).symm
  | succ k ih => rw [iter_succ', one, ih, ← succ _ k]

/-- A step that replaces the value by `g · 1` of it, whatever the carry was, and the carry by `out` of it: `k + 1`
steps leave `g · (k + 1)` of the value, and the carry that the last of them took. -/
theorem iter_shifting {α : Type} {f : α × Bool → α × Bool} {g : α → Nat → α} {out : α → Bool}
    (zero : ∀ x, g x 0 = x) (succ : ∀ x k, g x (k + 1) = g (g x k) 1) (one : ∀ p, f p = (g p.1 1, out p.1)) (k : Nat)
    (p : α × Bool) : iter f (k + 1) p = (g p.1 (k + 1), out (g p.1 k)) := by
  have value : (iter f k p).1 = g p.1 k := map_iter zero succ (fun q => congrArg Prod.fst (one q)) k p
  rw [iter_succ', one, value, ← succ _ k]

section

variable {n : Nat}

/-! ### Rotations by one bit more -/

theorem rotateLeft_zero (x : BitVec n) : x.rotateLeft 0 = x := by
  ext i hi
  simp [BitVec.getElem_rotateLeft]

theorem rotateRight_zero (x : BitVec n) : x.rotateRight 0 = x := by
  ext i hi
  simp [BitVec.getElem_rotateRight, hi]

/-- The top bit, moved to the bottom. -/
theorem ushiftRight_pred (x : BitVec n) : x >>> (n - 1) = (BitVec.ofBool x.msb).setWidth n := by
  ext i hi
  obtain rfl | above := Nat.eq_zero_or_pos i
  · simp [BitVec.msb_eq_getLsbD_last]
  · simp [show i ≠ 0 by omega, show n ≤ n - 1 + i by omega]

/-- The bottom bit, moved to the top. -/
theorem shiftLeft_pred (x : BitVec n) : x <<< (n - 1) = (BitVec.ofBool (x.getLsbD 0)).setWidth n <<< (n - 1) := by
  ext i hi
  obtain below | rfl : i < n - 1 ∨ i = n - 1 := by omega
  · simp [below]
  · simp [BitVec.getLsbD_eq_getElem, show 0 < n by omega]

section

variable (hn : 1 < n) (x : BitVec n) (p : BitVec n × Bool)
include hn

theorem rotateLeft_succ (k : Nat) : x.rotateLeft (k + 1) = (x.rotateLeft k).rotateLeft 1 := by
  have one := Nat.mod_eq_of_lt hn
  have lt := Nat.mod_lt k (Nat.zero_lt_of_lt hn)
  ext i hi
  simp only [BitVec.getElem_rotateLeft, Nat.add_mod_eq_ite, one]
  grind

theorem rotateRight_succ (k : Nat) : x.rotateRight (k + 1) = (x.rotateRight k).rotateRight 1 := by
  have one := Nat.mod_eq_of_lt hn
  have lt := Nat.mod_lt k (Nat.zero_lt_of_lt hn)
  ext i hi
  simp only [BitVec.getElem_rotateRight, Nat.add_mod_eq_ite, one]
  grind

theorem rotateLeft_one : x.rotateLeft 1 = x <<< 1 ||| (BitVec.ofBool x.msb).setWidth n := by
  rw [BitVec.rotateLeft_def, Nat.mod_eq_of_lt hn, ushiftRight_pred]

theorem rotateRight_one : x.rotateRight 1 = x >>> 1 ||| (BitVec.ofBool (x.getLsbD 0)).setWidth n <<< (n - 1) := by
  rw [BitVec.rotateRight_def, Nat.mod_eq_of_lt hn, shiftLeft_pred]

theorem rotateLeft_one_getLsbD_zero : (x.rotateLeft 1).getLsbD 0 = x.msb := by
  rw [rotateLeft_one hn]
  simp [show 0 < n by omega]

theorem rotateRight_one_msb : (x.rotateRight 1).msb = x.getLsbD 0 := by
  rw [BitVec.msb_rotateRight, Nat.mod_eq_of_lt hn, Nat.mod_eq_of_lt (by omega), BitVec.getMsbD_eq_getLsbD]
  simp [show n - 1 < n by omega]

/-! ### Rotates (42_shift_rotate.md R251 to R254) -/

theorem iter_rolStep {k : Nat} (hk : k ≠ 0) :
    iter rolStep k p = (p.1.rotateLeft k, (p.1.rotateLeft k).getLsbD 0) := by
  obtain ⟨k, rfl⟩ := Nat.exists_eq_add_one_of_ne_zero hk
  have one (q : BitVec n × Bool) : rolStep q = (q.1.rotateLeft 1, q.1.msb) := by rw [rotateLeft_one hn]; rfl
  rw [iter_shifting (out := BitVec.msb) rotateLeft_zero (rotateLeft_succ hn) one k p, rotateLeft_succ hn _ k,
    rotateLeft_one_getLsbD_zero hn]

theorem iter_rorStep {k : Nat} (hk : k ≠ 0) : iter rorStep k p = (p.1.rotateRight k, (p.1.rotateRight k).msb) := by
  obtain ⟨k, rfl⟩ := Nat.exists_eq_add_one_of_ne_zero hk
  have one (q : BitVec n × Bool) : rorStep q = (q.1.rotateRight 1, q.1.getLsbD 0) := by rw [rotateRight_one hn]; rfl
  rw [iter_shifting (out := (·.getLsbD 0)) rotateRight_zero (rotateRight_succ hn) one k p, rotateRight_succ hn _ k,
    rotateRight_one_msb hn]

end

/-- The carry above the value: the `n + 1` bits that RCL and RCR rotate (42_shift_rotate.md R253, R254). -/
def withCarry (p : BitVec n × Bool) : BitVec (n + 1) := BitVec.cons p.2 p.1

theorem eq_of_withCarry {p : BitVec n × Bool} {y : BitVec (n + 1)} (h : withCarry p = y) :
    p = (y.setWidth n, y.msb) := by
  rw [← h, withCarry, BitVec.setWidth_cons, BitVec.msb_cons]

section

variable (hn : 0 < n)
include hn

theorem withCarry_rclStep (p : BitVec n × Bool) : withCarry (rclStep p) = (withCarry p).rotateLeft 1 := by
  rw [rotateLeft_one (by omega)]
  ext i hi
  obtain rfl | below := Nat.eq_or_lt_of_le (Nat.le_of_lt_succ hi)
  · simp [withCarry, rclStep, BitVec.getElem_cons, BitVec.msb_eq_getLsbD_last, show i ≠ 0 by omega,
      show i - 1 ≠ i by omega, BitVec.getLsbD_eq_getElem, hn]
  · simp [withCarry, rclStep, BitVec.getElem_cons, show i ≠ n by omega, show i - 1 ≠ n by omega]

theorem withCarry_rcrStep (p : BitVec n × Bool) : withCarry (rcrStep p) = (withCarry p).rotateRight 1 := by
  rw [rotateRight_one (by omega)]
  ext i hi
  obtain rfl | rfl | below : i = n ∨ i = n - 1 ∨ i + 1 < n := by omega
  · simp [withCarry, rcrStep, BitVec.getElem_cons, hn.ne, BitVec.getLsbD_eq_getElem, hn]
  · simp [withCarry, rcrStep, BitVec.getElem_cons, Nat.add_sub_cancel' hn, hn, show n - 1 ≠ n by omega]
  · simp [withCarry, rcrStep, BitVec.getElem_cons, BitVec.getLsbD_cons, show i < n by omega, show i < n - 1 by omega,
      show i ≠ n by omega, show 1 + i ≠ n by omega]

theorem iter_rclStep (k : Nat) (p : BitVec n × Bool) :
    iter rclStep k p = (((withCarry p).rotateLeft k).setWidth n, ((withCarry p).rotateLeft k).msb) :=
  eq_of_withCarry (map_iter rotateLeft_zero (rotateLeft_succ (by omega)) (withCarry_rclStep hn) k p)

theorem iter_rcrStep (k : Nat) (p : BitVec n × Bool) :
    iter rcrStep k p = (((withCarry p).rotateRight k).setWidth n, ((withCarry p).rotateRight k).msb) :=
  eq_of_withCarry (map_iter rotateRight_zero (rotateRight_succ (by omega)) (withCarry_rcrStep hn) k p)

end

/-! ### Shifts (42_shift_rotate.md R255 to R258) -/

section

variable {k : Nat} (hk : k ≠ 0) (p : BitVec n × Bool)
include hk

theorem iter_shlStep : iter shlStep k p = (p.1 <<< k, decide (k ≤ n) && p.1.getLsbD (n - k)) := by
  obtain ⟨k, rfl⟩ := Nat.exists_eq_add_one_of_ne_zero hk
  rw [iter_shifting (f := shlStep) (g := BitVec.shiftLeft) (out := BitVec.msb) BitVec.shiftLeft_zero
    (fun y j => BitVec.shiftLeft_add y j 1) (fun _ => rfl) k p]
  have carry : (p.1 <<< k).msb = (decide (k < n) && p.1.getLsbD (n - (k + 1))) := by
    rw [BitVec.msb_shiftLeft, BitVec.getMsbD_eq_getLsbD, Nat.sub_sub, Nat.add_comm 1 k]
  exact congrArg (Prod.mk _) carry

theorem iter_shrStep : iter shrStep k p = (p.1 >>> k, p.1.getLsbD (k - 1)) := by
  obtain ⟨k, rfl⟩ := Nat.exists_eq_add_one_of_ne_zero hk
  rw [iter_shifting (f := shrStep) (g := BitVec.ushiftRight) (out := (·.getLsbD 0)) BitVec.ushiftRight_zero
    (fun y j => BitVec.shiftRight_add y j 1) (fun _ => rfl) k p]
  exact congrArg (Prod.mk _) (BitVec.getLsbD_ushiftRight _ _ _)

theorem iter_sarStep (hn : 0 < n) :
    iter sarStep k p = (p.1.sshiftRight k, if k ≤ n then p.1.getLsbD (k - 1) else p.1.msb) := by
  obtain ⟨k, rfl⟩ := Nat.exists_eq_add_one_of_ne_zero hk
  rw [iter_shifting (f := sarStep) (out := (·.getLsbD 0)) (fun _ => BitVec.sshiftRight_zero)
    (fun _ _ => BitVec.sshiftRight_add) (fun _ => rfl) k p, BitVec.getLsbD_sshiftRight]
  simp [hn.ne']

theorem iter_setmo : (iter (fun q : BitVec n × Bool => (BitVec.allOnes n, q.2)) k p).1 = BitVec.allOnes n := by
  obtain ⟨k, rfl⟩ := Nat.exists_eq_add_one_of_ne_zero hk
  rw [iter_succ']

end

end

namespace State

/-! ### What a shift or rotate leaves (42_shift_rotate.md R250, R259) -/

theorem val_congr {s t : State} (regs : t.cpu.regs = s.cpu.regs) (mem : t.board.mem = s.board.mem) (w : Width)
    (p : Place) : t.val w p = s.val w p := by
  cases p with
  | reg g => exact reg_congr regs w g
  | mem seg off => cases w <;> simp [val, peek, byteAt, mem]
  | imm v => rfl

section

variable {s : State} (c : s.Calm) {w : Width} {e : RM} (r : s.readable ((s.place (.rm e)).addrs w) = true) {ct : Count}
  {step : BitVec w.bits × Bool → BitVec w.bits × Bool} {v : BitVec w.bits} {cf : Bool}
  (moved : s.count ct ≠ 0 → iter step (s.count ct) (s.val w (s.place (.rm e)), s.cpu.flags.cf) = (v, cf))
include c r moved

/-- The whole effect of a shift or rotate on an operand that can be read, where its steps come to `v` and `cf`. -/
theorem shiftRotate_next (fl : Flags → BitVec w.bits → BitVec w.bits → Bool → Flags) (n : Nat) :
    let x := s.val w (s.place (.rm e))
    let k := s.count ct
    let t := s.shiftRotate w e ct step fl n
    (s.writable ((s.place (.rm e)).addrs w) = true → t.val w (s.place (.rm e)) = if k = 0 then x else v) ∧
      (k = 0 → t.cpu.flags = s.cpu.flags ∧ t.cpu.regs = s.cpu.regs) ∧
      (k ≠ 0 → t.cpu.flags = fl s.cpu.flags x v cf) := by
  intro x k t
  obtain ⟨value, mem⟩ := load_value c.quiet w (.rm e) r
  have flags : (s.load w (.rm e)).2.cpu.flags = s.cpu.flags := by simp
  have regs : (s.load w (.rm e)).2.cpu.regs = s.cpu.regs := by simp
  by_cases zero : k = 0
  · have ht : t = (s.load w (.rm e)).2 := if_pos zero
    rw [ht, if_pos zero]
    exact ⟨fun _ => val_congr regs mem w _, fun _ => ⟨flags, regs⟩, fun h => absurd zero h⟩
  · have ht : t = (((s.load w (.rm e)).2.writePlace w (s.place (.rm e)) _).setFlags _).spend n := if_neg zero
    rw [← load, value, flags, moved zero] at ht
    have read := Touches.load c.quiet w (.rm e)
    rw [ht, if_neg zero, val_spend, val_setFlags]
    exact ⟨fun wr => writePlace_value (calm_of_touches c read mem) w _ v (by rwa [writable_of_touches read])
      (place_rm_ne_imm s e), fun h => absurd h zero, fun _ => rfl⟩

/-- A rotate sets CF, and OF for a count of 1, and keeps the operand for a count of 0. -/
theorem shiftRotate_rotated (unmoved : s.count ct = 0 → v = s.val w (s.place (.rm e)))
    (ovf : BitVec w.bits → Bool → Bool) :
    let k := s.count ct
    let t := s.shiftRotate w e ct step (fun f _ r b => f.rotated (s.count ct) b (ovf r b) (s.freeBit 0)) 1
    (s.writable ((s.place (.rm e)).addrs w) = true → t.val w (s.place (.rm e)) = v) ∧
      t.cpu.flags.cf = (if k = 0 then s.cpu.flags.cf else cf) ∧
      (k = 0 → t.cpu.flags = s.cpu.flags ∧ t.cpu.regs = s.cpu.regs) ∧ (k = 1 → t.cpu.flags.ovf = ovf v cf) := by
  intro k t
  obtain ⟨value, same, flags⟩ :=
    shiftRotate_next c r moved (fun f _ r b => f.rotated (s.count ct) b (ovf r b) (s.freeBit 0)) 1
  refine ⟨fun wr => (value wr).trans (ite_eq_right_iff.2 fun zero => (unmoved zero).symm), ?_, same, fun one => ?_⟩
  · by_cases zero : k = 0
    · rw [if_pos zero, (same zero).1]
    · rw [if_neg zero, flags zero]; rfl
  · rw [flags (by omega)]; exact if_pos one

/-- A shift sets CF, SF, ZF, PF, and OF for a count of 1. -/
theorem shiftRotate_shifted {o : Bool} (ovf : BitVec w.bits → BitVec w.bits → Bool → Bool)
    (hovf : s.count ct = 1 → ovf (s.val w (s.place (.rm e))) v cf = o) :
    let x := s.val w (s.place (.rm e))
    let k := s.count ct
    let t := s.shiftRotate w e ct step
      (fun f a r b => f.shifted r (s.count ct) b (ovf a r b) (s.freeBit 0) (s.freeBit 1)) 2
    (s.writable ((s.place (.rm e)).addrs w) = true → t.val w (s.place (.rm e)) = if k = 0 then x else v) ∧
      (k = 0 → t.cpu.flags = s.cpu.flags ∧ t.cpu.regs = s.cpu.regs) ∧
      (k ≠ 0 → t.cpu.flags.cf = cf ∧ SzpOf v t.cpu.flags) ∧ (k = 1 → t.cpu.flags.ovf = o) := by
  intro x k t
  obtain ⟨value, same, flags⟩ := shiftRotate_next c r moved
    (fun f a r b => f.shifted r (s.count ct) b (ovf a r b) (s.freeBit 0) (s.freeBit 1)) 2
  refine ⟨value, same, fun pos => ?_, fun one => ?_⟩
  · rw [flags pos]
    exact ⟨rfl, szpOf_szp s.cpu.flags v⟩
  · rw [flags (by omega)]
    exact (if_pos one).trans (hovf one)

end

end State

theorem Width.one_lt_bits (w : Width) : 1 < w.bits := by cases w <;> decide

end Sys2Proof.Machine

open Sys2Proof Sys2Proof.Machine

/-- Settles O35: ROL and ROR rotate the operand, RCL and RCR the operand with CF above it, and each single-bit step is a
rotation by one. -/
theorem rotateResults : Obligations.RotateResults := by
  intro w e ct s c r writes k x big ok rol ror rcl rcr
  have wide := Width.one_lt_bits w
  have pos := Width.bits_pos w
  refine ⟨⟨_, rfl, ?rol⟩, ⟨_, rfl, ?ror⟩, ⟨_, rfl, ?rcl⟩, ⟨_, rfl, ?rcr⟩⟩
  case rol =>
    exact State.shiftRotate_rotated c r (iter_rolStep wide _) (fun zero => by rw [zero, rotateLeft_zero]) ovfLeft
  case ror =>
    exact State.shiftRotate_rotated c r (iter_rorStep wide _) (fun zero => by rw [zero, rotateRight_zero])
      fun v _ => ovfRight v
  case rcl =>
    exact State.shiftRotate_rotated c r (fun _ => iter_rclStep pos k _) (fun zero => by
      rw [show k = 0 from zero, rotateLeft_zero, withCarry, BitVec.setWidth_cons]) ovfLeft
  case rcr =>
    exact State.shiftRotate_rotated c r (fun _ => iter_rcrStep pos k _) (fun zero => by
      rw [show k = 0 from zero, rotateRight_zero, withCarry, BitVec.setWidth_cons]) fun v _ => ovfRight v

/-- Settles O36: shifts by one compose to a shift by the count, and CF is the bit that the last of them moves out; SETMO
stores the same value at every step. -/
theorem shiftResults : Obligations.ShiftResults := by
  intro w e ct s c r writes k x ok
  have pos := Width.bits_pos w
  refine ⟨⟨_, rfl, ?shl⟩, ⟨_, rfl, ?shr⟩, ⟨_, rfl, ?sar⟩, ⟨_, rfl, ?setmo⟩⟩
  case shl =>
    have carry : (decide (1 ≤ w.bits) && x.getLsbD (w.bits - 1)) = x.msb := by
      rw [decide_eq_true (Nat.succ_le_of_lt pos), Bool.true_and, BitVec.msb_eq_getLsbD_last]
    exact State.shiftRotate_shifted c r (iter_shlStep · _) (fun _ v cf => ovfLeft v cf) fun one => by
      rw [one, carry, ovfLeft, Bool.xor_comm]
  case shr => exact State.shiftRotate_shifted c r (iter_shrStep · _) (fun a _ _ => a.msb) fun _ => rfl
  case sar => exact State.shiftRotate_shifted c r (iter_sarStep · _ pos) (fun _ _ _ => false) fun _ => rfl
  case setmo =>
    obtain ⟨value, same, flags⟩ := State.shiftRotate_next c r (fun h => Prod.ext (iter_setmo h _) rfl)
      (fun f _ v _ => logicN f v (s.freeBit 0)) 1
    obtain ⟨carry, ovf, szp⟩ := logicN_flags s.cpu.flags (BitVec.allOnes w.bits) (s.freeBit 0)
    exact ⟨value, same, fun h => flags h ▸ ⟨carry, szp⟩, fun h => flags h ▸ ovf⟩

end

section
/-! PROOFS. What the data transfers of 43_data_transfer.md sections 1 to 4 leave in their destinations. -/

namespace Sys2Proof.Machine

/-- The eight byte registers are eight different halves (10_state.md R22). -/
theorem byteHome_injective : Function.Injective byteHome := fun g h => by cases g <;> cases h <;> decide

namespace State

section

variable (s : State)

/-! ### Registers read after they are written -/

theorem reg_setReg_same (w : Width) (g : GReg) (v : BitVec w.bits) : (s.setReg w g v).reg w g = v := by
  cases w with
  | byte => exact Regs.get8_set8_same _ g v
  | word => exact Regs.get_set_same _ g v

theorem reg_setReg_other (w : Width) {g h : GReg} (v : BitVec w.bits) (n : h ≠ g) :
    (s.setReg w g v).reg w h = s.reg w h := by
  cases w with
  | byte => exact Regs.half_set8 _ g v (byteHome h) (byteHome_injective.ne n)
  | word => exact Regs.get_set_other _ v n

/-- A register write leaves every other operand alone. -/
theorem val_setReg_other (t : State) (w : Width) {e : RM} {g : GReg} (v : BitVec w.bits) (n : e ≠ .reg g) :
    (t.setReg w g v).val w (s.place (.rm e)) = t.val w (s.place (.rm e)) := by
  cases e with
  | reg h => exact reg_setReg_other t w v fun same => n (congrArg RM.reg same)
  | mem m => exact peek_congr (congrArg Board.mem (setReg_board t w g v)) _ _ _

/-- A write to an operand leaves every other register alone. -/
theorem reg_writePlace_other (t : State) (w : Width) {e : RM} {g : GReg} (v : BitVec w.bits) (n : e ≠ .reg g) :
    (t.writePlace w (s.place (.rm e)) v).reg w g = t.reg w g := by
  cases e with
  | reg h => exact reg_setReg_other t w v fun same => n (congrArg RM.reg same.symm)
  | mem m => exact reg_congr (congrArg Cpu.regs (wr_cpu t w _ _ v)) w g

/-- The inhibit of the next sampling (60_exceptions.md R451) is all that changes. -/
theorem inhibit_eq :
    s.inhibit = { s with cpu := { s.cpu with intInhibit := s.board.params.intInhibit || s.cpu.intInhibit } } := by
  rw [inhibit]
  split
  next h => rw [h, Bool.true_or]
  next h => rw [Bool.eq_false_iff.2 h, Bool.false_or]

@[simp] theorem touch_intInhibit (o : Operand) : (s.touch o).cpu.intInhibit = s.cpu.intInhibit := by rw [touch_eq]

/-- Locating an operand makes no difference to the word a pop reads. -/
theorem pop16_touch (o : Operand) : (s.touch o).pop16.1 = s.pop16.1 := by simp [pop16, rd16]

end

section

variable {s t : State}

/-! ### Operands in memory -/

theorem rd_value (q : s.Quiet) {w : Width} {seg off : Word} (r : s.readable (byteAddrs w seg off) = true) :
    (s.rd w seg off).1 = s.peek w seg off := readPlace_value q w (.mem seg off) r

/-- A far pointer is its offset and, in the next word, its segment (R293). -/
theorem readFar_value (q : s.Quiet) {e : RM} (r : s.readable (byteAddrs .word (s.farPlace e).1 (s.farPlace e).2 ++
      byteAddrs .word (s.farPlace e).1 ((s.farPlace e).2 + 2)) = true) :
    (s.readFar e).1 = s.peek .word (s.farPlace e).1 (s.farPlace e).2 ∧
      (s.readFar e).2.1 = s.peek .word (s.farPlace e).1 ((s.farPlace e).2 + 2) := by
  simp only [readable, List.all_append, Bool.and_eq_true] at r
  obtain ⟨low, high⟩ := r
  have located : (s.touch (.rm e)).Quiet := (touch_quiet s _).2 q
  have first := rd16_touches located (s.farPlace e).1 (s.farPlace e).2
  have same (off : Word) : (s.touch (.rm e)).peek .word (s.farPlace e).1 off = s.peek .word (s.farPlace e).1 off :=
    peek_congr (congrArg Board.mem (touch_board s _)) _ _ _
  constructor
  · exact (rd16_value located ((touch_readable s _ _).trans low)).trans (same _)
  · have second := rd16_value (first.slots.trans located)
      ((readable_of_touches first _).trans ((touch_readable s _ _).trans high))
    exact second.trans ((peek_congr (rd16_mem located _ _) _ _ _).trans (same _))

/-- LDS and LES put the two words of the pointer in a general and in a segment register. -/
theorem farLoad_result (q : s.Quiet) (g : GReg) (e : RM) :
    let p := s.farPlace e
    s.readable (byteAddrs .word p.1 p.2 ++ byteAddrs .word p.1 (p.2 + 2)) = true →
      (∃ t, exec (.lds g e) s = .next t ∧ t.reg16 g = s.peek .word p.1 p.2 ∧ t.sreg .ds = s.peek .word p.1 (p.2 + 2)) ∧
      (∃ t, exec (.les g e) s = .next t ∧ t.reg16 g = s.peek .word p.1 p.2 ∧
        t.sreg .es = s.peek .word p.1 (p.2 + 2)) := by
  intro p r
  obtain ⟨offset, segment⟩ := readFar_value q r
  have loaded (sr : SReg) :
      (((s.readFar e).2.2.setReg16 g (s.readFar e).1).setSreg sr (s.readFar e).2.1).reg16 g = s.peek .word p.1 p.2 :=
    (Regs.get_set_same _ _ _).trans offset
  exact ⟨⟨_, rfl, loaded .ds, segment⟩, ⟨_, rfl, loaded .es, segment⟩⟩

/-- XCHG with an operand that can be read: each of the two holds the old value of the other (R290). -/
theorem xchgRm_result (c : s.Calm) (w : Width) (e : RM) (g : GReg) (r : s.readable ((s.place (.rm e)).addrs w) = true) :
    ∃ t, exec (.xchgRm w e g) s = .next t ∧ t.reg w g = s.val w (s.place (.rm e)) ∧
      (s.writable ((s.place (.rm e)).addrs w) = true → t.val w (s.place (.rm e)) = s.reg w g) := by
  obtain ⟨value, mem⟩ := load_value c.quiet w (.rm e) r
  have read := Touches.load c.quiet w (.rm e)
  refine ⟨_, rfl, (reg_setReg_same _ w g _).trans value, fun wr => ?_⟩
  by_cases same : e = .reg g
  · subst same
    exact (reg_setReg_same _ w g _).trans value
  · exact (val_setReg_other s _ w _ same).trans (writePlace_value (calm_of_touches c read mem) w _ _
      ((writable_of_touches read _).trans wr) (place_rm_ne_imm s e))

/-! ### Segment registers -/

/-- What the end of MOV and POP to a segment register leaves, after a read that only touched the bus. -/
theorem loadSreg_result (read : s.board.Touches [] t.board) (inh : t.cpu.intInhibit = s.cpu.intInhibit) (r : SReg)
    (v : Word) :
    let u := (t.setSreg r v).inhibit
    u.cpu.intInhibit = (s.board.params.intInhibit || s.cpu.intInhibit) ∧ u.board.queue = s.board.queue ∧
      u.board.pc = s.board.pc := by
  intro u
  rw [show u = _ from inhibit_eq _]
  exact ⟨congrArg₂ (fun p i => Params.intInhibit p || i) read.params inh, read.queue, read.pc⟩

theorem sreg_inhibit_setSreg (r : SReg) (v : Word) : (t.setSreg r v).inhibit.sreg r = v := by
  rw [inhibit_eq]
  exact Sregs.get_set_same _ r v

/-! ### The stack -/

/-- A push moves SP down by 2 and leaves its word there, whatever was read before it. -/
theorem Pushes.push16_result (h : s.Pushes 0 t) (c : t.Calm) (same : ∀ as, t.writable as = s.writable as) (v : Word) :
    (t.push16 v).reg16 .sp = s.reg16 .sp - 2 ∧
      (s.writable (s.stackAddrs 1) = true → (t.push16 v).stackWord s 2 = v) := by
  have sp : t.reg16 .sp = s.reg16 .sp := h.sp.trans (BitVec.sub_zero _)
  exact ⟨congrArg (· - 2) sp, fun w => h.stackWord_top c v ((same _).trans w)⟩

theorem push16_result (c : s.Calm) (v : Word) : (s.push16 v).reg16 .sp = s.reg16 .sp - 2 ∧
    (s.writable (s.stackAddrs 1) = true → (s.push16 v).stackWord s 2 = v) :=
  (Pushes.start (.refl _) rfl rfl).push16_result c (fun _ => rfl) v

/-- A pop reads the word at SP. -/
theorem pop16_word (q : s.Quiet) (r : s.readable (s.popAddrs 1) = true) : s.pop16.1 = s.popWord 0 := by
  have top : s.reg16 .sp + BitVec.ofNat 16 (2 * 0) = s.reg16 .sp := BitVec.add_zero _
  rw [popAddrs, popAddrs, top] at r
  rw [popWord, top]
  exact pop16_value q r

end

end State

/-! ### FLAGS and signs -/

theorem Flags.lowByte_getLsbD (f : Flags) {k : Nat} (h : k < 8) : f.lowByte.getLsbD k = f.word.getLsbD k := by
  simp [lowByte, loByte, h]

/-- The bits of FLAGS that no flag has: 1 reads 1, 3 and 5 read 0 (10_state.md R28). -/
theorem Flags.word_reserved (f : Flags) :
    f.word.getLsbD 1 = true ∧ f.word.getLsbD 3 = false ∧ f.word.getLsbD 5 = false := by
  have masked : f.word = (f.word &&& 0x0FD5) ||| 0xF002 := by
    conv_lhs => rw [← ofWord_word f, word_ofWord]
  rw [masked]
  simp

/-- The double word whose high half repeats the sign of the low half is that half as a number (R299). -/
theorem dividendS_sign (v : Word) : dividendS (if v.msb then 0xFFFF else 0) v = v.toInt := by
  rw [dividendS, BitVec.toInt_eq_msb_cond v]
  cases v.msb with
  | true =>
    have ones : (0xFFFF : Word).toInt = -1 := by decide
    rw [if_pos rfl, if_pos rfl, ones]
    omega
  | false => exact zero_add _

end Sys2Proof.Machine

open Sys2Proof Sys2Proof.Machine

/-- Settles O37: each form stores to, or loads from, the place of its operand. -/
theorem moveResults : Obligations.MoveResults := by
  intro s c
  have stored (w : Width) (e : RM) (v : BitVec w.bits) (wr : s.writable ((s.place (.rm e)).addrs w) = true) :
      (s.store w (.rm e) v).val w (s.place (.rm e)) = v :=
    State.store_next c w (.rm e) v wr (State.place_rm_ne_imm s e)
  refine ⟨fun w e => ⟨fun g => ⟨_, rfl, stored w e _⟩, fun r g => ⟨_, rfl, ?load⟩⟩,
    fun _ e i => ⟨_, rfl, stored .byte e i⟩,
    fun e => ⟨fun _ i => ⟨_, rfl, stored .word e i⟩, fun _ r => ⟨_, rfl, stored .word e (s.sreg r)⟩⟩,
    fun g i => ⟨_, rfl, State.reg_setReg_same s .byte g i⟩, fun g i => ⟨_, rfl, State.reg_setReg_same s .word g i⟩,
    fun w off => ⟨fun r => ⟨_, rfl, ?accMem⟩, ⟨_, rfl, fun wr => ?memAcc⟩⟩⟩
  case load => exact (State.reg_setReg_same _ w g _).trans (State.load_value c.quiet w (.rm e) r).1
  case accMem => exact (State.reg_setReg_same _ w .ax _).trans (State.rd_value c.quiet r)
  case memAcc => exact State.writePlace_value c w (.mem _ off) _ wr nofun

/-- Settles O38: the read only touches the bus, and the write changes a segment register and the inhibit. -/
theorem segmentLoads : Obligations.SegmentLoads := by
  intro s c
  refine ⟨fun _ r e rd => ⟨_, rfl, ?value, ?rest⟩, fun r rd => ⟨_, rfl, ?word, ?sp, ?restPop⟩⟩
  case value => exact (State.sreg_inhibit_setSreg r _).trans (State.load_value c.quiet .word (.rm e) rd).1
  case rest => exact State.loadSreg_result (State.Touches.load c.quiet .word (.rm e)) (by simp) r _
  case word => exact (State.sreg_inhibit_setSreg r _).trans (State.pop16_word c.quiet rd)
  case sp => rw [State.inhibit_eq]; exact s.pop16_sp
  case restPop => exact State.loadSreg_result (State.pop16_touches c.quiet) rfl r _

/-- Settles O39: one word is pushed or popped, and an operand in memory is read before a push and written after a
pop. -/
theorem stackResults : Obligations.StackResults := by
  refine ⟨fun s c => ?push, fun s c r => ?pop⟩
  case push =>
    have pushed (v : Word) := State.push16_result c v
    refine ⟨fun g => ⟨_, rfl, pushed _⟩, fun _ g => ⟨_, rfl, pushed _⟩, fun _ m r => ⟨_, rfl, ?mem⟩,
      fun r => ⟨_, rfl, pushed _⟩, ⟨_, rfl, pushed _⟩⟩
    obtain ⟨value, mem⟩ := State.load_value c.quiet .word (.rm (.mem m)) r
    have read := State.Touches.load c.quiet .word (.rm (.mem m))
    rw [← value]
    exact (State.Pushes.load c.quiet .word _).push16_result (State.calm_of_touches c read mem)
      (State.writable_of_touches read) _
  case pop =>
    have word := State.pop16_word c.quiet r
    refine ⟨fun g => ⟨_, rfl, ?reg, fun n => ?regSp⟩, fun _ e => ⟨_, rfl, fun wr => ?rm, fun n => ?rmSp⟩,
      ⟨_, rfl, s.pop16_sp, ?flags⟩⟩
    case reg => exact (State.reg16_setReg16_same _ g _).trans word
    case regSp => exact (State.reg16_setReg16_other _ _ n.symm).trans s.pop16_sp
    case rm =>
      have located := State.touch_calm c (.rm e)
      have same := State.writable_of_touches (State.pop16_touches located.quiet) ((s.place (.rm e)).addrs .word)
      have written := State.writePlace_value (State.pop16_calm located) .word (s.place (.rm e))
        (s.touch (.rm e)).pop16.1 (same.trans ((s.touch_writable _ _).trans wr)) (State.place_rm_ne_imm s e)
      exact written.trans ((s.pop16_touch _).trans word)
    case rmSp =>
      have kept := State.reg_writePlace_other s (s.touch (.rm e)).pop16.2 .word (s.touch (.rm e)).pop16.1 n
      exact kept.trans (congrArg (· + 2) (s.touch_reg16 _ .sp))
    case flags => exact (word_ofWord _).trans (by rw [word])

/-- Settles O40: the exchanges read before they write, XLAT reads one byte, and the other moves compute from one
register or from FLAGS. -/
theorem exchangesAndAccumulatorMoves : Obligations.ExchangesAndAccumulatorMoves := by
  refine ⟨fun s c => ⟨State.xchgRm_result c, fun g => ⟨_, rfl, ?xchgAx, ?ax⟩, rfl⟩,
    fun s c => ⟨fun r => ⟨_, rfl, ?xlat⟩, ⟨_, rfl, ?lahf⟩, ⟨_, rfl, rfl⟩, ⟨_, rfl, ?cbw⟩, ⟨_, rfl, ?cwd⟩,
      ⟨_, rfl, Regs.get8_set8_same _ .ax _⟩⟩⟩
  case xchgAx => exact State.reg16_setReg16_same _ g _
  case ax =>
    by_cases same : g = .ax
    · subst same
      exact State.reg16_setReg16_same _ .ax _
    · exact (State.reg16_setReg16_other _ _ (Ne.symm same)).trans (State.reg16_setReg16_same s .ax _)
  case xlat => exact (Regs.get8_set8_same _ .ax _).trans (State.rd_value (w := .byte) c.quiet r)
  case lahf =>
    have bit {k : Nat} (h : k < 8) : ((s.setReg8 .sp s.cpu.flags.lowByte).reg8 .sp).getLsbD k =
        s.cpu.flags.word.getLsbD k :=
      (congrArg (·.getLsbD k) (Regs.get8_set8_same _ .sp _)).trans (s.cpu.flags.lowByte_getLsbD h)
    have back := ofWord_word s.cpu.flags
    obtain ⟨one, three, five⟩ := s.cpu.flags.word_reserved
    exact ⟨(bit (by decide)).trans (congrArg Flags.sf back), (bit (by decide)).trans (congrArg Flags.zf back),
      (bit (by decide)).trans five, (bit (by decide)).trans (congrArg Flags.af back), (bit (by decide)).trans three,
      (bit (by decide)).trans (congrArg Flags.pf back), (bit (by decide)).trans one,
      (bit (by decide)).trans (congrArg Flags.cf back)⟩
  case cbw =>
    exact (congrArg BitVec.toInt (State.reg16_setReg16_same s .ax _)).trans
      (BitVec.toInt_signExtend_of_le (by decide))
  case cwd => exact dividendS_sign (s.reg16 .ax)

/-- Settles O41: the operand of LEA is located and not read; the far pointers are read at `farPlace`. -/
theorem addressLoads : Obligations.AddressLoads := by
  intro s g c
  refine ⟨fun m => ⟨_, rfl, State.reg16_setReg16_same _ g _, rfl⟩,
    fun h => ⟨_, rfl, State.reg16_setReg16_same _ g _, rfl⟩, fun e => ?far⟩
  cases e with
  | mem m => exact State.farLoad_result c.quiet g (.mem m)
  | reg h => exact State.farLoad_result c.quiet g (.reg h)

end

section
/-! PROOFS. IN and OUT at a port that answers (43_data_transfer.md R300, R301): one access of the device per byte. -/

namespace Sys2Proof.Machine

namespace Board

variable {b c : Board} {p : Word} {v : Byte}

/-! ### The devices do not see the pins -/

theorem deviceRead_pins (b : Board) (st : BusStatus) (a : Nat) (x : Byte) (p : Word) :
    (b.pins st a x).deviceRead p = (b.deviceRead p).map fun r => (r.1, r.2.pins st a x) := by
  unfold deviceRead
  rw [show (b.pins st a x).params = b.params from rfl]
  cases Params.owner b.params p with
  | dma off =>
    rw [show (b.pins st a x).dma = b.dma from rfl]
    dsimp only
    cases (b.dma.read off).1 <;> rfl
  | uart off =>
    dsimp only
    split <;> rfl
  | _ => rfl

theorem deviceWrite_pins (b : Board) (st : BusStatus) (a : Nat) (x : Byte) (p : Word) (v : Byte) :
    (b.pins st a x).deviceWrite p v = (b.deviceWrite p v).map (·.pins st a x) := by
  unfold deviceWrite
  rw [show (b.pins st a x).params = b.params from rfl]
  cases Params.owner b.params p <;> rfl

/-! ### The ports that answer -/

theorem deviceRead_answers (a : Params.answers b.params p = true) : ∃ v c, b.deviceRead p = some (v, c) := by
  unfold deviceRead
  unfold Params.answers at a
  cases h : Params.owner b.params p with
  | floppy => rw [h] at a; cases a
  | shared => rw [h] at a; cases a
  | dma off =>
    dsimp only
    cases (b.dma.read off).1 <;> exact ⟨_, _, rfl⟩
  | uart off =>
    dsimp only
    split <;> exact ⟨_, _, rfl⟩
  | _ => exact ⟨_, _, rfl⟩

theorem deviceWrite_answers (a : Params.answers b.params p = true) (v : Byte) : ∃ c, b.deviceWrite p v = some c := by
  unfold deviceWrite
  unfold Params.answers at a
  cases h : Params.owner b.params p with
  | floppy => rw [h] at a; cases a
  | shared => rw [h] at a; cases a
  | _ => exact ⟨_, rfl⟩

/-! ### One port cycle with nothing scheduled (20_memory.md R84) -/

theorem ioRead_quiet (q : b.slots = []) (cs : Word) (e : b.deviceRead p = some (v, c)) :
    b.ioRead cs p = some (v, c.pins .ioRead p.toNat v) := by
  simp only [ioRead, slot_quiet cs false q, e]

theorem ioWrite_quiet (q : b.slots = []) (cs : Word) (e : b.deviceWrite p v = some c) :
    b.ioWrite cs p v = some (c.pins .ioWrite p.toNat v) := by
  simp only [ioWrite, slot_quiet cs false q, e]

end Board

namespace State

variable {s : State} (q : s.Quiet) {p : Word} {b b' : Board}
include q

/-! ### One byte and two -/

theorem inPort_byte {v : Byte} (e : s.board.deviceRead p = some (v, b)) :
    ∃ t, inPort .byte p s = .next t ∧ t.reg8 .ax = v ∧
      t.board = { b with bus := t.board.bus, queueOp := .idle } := by
  rw [inPort, Board.ioRead_quiet q _ e]
  exact ⟨_, rfl, Regs.get8_set8_same _ .ax v, rfl⟩

/-- The second cycle finds the devices as the first left them. -/
theorem inPort_word {v v' : Byte} (e : s.board.deviceRead p = some (v, b)) (e' : b.deviceRead (p + 1) = some (v', b')) :
    ∃ t, inPort .word p s = .next t ∧ t.reg16 .ax = mkWord v v' ∧
      t.board = { b' with bus := t.board.bus, queueOp := .idle } := by
  have low : (b.pins .ioRead p.toNat v).slots = [] := by
    rw [Board.pins, Board.deviceRead_rest e]
    exact q
  have seen : (b.pins .ioRead p.toNat v).deviceRead (p + 1) = some (v', b'.pins .ioRead p.toNat v) :=
    (Board.deviceRead_pins b _ _ v (p + 1)).trans (congrArg _ e')
  rw [inPort, Board.ioRead_quiet q _ e]
  dsimp only
  rw [setReg8_board, setBoard_board, Board.ioRead_quiet low _ seen]
  exact ⟨_, rfl, congrArg (mkWord · v') (loByte_mkWord v _), rfl⟩

theorem outPort_byte (e : s.board.deviceWrite p (s.reg8 .ax) = some b) :
    ∃ t, outPort .byte p s = .next t ∧ t.board = { b with bus := t.board.bus, queueOp := .idle } := by
  rw [outPort, Board.ioWrite_quiet q _ e]
  exact ⟨_, rfl, rfl⟩

theorem outPort_word (e : s.board.deviceWrite p (s.reg8 .ax) = some b)
    (e' : b.deviceWrite (p + 1) (s.reg8 .sp) = some b') :
    ∃ t, outPort .word p s = .next t ∧ t.board = { b' with bus := t.board.bus, queueOp := .idle } := by
  have low : (b.pins .ioWrite p.toNat (s.reg8 .ax)).slots = [] := by
    rw [Board.pins, Board.deviceWrite_rest e]
    exact q
  have seen : (b.pins .ioWrite p.toNat (s.reg8 .ax)).deviceWrite (p + 1) (s.reg8 .sp) =
      some (b'.pins .ioWrite p.toNat (s.reg8 .ax)) :=
    (Board.deviceWrite_pins b _ _ _ (p + 1) _).trans (congrArg _ e')
  have high : (s.setBoard (b.pins .ioWrite p.toNat (s.reg8 .ax))).reg8 .sp = s.reg8 .sp := rfl
  rw [outPort, Board.ioWrite_quiet q _ e]
  dsimp only
  rw [high, setBoard_board, Board.ioWrite_quiet low _ seen]
  exact ⟨_, rfl, rfl⟩

end State

end Sys2Proof.Machine

open Sys2Proof Sys2Proof.Machine

/-- Settles O42: each port that answers has a device, which the cycle of the byte reads or writes once. -/
theorem portAccess : Obligations.PortAccess := by
  intro s c
  refine ⟨fun p a => ?inByte, fun p a a' => ?inWord, fun p a => ?outByte, fun p a a' => ?outWord⟩
  case inByte =>
    obtain ⟨v, b, e⟩ := Board.deviceRead_answers a
    exact ⟨v, b, e, fun _ h => State.inPort_byte c.quiet (h ▸ e), fun h => State.inPort_byte c.quiet (h ▸ e)⟩
  case inWord =>
    obtain ⟨v, b, e⟩ := Board.deviceRead_answers a
    have same : b.params = s.board.params := by rw [Board.deviceRead_rest e]
    obtain ⟨v', b', e'⟩ := Board.deviceRead_answers (same ▸ a')
    exact ⟨v, b, v', b', e, e', fun _ h => State.inPort_word c.quiet (h ▸ e) (h ▸ e'),
      fun h => State.inPort_word c.quiet (h ▸ e) (h ▸ e')⟩
  case outByte =>
    obtain ⟨b, e⟩ := Board.deviceWrite_answers a (s.reg8 .ax)
    exact ⟨b, e, fun _ h => State.outPort_byte c.quiet (h ▸ e), fun h => State.outPort_byte c.quiet (h ▸ e)⟩
  case outWord =>
    obtain ⟨b, e⟩ := Board.deviceWrite_answers a (s.reg8 .ax)
    have same : b.params = s.board.params := by rw [Board.deviceWrite_rest e]
    obtain ⟨b', e'⟩ := Board.deviceWrite_answers (same ▸ a') (s.reg8 .sp)
    exact ⟨b, b', e, e', fun _ h => State.outPort_word c.quiet (h ▸ e) (h ▸ e'),
      fun h => State.outPort_word c.quiet (h ▸ e) (h ▸ e')⟩

end

section
/-! PROOFS. The string instructions (44_string.md): what one element leaves, and how repeat prefixes
control it. -/

namespace Sys2Proof.Machine

namespace State

/-! ### Index registers (44_string.md R320) -/

/-- An index after an element: up by the element size, down when DF = 1. -/
def stepIndex (s : State) (w : Width) (x : Word) : Word :=
  if s.cpu.flags.df then x - BitVec.ofNat 16 (w.bits / 8) else x + BitVec.ofNat 16 (w.bits / 8)

theorem add_delta (s : State) (w : Width) (x : Word) : x + s.delta w = s.stepIndex w x := by
  unfold delta stepIndex
  dsimp only
  split
  · exact (BitVec.sub_eq_add_neg ..).symm
  · rfl

theorem reg16_advance_same (s : State) (w : Width) (g : GReg) :
    (s.advance w g).reg16 g = s.stepIndex w (s.reg16 g) :=
  (reg16_setReg16_same s g _).trans (add_delta s w _)

theorem reg16_advance_other (s : State) (w : Width) {g h : GReg} (n : h ≠ g) : (s.advance w g).reg16 h = s.reg16 h :=
  reg16_setReg16_other s _ n

/-! ### From an element to its iteration (44_string.md R321) -/

/-- `t` is `u` but for CX and the control of the repetition. -/
structure SameElement (t u : State) : Prop where
  board : t.board = u.board
  flags : t.cpu.flags = u.cpu.flags
  regs  : ∀ g, g ≠ .cx → t.reg16 g = u.reg16 g

/-- The accumulator of either width is in AX. -/
theorem acc_congr {t u : State} (h : t.reg16 .ax = u.reg16 .ax) (w : Width) : t.reg w .ax = u.reg w .ax := by
  cases w with
  | byte => exact congrArg loByte h
  | word => exact h

theorem SameElement.peek {t u : State} (h : t.SameElement u) (w : Width) (seg off : Word) :
    t.peek w seg off = u.peek w seg off := peek_congr (congrArg Board.mem h.board) w seg off

theorem repIterate_element (s : State) (i : Instr) (k : RepKind) (c : Bool) (prim : State → State) :
    (s.repIterate i k c prim).SameElement (prim s) := by
  have regs (g : GReg) (n : g ≠ .cx) := reg16_setReg16_other (prim s) ((prim s).reg16 .cx - 1) n
  unfold repIterate
  dsimp only
  split <;> exact ⟨rfl, rfl, regs⟩

/-- Where a prefixed instruction iterates, it runs one iteration, the first or a later one. -/
theorem runString_iterates {s : State} {k : RepKind} (p : s.cpu.pfx.rep = some k) (it : s.iterates = true) (i : Instr)
    (c : Bool) (prim : State → State) : s.runString i c prim = s.repIterate i k c prim := by
  unfold iterates at it
  unfold runString
  rw [p] at it ⊢
  dsimp only at it ⊢
  split
  next r =>
    have pending : s.cpu.intrPending = false := by simpa [r] using it
    rw [if_neg (by rw [pending]; exact nofun)]
  next r =>
    have count : s.reg16 .cx ≠ 0 := by simpa [r] using it
    rw [if_neg count]

theorem runString_element {s : State} (it : s.iterates = true) (i : Instr) (c : Bool) (prim : State → State) :
    (s.runString i c prim).SameElement (prim s) := by
  cases p : s.cpu.pfx.rep with
  | none =>
    rw [runString, p]
    exact ⟨rfl, rfl, fun _ _ => rfl⟩
  | some k =>
    rw [runString_iterates p it]
    exact repIterate_element s i k c prim

/-! ### The elements (44_string.md R322 to R326)

`t` is the state after the element or after its iteration, `u` a state within the element, in which the indexes and DF
are still as in `s`. -/

section

variable {s t u : State} {w : Width}

theorem stepIndex_congr (regs : u.cpu.regs = s.cpu.regs) (df : u.cpu.flags.df = s.cpu.flags.df) (g : GReg) :
    u.stepIndex w (u.reg16 g) = s.stepIndex w (s.reg16 g) := by
  simp only [stepIndex, reg16, regs, df]

/-- MOVS and CMPS step both indexes. -/
theorem SameElement.indexes (e : t.SameElement ((u.advance w .si).advance w .di)) (regs : u.cpu.regs = s.cpu.regs)
    (df : u.cpu.flags.df = s.cpu.flags.df) :
    t.reg16 .si = s.stepIndex w (s.reg16 .si) ∧ t.reg16 .di = s.stepIndex w (s.reg16 .di) := by
  have step (g : GReg) := stepIndex_congr (w := w) regs df g
  constructor
  · calc t.reg16 .si
      _ = ((u.advance w .si).advance w .di).reg16 .si := e.regs .si nofun
      _ = (u.advance w .si).reg16 .si := reg16_advance_other _ w nofun
      _ = s.stepIndex w (s.reg16 .si) := (reg16_advance_same u w .si).trans (step .si)
  · calc t.reg16 .di
      _ = ((u.advance w .si).advance w .di).reg16 .di := e.regs .di nofun
      _ = u.stepIndex w ((u.advance w .si).reg16 .di) := reg16_advance_same _ w .di
      _ = u.stepIndex w (u.reg16 .di) := congrArg _ (reg16_advance_other u w nofun)
      _ = s.stepIndex w (s.reg16 .di) := step .di

/-- SCAS, LODS and STOS step one. -/
theorem SameElement.index {g : GReg} (e : t.SameElement (u.advance w g)) (n : g ≠ .cx)
    (reg : u.reg16 g = s.reg16 g) (df : u.cpu.flags.df = s.cpu.flags.df) :
    t.reg16 g = s.stepIndex w (s.reg16 g) := by
  rw [e.regs g n, reg16_advance_same, reg, stepIndex, stepIndex, df]

theorem readSource_value (q : s.Quiet) (r : s.readable (byteAddrs w (s.segFor .ds) (s.reg16 .si)) = true) :
    (s.readSource w).1 = s.peek w (s.segFor .ds) (s.reg16 .si) := rd_value q r

theorem readSource_touches (q : s.Quiet) : s.board.Touches [] (s.readSource w).2.board := rd_touches q w _ _

theorem readSource_mem (q : s.Quiet) : (s.readSource w).2.board.mem = s.board.mem :=
  readPlace_mem q w (.mem (s.segFor .ds) (s.reg16 .si))

@[simp] theorem readSource_cpu (s : State) (w : Width) : (s.readSource w).2.cpu = s.cpu := rd_cpu s w _ _

@[simp] theorem readDest_cpu (s : State) (w : Width) : (s.readDest w).2.cpu = s.cpu := rd_cpu s w _ _

/-- The destination can be read after the source. -/
theorem readDest_value (q : s.Quiet) (cpu : u.cpu = s.cpu) (read : s.board.Touches [] u.board)
    (mem : u.board.mem = s.board.mem) (r : s.readable (byteAddrs w (s.sreg .es) (s.reg16 .di)) = true) :
    (u.readDest w).1 = s.peek w (s.sreg .es) (s.reg16 .di) := by
  have place : u.readDest w = u.rd w (s.sreg .es) (s.reg16 .di) := by simp only [readDest, sreg, reg16, cpu]
  rw [place, rd_value (read.slots.trans q) ((readable_of_touches read _).trans r)]
  exact peek_congr mem ..

/-- What is written to the destination is there. -/
theorem writeDest_value (c : u.Calm) (cpu : u.cpu = s.cpu) (v : BitVec w.bits)
    (wr : u.writable (byteAddrs w (s.sreg .es) (s.reg16 .di)) = true) :
    (u.writeDest w v).peek w (s.sreg .es) (s.reg16 .di) = v := by
  have place : u.writeDest w v = u.writePlace w (.mem (s.sreg .es) (s.reg16 .di)) v := by
    simp only [writeDest, writePlace, sreg, reg16, cpu]
  rw [place]
  exact writePlace_value c w (.mem (s.sreg .es) (s.reg16 .di)) v wr nofun

theorem movs_result (c : s.Calm) (r : s.readable (byteAddrs w (s.segFor .ds) (s.reg16 .si)) = true)
    (e : t.SameElement (s.movs w)) :
    t.reg16 .si = s.stepIndex w (s.reg16 .si) ∧ t.reg16 .di = s.stepIndex w (s.reg16 .di) ∧
      (s.writable (byteAddrs w (s.sreg .es) (s.reg16 .di)) = true →
        t.peek w (s.sreg .es) (s.reg16 .di) = s.peek w (s.segFor .ds) (s.reg16 .si)) := by
  have cpu : ((s.readSource w).2.writeDest w (s.readSource w).1).cpu = s.cpu :=
    (wr_cpu ..).trans (readSource_cpu s w)
  have read := readSource_touches (w := w) c.quiet
  have calm := calm_of_touches c read (readSource_mem c.quiet)
  obtain ⟨si, di⟩ := e.indexes (congrArg Cpu.regs cpu) (congrArg (·.flags.df) cpu)
  refine ⟨si, di, fun wr => (e.peek ..).trans ?_⟩
  rw [← readSource_value c.quiet r]
  exact writeDest_value calm (readSource_cpu s w) _ ((writable_of_touches read _).trans wr)

theorem cmps_result (q : s.Quiet) (r : s.readable (byteAddrs w (s.segFor .ds) (s.reg16 .si)) = true)
    (r' : s.readable (byteAddrs w (s.sreg .es) (s.reg16 .di)) = true) (e : t.SameElement (s.cmps w)) :
    t.reg16 .si = s.stepIndex w (s.reg16 .si) ∧ t.reg16 .di = s.stepIndex w (s.reg16 .di) ∧
      SubFlags (s.peek w (s.segFor .ds) (s.reg16 .si)) (s.peek w (s.sreg .es) (s.reg16 .di)) false t.cpu.flags := by
  have cpu : ((s.readSource w).2.readDest w).2.cpu = s.cpu := (readDest_cpu _ w).trans (readSource_cpu s w)
  obtain ⟨si, di⟩ := e.indexes (s := s) (congrArg (·.regs) cpu) (congrArg (·.flags.df) cpu)
  refine ⟨si, di, ?_⟩
  rw [e.flags, ← readSource_value q r,
    ← readDest_value q (readSource_cpu s w) (readSource_touches q) (readSource_mem q) r']
  exact subN_flags (Width.bits_pos w) ..

theorem scas_result (q : s.Quiet) (r : s.readable (byteAddrs w (s.sreg .es) (s.reg16 .di)) = true)
    (e : t.SameElement (s.scas w)) :
    t.reg16 .di = s.stepIndex w (s.reg16 .di) ∧
      SubFlags (s.reg w .ax) (s.peek w (s.sreg .es) (s.reg16 .di)) false t.cpu.flags := by
  have cpu := readDest_cpu s w
  have di := e.index (s := s) nofun (congrArg (·.regs.get .di) cpu) (congrArg (·.flags.df) cpu)
  refine ⟨di, ?_⟩
  rw [e.flags, ← readDest_value q rfl (.refl _) rfl r, ← acc_congr (congrArg (·.regs.get .ax) cpu)]
  exact subN_flags (Width.bits_pos w) ..

theorem reg16_setReg_acc {g : GReg} (n : g ≠ .ax) (v : BitVec w.bits) : (s.setReg w .ax v).reg16 g = s.reg16 g := by
  cases w with
  | byte => exact Regs.get_set_other _ _ n
  | word => exact Regs.get_set_other _ _ n

theorem lods_result (q : s.Quiet) (r : s.readable (byteAddrs w (s.segFor .ds) (s.reg16 .si)) = true)
    (e : t.SameElement (s.lods w)) :
    t.reg16 .si = s.stepIndex w (s.reg16 .si) ∧ t.reg w .ax = s.peek w (s.segFor .ds) (s.reg16 .si) := by
  have cpu := readSource_cpu s w
  have si : ((s.readSource w).2.setReg w .ax (s.readSource w).1).reg16 .si = s.reg16 .si :=
    (reg16_setReg_acc (g := .si) nofun _).trans (congrArg (·.regs.get .si) cpu)
  constructor
  · exact e.index nofun si ((congrArg Flags.df (setReg_flags ..)).trans (congrArg (·.flags.df) cpu))
  · calc t.reg w .ax
      _ = (s.lods w).reg w .ax := acc_congr (e.regs .ax nofun) w
      _ = ((s.readSource w).2.setReg w .ax (s.readSource w).1).reg w .ax :=
        acc_congr (reg16_advance_other _ w (g := .si) nofun) w
      _ = (s.readSource w).1 := reg_setReg_same _ w .ax _
      _ = s.peek w (s.segFor .ds) (s.reg16 .si) := readSource_value q r

theorem stos_result (c : s.Calm) (e : t.SameElement (s.stos w)) :
    t.reg16 .di = s.stepIndex w (s.reg16 .di) ∧
      (s.writable (byteAddrs w (s.sreg .es) (s.reg16 .di)) = true →
        t.peek w (s.sreg .es) (s.reg16 .di) = s.reg w .ax) := by
  have cpu : (s.writeDest w (s.reg w .ax)).cpu = s.cpu := wr_cpu ..
  exact ⟨e.index nofun (congrArg (·.regs.get .di) cpu) (congrArg (·.flags.df) cpu),
    fun wr => (e.peek ..).trans (writeDest_value c rfl _ wr)⟩

end

end State

/-! ### The control of a repetition (44_string.md R321, R327) -/

theorem State.repCond_iff (s : State) (k : RepKind) : s.repCond k = true ↔ (k = .repz ↔ s.cpu.flags.zf = true) := by
  cases k <;> simp [repCond]

/-- An element changes general registers but CX, flags and the board. -/
structure State.Element (s t : State) : Prop where
  cpu : t.cpu = { s.cpu with regs := t.cpu.regs, flags := t.cpu.flags }
  cx  : t.reg16 .cx = s.reg16 .cx

/-- Whether the instruction compares, so that ZF decides with CX whether it goes on repeating. -/
def comparesElements (i : Instr) : Bool := decide (i = .cmpsb ∨ i = .cmpsw ∨ i = .scasb ∨ i = .scasw)

theorem exec_runString {i : Instr} (h : isString i = true) (s : State) :
    ∃ prim, exec i s = .next (s.runString i (comparesElements i) prim) ∧ s.Element (prim s) := by
  cases i with
  | movsb | movsw | cmpsb | cmpsw | stosb | stosw | lodsb | lodsw | scasb | scasw => exact ⟨_, rfl, rfl, rfl⟩
  | _ => cases h

/-- What one iteration leaves of the control of the repetition. -/
theorem State.Element.repIterate {s : State} {prim : State → State} (e : s.Element (prim s)) (i : Instr) (k : RepKind)
    (c : Bool) :
    let t := s.repIterate i k c prim
    t.reg16 .cx = s.reg16 .cx - 1 ∧
      (t.cpu.inRep = true ↔ t.reg16 .cx ≠ 0 ∧ (c = true → (k = .repz ↔ t.cpu.flags.zf = true))) ∧
      (t.cpu.inRep = true → t.cpu.result = .okayRep ∧ t.cpu.decoded = some ⟨i, s.cpu.pfx, s.cpu.size, i.loadsEa⟩) ∧
      (t.cpu.inRep = false → t.cpu.result = s.cpu.result ∧ t.cpu.decoded = none) := by
  intro t
  have pfx : (prim s).cpu.pfx = s.cpu.pfx := by rw [e.cpu]
  have size : (prim s).cpu.size = s.cpu.size := by rw [e.cpu]
  have result : (prim s).cpu.result = s.cpu.result := by rw [e.cpu]
  refine ⟨?cx, ?inRep, ?stay, ?leave⟩
  case cx => rw [← e.cx]; exact repIterate_cx s i k c prim
  case inRep =>
    have flags : t.cpu.flags = (prim s).cpu.flags := (repIterate_element s i k c prim).flags
    rw [flags, ← repCond_iff, show t.cpu.inRep = _ from repIterate_inRep s i k c prim,
      show t.reg16 .cx = _ from repIterate_cx s i k c prim]
    cases c <;> simp
  case stay =>
    unfold t State.repIterate
    dsimp only
    split
    · simp [pfx, size]
    · exact nofun
  case leave =>
    unfold t State.repIterate
    dsimp only
    split
    · exact nofun
    · exact fun _ => ⟨result, rfl⟩

end Sys2Proof.Machine

open Sys2Proof Sys2Proof.Machine

/-- Settles O43: an iteration leaves what its element leaves, but for CX and the control of the repetition. -/
theorem stringElements : Obligations.StringElements := by
  intro s c it element
  have all (w : Width) (movs cmps scas lods stos : Instr)
      (hm : exec movs s = .next (s.runString movs false (.movs w)))
      (hc : exec cmps s = .next (s.runString cmps true (.cmps w)))
      (hs : exec scas s = .next (s.runString scas true (.scas w)))
      (hl : exec lods s = .next (s.runString lods false (.lods w)))
      (ht : exec stos s = .next (s.runString stos false (.stos w))) : element w movs cmps scas lods stos := by
    have same := State.runString_element it
    exact ⟨fun r => ⟨_, hm, State.movs_result c r (same ..)⟩,
      fun r r' => ⟨_, hc, State.cmps_result c.quiet r r' (same ..)⟩,
      fun r => ⟨_, hs, State.scas_result c.quiet r (same ..)⟩, fun r => ⟨_, hl, State.lods_result c.quiet r (same ..)⟩,
      ⟨_, ht, State.stos_result c (same ..)⟩⟩
  exact ⟨all .byte _ _ _ _ _ rfl rfl rfl rfl rfl, all .word _ _ _ _ _ rfl rfl rfl rfl rfl⟩

/-- Settles O44: an instruction runs its element alone, nothing, one iteration, or the end of the repetition. -/
theorem repeatControl : Obligations.RepeatControl := by
  intro s i string compares
  obtain ⟨prim, run, element⟩ := exec_runString string s
  refine ⟨fun plain => ?alone, fun k rep => ⟨fun fresh empty => ?nothing, fun it => ?iteration,
    fun inRep pending => ?stop⟩⟩
  case alone =>
    rw [State.runString, plain] at run
    exact ⟨_, run, element.cx, by rw [element.cpu]⟩
  case nothing =>
    rw [run, State.runString, rep]
    simp [fresh, empty]
  case iteration =>
    rw [State.runString_iterates rep it] at run
    obtain ⟨cx, goesOn, stay, leave⟩ := element.repIterate i k (comparesElements i)
    rw [show (comparesElements i = true) = compares from decide_eq_true_eq] at goesOn
    exact ⟨_, run, cx, goesOn, stay, leave⟩
  case stop =>
    rw [show s.runString i _ prim = s.stopRep by simp [State.runString, rep, inRep, pending]] at run
    exact ⟨_, run, rfl, rfl, rfl, State.jumpNear_jumpedTo _ _⟩

end

section
/-! PROOFS. A repetition that nothing interrupts, step by step (44_string.md R321). -/

namespace Sys2Proof.Machine

/-! ### Runs -/

theorem run_succ {M : Host.Core} {s t : M.State} (e : M.step s = .next t) (k : Nat) : M.run (k + 1) s = M.run k t := by
  rw [Host.Core.run, e]

theorem core_run_succ {s t : State} (e : Machine.step s = .next t) (k : Nat) :
    Sys2Proof.core.run (k + 1) s = Sys2Proof.core.run k t := run_succ (M := Sys2Proof.core) e k

namespace State

/-! ### One step of a suspended repetition -/

/-- The state in which a step resumes the repetition suspended in `s`, before the slot that precedes the iteration. -/
def resumed (s : State) (d : Decoded) : State :=
  ({ s with inputs := s.inputs.tail, skipBp := false, started := true } : State).beginStep.resumeRep d

theorem step_suspended {s : State} {d : Decoded} (error : s.cpu.error = none) (halted : s.cpu.halted = false)
    (inRep : s.cpu.inRep = true) (kept : s.cpu.decoded = some d) (whole : s.cpu.attempts = 0)
    (host : s.inputs.headD [] = []) : step s = described ((s.resumed d).finishExec d.instr) := by
  rw [step_alone host whole]
  simp only [stepCore, error, halted, inRep, runStep, beginStep, kept, resumed, if_true, Bool.false_eq_true, if_false]

/-- No other agent and no host acts, and no event stands that a boundary would take. -/
structure Undisturbed (s : State) : Prop where
  quiet   : s.Quiet
  host    : s.inputs = []
  awake   : s.cpu.halted = false
  pending : s.cpu.intrPending = false
  nmi     : s.cpu.nmiLatch = false
  intf    : s.cpu.flags.intf = false
  tf      : s.cpu.flags.tf = false

/-- Retiring then drops the transient state and lets the bus go, and that is all. -/
theorem Undisturbed.retire_eq {s : State} (h : s.Undisturbed) (trap : s.cpu.trapArmed = false) :
    s.retire = (s.setBoard { s.board with locked := false }).dropTransient := by
  have slot : (s.setBoard { s.board with locked := false }).dropTransient.boundarySlot =
      (s.setBoard { s.board with locked := false }).dropTransient :=
    congrArg (setBoard _) (Board.slot_quiet _ true h.quiet)
  rw [retire, slot]
  simp [stepFinish, h.intf, h.nmi, trap]

/-- The instructions whose repetition CX alone ends. -/
def movesOnly : List Instr := [.movsb, .movsw, .lodsb, .lodsw, .stosb, .stosw]

/-- They compare nothing and change no flag (44_string.md R322, R325, R326). -/
theorem movesOnly_effects {i : Instr} (h : i ∈ movesOnly) :
    ¬ (i = .cmpsb ∨ i = .cmpsw ∨ i = .scasb ∨ i = .scasw) ∧ ∀ s, changedFlags i s = [] := by
  simp only [movesOnly, List.mem_cons, List.not_mem_nil, or_false] at h
  rcases h with rfl | rfl | rfl | rfl | rfl | rfl <;> exact ⟨by decide, fun _ => rfl⟩

/-- A suspended repetition of MOVS, LODS or STOS under the record `d` that nothing interrupts. -/
structure Repeating (s : State) (d : Decoded) : Prop where
  inv   : s.Inv
  alone : s.Undisturbed
  inRep : s.cpu.inRep = true
  kept  : s.cpu.decoded = some d
  moves : d.instr ∈ movesOnly

namespace Repeating

variable {s t : State} {d : Decoded} (h : s.Repeating d)
include h

theorem runs : (s.resumed d).cpu.Runs d.instr :=
  Sound.resumed (beginStep_sound ⟨h.inv.sound.cpu, h.inv.sound.board⟩) h.alone.awake h.inRep h.kept

theorem record : isString d.instr = true ∧ ∃ k, d.pfx.rep = some k := by
  obtain ⟨d', kept, string, rep, -⟩ := h.inv.suspended h.inRep
  cases h.kept.symm.trans kept
  exact ⟨string, Option.isSome_iff_exists.mp rep⟩

/-- An iteration brings no event about, and retires as it is. -/
theorem undisturbed (run : exec d.instr (s.resumed d) = .next t) :
    t.Undisturbed ∧ t.retire = (t.setBoard { t.board with locked := false }).dropTransient := by
  obtain ⟨quiet, host, awake, pending, nmi, intf, tf⟩ := h.alone
  obtain ⟨notHalt, noRaise⟩ := isString_effects h.record.1 (s.resumed d)
  obtain ⟨-, -, -, -, nmiKept, trapKept, -, -, -, -, -, haltKept, -, -, -, inputsKept, -⟩ :=
    hiddenStateFrame _ _ t run
  obtain ⟨-, -, quiet', -⟩ := boardFrame _ (s.resumed d) t quiet run
  have flags (n : FlagName) : t.cpu.flags.get n = s.cpu.flags.get n :=
    segmentAndFlagFrame.2 _ _ t run n (by rw [(movesOnly_effects h.moves).2]; exact List.not_mem_nil)
  have alone : t.Undisturbed :=
    ⟨quiet', inputsKept.trans (congrArg List.tail host), (haltKept notHalt noRaise).trans awake,
      (exec_repeats h.runs run).1.deferred, nmiKept.trans nmi, (flags .intf).trans intf, (flags .tf).trans tf⟩
  exact ⟨alone, alone.retire_eq (trapKept.trans tf)⟩

/-- A step is one iteration, retired. -/
theorem step_eq (run : exec d.instr (s.resumed d) = .next t) : step s = .next t.retire := by
  have slot : (s.resumed d).innerSlot = s.resumed d := congrArg (setBoard _) (Board.slot_quiet _ false h.alone.quiet)
  have undescribed : t.retire.board.undescribed = none := by
    obtain ⟨-, -, -, -, kept, -⟩ := boardFrame _ (s.resumed d) t h.alone.quiet run
    rw [(h.undisturbed run).2]
    exact kept.trans h.inv.described
  rw [step_suspended h.inv.error h.alone.awake h.inRep h.kept h.runs.attempts (by rw [h.alone.host]; rfl), finishExec,
    slot, run]
  exact described_next undescribed

/-- One step decrements CX, and the repetition goes on exactly while CX is not 0. -/
theorem step_result : ∃ t, step s = .next t ∧ t.reg16 .cx = s.reg16 .cx - 1 ∧
    (t.reg16 .cx ≠ 0 → (∃ d', t.Repeating d') ∧ t.cpu.result = .okayRep) ∧
    (t.reg16 .cx = 0 → t.cpu.inRep = false ∧ t.cpu.result = .okay) := by
  obtain ⟨string, k, rep⟩ := h.record
  have iterates : (s.resumed d).iterates = true := by
    simp [iterates, resumed, beginStep, resumeRep, rep, h.inRep, h.alone.pending]
  obtain ⟨-, iteration, -⟩ := (repeatControl (s.resumed d) d.instr string).2 k rep
  obtain ⟨t, run, cx, goesOn, stay, leave⟩ := iteration iterates
  obtain ⟨alone, retired⟩ := h.undisturbed run
  have answer := h.step_eq run
  have inv := stepKeepsInvariant s _ h.inv answer
  rw [retired] at answer inv
  refine ⟨_, answer, cx, fun more => ?_, fun done => ?_⟩
  · have goes : t.cpu.inRep = true :=
      goesOn.mpr ⟨more, fun compares => absurd compares (movesOnly_effects h.moves).1⟩
    obtain ⟨result, record⟩ := stay goes
    obtain ⟨quiet, host, awake, pending, nmi, intf, tf⟩ := alone
    exact ⟨⟨_, inv, ⟨quiet, host, awake, pending, nmi, intf, tf⟩, goes, record, h.moves⟩, result⟩
  · have ends : t.cpu.inRep = false := Bool.eq_false_iff.mpr fun goes => (goesOn.mp goes).1 done
    exact ⟨ends, (leave ends).1⟩

end Repeating

/-! ### The whole repetition -/

theorem Repeating.run (n : Nat) {s : State} {d : Decoded} (h : s.Repeating d) (count : (s.reg16 .cx).toNat = n + 1) :
    ∃ t, Sys2Proof.core.run (n + 1) s = .next t ∧ t.reg16 .cx = 0 ∧ t.cpu.inRep = false ∧ t.cpu.result = .okay ∧
      (∀ k, k < n + 1 → 0 < k → ∃ u, Sys2Proof.core.run k s = .next u ∧ u.cpu.inRep = true ∧
        u.cpu.result = .okayRep) := by
  induction n generalizing s d with
  | zero =>
    obtain ⟨t, first, cx, -, last⟩ := h.step_result
    have empty : t.reg16 .cx = 0 := by rw [cx]; bv_omega
    obtain ⟨inRep, result⟩ := last empty
    exact ⟨t, core_run_succ first 0, empty, inRep, result, fun k lt pos => by omega⟩
  | succ n ih =>
    obtain ⟨t, first, cx, next, -⟩ := h.step_result
    have rest : (t.reg16 .cx).toNat = n + 1 := by rw [cx]; bv_omega
    obtain ⟨⟨d', repeating⟩, result⟩ := next fun empty => by simp [empty] at rest
    obtain ⟨u, run, empty, inRep, okay, between⟩ := ih repeating rest
    refine ⟨u, (core_run_succ first _).trans run, empty, inRep, okay, fun k lt pos => ?_⟩
    obtain ⟨j, rfl⟩ := Nat.exists_eq_add_one.mpr pos
    rw [core_run_succ first]
    cases j with
    | zero => exact ⟨t, rfl, repeating.inRep, result⟩
    | succ j => exact between (j + 1) (by omega) (by omega)

end State

end Sys2Proof.Machine

open Sys2Proof Sys2Proof.Machine

/-- Settles O45, by induction on CX: every step but the last leaves a repetition that nothing interrupts. -/
theorem repeatRunsCxTimes : Obligations.RepeatRunsCxTimes := by
  intro s d inv c inRep kept host moves count awake pending nmi intf tf
  have repeating : s.Repeating d := ⟨inv, ⟨c.quiet, host, awake, pending, nmi, intf, tf⟩, inRep, kept, moves⟩
  have pos : (s.reg16 .cx).toNat ≠ 0 := fun zero => count (BitVec.eq_of_toNat_eq zero)
  obtain ⟨n, hn⟩ := Nat.exists_eq_succ_of_ne_zero pos
  rw [hn]
  exact repeating.run n hn

end

section
/-! PROOFS. The conditions of the conditional jumps, and that after a compare they order numbers
(45_control_transfer.md R354). -/

namespace Sys2Proof.Machine

/-! ### Signed differences -/

section

variable {n : Nat} (a b : BitVec n)

theorem not_fitsSigned_sub : ¬ FitsSigned n (a.toInt - b.toInt) ↔ a.ssubOverflow b = true := by
  simp only [FitsSigned, BitVec.ssubOverflow, Bool.or_eq_true, decide_eq_true_eq]
  omega

/-- The sign of a difference is wrong exactly where the difference is out of range. -/
theorem msb_sub_bne_ssubOverflow : ((a - b).msb != a.ssubOverflow b) = decide (a.toInt < b.toInt) := by
  by_cases wraps : a.ssubOverflow b = true
  · rw [wraps, BitVec.msb_eq_toInt, BitVec.toInt_sub]
    simp only [BitVec.ssubOverflow, Bool.or_eq_true, decide_eq_true_eq, ge_iff_le,
      BitVec.twoPow_le_toInt_sub_toInt_iff, BitVec.toInt_sub_toInt_lt_twoPow_iff] at wraps
    rw [Bool.bne_true, ← decide_not, decide_eq_decide]
    omega
  · rw [BitVec.msb_eq_toInt, BitVec.toInt_sub_of_not_ssubOverflow wraps, Bool.eq_false_iff.2 wraps, Bool.bne_false,
      decide_eq_decide]
    exact sub_neg

end

/-- The flags of a difference without a borrow, which the conditions test. -/
theorem SubFlags.noBorrow {n : Nat} {a b : BitVec n} {f : Flags} (h : SubFlags a b false f) :
    f.cf = decide (a.toNat < b.toNat) ∧ f.zf = decide (a = b) ∧ f.sf = (a - b).msb ∧ f.ovf = a.ssubOverflow b := by
  obtain ⟨cf, -, ovf, sf, zf, -⟩ := h
  have diff : a - b - BitVec.ofNat n false.toNat = a - b := BitVec.sub_zero _
  rw [diff] at sf zf
  refine ⟨cf, ?_, sf, ?_⟩
  · rw [zf, decide_eq_decide]; exact sub_eq_zero
  · rw [Bool.eq_iff_iff, ovf, ← not_fitsSigned_sub]; simp

namespace Flags

variable (f : Flags)

/-! ### The conditions in terms of the flags -/

theorem belowEq_iff : f.belowEq = true ↔ f.cf = true ∨ f.zf = true := by simp [belowEq]

theorem not_belowEq_iff : (!f.belowEq) = true ↔ f.cf = false ∧ f.zf = false := by simp [belowEq]

theorem less_iff : f.less = true ↔ f.sf ≠ f.ovf := bne_iff_ne

theorem not_less_iff : (!f.less) = true ↔ f.sf = f.ovf := by simp [less]

theorem lessEq_iff : f.lessEq = true ↔ f.zf = true ∨ f.sf ≠ f.ovf := by simp [lessEq]

theorem not_lessEq_iff : (!f.lessEq) = true ↔ f.zf = false ∧ f.sf = f.ovf := by simp [lessEq]

end Flags

end Sys2Proof.Machine

open Sys2Proof Sys2Proof.Machine

/-- Settles O28: CF is the unsigned order, SF against OF the signed one, and ZF equality. -/
theorem conditionsOrderNumbers : Obligations.ConditionsOrderNumbers := by
  intro w a b f h
  obtain ⟨cf, zf, sf, ovf⟩ := h.noBorrow
  have below : f.cf = true ↔ a.toNat < b.toNat := by rw [cf, decide_eq_true_iff]
  have equal : f.zf = true ↔ a = b := by rw [zf, decide_eq_true_iff]
  have less : f.less = true ↔ a.toInt < b.toInt := by
    rw [Flags.less, sf, ovf, msb_sub_bne_ssubOverflow, decide_eq_true_iff]
  refine ⟨below, ?belowEq, less, ?lessEq, equal⟩
  case belowEq => rw [f.belowEq_iff, below, equal, ← BitVec.toNat_inj, Nat.le_iff_lt_or_eq]
  case lessEq => rw [f.lessEq_iff, ← f.less_iff, less, equal, ← BitVec.toInt_inj, or_comm, ← Int.le_iff_lt_or_eq]

end

section
/-! PROOFS. Conditional jumps, jumps, calls, returns and software interrupts leave their targets and their stack
(45_control_transfer.md). -/

namespace Sys2Proof.Machine

namespace State

/-! ### Conditional jumps (45_control_transfer.md R340, R354, R371 to R374) -/

section

variable (s : State)

theorem jumpIf_branches {b : Bool} {c : Prop} (h : b = true ↔ c) (d : Byte) :
    (c → (s.jumpIf b d).JumpedTo (s.sreg .cs) (s.ipNext + d.signExtend 16)) ∧ (¬ c → s.jumpIf b d = s) := by
  rw [← h, jumpIf]
  cases b with
  | true => exact ⟨fun _ => s.jumpNear_jumpedTo _, absurd rfl⟩
  | false => exact ⟨nofun, fun _ => rfl⟩

theorem jumpIf_regs (b : Bool) (d : Byte) : (s.jumpIf b d).cpu.regs = s.cpu.regs := by cases b <;> rfl

theorem jumpIf_flags (b : Bool) (d : Byte) : (s.jumpIf b d).cpu.flags = s.cpu.flags := by cases b <;> rfl

/-- A LOOP counts CX down, without flags, and tests the count that is left. -/
theorem loop_result {b : Bool} {c : Prop} (h : b = true ↔ s.reg16 .cx ≠ 1 ∧ c) (d : Byte) :
    let t := s.decCx.jumpIf b d
    t.reg16 .cx = s.reg16 .cx - 1 ∧ t.cpu.flags = s.cpu.flags ∧
      (s.reg16 .cx ≠ 1 ∧ c → t.JumpedTo (s.sreg .cs) (s.ipNext + d.signExtend 16)) ∧
      (¬ (s.reg16 .cx ≠ 1 ∧ c) → t.board = s.board) := by
  intro t
  obtain ⟨taken, skipped⟩ := s.decCx.jumpIf_branches h d
  have cx : t.reg16 .cx = s.decCx.reg16 .cx := congrArg (·.get .cx) (s.decCx.jumpIf_regs b d)
  exact ⟨cx.trans (s.reg16_setReg16_same .cx _), s.decCx.jumpIf_flags b d, taken,
    fun n => (congrArg State.board (skipped n) :)⟩

theorem sub_one_bne_zero (v : Word) : (v - 1 != 0) = true ↔ v ≠ 1 := by rw [bne_iff_ne, Ne, sub_eq_zero]

end

/-! ### Reading on the way to a transfer -/

/-- From `s`, `k` words have been popped on the way to `t`, and otherwise memory has only been read. -/
structure Pops (k : Nat) (s t : State) : Prop where
  sp      : t.reg16 .sp = s.reg16 .sp + BitVec.ofNat 16 (2 * k)
  sregs   : t.cpu.sregs = s.cpu.sregs
  touched : s.board.Touches [] t.board
  mem     : t.board.mem = s.board.mem

section

variable {s t : State} {k : Nat}

theorem Pops.refl (s : State) : s.Pops 0 s := ⟨(BitVec.add_zero _).symm, rfl, .refl _, rfl⟩

theorem Pops.load (q : s.Quiet) {o : Operand} (r : s.readable ((s.place o).addrs .word) = true) :
    s.Pops 0 (s.load .word o).2 :=
  ⟨by simp [reg16], by simp, Touches.load q .word o, (load_value q .word o r).2⟩

theorem readFar_mem (q : s.Quiet) (e : RM) : (s.readFar e).2.2.board.mem = s.board.mem := by
  have located : (s.touch (.rm e)).Quiet := (touch_quiet s _).2 q
  have first := rd16_touches located (s.farPlace e).1 (s.farPlace e).2
  exact (rd16_mem (first.slots.trans located) _ _).trans
    ((rd16_mem located _ _).trans (congrArg Board.mem (s.touch_board _)))

theorem Pops.readFar (q : s.Quiet) (e : RM) : s.Pops 0 (s.readFar e).2.2 :=
  ⟨by simp [reg16], by simp, Touches.readFar q e, readFar_mem q e⟩

variable (h : s.Pops k t)
include h

theorem Pops.sreg (r : SReg) : t.sreg r = s.sreg r := congrArg (·.get r) h.sregs

theorem Pops.ipNext : t.ipNext = s.ipNext := by rw [State.ipNext, h.touched.pc, h.touched.queue, State.ipNext]

theorem Pops.calm (c : s.Calm) : t.Calm := calm_of_touches c h.touched h.mem

/-- A pop reads one word more. -/
theorem Pops.pop16 (q : s.Quiet) : s.Pops (k + 1) t.pop16.2 := by
  have quiet : t.Quiet := h.touched.slots.trans q
  refine ⟨?_, h.sregs, h.touched.trans (pop16_touches quiet), (rd16_mem quiet _ _).trans h.mem⟩
  rw [pop16_sp, h.sp]
  bv_omega

theorem Pops.pop16_word (q : s.Quiet)
    (r : s.readable (byteAddrs .word (s.sreg .ss) (s.reg16 .sp + BitVec.ofNat 16 (2 * k))) = true) :
    t.pop16.1 = s.popWord k := by
  have quiet : t.Quiet := h.touched.slots.trans q
  rw [← h.sp, ← h.sreg, ← readable_of_touches h.touched] at r
  rw [popWord, ← h.sp, ← h.sreg, pop16_value quiet r, peek_congr h.mem]

end

/-! ### Calls (45_control_transfer.md R346 to R349) -/

section

variable {s t : State} (h : s.Pops 0 t)
include h

theorem Pops.pushes : s.Pushes 0 t :=
  .start (h.touched.stores (List.nil_subset _)) (h.sreg .ss) (h.sp.trans (BitVec.add_zero _))

variable (c : s.Calm)
include c

theorem callNear_result (ip : Word) :
    let u := t.callNear ip
    u.JumpedTo (s.sreg .cs) ip ∧ u.reg16 .sp = s.reg16 .sp - 2 ∧
      (s.writable (s.stackAddrs 1) = true → u.stackWord s 2 = s.ipNext) := by
  rw [← h.sreg .cs, ← h.ipNext]
  exact ⟨jumpNear_jumpedTo _ ip,
    h.pushes.push16_result (h.calm c) (writable_of_touches h.touched) t.ipNext⟩

theorem callFar_result (cs ip : Word) :
    let u := t.callFar cs ip
    u.JumpedTo cs ip ∧ u.reg16 .sp = s.reg16 .sp - 4 ∧
      (s.writable (s.stackAddrs 2) = true → u.stackWord s 2 = s.sreg .cs ∧ u.stackWord s 4 = s.ipNext) := by
  have zero := h.pushes
  have calm := h.calm c
  have one := zero.push16 c.quiet (t.sreg .cs)
  have first := push16_calm calm (t.sreg .cs)
  rw [← h.sreg .cs, ← h.ipNext]
  refine ⟨jumpFar_jumpedTo _ cs ip, (one.push16 c.quiet t.ipNext).sp, fun w => ?_⟩
  simp only [stackAddrs, writable, List.all_append, Bool.and_eq_true] at w
  obtain ⟨⟨-, w1⟩, w2⟩ := w
  have low := (writable_of_touches h.touched _).trans w1
  have high := (writable_push16 calm (t.sreg .cs) _).trans ((writable_of_touches h.touched _).trans w2)
  exact ⟨(one.stackWord_above first t.ipNext one_pos le_rfl (by decide)).trans
      (zero.stackWord_top calm (t.sreg .cs) low),
    one.stackWord_top first t.ipNext high⟩

end

/-! ### Returns (45_control_transfer.md R350 to R353, R378) -/

section

variable {s : State} (c : s.Calm)
include c

theorem retNear_result (r : s.readable (s.popAddrs 1) = true) (extra : Word) :
    (s.retNear extra).JumpedTo (s.sreg .cs) (s.popWord 0) ∧
      (s.retNear extra).reg16 .sp = s.reg16 .sp + 2 + extra := by
  rw [← pop16_word c.quiet r]
  exact ⟨jumpNear_jumpedTo _ _, reg16_setReg16_same _ .sp _⟩

theorem retFar_result (r : s.readable (s.popAddrs 2) = true) (extra : Word) :
    (s.retFar extra).JumpedTo (s.popWord 1) (s.popWord 0) ∧
      (s.retFar extra).reg16 .sp = s.reg16 .sp + 4 + extra := by
  simp only [popAddrs, readable, List.all_append, Bool.and_eq_true] at r
  obtain ⟨⟨-, r0⟩, r1⟩ := r
  have zero := Pops.refl s
  have one := zero.pop16 c.quiet
  rw [← zero.pop16_word c.quiet r0, ← one.pop16_word c.quiet r1]
  refine ⟨jumpFar_jumpedTo _ _ _, (reg16_setReg16_same _ .sp _).trans ?_⟩
  exact congrArg (· + extra) (one.pop16 c.quiet).sp

theorem iret_result (r : s.readable (s.popAddrs 3) = true) :
    s.iret.JumpedTo (s.popWord 1) (s.popWord 0) ∧ s.iret.reg16 .sp = s.reg16 .sp + 6 ∧
      s.iret.cpu.flags = .ofWord (s.popWord 2) := by
  simp only [popAddrs, readable, List.all_append, Bool.and_eq_true] at r
  obtain ⟨⟨⟨-, r0⟩, r1⟩, r2⟩ := r
  have zero := Pops.refl s
  have one := zero.pop16 c.quiet
  have two := one.pop16 c.quiet
  rw [← zero.pop16_word c.quiet r0, ← one.pop16_word c.quiet r1, ← two.pop16_word c.quiet r2]
  exact ⟨jumpFar_jumpedTo _ _ _, (two.pop16 c.quiet).sp, rfl⟩

end

/-! ### Interrupts (60_exceptions.md R440, R443) -/

theorem raise_result {s : State} (c : s.Calm) {n : Byte} (k : s.canEnter n = true) (ret : Word) :
    Entered (s.raise n ret) s n ret ∧ (s.raise n ret).cpu.result = .okayJump :=
  ⟨entered_setResult (entered_enter c k ret) _, rfl⟩

section

variable {s t : State} (sp : t.reg16 .sp = s.reg16 .sp - 6) (ss : t.sreg .ss = s.sreg .ss)
include sp

/-- Above the `j` words popped first from an entry's frame is the word `k` bytes below the SP before the entry. -/
theorem popOffset_entered (j k : Nat) (e : 2 * j + k = 6) :
    t.reg16 .sp + BitVec.ofNat 16 (2 * j) = s.reg16 .sp - BitVec.ofNat 16 k := by rw [sp]; bv_omega

include ss

theorem popWord_entered (j k : Nat) (e : 2 * j + k = 6) : t.popWord j = t.stackWord s k := by
  rw [popWord, stackWord, ss, popOffset_entered sp j k e]

theorem popAddrs_entered : t.popAddrs 3 ⊆ s.stackAddrs 3 := by
  have off := popOffset_entered sp
  intro a
  simp only [popAddrs, stackAddrs, ss, off 0 6 rfl, off 1 4 rfl, off 2 2 rfl, List.mem_append]
  tauto

theorem readable_popAddrs_entered (mask : t.board.mask = s.board.mask) (w : s.writable (s.stackAddrs 3) = true) :
    t.readable (t.popAddrs 3) = true := by
  have r := readable_of_writable w
  rw [readable, List.all_eq_true] at r ⊢
  rw [mask]
  exact fun a m => r a (popAddrs_entered sp ss m)

end

end State

end Sys2Proof.Machine

open Sys2Proof Sys2Proof.Machine

/-- Settles O46: every conditional jump is `jumpIf` on its condition, in LOOP, LOOPZ and LOOPNZ after CX has been
counted down. -/
theorem conditionalBranches : Obligations.ConditionalBranches := by
  refine ⟨fun s low d => ?jcc, fun s d => ?loops⟩
  case jcc =>
    intro f branches
    have jump {i : Instr} {b : Bool} {c : Prop} (e : exec i s = .next (s.jumpIf b d)) (h : b = true ↔ c) :
        branches i c := ⟨_, e, s.jumpIf_branches h d⟩
    have clear (b : Bool) : (!b) = true ↔ b = false := (Bool.not_eq_true' b).to_iff
    exact ⟨jump rfl .rfl, jump rfl (clear _), jump rfl .rfl, jump rfl (clear _), jump rfl .rfl, jump rfl (clear _),
      jump rfl f.belowEq_iff, jump rfl f.not_belowEq_iff, jump rfl .rfl, jump rfl (clear _), jump rfl .rfl,
      jump rfl (clear _), jump rfl f.less_iff, jump rfl f.not_less_iff, jump rfl f.lessEq_iff,
      jump rfl f.not_lessEq_iff⟩
  case loops =>
    intro target loops
    refine ⟨⟨_, rfl, s.loop_result ?loop d⟩, ⟨_, rfl, s.loop_result ?loopz d⟩, ⟨_, rfl, s.loop_result ?loopnz d⟩,
      ⟨_, rfl, congrArg (·.get .cx) (s.jumpIf_regs _ d), s.jumpIf_branches beq_iff_eq d⟩⟩
    case loop => rw [State.sub_one_bne_zero, and_true]
    case loopz => rw [Bool.and_eq_true, State.sub_one_bne_zero]
    case loopnz => rw [Bool.and_eq_true, State.sub_one_bne_zero, Bool.not_eq_true']

/-- Settles O47: the operand of an indirect jump is read, and control goes there. -/
theorem jumps : Obligations.Jumps := by
  intro s c
  refine ⟨fun _ => ⟨_, rfl, s.jumpNear_jumpedTo _⟩, fun _ => ⟨_, rfl, s.jumpNear_jumpedTo _⟩,
    fun off seg => ⟨_, rfl, s.jumpFar_jumpedTo seg off⟩, fun e r => ⟨_, rfl, ?near⟩, fun m r => ⟨_, rfl, ?far⟩⟩
  case near =>
    rw [← (State.load_value c.quiet .word (.rm e) r).1, ← (State.Pops.load c.quiet r).sreg .cs]
    exact State.jumpNear_jumpedTo _ _
  case far =>
    obtain ⟨offset, segment⟩ := State.readFar_value c.quiet (e := .mem m) r
    exact segment ▸ offset ▸ State.jumpFar_jumpedTo _ _ _

/-- Settles O48: reading the operand only touches the bus, and the pushes follow it. -/
theorem calls : Obligations.Calls := by
  intro s c near far
  have direct := State.Pops.refl s
  refine ⟨fun d => ⟨_, rfl, State.callNear_result direct c _⟩,
    fun off seg => ⟨_, rfl, State.callFar_result direct c seg off⟩, fun e r => ⟨_, rfl, ?near⟩,
    fun m r => ⟨_, rfl, ?far⟩⟩
  case near =>
    rw [← (State.load_value c.quiet .word (.rm e) r).1]
    exact State.callNear_result (.load c.quiet r) c _
  case far =>
    obtain ⟨offset, segment⟩ := State.readFar_value c.quiet (e := .mem m) r
    exact segment ▸ offset ▸ State.callFar_result (.readFar c.quiet (.mem m)) c _ _

/-- Settles O49: each form pops its words and then adds its immediate, or 0, to SP. -/
theorem returns : Obligations.Returns := by
  intro s c low n
  refine ⟨fun r => ?near, fun r => ?far⟩
  case near =>
    have plain := State.retNear_result c r 0
    rw [add_zero] at plain
    exact ⟨⟨_, rfl, plain⟩, ⟨_, rfl, State.retNear_result c r n⟩⟩
  case far =>
    have plain := State.retFar_result c r 0
    rw [add_zero] at plain
    exact ⟨⟨_, rfl, plain⟩, ⟨_, rfl, State.retFar_result c r n⟩⟩

/-- Settles O50: all three enter through `raise`, INTO when OF is set. -/
theorem softwareInterrupts : Obligations.SoftwareInterrupts := by
  intro s c
  refine ⟨fun n k => ⟨_, rfl, State.raise_result c k _⟩, fun k => ⟨_, rfl, State.raise_result c k _⟩,
    fun ovf k => ⟨_, congrArg Host.Outcome.next (if_pos ovf), State.raise_result c k _⟩,
    fun clear => congrArg Host.Outcome.next (if_neg (Bool.eq_false_iff.1 clear))⟩

/-- Settles O51: IRET pops the three words from where the entry pushed them. -/
theorem interruptReturn : Obligations.InterruptReturn := by
  refine ⟨fun s c r => ⟨_, rfl, ?pops⟩, fun s t n ret c k entered calm mask ss => ⟨_, rfl, ?undoes⟩⟩
  case pops =>
    obtain ⟨jumped, sp, flags⟩ := State.iret_result c r
    exact ⟨jumped, sp, flags ▸ word_ofWord _⟩
  case undoes =>
    rw [State.canEnter, Bool.and_eq_true] at k
    obtain ⟨w, -⟩ := k
    have r := State.readable_popAddrs_entered entered.sp ss mask w
    obtain ⟨jumped, sp, flags⟩ := State.iret_result calm r
    have word := State.popWord_entered entered.sp ss
    rw [word 1 4 rfl, word 0 6 rfl, entered.cs, entered.ip] at jumped
    rw [word 2 2 rfl, entered.flags, ofWord_word] at flags
    rw [entered.sp, BitVec.sub_add_cancel] at sp
    exact ⟨jumped, sp, flags⟩

end

section
/-! PROOFS. Flag control, HLT, WAIT and ESC (46_processor_control.md), and which instructions complete: all but the
encodings without semantics, HLT with interrupts disabled, and IN and OUT at a port that does not answer. -/

namespace Sys2Proof.Machine

theorem not_next_of_fault {o : Out} {f : Fault} (h : o = .fault f) : ¬ ∃ t, o = .next t := by
  rintro ⟨t, e⟩
  cases h.symm.trans e

/-! ### Encodings without semantics (46_processor_control.md R411, R413) -/

theorem exec_of_lacksSemantics {i : Instr} (h : lacksSemantics i = true) (s : State) :
    exec i s = .fault (.instructionDecodeError s.lastAddr) := by
  cases i with
  | fe2 _ | fe3 _ | fe4 _ | fe5 _ | fe6 _ | fe7 _ => rfl
  | callFarRm e | jmpFarRm e =>
    cases e with
    | reg _ => rfl
    | mem _ => cases h
  | _ => cases h

/-- HLT and the port accesses aside, an instruction with semantics has no condition under which it stops. -/
theorem exec_completes {i : Instr} (semantics : lacksSemantics i = false) (notHlt : i ≠ .hlt)
    (noPort : isPortAccess i = false) (s : State) : ∃ t, exec i s = .next t := by
  cases i with
  | fe2 _ | fe3 _ | fe4 _ | fe5 _ | fe6 _ | fe7 _ => cases semantics
  | callFarRm e | jmpFarRm e =>
    cases e with
    | reg _ => cases semantics
    | mem _ => exact ⟨_, rfl⟩
  | hlt => exact absurd rfl notHlt
  | inImm _ _ | inDx _ | outImm _ _ | outDx _ => cases noPort
  | pushRm _ e | esc _ _ e => cases e <;> exact ⟨_, rfl⟩
  | _ => exact ⟨_, rfl⟩

/-! ### HLT (46_processor_control.md R397, 60_exceptions.md R471) -/

theorem exec_hlt_of_enabled {s : State} (h : s.cpu.flags.intf = true) :
    exec .hlt s = .next ({ s with cpu := { s.cpu with halted := true } }.setResult .halt) := if_pos h

theorem exec_hlt_of_disabled {s : State} (h : s.cpu.flags.intf = false) :
    exec .hlt s = .fault (.cpuHaltedError s.lastAddr) := if_neg (Bool.eq_false_iff.1 h)

theorem exec_hlt_next_iff (s : State) : (∃ t, exec .hlt s = .next t) ↔ s.cpu.flags.intf = true := by
  cases h : s.cpu.flags.intf with
  | true => exact iff_of_true ⟨_, exec_hlt_of_enabled h⟩ rfl
  | false =>
    exact iff_of_false (not_next_of_fault (exec_hlt_of_disabled h)) Bool.false_ne_true

/-! ### IN and OUT (43_data_transfer.md R300, R301) -/

/-- The ports at which an access stops are the floppy controller's (60_exceptions.md R522) and the shared ones. -/
theorem answers_eq_false_iff (c : Params) (p : Word) :
    Params.answers c p = false ↔ Params.owner c p = .floppy ∨ Params.owner c p = .shared := by
  simp [Params.answers, imp_iff_not_or]

namespace Board

theorem deviceRead_isSome (b : Board) (p : Word) : (b.deviceRead p).isSome = Params.answers b.params p := by
  cases a : Params.answers b.params p with
  | true =>
    obtain ⟨v, c, e⟩ := deviceRead_answers a
    rw [e, Option.isSome_some]
  | false => obtain h | h := (answers_eq_false_iff _ _).1 a <;> rw [deviceRead, h] <;> rfl

theorem deviceWrite_isSome (b : Board) (p : Word) (v : Byte) :
    (b.deviceWrite p v).isSome = Params.answers b.params p := by
  cases a : Params.answers b.params p with
  | true =>
    obtain ⟨c, e⟩ := deviceWrite_answers a v
    rw [e, Option.isSome_some]
  | false => obtain h | h := (answers_eq_false_iff _ _).1 a <;> rw [deviceWrite, h] <;> rfl

/-- What the other agents do in the slot of the cycle does not change which ports answer. -/
theorem ioRead_isSome (cs : Word) (b : Board) (p : Word) : (b.ioRead cs p).isSome = Params.answers b.params p := by
  rw [← (keeps_slot b cs false).params, ← deviceRead_isSome, ioRead]
  cases (b.slot cs false).deviceRead p <;> rfl

theorem ioWrite_isSome (cs : Word) (b : Board) (p : Word) (v : Byte) :
    (b.ioWrite cs p v).isSome = Params.answers b.params p := by
  rw [← (keeps_slot b cs false).params, ← deviceWrite_isSome _ p v, ioWrite]
  cases (b.slot cs false).deviceWrite p v <;> rfl

end Board

/-- The ports that an access of this width uses. -/
def portRange : Width → Word → List Word
  | .byte, p => [p]
  | .word, p => [p, p + 1]

/-- An input is one cycle per port, and completes when each of its ports answers. -/
theorem inPort_next_iff (w : Width) (p : Word) (s : State) :
    (∃ t, inPort w p s = .next t) ↔ ∀ q ∈ portRange w p, Params.answers s.board.params q = true := by
  have first := Board.ioRead_isSome s.cpu.sregs.cs s.board p
  unfold inPort
  cases e : s.board.ioRead s.cpu.sregs.cs p with
  | none => cases w <;> simp [portRange, ← first, e]
  | some lo =>
    cases w with
    | byte => simp [portRange, ← first, e]
    | word =>
      have second := Board.ioRead_isSome s.cpu.sregs.cs lo.2 (p + 1)
      rw [(Board.ioRead_cycle e).keeps.params] at second
      rw [portRange, List.forall_mem_cons, List.forall_mem_singleton, ← first, ← second, e]
      dsimp only [State.setReg8_board, State.setBoard_board, State.setReg8_sregs, State.setBoard_sregs]
      cases lo.2.ioRead s.cpu.sregs.cs (p + 1) <;> simp

/-- An output likewise. -/
theorem outPort_next_iff (w : Width) (p : Word) (s : State) :
    (∃ t, outPort w p s = .next t) ↔ ∀ q ∈ portRange w p, Params.answers s.board.params q = true := by
  have first := Board.ioWrite_isSome s.cpu.sregs.cs s.board p (s.reg8 .ax)
  unfold outPort
  cases e : s.board.ioWrite s.cpu.sregs.cs p (s.reg8 .ax) with
  | none => cases w <;> simp [portRange, ← first, e]
  | some b =>
    cases w with
    | byte => simp [portRange, ← first, e]
    | word =>
      have second := Board.ioWrite_isSome s.cpu.sregs.cs b (p + 1) ((s.setBoard b).reg8 .sp)
      rw [(Board.ioWrite_cycle e).keeps.params] at second
      rw [portRange, List.forall_mem_cons, List.forall_mem_singleton, ← first, ← second, e]
      dsimp only [State.setBoard_board, State.setBoard_sregs]
      cases b.ioWrite s.cpu.sregs.cs (p + 1) ((s.setBoard b).reg8 .sp) <;> simp

theorem exec_port_next_iff {i : Instr} (h : isPortAccess i = true) (s : State) :
    (∃ t, exec i s = .next t) ↔ ∀ q ∈ portsOf i s, Params.answers s.board.params q = true := by
  cases i with
  | inImm w p =>
    have ports := inPort_next_iff w (p.setWidth 16) s
    cases w <;> exact ports
  | inDx w =>
    have ports := inPort_next_iff w (s.reg16 .dx) s
    cases w <;> exact ports
  | outImm w p =>
    have ports := outPort_next_iff w (p.setWidth 16) s
    cases w <;> exact ports
  | outDx w =>
    have ports := outPort_next_iff w (s.reg16 .dx) s
    cases w <;> exact ports
  | _ => cases h

theorem portsOf_eq_nil {i : Instr} (h : isPortAccess i = false) (s : State) : portsOf i s = [] := by
  cases i with
  | inImm _ _ | inDx _ | outImm _ _ | outDx _ => cases h
  | _ => rfl

/-! ### Where an instruction stops -/

theorem stops_eq_false_iff (i : Instr) (s : State) :
    stops i s = false ↔ lacksSemantics i = false ∧ (i = .hlt → s.cpu.flags.intf = true) ∧
      ∀ p ∈ portsOf i s, Params.answers s.board.params p = true := by
  simp [stops, and_assoc]

end Sys2Proof.Machine

open Sys2Proof Sys2Proof.Machine

/-- Settles O55: all eight are encodings without semantics. -/
theorem noSemanticsFault : Obligations.NoSemanticsFault := by
  intro s e g stop
  have fault {i : Instr} (h : lacksSemantics i = true) : exec i s = stop := exec_of_lacksSemantics h s
  exact ⟨fault rfl, fault rfl, fault rfl, fault rfl, fault rfl, fault rfl, fault rfl, fault rfl⟩

/-- Settles O18: an instruction lacks semantics, is HLT, accesses a port, or has nothing to stop for. -/
theorem completesUnlessStopped : Obligations.CompletesUnlessStopped := by
  intro i s
  rw [stops_eq_false_iff]
  cases semantics : lacksSemantics i with
  | true =>
    exact iff_of_false (not_next_of_fault (exec_of_lacksSemantics semantics s)) fun ⟨e, _⟩ => Bool.noConfusion e
  | false =>
    cases port : isPortAccess i with
    | true =>
      have notHlt : i ≠ .hlt := by rintro rfl; cases port
      simp [exec_port_next_iff port, notHlt]
    | false =>
      by_cases hlt : i = .hlt
      · subst hlt
        simp [exec_hlt_next_iff, portsOf]
      · simp [exec_completes semantics hlt port, portsOf_eq_nil port, hlt]

/-- Settles O52: each meaning is one change of the flags, and STI then inhibits the next sampling. -/
theorem flagInstructions : Obligations.FlagInstructions := by
  refine ⟨fun s => ⟨⟨_, rfl, rfl⟩, ⟨_, rfl, rfl⟩, ⟨_, rfl, rfl⟩, ⟨_, rfl, rfl⟩, ⟨_, rfl, rfl⟩⟩,
    fun s => ⟨⟨_, rfl, rfl, rfl⟩, ⟨_, rfl, ?sti⟩⟩⟩
  case sti =>
    rw [State.inhibit_eq]
    exact ⟨rfl, rfl⟩

/-- Settles O53: HLT and WAIT by their conditions; the ESC of a memory operand is the load of a word. -/
theorem haltWaitEscape : Obligations.HaltWaitEscape := by
  intro s
  refine ⟨fun h => ⟨_, exec_hlt_of_enabled h, rfl, rfl, rfl⟩, exec_hlt_of_disabled,
    fun asserted => congrArg Host.Outcome.next (if_pos asserted),
    fun idle => ⟨_, congrArg Host.Outcome.next (if_neg (Bool.eq_false_iff.1 idle)), rfl, rfl, rfl⟩,
    fun _ _ _ => rfl, fun _ _ m => ⟨_, rfl, s.load_cpu .word (.rm (.mem m)), rfl, fun quiet => ?mem⟩⟩
  case mem => exact Board.rd16_mem _ _ _ quiet

end

section
/-! PROOFS. What an interrupt entry leaves alone, which event a boundary takes, and the halted step
(60_exceptions.md R440 to R451, R470, R472). -/

namespace Sys2Proof.Machine

theorem Board.Framed.pic {A : Effects} {b c : Board} (h : b.Framed A c) (p : A.ports = false) : c.pic = b.pic :=
  congrArg Prod.fst (h.devices p)

theorem Board.Framed.undescribed {A : Effects} {b c : Board} (h : b.Framed A c) : c.undescribed = b.undescribed :=
  congrArg (·.2.2.2.2) h.fixed

namespace State

variable {s : State}

/-! ### The frame of an entry (60_exceptions.md R440) -/

theorem sreg_enter_other (s : State) (n : Byte) (ret : Word) {r : SReg} (h : r ≠ .cs) :
    (s.enter n ret).sreg r = s.sreg r := by
  rw [sreg, enter_cpu]
  exact Sregs.get_set_other _ _ h

theorem byteAt_enter_other (q : s.Quiet) (n : Byte) (ret : Word) {a : Nat} (h : a ∉ s.stackAddrs 3) :
    (s.enter n ret).byteAt a = s.byteAt a :=
  ((Pushes.start (.refl _) rfl rfl).enter q n ret).mem a h

theorem enter_framed (q : s.Quiet) (n : Byte) (ret : Word) : s.board.Framed .entry (s.enter n ret).board :=
  ((Does.start s).enter Effects.entry_enters n ret).board.framed q

theorem enter_pic (q : s.Quiet) (n : Byte) (ret : Word) : (s.enter n ret).board.pic = s.board.pic :=
  (enter_framed q n ret).pic rfl

theorem enter_undescribed (q : s.Quiet) (n : Byte) (ret : Word) :
    (s.enter n ret).board.undescribed = s.board.undescribed :=
  (enter_framed q n ret).undescribed

/-! ### Sampling, event by event (60_exceptions.md R446 to R451) -/

/-- The controller asks for an interrupt and IF lets it through (60_exceptions.md R448). -/
def intr (s : State) : Bool := s.cpu.flags.intf && s.board.pic.query

/-- The state in which the INTR handler is entered: the controller has been acknowledged. -/
def acknowledged (s : State) : State := s.setBoard { s.board with pic := s.board.pic.acknowledge.2 }

theorem stepFinish_inhibited (h : s.cpu.intInhibit = true) : s.stepFinish = s := if_pos h

/-- Nothing to take: the sampling leaves the state as it is, inhibited or not. -/
theorem stepFinish_idle (nmi : s.cpu.nmiLatch = false) (intr : s.intr = false) (trap : s.cpu.trapArmed = false) :
    s.stepFinish = s := by
  rw [State.intr] at intr
  simp [stepFinish, nmi, intr, trap]

section

variable (free : s.cpu.intInhibit = false)
include free

theorem stepFinish_deferred (rep : s.cpu.inRep = true) (intr : s.intr = true) :
    s.stepFinish = { s with cpu := { s.cpu with intrPending := true } } := by
  rw [State.intr] at intr
  simp [stepFinish, free, rep, intr]

theorem stepFinish_nmi (sampled : (s.cpu.inRep && s.intr) = false) (nmi : s.cpu.nmiLatch = true) :
    s.stepFinish = ({ s with cpu := { s.cpu with nmiLatch := false } } : State).enter 2 s.ip := by
  rw [State.intr] at sampled
  simp only [stepFinish, free, sampled, nmi, Bool.false_eq_true, if_false, if_true]

theorem stepFinish_intr (rep : s.cpu.inRep = false) (nmi : s.cpu.nmiLatch = false) (intr : s.intr = true) :
    s.stepFinish = s.acknowledged.enter s.board.pic.acknowledge.1 s.ip := by
  rw [State.intr] at intr
  simp only [stepFinish, free, rep, nmi, intr, acknowledged, Bool.false_and, Bool.false_eq_true, if_false, if_true]

theorem stepFinish_trap (nmi : s.cpu.nmiLatch = false) (intr : s.intr = false) (trap : s.cpu.trapArmed = true) :
    s.stepFinish = s.enter 1 s.ip := by
  rw [State.intr] at intr
  simp only [stepFinish, free, nmi, intr, trap, Bool.and_false, Bool.false_eq_true, if_false, if_true]

end

/-- What sampling comes to: the state as it is, or with an INTR deferred, or a handler entered from a state that differs
from it in the NMI latch and the controller alone. -/
theorem stepFinish_cases (s : State) :
    s.stepFinish = s ∨ s.stepFinish = { s with cpu := { s.cpu with intrPending := true } } ∨
      ∃ l p n, s.stepFinish =
        ({ s with cpu := { s.cpu with nmiLatch := l }, board := { s.board with pic := p } } : State).enter n s.ip := by
  unfold stepFinish
  dsimp only
  split
  · exact .inl rfl
  · split
    · exact .inr (.inl rfl)
    · split
      · exact .inr (.inr ⟨_, s.board.pic, _, rfl⟩)
      · split
        · exact .inr (.inr ⟨s.cpu.nmiLatch, _, _, rfl⟩)
        · split
          · exact .inr (.inr ⟨s.cpu.nmiLatch, s.board.pic, _, rfl⟩)
          · exact .inl rfl

/-- The result tag is the step's, whatever event is taken. -/
theorem stepFinish_result (s : State) : s.stepFinish.cpu.result = s.cpu.result := by
  obtain e | e | ⟨l, p, n, e⟩ := s.stepFinish_cases <;> rw [e]
  rw [enter_cpu]

theorem stepFinish_undescribed (q : s.Quiet) : s.stepFinish.board.undescribed = s.board.undescribed := by
  obtain e | e | ⟨l, p, n, e⟩ := s.stepFinish_cases <;> rw [e]
  rw [enter_undescribed]
  exact q

/-! ### The halted step (60_exceptions.md R470, R472) -/

/-- The state of a halted step in which events are sampled, when nothing is scheduled for the idle window. -/
def idled (s : State) : State :=
  { s with cpu := { s.cpu with trapArmed := false, intInhibit := false, result := .halt },
           board := { s.board with queueOp := .idle } }

theorem boundarySlot_quiet (q : s.Quiet) : s.boundarySlot = s := congrArg s.setBoard (Board.slot_quiet _ true q)

theorem iter_boundarySlot (q : s.Quiet) (k : Nat) : iter boundarySlot k s = s :=
  iter_keeps (P := fun u => u = s) (fun u e => by rw [e]; exact boundarySlot_quiet q) k rfl

theorem idleStep_of_quiet (q : s.Quiet) (tf : s.cpu.flags.tf = false) : s.idleStep = .next s.idled.stepFinish := by
  have window : iter boundarySlot s.board.params.idleWindow (s.setBoard { s.board with queueOp := .idle }) =
      s.setBoard { s.board with queueOp := .idle } := by
    rw [iter_boundarySlot]
    exact q
  rw [idleStep, if_neg (by rw [tf]; exact Bool.false_ne_true), window]
  rfl

theorem step_halted (error : s.cpu.error = none) (halted : s.cpu.halted = true) (tf : s.cpu.flags.tf = false)
    (whole : s.cpu.attempts = 0) (described : s.board.undescribed = none) (host : s.inputs.headD [] = [])
    (q : s.Quiet) :
    step s = .next
      ({ s with inputs := s.inputs.tail, skipBp := false, started := true } : State).idled.stepFinish := by
  rw [step_alone host whole, stepCore]
  simp only [error, halted, if_true]
  rw [idleStep_of_quiet, described_next]
  · rw [stepFinish_undescribed]
    · exact described
    · exact q
  · exact q
  · exact tf

end State

end Sys2Proof.Machine

open Sys2Proof Sys2Proof.Machine

/-- Settles O13: the frame of an entry beside what it leaves. -/
theorem entryFrame : Obligations.EntryFrame := fun s n ret c k =>
  ⟨State.entered_enter c k ret, fun _ => s.reg16_enter_other n ret, fun _ => s.sreg_enter_other n ret,
    fun _ => State.byteAt_enter_other c.quiet n ret⟩

/-- Settles O12, event by event: the handler is entered from a state with the registers and FLAGS of the boundary. -/
theorem boundaryArbitration : Obligations.BoundaryArbitration := by
  intro s c intr
  refine ⟨State.stepFinish_inhibited, State.stepFinish_deferred, ?nmi, ?intr, ?trap, State.stepFinish_idle⟩
  case nmi =>
    intro free sampled nmi k
    rw [State.stepFinish_nmi free sampled nmi]
    have c' : ({ s with cpu := { s.cpu with nmiLatch := false } } : State).Calm := ⟨c.quiet, c.mem⟩
    exact ⟨State.entered_congr (State.entered_enter c' k s.ip) rfl rfl rfl, by rw [State.enter_cpu],
      State.enter_pic c'.quiet 2 s.ip⟩
  case intr =>
    intro free rep nmi asked k
    rw [State.stepFinish_intr free rep nmi asked]
    have c' : s.acknowledged.Calm := ⟨c.quiet, c.mem⟩
    exact ⟨State.entered_congr (State.entered_enter c' k s.ip) rfl rfl rfl, State.enter_pic c'.quiet _ s.ip⟩
  case trap =>
    intro free nmi none trap k
    rw [State.stepFinish_trap free nmi none trap]
    exact ⟨State.entered_enter c k s.ip, State.enter_pic c.quiet 1 s.ip⟩

/-- Settles O11: a halted step is the sampling of a boundary that nothing inhibits and no trap precedes. -/
theorem haltedStep : Obligations.HaltedStep := by
  intro s error halted rep tf whole described host c
  let u : State := ({ s with inputs := s.inputs.tail, skipBp := false, started := true } : State).idled
  have ip : u.ip = s.ipNext := if_neg (Bool.eq_false_iff.mp rep)
  obtain ⟨-, -, nmi, intr, -, idle⟩ := boundaryArbitration u ⟨c.quiet, c.mem⟩
  rw [ip] at nmi intr
  refine ⟨_, State.step_halted error halted tf whole described host c.quiet, State.stepFinish_result _, ?_, ?_, ?_⟩
  · intro noNmi noIntr
    have same : u.stepFinish = u := idle noNmi noIntr rfl
    rw [same]
    exact ⟨halted, rfl, rfl, rfl, rfl⟩
  · intro latched k
    obtain ⟨entered, cleared, -⟩ := nmi rfl (congrArg (· && u.intr) rep) latched k
    exact ⟨State.entered_congr entered rfl rfl rfl, cleared⟩
  · intro noNmi asked k
    obtain ⟨entered, pic⟩ := intr rfl rep noNmi asked k
    exact ⟨State.entered_congr entered rfl rfl rfl, pic⟩

end

section
/-! PROOFS. The interrupt controller (60_exceptions.md R482 to R484): which level the rotation presents, and what the
acknowledge and the specific end of interrupt leave. -/

namespace Sys2Proof.Machine

theorem levelBit_getLsbD (n m : BitVec 3) : (levelBit n).getLsbD m.toNat = (m == n) := by decide +revert

namespace Pic

variable (p : Pic)

/-! ### The rotation (60_exceptions.md R482) -/

@[simp] theorem length_order : p.order.length = 8 := rfl

/-- How many levels stand above level `n`. -/
def rank (n : BitVec 3) : Nat := (n - p.lowestPrio - 1).toNat

theorem getElem_order {k : Nat} (h : k < p.order.length) : p.order[k] = p.lowestPrio + 1 + BitVec.ofNat 3 k := by
  have table : ∀ l : BitVec 3,
      [l + 1, l + 2, l + 3, l + 4, l + 5, l + 6, l + 7, l] = List.ofFn fun k : Fin 8 => l + 1 + BitVec.ofNat 3 k := by
    decide
  have eq : p.order = List.ofFn fun k : Fin 8 => p.lowestPrio + 1 + BitVec.ofNat 3 k := table p.lowestPrio
  simp only [eq, List.getElem_ofFn]

theorem rank_lt (n : BitVec 3) : p.rank n < p.order.length := BitVec.isLt _

theorem getElem_rank (n : BitVec 3) : p.order[p.rank n]'(p.rank_lt n) = n := by
  rw [getElem_order, rank, BitVec.ofNat_toNat, BitVec.setWidth_eq]
  bv_omega

theorem rank_getElem {k : Nat} (h : k < p.order.length) : p.rank p.order[k] = k := by
  have bound : k < 8 := h
  rw [getElem_order, rank]
  bv_omega

/-- A search in the order of the priorities finds the level of least rank. -/
theorem find?_order_eq_some_iff (f : BitVec 3 → Bool) (n : BitVec 3) :
    p.order.find? f = some n ↔ f n = true ∧ ∀ m, p.rank m < p.rank n → f m = false := by
  rw [List.find?_eq_some_iff_getElem]
  refine and_congr_right fun _ => ⟨?_, fun h => ⟨p.rank n, p.rank_lt n, p.getElem_rank n, fun j hj => ?_⟩⟩
  · rintro ⟨i, hi, rfl, before⟩ m hm
    rw [rank_getElem] at hm
    simpa only [getElem_rank, Bool.not_eq_true'] using before (p.rank m) hm
  · have bound : j < p.order.length := hj.trans (p.rank_lt n)
    rw [Bool.not_eq_true']
    exact h _ (by rwa [rank_getElem p bound])

/-! ### The level presented -/

/-- A level ends the scan: it is in service, or requested and not masked. -/
def decides (n : BitVec 3) : Bool := p.isr.getLsbD n.toNat || (p.irr.getLsbD n.toNat && !p.imr.getLsbD n.toNat)

theorem scan_eq (l : List (BitVec 3)) : p.scan l = (l.find? p.decides).filter fun n => !p.isr.getLsbD n.toNat := by
  induction l with
  | nil => rfl
  | cons n l ih =>
    cases service : p.isr.getLsbD n.toNat <;>
      cases request : p.irr.getLsbD n.toNat && !p.imr.getLsbD n.toNat <;>
        simp [scan, Option.filter, decides, service, request, ih]

theorem eligible_eq_some_iff (n : BitVec 3) : p.eligible = some n ↔
    p.isr.getLsbD n.toNat = false ∧ p.irr.getLsbD n.toNat = true ∧ p.imr.getLsbD n.toNat = false ∧
      ∀ m, p.rank m < p.rank n → p.decides m = false := by
  rw [eligible, scan_eq, Option.filter_eq_some_iff, find?_order_eq_some_iff, Bool.not_eq_true']
  cases service : p.isr.getLsbD n.toNat <;> simp [decides, service, and_assoc]

theorem rank_inj {m n : BitVec 3} (h : p.rank m = p.rank n) : m = n := by
  have := p.getElem_rank m
  simp only [h] at this
  exact this.symm.trans (p.getElem_rank n)

theorem decides_eq_false_iff (m : BitVec 3) : p.decides m = false ↔
    p.isr.getLsbD m.toNat = false ∧ (p.irr.getLsbD m.toNat = false ∨ p.imr.getLsbD m.toNat = true) := by
  simp only [decides, Bool.or_eq_false_iff, Bool.and_eq_false_iff, Bool.not_eq_false']

/-! ### Acknowledge and end of interrupt (60_exceptions.md R483, R484) -/

theorem acknowledge_of_none (h : p.eligible = none) : p.acknowledge = (p.vectorBase + 7, p) := by
  simp only [acknowledge, h]

theorem acknowledge_of_some {n : BitVec 3} (h : p.eligible = some n) :
    p.acknowledge.1 = p.vectorBase + n.setWidth 8 ∧ p.acknowledge.2.irr = p.irr &&& ~~~ levelBit n ∧
      p.acknowledge.2.isr = (if p.autoEoi then p.isr else p.isr ||| levelBit n) ∧
      p.acknowledge.2.imr = p.imr := by
  simp only [acknowledge, h]
  split <;> exact ⟨rfl, rfl, rfl, rfl⟩

theorem getLsbD_clear_level (v : Byte) (n m : BitVec 3) :
    (v &&& ~~~ levelBit n).getLsbD m.toNat = (v.getLsbD m.toNat && m != n) := by
  have bound : m.toNat < 8 := m.isLt
  rw [BitVec.getLsbD_and, BitVec.getLsbD_not, levelBit_getLsbD, decide_eq_true bound, Bool.true_and, bne]

theorem getLsbD_set_level (v : Byte) (n m : BitVec 3) :
    (v ||| levelBit n).getLsbD m.toNat = (v.getLsbD m.toNat || m == n) := by
  rw [BitVec.getLsbD_or, levelBit_getLsbD]

/-- OCW2 with EOI and SL and without R (60_exceptions.md R484, R487). -/
theorem writeCommand_specificEoi (n : BitVec 3) : p.writeCommand (0x60 ||| n.setWidth 8) = p.eoi false n := by
  rw [show (0x60 : Byte) = 0x60#8 from rfl]
  have ocw2 : (0x60#8 ||| n.setWidth 8).getLsbD 4 = false ∧ (0x60#8 ||| n.setWidth 8).getLsbD 3 = false := by
    decide +revert
  have eoi : (0x60#8 ||| n.setWidth 8).toNat / 32 = 3 := by decide +revert
  have level : (0x60#8 ||| n.setWidth 8).setWidth 3 = n := by decide +revert
  simp only [writeCommand, ocw2, Bool.false_eq_true, if_false, Pic.ocw2, eoi, level]

end Pic

end Sys2Proof.Machine

open Sys2Proof Sys2Proof.Machine

/-- Settles O14: the scan is a search in the order of the ranks, and each byte is read bit by bit. -/
theorem picPriorityAndAcknowledge : Obligations.PicPriorityAndAcknowledge := by
  refine ⟨fun p n => ?presented, fun p => Option.isSome_iff_exists, fun p n m h => ?acknowledged,
    fun p => p.acknowledge_of_none, fun p n m => ?ended⟩
  case presented =>
    rw [p.eligible_eq_some_iff]
    constructor
    · rintro ⟨idle, requested, unmasked, above⟩
      refine ⟨requested, unmasked, fun m le => ?_⟩
      rcases Nat.lt_or_eq_of_le le with lt | eq
      · obtain ⟨idle, quiet⟩ := (p.decides_eq_false_iff m).mp (above m lt)
        exact ⟨idle, fun _ => quiet⟩
      · obtain rfl := p.rank_inj eq
        exact ⟨idle, fun ne => absurd rfl ne⟩
    · rintro ⟨requested, unmasked, above⟩
      refine ⟨(above n le_rfl).1, requested, unmasked, fun m lt => (p.decides_eq_false_iff m).mpr ?_⟩
      obtain ⟨idle, quiet⟩ := above m (Nat.le_of_lt lt)
      exact ⟨idle, quiet fun eq => absurd (congrArg p.rank eq) (Nat.ne_of_lt lt)⟩
  case acknowledged =>
    obtain ⟨vector, irr, isr, imr⟩ := p.acknowledge_of_some h
    refine ⟨vector, by rw [irr, Pic.getLsbD_clear_level], ?_, imr⟩
    rw [isr]
    cases p.autoEoi <;> simp [levelBit_getLsbD]
  case ended =>
    rw [p.writeCommand_specificEoi]
    exact Pic.getLsbD_clear_level _ _ _

end

section
/-! PROOFS. One transfer of the DMA controller (60_exceptions.md R493 to R498): the byte moved, and the registers after
it. -/

namespace Sys2Proof.Machine

/-! ### The channel -/

theorem Dma.open_eq_true_iff (d : Dma) (c : DmaChannel) : d.open c = true ↔
    c.masked = false ∧ d.enable = true ∧ c.tc = false ∧ c.service ≠ .cascade := by
  simp [Dma.open, and_assoc]

theorem DmaXfer.moves_iff (x : DmaXfer) : x.moves = true ↔ x = .writeToMem ∨ x = .readFromMem := by
  cases x <;> decide

theorem DmaChannel.address_eq (c : DmaChannel) (r : DmaRange) :
    let whole := c.page.toNat * 65536 + c.curAddr.toNat
    c.address r = if r = .lowFour then whole % memSize else whole := by
  cases r <;> rfl

/-- Between the first byte and the last the address moves by one and the count goes down. -/
theorem DmaChannel.advance_counting {c : DmaChannel} (h : c.curCount ≠ 0) :
    c.advance = { c with curAddr := if c.decrement then c.curAddr - 1 else c.curAddr + 1,
                         curCount := c.curCount - 1 } := if_neg h

theorem DmaChannel.advance_ended {c : DmaChannel} (h : c.curCount = 0) (once : c.autoInit = false) :
    c.advance = { c with curAddr := if c.decrement then c.curAddr - 1 else c.curAddr + 1, curCount := 0xFFFF,
                         tcLatched := true, tc := true } :=
  (if_pos h).trans (if_neg (Bool.eq_false_iff.mp once))

theorem DmaChannel.advance_reloaded {c : DmaChannel} (h : c.curCount = 0) (again : c.autoInit = true) :
    c.advance = { c with curAddr := c.baseAddr, curCount := c.baseCount, tcLatched := true } :=
  (if_pos h).trans (if_pos again)

namespace Board

variable (b : Board)

/-! ### Memory (20_memory.md R80, R81, R85) -/

variable {b} in
theorem Touches.undescribed {as : List Nat} {c : Board} (h : b.Touches as c) : c.undescribed = b.undescribed := by
  rw [h.rest]

/-- In range and in ordinary memory a byte is stored. -/
theorem dmaWrite_mem {a : Nat} (v : Byte) (range : a < memSize) (mmio : (Mask.read b.mask a).mmio = false)
    (rom : (Mask.read b.mask a).rom = false) : (b.dmaWrite a v).mem = Memory.write b.mem a v := by
  simp [dmaWrite, memWrite, range, mmio, rom]

/-- Out of range, in MMIO and in ROM nothing is stored. -/
theorem dmaWrite_mem_of_no_ram {a : Nat} (v : Byte)
    (h : (Mask.read b.mask a).mmio = true ∨ (Mask.read b.mask a).rom = true ∨ memSize ≤ a) :
    (b.dmaWrite a v).mem = b.mem := by
  unfold dmaWrite memWrite
  split
  next range =>
    split
    · split <;> rfl
    next mmio =>
      have rom : (Mask.read b.mask a).rom = true := h.resolve_left mmio |>.resolve_right (Nat.not_le.mpr range)
      rw [if_pos rom]
  · rfl

theorem dmaWrite_mem_other {a x : Nat} (v : Byte) (h : x ≠ a) :
    Memory.read (b.dmaWrite a v).mem x = Memory.read b.mem x := by
  unfold dmaWrite
  split
  · exact (b.memWrite_touches a v).mem x (by simpa using h)
  · rfl

theorem dmaWrite_undescribed (a : Nat) (v : Byte) : (b.dmaWrite a v).undescribed = b.undescribed := by
  unfold dmaWrite
  split
  · exact (b.memWrite_touches a v).undescribed
  · rfl

theorem memRead_mem (a : Nat) : (b.memRead a).2.mem = b.mem := by
  unfold memRead
  split
  · dsimp only
    split <;> rfl
  · rfl

theorem dmaRead_mem (a : Nat) : (b.dmaRead a).2.mem = b.mem := by
  unfold dmaRead
  split
  · exact b.memRead_mem a
  · rfl

theorem dmaRead_undescribed (a : Nat) : (b.dmaRead a).2.undescribed = b.undescribed := by
  unfold dmaRead
  split
  · exact (b.memRead_touches a).undescribed
  · rfl

/-! ### The transfer (60_exceptions.md R496) -/

variable (n : BitVec 2) (din : Byte)

/-- Where channel `n` transfers next. -/
def dmaAddress : Nat := (b.dma.get n).address b.params.dmaRange

/-- The board once the byte of a transfer is moved, before the channel's registers change. -/
def dmaMoved : Board :=
  match (b.dma.get n).xfer with
  | .writeToMem => b.dmaWrite (b.dmaAddress n) din
  | .readFromMem => (b.dmaRead (b.dmaAddress n)).2.emit (.dmaByte n (b.dmaRead (b.dmaAddress n)).1)
  | .verify | .illegal => b

theorem dmaMoved_of_write {b : Board} {n : BitVec 2} (h : (b.dma.get n).xfer = .writeToMem) :
    b.dmaMoved n din = b.dmaWrite (b.dmaAddress n) din := by
  rw [dmaMoved, h]

theorem dmaMoved_mem_of_not_write {b : Board} {n : BitVec 2} (h : (b.dma.get n).xfer ≠ .writeToMem) :
    (b.dmaMoved n din).mem = b.mem := by
  unfold dmaMoved
  split
  next e => exact absurd e h
  · exact b.dmaRead_mem _
  · rfl
  · rfl

theorem dmaMoved_undescribed : (b.dmaMoved n din).undescribed = b.undescribed := by
  unfold dmaMoved
  split
  · exact b.dmaWrite_undescribed _ din
  · exact b.dmaRead_undescribed _
  · rfl
  · rfl

theorem dmaTransfer_closed {b : Board} {n : BitVec 2} (h : b.dma.open (b.dma.get n) = false) :
    b.dmaTransfer n din = b := if_neg (Bool.eq_false_iff.mp h)

theorem dmaTransfer_soft {b : Board} {n : BitVec 2} (h : b.dma.open (b.dma.get n) = true)
    (soft : ((b.dma.get n).soft && (b.dma.get n).xfer.moves) = true) :
    b.dmaTransfer n din = { b with undescribed := some .dmaSoftwareRequest } :=
  (if_pos h).trans (if_pos soft)

theorem dmaTransfer_asked {b : Board} {n : BitVec 2} (h : b.dma.open (b.dma.get n) = true)
    (asked : ((b.dma.get n).soft && (b.dma.get n).xfer.moves) = false) :
    b.dmaTransfer n din = { b.dmaMoved n din with dma := b.dma.set n (b.dma.get n).advance } := by
  refine (if_pos h).trans ((if_neg (Bool.eq_false_iff.mp asked)).trans ?_)
  unfold dmaMoved dmaAddress
  cases (b.dma.get n).xfer <;> rfl

end Board

end Sys2Proof.Machine

open Sys2Proof Sys2Proof.Machine

/-- Settles O58: a closed channel, a byte that only software asked for, or the byte moved and the registers advanced. -/
theorem dmaTransfer : Obligations.DmaTransfer := by
  intro b n din c t u whole a moves
  have address : b.dmaAddress n = a := c.address_eq b.params.dmaRange
  have isOpen := b.dma.open_eq_true_iff c
  refine ⟨fun closed => ?closed, fun masked enable tc service => ⟨fun ⟨soft, moves⟩ => ?soft, fun asked => ?asked⟩⟩
  case closed =>
    refine b.dmaTransfer_closed din (Bool.eq_false_iff.mpr fun h => ?_)
    obtain ⟨masked, enable, tc, service⟩ := isOpen.mp h
    simp [masked, enable, tc, service] at closed
  case soft =>
    refine Board.dmaTransfer_soft din (isOpen.mpr ⟨masked, enable, tc, service⟩) ?_
    rw [soft, c.xfer.moves_iff.mpr moves]
    rfl
  case asked =>
    have hard : (c.soft && c.xfer.moves) = false := by
      rwa [Bool.eq_false_iff, ne_eq, Bool.and_eq_true, c.xfer.moves_iff]
    have transfer : t = { b.dmaMoved n din with dma := b.dma.set n c.advance } :=
      Board.dmaTransfer_asked din (isOpen.mpr ⟨masked, enable, tc, service⟩) hard
    have channel : u = c.advance := (congrArg (·.dma.get n) transfer).trans (b.dma.get_set_same n _)
    have mem : t.mem = (b.dmaMoved n din).mem := by rw [transfer]
    refine ⟨(congrArg Board.undescribed transfer).trans (b.dmaMoved_undescribed n din),
      fun m other => (congrArg (·.dma.get m) transfer).trans (b.dma.get_set_other _ other),
      fun write wf range mmio rom => ?stored, fun x h => ?kept,
      fun counting => channel.trans (DmaChannel.advance_counting counting),
      fun ended once => channel.trans (DmaChannel.advance_ended ended once),
      fun ended again => channel.trans (DmaChannel.advance_reloaded ended again)⟩
    case stored =>
      rw [mem, Board.dmaMoved_of_write din write, address, b.dmaWrite_mem din range mmio rom]
      exact Memory.read_write_same wf range din
    case kept =>
      rw [mem]
      by_cases write : c.xfer = .writeToMem
      · rw [Board.dmaMoved_of_write din write, address]
        rcases h with other | verify | noRam
        · exact b.dmaWrite_mem_other din other
        · exact absurd write verify
        · rw [b.dmaWrite_mem_of_no_ram din noRam]
      · rw [Board.dmaMoved_mem_of_not_write din write]

end

section
/-! PROOFS. The floppy engine (60_exceptions.md R512, R513, R516, R517): what one sector's write leaves on the track,
what a run of writes leaves on the image, and what the read loop then finds. -/

namespace Sys2Proof.Machine

/-! ### Tracks -/

theorem DiskImage.sectorsOf_putTrack (im : DiskImage) (cyl head : Nat) (qs : List Sector) :
    (im.putTrack cyl head qs).sectorsOf cyl head = qs := by
  unfold putTrack
  split
  next t e =>
    have kept : (fun t : Track => t.cyl == cyl && t.head == head) ∘
        (fun t => if t.cyl == cyl && t.head == head then { t with sectors := qs } else t) =
          fun t : Track => t.cyl == cyl && t.head == head := by
      funext t
      simp only [Function.comp]
      split <;> rfl
    have here := List.find?_some e
    rw [track] at e
    rw [sectorsOf, track, List.find?_map, kept, e]
    exact congrArg Track.sectors (if_pos here)
  next e =>
    rw [track] at e
    simp [sectorsOf, track, List.find?_append, e]

theorem Track.length_le_count {im : DiskImage} {t : Track} (h : t ∈ im.tracks) : t.sectors.length ≤ im.count :=
  List.le_sum_of_mem (List.mem_map_of_mem h)

theorem Drive.length_sectorsAt_le (d : Drive) (im : DiskImage) (h : Nat) : (d.sectorsAt im h).length ≤ im.count := by
  unfold sectorsAt DiskImage.sectorsOf
  split
  · split
    next t e => exact Track.length_le_count (List.mem_of_find?_eq_some e)
    · exact Nat.zero_le _
  · exact Nat.zero_le _

/-! ### One sector -/

/-- The sector once `v` is written to it (60_exceptions.md R513). -/
def Sector.written (v : List Byte) (q : Sector) : Sector :=
  { q with data := v, dataCrcBad := false, deletedMark := false }

/-- The sector holds `v`, and reading it reports no error and no deleted mark. -/
structure Sector.Holds (q : Sector) (v : List Byte) : Prop where
  data    : q.data = v
  address : q.addressCrcBad = false
  crc     : q.dataCrcBad = false
  mark    : q.deletedMark = false

theorem Sector.written_holds {q : Sector} (good : q.addressCrcBad = false) (v : List Byte) :
    (q.written v).Holds v := ⟨rfl, good, rfl, rfl⟩

/-- The first sector of a track that has the id; `Drive.find` looks among the sectors that the drive reaches. -/
def sectorWithId (qs : List Sector) (c h s n : Nat) : Option Sector := qs.find? fun q => q.matchesId c h s n

theorem Drive.find_eq (d : Drive) (im : DiskImage) (head c h s n : Nat) :
    d.find im head c h s n = sectorWithId (d.sectorsAt im head) c h s n := rfl

section

variable {c h s n : Nat}

theorem Sector.number_of_matchesId {q : Sector} (e : q.matchesId c h s n = true) : q.s = s := by
  simp only [matchesId, Bool.and_eq_true, beq_iff_eq] at e
  exact e.1.2

theorem sectorWithId_cons_match {q : Sector} {qs : List Sector} (e : q.matchesId c h s n = true) :
    sectorWithId (q :: qs) c h s n = some q := by
  simp only [sectorWithId, List.find?_cons, e]

theorem sectorWithId_cons_other {q : Sector} {qs : List Sector} (e : q.matchesId c h s n = false) :
    sectorWithId (q :: qs) c h s n = sectorWithId qs c h s n := by
  simp only [sectorWithId, List.find?_cons, e]

theorem mem_of_sectorWithId {qs : List Sector} {q : Sector} (e : sectorWithId qs c h s n = some q) :
    q ∈ qs ∧ q.s = s := by
  rw [sectorWithId] at e
  have matched := List.find?_some e
  exact ⟨List.mem_of_find?_eq_some e, Sector.number_of_matchesId matched⟩

variable (v : List Byte) (qs : List Sector)

/-- The sector found under the id that was written is the written one. -/
theorem sectorWithId_putSector_same :
    sectorWithId (putSector qs c h s n v) c h s n = (sectorWithId qs c h s n).map (Sector.written v) := by
  induction qs with
  | nil => rfl
  | cons q qs ih =>
    cases e : q.matchesId c h s n with
    | true =>
      have same : (q.written v).matchesId c h s n = true := e
      rw [putSector, if_pos e, sectorWithId_cons_match e]
      exact sectorWithId_cons_match same
    | false =>
      rw [putSector, if_neg (Bool.eq_false_iff.mp e), sectorWithId_cons_other e, sectorWithId_cons_other e, ih]

/-- The sectors of other numbers are found as before. -/
theorem sectorWithId_putSector_other {s' : Nat} (ne : s' ≠ s) :
    sectorWithId (putSector qs c h s n v) c h s' n = sectorWithId qs c h s' n := by
  induction qs with
  | nil => rfl
  | cons q qs ih =>
    cases e : q.matchesId c h s n with
    | true =>
      have other : q.matchesId c h s' n = false := Bool.eq_false_iff.mpr fun k =>
        ne ((Sector.number_of_matchesId k).symm.trans (Sector.number_of_matchesId e))
      have written : (q.written v).matchesId c h s' n = false := other
      rw [putSector, if_pos e, sectorWithId_cons_other other]
      exact sectorWithId_cons_other written
    | false =>
      rw [putSector, if_neg (Bool.eq_false_iff.mp e)]
      cases e' : q.matchesId c h s' n with
      | true => rw [sectorWithId_cons_match e', sectorWithId_cons_match e']
      | false => rw [sectorWithId_cons_other e', sectorWithId_cons_other e', ih]

end

/-! ### A run of sectors -/

/-- The `ct` sectors of a track from number `s` on hold the bytes `data`, sector by sector. -/
def RunHolds (qs : List Sector) (c h n : Nat) : Nat → Nat → List Byte → Prop
  | 0, _, data => data = []
  | ct + 1, s, data =>
    (∃ q, sectorWithId qs c h s n = some q ∧ q.Holds (data.take (sectorBytes n))) ∧
      RunHolds qs c h n ct (s + 1) (data.drop (sectorBytes n))

theorem RunHolds.found {qs : List Sector} {c h n ct s : Nat} {data : List Byte} (r : RunHolds qs c h n ct s data)
    {k : Nat} (first : s ≤ k) (last : k < s + ct) : ∃ q, sectorWithId qs c h k n = some q := by
  induction ct generalizing s data with
  | zero => omega
  | succ ct ih =>
    obtain ⟨⟨q, e, -⟩, rest⟩ := r
    rcases Nat.eq_or_lt_of_le first with rfl | lt
    · exact ⟨q, e⟩
    · exact ih rest lt (by omega)

/-- Sectors of distinct numbers are distinct sectors of the track. -/
theorem RunHolds.le_length {qs : List Sector} {c h n ct s : Nat} {data : List Byte} (r : RunHolds qs c h n ct s data) :
    ct ≤ qs.length := by
  have numbers : List.range' s ct ⊆ qs.map Sector.s := by
    intro k hk
    obtain ⟨first, last⟩ := List.mem_range'_1.mp hk
    obtain ⟨q, e⟩ := r.found first last
    obtain ⟨on, rfl⟩ := mem_of_sectorWithId e
    exact List.mem_map_of_mem on
  have le := (List.subperm_of_subset List.nodup_range' numbers).length_le
  rwa [List.length_range', List.length_map] at le

theorem takeBytes_eq_take {k : Nat} {l : List Byte} (h : k ≤ l.length) : takeBytes k l = l.take k := by
  induction k generalizing l with
  | zero => rfl
  | succ k ih =>
    cases l with
    | nil => exact absurd h (Nat.not_succ_le_zero k)
    | cons b l => rw [takeBytes, ih (Nat.le_of_succ_le_succ h), List.take_succ_cons]

namespace Drive

variable (d : Drive)

/-- The image once one sector is written. -/
def store (im : DiskImage) (c h s n : Nat) (v : List Byte) : DiskImage :=
  im.putTrack d.cyl h (putSector (d.sectorsAt im h) c h s n v)

theorem sectorsAt_store (im : DiskImage) (c h s n : Nat) (v : List Byte) :
    d.sectorsAt (d.store im c h s n v) h = putSector (d.sectorsAt im h) c h s n v := by
  by_cases inside : (d.cyl < d.kind.cylinders && h < d.kind.heads) = true
  · rw [sectorsAt, if_pos inside]
    exact DiskImage.sectorsOf_putTrack _ _ _ _
  · rw [sectorsAt, sectorsAt, if_neg inside, if_neg inside, putSector]

/-- A good sector takes its part of the data, and the write goes on. -/
theorem writeData_good {im : DiskImage} {c h s n : Nat} {q : Sector} (e : d.find im h c h s n = some q)
    (good : q.addressCrcBad = false) (ct done : Nat) (data : List Byte) :
    Drive.writeData d im c h n (ct + 1) s done data =
      Drive.writeData d (d.store im c h s n (takeBytes (sectorBytes n) data)) c h n ct (s + 1) (done + 1)
        (data.drop (sectorBytes n)) := by
  have found : (d.sectorsAt im h).find? (·.matchesId c h s n) = some q := e
  simp only [Drive.writeData, found, good, Bool.false_eq_true, if_false, store]

/-- A run of writes of good sectors stores the bytes and touches no sector before the run (60_exceptions.md R513). -/
theorem writeData_run (c h n ct : Nat) (im : DiskImage) (s done : Nat) (data : List Byte)
    (good : ∀ k, k < ct → ∃ q, d.find im h c h (s + k) n = some q ∧ q.addressCrcBad = false)
    (length : data.length = ct * sectorBytes n) :
    ∃ im', Drive.writeData d im c h n ct s done data =
        ({ d with image := some im' } : Drive).report ⟨false, done + ct, c, h, s + ct, false⟩ .fresh none [] ∧
      RunHolds (d.sectorsAt im' h) c h n ct s data ∧
      ∀ s', s' < s → sectorWithId (d.sectorsAt im' h) c h s' n = sectorWithId (d.sectorsAt im h) c h s' n := by
  induction ct generalizing im s done data with
  | zero => exact ⟨im, rfl, List.length_eq_zero_iff.mp (length.trans (Nat.zero_mul _)), fun _ _ => rfl⟩
  | succ ct ih =>
    obtain ⟨q, e, address⟩ := good 0 (Nat.succ_pos ct)
    rw [Nat.add_zero] at e
    rw [Nat.succ_mul] at length
    have front : takeBytes (sectorBytes n) data = data.take (sectorBytes n) := takeBytes_eq_take (by omega)
    have step := d.writeData_good e address ct done data
    rw [front] at step
    clear front
    set v := data.take (sectorBytes n)
    have rest : ∀ k, k < ct →
        ∃ q, d.find (d.store im c h s n v) h c h (s + 1 + k) n = some q ∧ q.addressCrcBad = false := by
      intro k lt
      rw [find_eq, sectorsAt_store, sectorWithId_putSector_other v _ (by omega), Nat.add_assoc, Nat.add_comm 1 k]
      exact good (k + 1) (Nat.succ_lt_succ lt)
    obtain ⟨im', run, holds, before⟩ :=
      ih (d.store im c h s n v) (s + 1) (done + 1) (data.drop (sectorBytes n)) rest (by rw [List.length_drop]; omega)
    refine ⟨im', ?result, ⟨⟨q.written v, ?here, Sector.written_holds address v⟩, holds⟩, fun s' lt => ?before⟩
    case result =>
      rw [step, Nat.add_comm ct 1, ← Nat.add_assoc, ← Nat.add_assoc]
      exact run
    case here =>
      rw [before s (Nat.lt_succ_self s), sectorsAt_store, sectorWithId_putSector_same, ← find_eq]
      exact congrArg (Option.map (Sector.written v)) e
    case before =>
      rw [before s' (Nat.lt_succ_of_lt lt), sectorsAt_store, sectorWithId_putSector_other v _ (Nat.ne_of_lt lt)]

/-- The read loop gathers a run that the track holds (60_exceptions.md R512). -/
theorem readLoop_run (im : DiskImage) (c n ct : Nat) (skip multitrack : Bool) {m fuel : Nat} (le : m ≤ fuel)
    {l : ReadLoop} {data : List Byte} (left : l.done + m = ct)
    (holds : RunHolds (d.sectorsAt im l.h) c l.h n m l.s data) :
    readLoop d im c n ct skip multitrack fuel l = { l with done := ct, s := l.s + m, buf := l.buf ++ data } := by
  induction m generalizing fuel l data with
  | zero =>
    obtain rfl : data = [] := holds
    obtain rfl : l.done = ct := left
    cases fuel <;> simp [readLoop]
  | succ m ih =>
    obtain ⟨fuel, rfl⟩ := Nat.exists_eq_add_one.mpr (Nat.lt_of_lt_of_le (Nat.succ_pos m) le)
    obtain ⟨⟨q, e, holdsData, address, crc, mark⟩, rest⟩ := holds
    rw [← find_eq] at e
    rw [readLoop, if_pos (by omega)]
    simp only [e, address, crc, mark, Bool.or_false, Bool.false_eq_true, if_false]
    rw [ih (Nat.le_of_succ_le_succ le) (by simp only; omega) rest]
    simp only [holdsData, List.append_assoc, List.take_append_drop, Nat.add_assoc, Nat.add_comm 1 m]

/-! ### Operations (60_exceptions.md R517, 93_implementation_defined.md section 7) -/

theorem withImage_ready {im : DiskImage} (ready : d.ready = true) (image : d.image = some im) (f : DiskImage → Drive) :
    d.withImage f = some (f im) := by
  rw [withImage, image]
  exact congrArg some (if_pos ready)

theorem run_readData {im : DiskImage} (ready : d.ready = true) (image : d.image = some im) (c h s n ct : Nat)
    (skip multitrack : Bool) :
    d.run (.readData c h s n ct skip multitrack) = some (d.readData im c h s n ct skip multitrack) :=
  d.withImage_ready ready image fun im => d.readData im c h s n ct skip multitrack

theorem withImage_not_ready (ready : d.ready = false) (image : d.image.isSome = true) (f : DiskImage → Drive) :
    d.withImage f = some d := by
  obtain ⟨im, e⟩ := Option.isSome_iff_exists.mp image
  rw [withImage, e]
  exact congrArg some (if_neg (Bool.eq_false_iff.mp ready))

theorem withImage_none (image : d.image = none) (f : DiskImage → Drive) : d.withImage f = none := by
  rw [withImage, image]

/-- Every operation but motor control needs the image. -/
theorem run_eq_withImage {op : FloppyOp} (h : ∀ on, op ≠ .motor on) : ∃ f, d.run op = d.withImage f := by
  cases op with
  | motor on => exact absurd rfl (h on)
  | _ => exact ⟨_, rfl⟩

/-- Writing a run of good sectors and reading it back (60_exceptions.md R513). -/
theorem write_then_read {im : DiskImage} {h s n ct : Nat} {data : List Byte} (ready : d.ready = true)
    (image : d.image = some im)
    (good : ∀ k, k < ct → ∃ q, d.find im h d.cyl h (s + k) n = some q ∧ q.addressCrcBad = false)
    (length : data.length = ct * sectorBytes n) :
    ∃ w, d.run (.writeData d.cyl h s n ct data) = some w ∧ w.failure = none ∧
      w.result = ⟨false, ct, d.cyl, h, s + ct, false⟩ ∧
      ∀ skip multitrack : Bool, ∃ r, w.run (.readData d.cyl h s n ct skip multitrack) = some r ∧ r.buffer = data ∧
        r.status = ⟨false, false, false⟩ ∧ r.failure = none ∧ r.result = ⟨false, ct, d.cyl, h, s + ct, false⟩ := by
  obtain ⟨im', write, holds, -⟩ := d.writeData_run d.cyl h n ct im s 0 data good length
  rw [Nat.zero_add] at write
  let w : Drive := ({ d with image := some im' } : Drive).report ⟨false, ct, d.cyl, h, s + ct, false⟩ .fresh none []
  refine ⟨w, (d.withImage_ready ready image _).trans (congrArg some write), rfl, rfl, fun skip multitrack => ?_⟩
  have fuel : ct ≤ im'.count + 3 := Nat.le_add_right_of_le (holds.le_length.trans (d.length_sectorsAt_le im' h))
  have loop := w.readLoop_run im' d.cyl n ct skip multitrack fuel
    (l := ⟨h, s, 0, false, [], .fresh, false, false⟩) (Nat.zero_add ct) holds
  refine ⟨_, w.run_readData ready rfl d.cyl h s n ct skip multitrack, ?_⟩
  simp only [readData, loop]
  exact ⟨rfl, rfl, rfl, rfl⟩

end Drive

end Sys2Proof.Machine

open Sys2Proof Sys2Proof.Machine

/-- Settles O60: the drive's own operations by their cases; the sectors by induction on the length of the run. -/
theorem floppyOperations : Obligations.FloppyOperations := by
  refine fun d => ⟨fun ready image c => ?seek, fun off image => ?on, fun off none => ?spin, fun on => ?off, ?level,
    fun notReady image op other => ?notReady, fun none op other => ?noImage,
    fun im h s n ct data ready image good length => d.write_then_read ready image good length⟩
  case seek =>
    obtain ⟨im, image⟩ := Option.isSome_iff_exists.mp image
    exact d.withImage_ready ready image _
  case on => simp [Drive.run, Drive.motor, off, image]
  case spin => simp [Drive.run, Drive.motor, off, none]
  case off => simp [Drive.run, Drive.motor, on]
  case level => simp [Drive.run, Drive.motor]
  case notReady =>
    obtain ⟨f, e⟩ := d.run_eq_withImage other
    rw [e, d.withImage_not_ready notReady image]
  case noImage =>
    obtain ⟨f, e⟩ := d.run_eq_withImage other
    rw [e, d.withImage_none none]

end

section
/-! PROOFS. The interrupt sources of the serial port (60_exceptions.md R529, R530, R533), and the step of a suspended
repetition (60_exceptions.md R444). -/

namespace Sys2Proof.Machine.Uart

variable {u : Uart}

/-- Enabling TX-empty with the holding register empty raises it (60_exceptions.md R529). -/
theorem writeIer_raises_tx {v : Byte} (off : u.ier.getLsbD 1 = false) (on : v.getLsbD 1 = true) (empty : u.thr = none) :
    (u.writeIer v).actTx = true := by
  simp only [writeIer, off, on, empty, Option.isNone_none, Bool.not_false, Bool.and_self, Bool.or_true]

theorem read_rxBuf (h : u.dlab = false) : u.read 0 = (u.rxBuf, { u with dr := false, actRx := false }) :=
  if_neg (Bool.eq_false_iff.mp h)

theorem write_ier (h : u.dlab = false) (v : Byte) : u.write 1 v = u.writeIer v := if_neg (Bool.eq_false_iff.mp h)

/-- The interrupt ID is TX-empty's exactly when no source above it is active (60_exceptions.md R530). -/
theorem iir_eq_two_iff : u.iir = 2 ↔ u.actLine = false ∧ u.actRx = false ∧ u.actTx = true := by
  unfold iir
  cases u.actLine <;> cases u.actRx <;> cases u.actTx <;> cases u.actModem <;> decide

theorem read_iir_of_tx (h : u.iir = 2) : (u.read 2).2 = { u with actTx := false } := if_pos h

theorem read_iir_of_other (h : u.iir ≠ 2) : (u.read 2).2 = u := if_neg h

end Sys2Proof.Machine.Uart

open Sys2Proof Sys2Proof.Machine

/-- Settles O59: the only read of the interrupt ID that clears a source is the one that shows TX-empty. -/
theorem uartInterrupts : Obligations.UartInterrupts := by
  refine fun u => ⟨fun dlab => ⟨fun v off on empty => ?raised, Uart.read_rxBuf dlab⟩, rfl,
    fun tx line rx => Uart.read_iir_of_tx (Uart.iir_eq_two_iff.mpr ⟨line, rx, tx⟩),
    fun other => Uart.read_iir_of_other fun two => ?kept⟩
  case raised =>
    rw [Uart.write_ier dlab]
    exact Uart.writeIer_raises_tx off on empty
  case kept =>
    obtain ⟨line, rx, tx⟩ := Uart.iir_eq_two_iff.mp two
    rw [line, rx, tx] at other
    cases other

/-- Settles O10: the step is `finishExec` of the kept record in the resumed state. -/
theorem suspendedStepFetchesNothing : Obligations.SuspendedStepFetchesNothing :=
  fun _ _ error halted inRep kept whole host => State.step_suspended error halted inRep kept whole host

end

section
/-! PROOFS. The decoder reads its input from the front: what decodes also decodes with more bytes behind it, and the
encoding of an instruction decodes to it (30_encoding.md R162, R165). -/

namespace Sys2Proof

/-! ### More bytes -/

/-- What `f` reads from some bytes it reads from the front of any longer list, and it leaves the bytes behind alone. -/
def Extends (f : List Byte → DecodeResult) : Prop :=
  ∀ bs i rest more, f bs = .ok (i, rest) → f (bs ++ more) = .ok (i, rest ++ more)

@[simp] theorem extends_yield (i : Instr) : Extends (yield i) := by
  intro bs j rest more h
  cases h
  rfl

@[simp] theorem extends_takeByte {k : Byte → List Byte → DecodeResult} (h : ∀ b, Extends (k b)) :
    Extends (takeByte k) := by
  intro bs i rest more e
  cases bs with
  | nil => cases e
  | cons b bs => exact h b bs i rest more e

@[simp] theorem extends_takeWord {k : Word → List Byte → DecodeResult} (h : ∀ v, Extends (k v)) :
    Extends (takeWord k) :=
  extends_takeByte fun _ => extends_takeByte fun _ => h _

@[simp] theorem extends_takeRM (mod rm : Nat) {k : RM → List Byte → DecodeResult} (h : ∀ e, Extends (k e)) :
    Extends (takeRM mod rm k) := by
  unfold takeRM
  split
  · split
    · exact extends_takeWord fun _ => h _
    · exact h _
  · exact extends_takeByte fun _ => h _
  · exact extends_takeWord fun _ => h _
  · exact h _

@[simp] theorem extends_takeModRM {k : BitVec 3 → RM → List Byte → DecodeResult} (h : ∀ r e, Extends (k r e)) :
    Extends (takeModRM k) :=
  extends_takeByte fun _ => extends_takeRM _ _ (h _)

@[simp] theorem extends_group3 (w : Width) (r : BitVec 3) (e : RM) : Extends (group3 w r e) := by
  unfold group3
  split <;> simp

@[simp] theorem extends_aluRow (k lo : Nat) : Extends (aluRow k lo) := by
  unfold aluRow
  split <;> simp

@[simp] theorem extends_row80 (lo : Nat) : Extends (row80 lo) := by
  unfold row80
  split <;> simp

@[simp] theorem extends_row88 (lo : Nat) : Extends (row88 lo) := by
  unfold row88
  split <;> simp

@[simp] theorem extends_row98 (lo : Nat) : Extends (row98 lo) := by
  unfold row98
  split <;> simp

@[simp] theorem extends_rowA0 (lo : Nat) : Extends (rowA0 lo) := by
  unfold rowA0
  split <;> simp

@[simp] theorem extends_rowA8 (lo : Nat) : Extends (rowA8 lo) := by
  unfold rowA8
  split <;> simp

@[simp] theorem extends_rowC0 (lo : Nat) : Extends (rowC0 lo) := by
  unfold rowC0
  split <;> simp

@[simp] theorem extends_rowC8 (lo : Nat) : Extends (rowC8 lo) := by
  unfold rowC8
  split <;> simp

@[simp] theorem extends_rowD0 (lo : Nat) : Extends (rowD0 lo) := by
  unfold rowD0
  split <;> simp

@[simp] theorem extends_rowE0 (lo : Nat) : Extends (rowE0 lo) := by
  unfold rowE0
  split <;> simp

@[simp] theorem extends_rowE8 (lo : Nat) : Extends (rowE8 lo) := by
  unfold rowE8
  split <;> simp

@[simp] theorem extends_rowF0 (lo : Nat) : Extends (rowF0 lo) := by
  unfold rowF0
  split <;> simp

@[simp] theorem extends_rowF8 (lo : Nat) : Extends (rowF8 lo) := by
  unfold rowF8
  split <;> simp

theorem extends_decodeOpcode (hi lo : Nat) : Extends (decodeOpcode hi lo) := by
  have low (k : Nat) : Extends (if lo < 6 then aluRow k lo else yield (lowMisc k lo)) := by
    split
    · exact extends_aluRow k lo
    · exact extends_yield _
  unfold decodeOpcode
  split <;> simp [low]

theorem extends_decode : Extends decode := extends_takeByte fun _ => extends_decodeOpcode _ _

/-- Too few bytes of an encoding do not decode. -/
theorem decode_take_of_lt {bs : List Byte} {i : Instr} (h : decode bs = .ok (i, [])) {k : Nat} (lt : k < bs.length) :
    ∃ e, decode (bs.take k) = .error e := by
  cases d : decode (bs.take k) with
  | error e => exact ⟨e, rfl⟩
  | ok r =>
    obtain ⟨j, rest⟩ := r
    have longer := extends_decode _ _ _ (bs.drop k) d
    rw [List.take_append_drop, h] at longer
    have none : rest ++ bs.drop k = [] := (congrArg Prod.snd (Except.ok.inj longer)).symm
    have length := congrArg List.length (List.append_eq_nil_iff.mp none).2
    rw [List.length_drop, List.length_nil] at length
    omega

/-! ### The encoding decodes -/

@[simp] theorem GReg.ofBits_bits (g : GReg) : GReg.ofBits g.bits = g := by cases g <;> rfl
@[simp] theorem Base.ofBits_bits (b : Base) : Base.ofBits b.bits = b := by cases b <;> rfl
@[simp] theorem SReg.ofBits_segField (high : Bool) (r : SReg) : SReg.ofBits (segField high r) = r := by
  cases high <;> cases r <;> rfl
@[simp] theorem segField_getLsbD (high : Bool) (r : SReg) : (segField high r).getLsbD 2 = high := by
  cases high <;> cases r <;> rfl

/-- The three fields of a ModR/M byte (30_encoding.md R137). -/
theorem modRM_fields {mod : Nat} (h : mod < 4) (r rm : BitVec 3) :
    (BitVec.ofNat 8 (64 * mod + 8 * r.toNat + rm.toNat)).toNat / 64 = mod ∧
      BitVec.ofNat 3 ((BitVec.ofNat 8 (64 * mod + 8 * r.toNat + rm.toNat)).toNat / 8) = r ∧
      (BitVec.ofNat 8 (64 * mod + 8 * r.toNat + rm.toNat)).toNat % 8 = rm.toNat := by
  have hr := r.isLt
  have hm := rm.isLt
  have byte : (BitVec.ofNat 8 (64 * mod + 8 * r.toNat + rm.toNat)).toNat = 64 * mod + 8 * r.toNat + rm.toNat := by
    rw [BitVec.toNat_ofNat]
    omega
  rw [byte]
  refine ⟨by omega, BitVec.eq_of_toNat_eq ?_, by omega⟩
  rw [BitVec.toNat_ofNat]
  omega

theorem takeModRM_cons (k : BitVec 3 → RM → List Byte → DecodeResult) {mod : Nat} (h : mod < 4) (r rm : BitVec 3)
    (rest : List Byte) : takeModRM k (BitVec.ofNat 8 (64 * mod + 8 * r.toNat + rm.toNat) :: rest) =
      takeRM mod rm.toNat (k r) rest := by
  obtain ⟨hmod, hreg, hrm⟩ := modRM_fields h r rm
  rw [takeModRM, takeByte, hmod, hreg, hrm]

theorem takeModRM_cons_zero (k : BitVec 3 → RM → List Byte → DecodeResult) (r rm : BitVec 3) (rest : List Byte) :
    takeModRM k (BitVec.ofNat 8 (8 * r.toNat + rm.toNat) :: rest) = takeRM 0 rm.toNat (k r) rest := by
  have h := takeModRM_cons k (mod := 0) (by decide) r rm rest
  rwa [Nat.mul_zero, Nat.zero_add] at h

theorem Base.bits_ne_six {b : Base} (h : b ≠ .bp) : b.bits.toNat ≠ 6 := by cases b <;> simp_all [Base.bits]

/-- The ModR/M and displacement bytes of an operand are read back (30_encoding.md R137, R140). -/
theorem takeModRM_modRM (k : BitVec 3 → RM → List Byte → DecodeResult) (r : BitVec 3) {e : RM}
    (h : e.wf = true) (rest : List Byte) : takeModRM k (modRM r e ++ rest) = k r e rest := by
  cases e with
  | reg g =>
    refine (takeModRM_cons k (mod := 3) (by decide) r g.bits rest).trans ?_
    simp [takeRM]
  | mem m =>
    cases m with
    | direct d =>
      refine (takeModRM_cons_zero k r 6 _).trans ?_
      simp [takeRM, takeWord, takeByte]
    | noDisp b =>
      have notSix := Base.bits_ne_six (bne_iff_ne.mp h)
      refine (takeModRM_cons_zero k r b.bits _).trans ?_
      simp [takeRM, notSix]
    | disp8 b d =>
      refine (takeModRM_cons k (mod := 1) (by decide) r b.bits _).trans ?_
      simp [takeRM, takeByte]
    | disp16 b d =>
      refine (takeModRM_cons k (mod := 2) (by decide) r b.bits _).trans ?_
      simp [takeRM, takeWord, takeByte]

theorem decode_opc {hi lo : Nat} (hh : hi < 32) (hl : lo < 8) (bs : List Byte) :
    decode (opc hi lo :: bs) = decodeOpcode hi lo bs := by
  have byte : (opc hi lo).toNat = 8 * hi + lo := by
    rw [opc, BitVec.toNat_ofNat]
    omega
  rw [decode, takeByte, byte, show (8 * hi + lo) / 8 = hi by omega, show (8 * hi + lo) % 8 = lo by omega]

/-! #### What follows the opcode byte -/

theorem takeWord_wordBytes (k : Word → List Byte → DecodeResult) (v : Word) (rest : List Byte) :
    takeWord k (wordBytes v ++ rest) = k v rest := by
  simp [takeWord, takeByte, wordBytes]

theorem decode_word (f : Word → Instr) (v : Word) : takeWord (fun v => yield (f v)) (wordBytes v) = .ok (f v, []) :=
  takeWord_wordBytes (fun v => yield (f v)) v []

theorem decode_far (f : Word → Word → Instr) (u v : Word) :
    takeWord (fun u => takeWord fun v => yield (f u v)) (wordBytes u ++ wordBytes v) = .ok (f u v, []) :=
  (takeWord_wordBytes _ u (wordBytes v)).trans (decode_word (f u) v)

section

variable {e : RM} (h : e.wf = true)
include h

theorem decode_modRM (f : BitVec 3 → RM → Instr) (r : BitVec 3) :
    takeModRM (fun r e => yield (f r e)) (modRM r e) = .ok (f r e, []) := by
  have read := takeModRM_modRM (fun r e => yield (f r e)) r h []
  rwa [List.append_nil] at read

theorem decode_modRM_reg (f : GReg → RM → Instr) (g : GReg) :
    takeModRM (fun r e => yield (f (GReg.ofBits r) e)) (modRM g.bits e) = .ok (f g e, []) := by
  rw [decode_modRM h fun r e => f (GReg.ofBits r) e, GReg.ofBits_bits]

theorem decode_modRM_byte (f : BitVec 3 → RM → Byte → Instr) (r : BitVec 3) (i : Byte) :
    takeModRM (fun r e => takeByte fun i => yield (f r e i)) (modRM r e ++ [i]) = .ok (f r e i, []) :=
  takeModRM_modRM (fun r e => takeByte fun i => yield (f r e i)) r h [i]

theorem decode_modRM_word (f : BitVec 3 → RM → Word → Instr) (r : BitVec 3) (i : Word) :
    takeModRM (fun r e => takeWord fun i => yield (f r e i)) (modRM r e ++ wordBytes i) = .ok (f r e i, []) :=
  (takeModRM_modRM (fun r e => takeWord fun i => yield (f r e i)) r h (wordBytes i)).trans (decode_word (f r e) i)

/-! #### The groups (30_encoding.md section 7) -/

theorem decode_group2 (r : BitVec 3) (w : Width) (c : Count) :
    decode (encodeShift r w e c) = .ok (shiftInstr r.toNat w e c, []) := by
  cases w <;> cases c <;> exact decode_modRM h (fun r e => shiftInstr r.toNat _ e _) r

/-- Group 3 but for TEST, which has immediate bytes. -/
theorem decode_group3 {i : Instr} (r : BitVec 3) {w : Width} (single : group3 w r e = yield i) :
    decode (opc 30 (6 + w.bit) :: modRM r e) = .ok (i, []) := by
  have read (w : Width) : takeModRM (group3 w) (modRM r e) = group3 w r e [] := by
    have read := takeModRM_modRM (group3 w) r h []
    rwa [List.append_nil] at read
  have row : decode (opc 30 (6 + w.bit) :: modRM r e) = takeModRM (group3 w) (modRM r e) := by cases w <;> rfl
  rw [row, read, single]
  rfl

theorem decode_group4 (r : BitVec 3) : decode (0xFE :: modRM r e) = .ok (group4 r e, []) := decode_modRM h group4 r

theorem decode_group5 (r : BitVec 3) : decode (0xFF :: modRM r e) = .ok (group5 r e, []) := decode_modRM h group5 r

end

/-! #### The ALU rows (40_alu.md R184, R196) -/

theorem decode_aluRow {k lo : Nat} (hk : k < 8) (hl : lo < 6) (bs : List Byte) :
    decode (opc k lo :: bs) = aluRow k lo bs := by
  have low : (if lo < 6 then aluRow k lo else yield (lowMisc k lo)) = aluRow k lo := if_pos hl
  rw [decode_opc (by omega) (by omega), ← low]
  interval_cases k <;> rfl

theorem decode_encodeAlu {k : Nat} (hk : k < 8) {f : AluForm} (h : f.wf = true) :
    decode (encodeAlu k f) = .ok (aluInstr k f, []) := by
  have number : (BitVec.ofNat 3 k).toNat = k := by
    rw [BitVec.toNat_ofNat]
    omega
  have row {lo : Nat} (hl : lo < 6) (bs : List Byte) := decode_aluRow hk hl bs
  cases f with
  | rmReg w e g =>
    cases w <;> exact (row (by decide) _).trans (decode_modRM_reg h (fun g e => aluInstr k (.rmReg _ e g)) g)
  | regRm w g e =>
    cases w <;> exact (row (by decide) _).trans (decode_modRM_reg h (fun g e => aluInstr k (.regRm _ g e)) g)
  | accImm8 i => exact row (by decide) [i]
  | accImm16 i => exact (row (by decide) _).trans (decode_word (fun i => aluInstr k (.accImm16 i)) i)
  | rmImm8 e i =>
    exact (decode_modRM_byte h (fun r e i => aluInstr r.toNat (.rmImm8 e i)) _ i).trans (by rw [number])
  | rmImm16 e i =>
    exact (decode_modRM_word h (fun r e i => aluInstr r.toNat (.rmImm16 e i)) _ i).trans (by rw [number])
  | rmImm8Alias e i =>
    exact (decode_modRM_byte h (fun r e i => aluInstr r.toNat (.rmImm8Alias e i)) _ i).trans (by rw [number])
  | rmImm8Sext e i =>
    exact (decode_modRM_byte h (fun r e i => aluInstr r.toNat (.rmImm8Sext e i)) _ i).trans (by rw [number])

theorem decode_encodeTest {f : TestForm} (h : f.wf = true) : decode (encodeTest f) = .ok (.test f, []) := by
  cases f with
  | rmReg w e g => cases w <;> exact decode_modRM_reg h (fun g e => .test (.rmReg _ e g)) g
  | accImm8 i => rfl
  | accImm16 i => exact decode_word (fun i => .test (.accImm16 i)) i
  | rmImm8 e i | rmImm8Alias e i => exact takeModRM_modRM (group3 .byte) _ h [i]
  | rmImm16 e i => exact (takeModRM_modRM (group3 .word) 0 h _).trans (decode_word (fun i => .test (.rmImm16 e i)) i)
  | rmImm16Alias e i =>
    exact (takeModRM_modRM (group3 .word) 1 h _).trans (decode_word (fun i => .test (.rmImm16Alias e i)) i)

/-- The bytes of a well-formed instruction decode to it (30_encoding.md R162, R165). -/
theorem decode_encode {i : Instr} (h : i.wf = true) : decode (encode i) = .ok (i, []) := by
  cases i with
  | add f | or f | adc f | sbb f | and f | sub f | xor f | cmp f => exact decode_encodeAlu (by decide) h
  | test f => exact decode_encodeTest h
  | rol w e c | ror w e c | rcl w e c | rcr w e c | shl w e c | shr w e c | setmo w e c | sar w e c =>
    exact decode_group2 h _ w c
  | not w e | neg w e | mul w e | imul w e | div w e | idiv w e => exact decode_group3 h _ (by cases w <;> rfl)
  | incRm w e | decRm w e =>
    cases w
    · exact decode_group4 h _
    · exact decode_group5 h _
  | fe2 e | fe3 e | fe4 e | fe5 e | fe6 e | fe7 e => exact decode_group4 h _
  | callRm e | callFarRm e | jmpRm e | jmpFarRm e => exact decode_group5 h _
  | pushRm high e => cases high <;> exact decode_group5 h _
  | movRmReg w e g => cases w <;> exact decode_modRM_reg h (fun g e => .movRmReg _ e g) g
  | movRegRm w g e => cases w <;> exact decode_modRM_reg h (fun g e => .movRegRm _ g e) g
  | xchgRm w e g => cases w <;> exact decode_modRM_reg h (fun g e => .xchgRm _ e g) g
  | lea g e => exact decode_modRM_reg h .lea g
  | lds g e => exact decode_modRM_reg h .lds g
  | les g e => exact decode_modRM_reg h .les g
  | movRmSeg high e r =>
    exact (decode_modRM h (fun f e => .movRmSeg (f.getLsbD 2) e (SReg.ofBits f)) _).trans
      (by rw [segField_getLsbD, SReg.ofBits_segField])
  | movSegRm high r e =>
    exact (decode_modRM h (fun f e => .movSegRm (f.getLsbD 2) (SReg.ofBits f) e) _).trans
      (by rw [segField_getLsbD, SReg.ofBits_segField])
  | popRm ext e => exact decode_modRM h .popRm ext
  | movRmImm8 ext e i => exact decode_modRM_byte h .movRmImm8 ext i
  | movRmImm16 ext e i => exact decode_modRM_word h .movRmImm16 ext i
  | esc op r e =>
    rw [encode, decode_opc (by decide) op.isLt]
    exact (decode_modRM h (.esc _) r).trans (by rw [BitVec.ofNat_toNat, BitVec.setWidth_eq])
  | movRegImm16 g i => cases g <;> exact decode_word (.movRegImm16 _) i
  | movAccMem w off => cases w <;> exact decode_word (.movAccMem _) off
  | movMemAcc w off => cases w <;> exact decode_word (.movMemAcc _) off
  | retImm low i => cases low <;> exact decode_word (.retImm _) i
  | retfImm low i => cases low <;> exact decode_word (.retfImm _) i
  | callNear d => exact decode_word .callNear d
  | jmpNear d => exact decode_word .jmpNear d
  | callFar off seg => exact decode_far .callFar off seg
  | jmpFar off seg => exact decode_far .jmpFar off seg
  | xchgAx g =>
    cases g with
    | ax => cases h
    | _ => rfl
  | incReg g | decReg g | pushReg g | popReg g | movRegImm8 g i => cases g <;> rfl
  | pushSeg r | popSeg r => cases r <;> rfl
  | inImm w p | outImm w p | inDx w | outDx w => cases w <;> rfl
  | jo low d | jno low d | jb low d | jnb low d | jz low d | jnz low d | jbe low d | ja low d => cases low <;> rfl
  | js low d | jns low d | jp low d | jnp low d | jl low d | jge low d | jle low d | jg low d => cases low <;> rfl
  | ret low | retf low => cases low <;> rfl
  | _ => rfl

end Sys2Proof

end

section
/-! PROOFS. The operand loaded early (30_encoding.md R144): among the bytes of an instruction there is one place where it
is loaded, if the instruction is one with a memory operand and immediate bytes, and none otherwise. -/

namespace Sys2Proof

theorem takeByte_eq_ok {k : Byte → List Byte → DecodeResult} {bs : List Byte} {r : Instr × List Byte}
    (h : takeByte k bs = .ok r) : ∃ b rest, bs = b :: rest ∧ k b rest = .ok r := by
  cases bs with
  | nil => cases h
  | cons b rest => exact ⟨b, rest, rfl, h⟩

theorem takeWord_eq_ok {k : Word → List Byte → DecodeResult} {bs : List Byte} {r : Instr × List Byte}
    (h : takeWord k bs = .ok r) : ∃ v rest, bs = wordBytes v ++ rest ∧ k v rest = .ok r := by
  obtain ⟨lo, bs, rfl, low⟩ := takeByte_eq_ok h
  obtain ⟨hi, rest, rfl, high⟩ := takeByte_eq_ok low
  exact ⟨mkWord lo hi, rest, by simp [wordBytes], high⟩

/-! ### Where the ModR/M and displacement bytes end -/

/-- The operand of displacement bytes that are complete is the same whatever is read after them. -/
theorem takeRM_of_jmpRm {mod rm : Nat} {bs : List Byte} {i : Instr} {rest : List Byte}
    (h : takeRM mod rm (fun e => yield (.jmpRm e)) bs = .ok (i, rest)) :
    ∃ e, i = .jmpRm e ∧ ∀ (k : RM → List Byte → DecodeResult) (more : List Byte),
      takeRM mod rm k (bs ++ more) = k e (rest ++ more) := by
  unfold takeRM at h ⊢
  split at h
  · split at h
    next six =>
      obtain ⟨d, t, rfl, done⟩ := takeWord_eq_ok h
      cases done
      refine ⟨_, rfl, fun k more => ?_⟩
      rw [if_pos six, List.append_assoc]
      exact takeWord_wordBytes _ d _
    next six =>
      cases h
      exact ⟨_, rfl, fun k more => if_neg six⟩
  · obtain ⟨d, t, rfl, done⟩ := takeByte_eq_ok h
    cases done
    exact ⟨_, rfl, fun k more => rfl⟩
  · obtain ⟨d, t, rfl, done⟩ := takeWord_eq_ok h
    cases done
    refine ⟨_, rfl, fun k more => ?_⟩
    rw [List.append_assoc]
    exact takeWord_wordBytes _ d _
  · cases h
    exact ⟨_, rfl, fun k more => rfl⟩

/-- Bytes that name a memory operand and nothing else are read as that operand, whatever follows them. -/
theorem takeModRM_of_memOfModRM {bs : List Byte} {m : Mem} (h : memOfModRM bs = some m) :
    ∃ r : BitVec 3, regBelowTwo bs = decide (r.toNat < 2) ∧
      ∀ (k : BitVec 3 → RM → List Byte → DecodeResult) (more : List Byte),
        takeModRM k (bs ++ more) = k r (.mem m) more := by
  cases bs with
  | nil => cases h
  | cons b rest =>
    refine ⟨BitVec.ofNat 3 (b.toNat / 8), by rw [regBelowTwo, BitVec.toNat_ofNat], fun k more => ?_⟩
    rw [memOfModRM] at h
    split at h
    next e =>
      cases h
      obtain ⟨o, eq, read⟩ := takeRM_of_jmpRm e
      cases eq
      exact read (k _) more
    · cases h

theorem memOfModRM_modRM (r : BitVec 3) {m : Mem} (h : m.wf = true) : memOfModRM (modRM r (.mem m)) = some m := by
  have read : takeModRM (fun _ e => yield (.jmpRm e)) (modRM r (.mem m)) = .ok (.jmpRm (.mem m), []) :=
    decode_modRM (e := .mem m) h (fun _ e => .jmpRm e) r
  obtain ⟨b, rest, eq, read⟩ := takeByte_eq_ok read
  rw [eq, memOfModRM, read]

/-- A memory operand ends in one place only. -/
theorem eq_nil_of_memOfModRM_append {bs more : List Byte} {m m' : Mem} (h : memOfModRM bs = some m)
    (h' : memOfModRM (bs ++ more) = some m') : more = [] := by
  obtain ⟨r, -, read⟩ := takeModRM_of_memOfModRM h
  obtain ⟨r', -, read'⟩ := takeModRM_of_memOfModRM h'
  have twice := (read (fun _ e => yield (.jmpRm e)) more).symm.trans
    ((congrArg _ (List.append_nil _).symm).trans (read' (fun _ e => yield (.jmpRm e)) []))
  exact congrArg Prod.snd (Except.ok.inj twice)

/-! ### The early load among the first bytes of an instruction -/

theorem memImm_of_takeByte {f : Byte → Instr} {a : Width × Mem} (hf : ∀ b, (f b).memImm = some a) {bs rest : List Byte}
    {i : Instr} (h : takeByte (fun b => yield (f b)) bs = .ok (i, rest)) : i.memImm = some a := by
  obtain ⟨b, t, -, done⟩ := takeByte_eq_ok h
  cases done
  exact hf b

theorem memImm_of_takeWord {f : Word → Instr} {a : Width × Mem} (hf : ∀ v, (f v).memImm = some a) {bs rest : List Byte}
    {i : Instr} (h : takeWord (fun v => yield (f v)) bs = .ok (i, rest)) : i.memImm = some a := by
  obtain ⟨v, t, -, done⟩ := takeWord_eq_ok h
  cases done
  exact hf v

theorem aluInstr_memImm (k : Nat) (f : AluForm) : (aluInstr k f).memImm = f.memImm := by
  unfold aluInstr
  split <;> rfl

/-- TEST in group 3 with a memory operand (30_encoding.md R153). -/
theorem memImm_of_group3 {w : Width} {r : BitVec 3} {m : Mem} {bs rest : List Byte} {i : Instr} (test : r.toNat < 2)
    (h : group3 w r (.mem m) bs = .ok (i, rest)) : i.memImm = some (w, m) := by
  have low (r : BitVec 3) : r.toNat < 2 → r = 0 ∨ r = 1 := by decide +revert
  obtain rfl | rfl := low r test <;> cases w
  · exact memImm_of_takeByte (f := fun v => .test (.rmImm8 (.mem m) v)) (fun _ => rfl) h
  · exact memImm_of_takeWord (f := fun v => .test (.rmImm16 (.mem m) v)) (fun _ => rfl) h
  · exact memImm_of_takeByte (f := fun v => .test (.rmImm8Alias (.mem m) v)) (fun _ => rfl) h
  · exact memImm_of_takeWord (f := fun v => .test (.rmImm16Alias (.mem m) v)) (fun _ => rfl) h

/-- The bytes `bs` behind the opcode byte name the operand `a.2`, and whatever the opcode byte makes of them and of what
follows is an instruction that has the operand `a` and immediate bytes. -/
structure LoadsEarly (op : Byte) (bs : List Byte) (a : Width × Mem) : Prop where
  operand : memOfModRM bs = some a.2
  memImm  : ∃ k : BitVec 3 → RM → List Byte → DecodeResult, (∀ bs, decode (op :: bs) = takeModRM k bs) ∧
    ∀ r, regBelowTwo bs = decide (r.toNat < 2) → ∀ more i rest, k r (.mem a.2) more = .ok (i, rest) → i.memImm = some a

/-- An ALU row with a memory operand and a byte after it; the reg field says which operation. -/
theorem loadsEarly_alu_byte {op : Byte} {bs : List Byte} {w : Width} {m : Mem} (named : memOfModRM bs = some m)
    (f : RM → Byte → AluForm) (hf : ∀ b, (f (.mem m) b).memImm = some (w, m))
    (row : ∀ bs, decode (op :: bs) = takeModRM (fun r e => takeByte fun b => yield (aluInstr r.toNat (f e b))) bs) :
    LoadsEarly op bs (w, m) :=
  ⟨named, _, row, fun _ _ _ _ _ => memImm_of_takeByte fun b => (aluInstr_memImm _ _).trans (hf b)⟩

theorem loadsEarly_alu_word {op : Byte} {bs : List Byte} {w : Width} {m : Mem} (named : memOfModRM bs = some m)
    (f : RM → Word → AluForm) (hf : ∀ v, (f (.mem m) v).memImm = some (w, m))
    (row : ∀ bs, decode (op :: bs) = takeModRM (fun r e => takeWord fun v => yield (aluInstr r.toNat (f e v))) bs) :
    LoadsEarly op bs (w, m) :=
  ⟨named, _, row, fun _ _ _ _ _ => memImm_of_takeWord fun v => (aluInstr_memImm _ _).trans (hf v)⟩

theorem loadsEarly_group3 {op : Byte} {bs : List Byte} {w : Width} {m : Mem} (named : memOfModRM bs = some m)
    (test : regBelowTwo bs = true) (row : ∀ bs, decode (op :: bs) = takeModRM (group3 w) bs) :
    LoadsEarly op bs (w, m) :=
  ⟨named, _, row, fun _ field _ _ _ => memImm_of_group3 (of_decide_eq_true (field.symm.trans test))⟩

theorem loadsEarly {op : Byte} {bs : List Byte} {a : Width × Mem} (h : earlyLoad (op :: bs) = some a) :
    LoadsEarly op bs a := by
  unfold earlyLoad at h
  dsimp only at h
  split at h
  case h_1 e =>
    obtain rfl : op = 0x80#8 := BitVec.eq_of_toNat_eq e
    obtain ⟨m, named, rfl⟩ := Option.map_eq_some_iff.mp h
    exact loadsEarly_alu_byte named .rmImm8 (fun _ => rfl) fun _ => rfl
  case h_2 e =>
    obtain rfl : op = 0x82#8 := BitVec.eq_of_toNat_eq e
    obtain ⟨m, named, rfl⟩ := Option.map_eq_some_iff.mp h
    exact loadsEarly_alu_byte named .rmImm8Alias (fun _ => rfl) fun _ => rfl
  case h_3 e =>
    obtain rfl : op = 0x81#8 := BitVec.eq_of_toNat_eq e
    obtain ⟨m, named, rfl⟩ := Option.map_eq_some_iff.mp h
    exact loadsEarly_alu_word named .rmImm16 (fun _ => rfl) fun _ => rfl
  case h_4 e =>
    obtain rfl : op = 0x83#8 := BitVec.eq_of_toNat_eq e
    obtain ⟨m, named, rfl⟩ := Option.map_eq_some_iff.mp h
    exact loadsEarly_alu_byte named .rmImm8Sext (fun _ => rfl) fun _ => rfl
  case h_5 e =>
    obtain rfl : op = 0xF6#8 := BitVec.eq_of_toNat_eq e
    obtain ⟨test, h⟩ := Option.ite_none_right_eq_some.mp h
    obtain ⟨m, named, rfl⟩ := Option.map_eq_some_iff.mp h
    exact loadsEarly_group3 named test fun _ => rfl
  case h_6 e =>
    obtain rfl : op = 0xF7#8 := BitVec.eq_of_toNat_eq e
    obtain ⟨test, h⟩ := Option.ite_none_right_eq_some.mp h
    obtain ⟨m, named, rfl⟩ := Option.map_eq_some_iff.mp h
    exact loadsEarly_group3 named test fun _ => rfl
  case h_7 => cases h

/-- What is loaded early is the memory operand of the instruction that the bytes turn out to be. -/
theorem memImm_of_earlyLoad {bs more : List Byte} {a : Width × Mem} {i : Instr} {rest : List Byte}
    (h : earlyLoad bs = some a) (d : decode (bs ++ more) = .ok (i, rest)) : i.memImm = some a := by
  cases bs with
  | nil => cases h
  | cons op bs =>
    obtain ⟨named, k, row, memImm⟩ := loadsEarly h
    obtain ⟨r, field, read⟩ := takeModRM_of_memOfModRM named
    rw [List.cons_append, row, read] at d
    exact memImm r field _ _ _ d

/-- There is one place for the load only. -/
theorem eq_nil_of_earlyLoad_append {bs more : List Byte} {a b : Width × Mem} (h : earlyLoad bs = some a)
    (k : earlyLoad (bs ++ more) = some b) : more = [] := by
  cases bs with
  | nil => cases h
  | cons op bs => exact eq_nil_of_memOfModRM_append (loadsEarly h).operand (loadsEarly k).operand

theorem earlyLoad_take_inj {bs : List Byte} {a b : Width × Mem} {j k : Nat} (le : j ≤ k) (hk : k ≤ bs.length)
    (h : earlyLoad (bs.take j) = some a) (h' : earlyLoad (bs.take k) = some b) : j = k := by
  have split : bs.take k = bs.take j ++ (bs.take k).drop j := by
    rw [← List.take_append_drop j (bs.take k), List.take_take, Nat.min_eq_left le, List.drop_left']
    rw [List.length_take]
    omega
  rw [split] at h'
  have none := congrArg List.length (eq_nil_of_earlyLoad_append h h')
  rw [List.length_drop, List.length_take, List.length_nil] at none
  omega

/-! ### An instruction that loads early -/

theorem regBelowTwo_modRM (r : BitVec 3) {m : Mem} (h : m.wf = true) :
    regBelowTwo (modRM r (.mem m)) = decide (r.toNat < 2) := by
  obtain ⟨r', field, read⟩ := takeModRM_of_memOfModRM (memOfModRM_modRM r h)
  have same := (takeModRM_modRM (fun r e => yield (.popRm r e)) r (e := .mem m) h []).symm.trans (read _ [])
  have reg : r = r' := by
    injection same with same
    injection same with same
    injection same
  rw [field, reg]

/-- The bytes of the instruction up to the place of the load, with immediate bytes to come. -/
def LoadsAt (bs : List Byte) (a : Width × Mem) : Prop :=
  ∃ front more, bs = front ++ more ∧ more ≠ [] ∧ earlyLoad front = some a

/-- The ModR/M and displacement bytes of a memory operand are all there is before the load. -/
theorem loadsAt_modRM {op : Byte} {r : BitVec 3} {m : Mem} (h : m.wf = true) {w : Width}
    (row : ∀ bs, earlyLoad (op :: bs) = (memOfModRM bs).map fun m => (w, m)) {imm : List Byte} (more : imm ≠ []) :
    LoadsAt (op :: modRM r (.mem m) ++ imm) (w, m) :=
  ⟨op :: modRM r (.mem m), imm, rfl, more, by rw [row, memOfModRM_modRM r h, Option.map_some]⟩

/-- TEST in group 3 (30_encoding.md R153). -/
theorem loadsAt_test {op : Byte} {r : BitVec 3} {m : Mem} (h : m.wf = true) {w : Width} (test : r.toNat < 2)
    (row : ∀ bs, earlyLoad (op :: bs) = if regBelowTwo bs then (memOfModRM bs).map fun m => (w, m) else none)
    {imm : List Byte} (more : imm ≠ []) : LoadsAt (op :: modRM r (.mem m) ++ imm) (w, m) :=
  ⟨op :: modRM r (.mem m), imm, rfl, more, by
    rw [row, regBelowTwo_modRM r h, decide_eq_true test, if_pos rfl, memOfModRM_modRM r h, Option.map_some]⟩

theorem wordBytes_ne_nil (v : Word) : wordBytes v ≠ [] := List.cons_ne_nil _ _

theorem loadsAt_encodeAlu (k : Nat) {f : AluForm} (wf : f.wf = true) {a : Width × Mem} (h : f.memImm = some a) :
    LoadsAt (encodeAlu k f) a := by
  cases f with
  | rmReg | regRm | accImm8 | accImm16 => cases h
  | rmImm16 e i =>
    cases e with
    | reg g => cases h
    | mem m =>
      cases h
      exact loadsAt_modRM wf (fun _ => rfl) (wordBytes_ne_nil i)
  | rmImm8 e i | rmImm8Alias e i | rmImm8Sext e i =>
    cases e with
    | reg g => cases h
    | mem m =>
      cases h
      exact loadsAt_modRM wf (fun _ => rfl) (List.cons_ne_nil i [])

theorem loadsAt_encodeTest {f : TestForm} (wf : f.wf = true) {a : Width × Mem} (h : f.memImm = some a) :
    LoadsAt (encodeTest f) a := by
  cases f with
  | rmReg | accImm8 | accImm16 => cases h
  | rmImm16 e i | rmImm16Alias e i =>
    cases e with
    | reg g => cases h
    | mem m =>
      cases h
      exact loadsAt_test wf (by decide) (fun _ => rfl) (wordBytes_ne_nil i)
  | rmImm8 e i | rmImm8Alias e i =>
    cases e with
    | reg g => cases h
    | mem m =>
      cases h
      exact loadsAt_test wf (by decide) (fun _ => rfl) (List.cons_ne_nil i [])

theorem loadsAt_encode {i : Instr} (wf : i.wf = true) {a : Width × Mem} (h : i.memImm = some a) :
    LoadsAt (encode i) a := by
  cases i with
  | add f | or f | adc f | sbb f | and f | sub f | xor f | cmp f => exact loadsAt_encodeAlu _ wf h
  | test f => exact loadsAt_encodeTest wf h
  | _ => cases h

/-- Without a memory operand and immediate bytes nothing is loaded early. -/
theorem earlyLoad_take_of_memImm_none {i : Instr} (wf : i.wf = true) (h : i.memImm = none) (k : Nat) :
    earlyLoad ((encode i).take k) = none := by
  cases e : earlyLoad ((encode i).take k) with
  | none => rfl
  | some a =>
    have d := decode_encode wf
    rw [← List.take_append_drop k (encode i)] at d
    exact absurd (h.symm.trans (memImm_of_earlyLoad e d)) nofun

/-- With them the operand is loaded once, before the last byte. -/
theorem earlyLoad_take_of_memImm {i : Instr} (wf : i.wf = true) {a : Width × Mem} (h : i.memImm = some a) :
    ∃ j, j < (encode i).length ∧ earlyLoad ((encode i).take j) = some a ∧
      ∀ k, k < (encode i).length → k ≠ j → earlyLoad ((encode i).take k) = none := by
  obtain ⟨front, more, bytes, rest, load⟩ := loadsAt_encode wf h
  have take : (encode i).take front.length = front := by rw [bytes, List.take_left']; rfl
  have lt : front.length < (encode i).length := by
    rw [bytes, List.length_append]
    exact Nat.lt_add_of_pos_right (List.length_pos_of_ne_nil rest)
  rw [← take] at load
  refine ⟨front.length, lt, load, fun k hk ne => ?_⟩
  cases e : earlyLoad ((encode i).take k) with
  | none => rfl
  | some b =>
    rcases Nat.le_total k front.length with le | le
    · exact absurd (earlyLoad_take_inj le lt.le e load) ne
    · exact absurd (earlyLoad_take_inj le hk.le load e).symm ne

/-! ### Lengths (30_encoding.md R131) -/

theorem length_modRM_le (r : BitVec 3) (e : RM) : (modRM r e).length ≤ 3 := by
  cases e with
  | reg g => simp [modRM]
  | mem m => cases m <;> simp [modRM]

@[simp] theorem length_wordBytes (v : Word) : (wordBytes v).length = 2 := rfl

/-- A ModR/M byte with its displacement has at most two more bytes behind it, and one before. -/
theorem length_modRM_append_le (op : Byte) (r : BitVec 3) (e : RM) {imm : List Byte} (h : imm.length ≤ 2) :
    (op :: modRM r e ++ imm).length ≤ 6 := by
  have := length_modRM_le r e
  simp only [List.cons_append, List.length_cons, List.length_append]
  omega

theorem length_modRM_cons_le (op : Byte) (r : BitVec 3) (e : RM) : (op :: modRM r e).length ≤ 6 := by
  have := length_modRM_le r e
  rw [List.length_cons]
  omega

theorem length_encodeAlu_le (k : Nat) (f : AluForm) : (encodeAlu k f).length ≤ 6 := by
  cases f with
  | rmReg | regRm => exact length_modRM_cons_le _ _ _
  | accImm8 | accImm16 => simp [encodeAlu]
  | rmImm8 | rmImm16 | rmImm8Alias | rmImm8Sext => exact length_modRM_append_le _ _ _ (by simp)

theorem length_encodeTest_le (f : TestForm) : (encodeTest f).length ≤ 6 := by
  cases f with
  | rmReg => exact length_modRM_cons_le _ _ _
  | accImm8 | accImm16 => simp [encodeTest]
  | rmImm8 | rmImm16 | rmImm8Alias | rmImm16Alias => exact length_modRM_append_le _ _ _ (by simp)

theorem length_encode_le (i : Instr) : (encode i).length ≤ 6 := by
  cases i with
  | add f | or f | adc f | sbb f | and f | sub f | xor f | cmp f => exact length_encodeAlu_le _ f
  | test f => exact length_encodeTest_le f
  | rol | ror | rcl | rcr | shl | shr | setmo | sar => exact length_modRM_cons_le _ _ _
  | not | neg | mul | imul | div | idiv | incRm | decRm => exact length_modRM_cons_le _ _ _
  | fe2 | fe3 | fe4 | fe5 | fe6 | fe7 | callRm | callFarRm | jmpRm | jmpFarRm | pushRm =>
    exact length_modRM_cons_le _ _ _
  | movRmReg | movRegRm | xchgRm | lea | lds | les | movRmSeg | movSegRm | popRm | esc =>
    exact length_modRM_cons_le _ _ _
  | movRmImm8 | movRmImm16 => exact length_modRM_append_le _ _ _ (by simp)
  | _ => simp [encode, encodeJcc]

end Sys2Proof

end

section
/-! PROOFS. Taking the bytes of an instruction with nothing scheduled (20_memory.md R95, R96, 30_encoding.md R144,
R162), and the step that runs it (60_exceptions.md R444). -/

namespace Sys2Proof.Machine

/-! ### Reads without a trace -/

theorem Board.rd8_silent {b : Board} (cs seg off : Word) (q : b.slots = [])
    (r : (Mask.read b.mask (phys seg off)).mmio = false) :
    (b.rd8 cs seg off).2.draws = b.draws ∧ (b.rd8 cs seg off).2.events = b.events := by
  simp [rd8, slot_quiet cs false q, memRead, r, pins]

/-- A queued byte is taken from the head of the queue (20_memory.md R96). -/
theorem Board.fetch8_queued {b : Board} (cs : Word) (op : QueueOp) (q : b.slots = []) {v : Byte} {rest : List Byte}
    (h : b.queue = v :: rest) : b.fetch8 cs op = (v, { b with queue := rest, queueOp := op }) := by
  simp [fetch8, slot_quiet cs false q, h]

/-- With the queue empty the byte at CS:PC is fetched and taken. -/
theorem Board.fetch8_empty {b : Board} (cs : Word) (op : QueueOp) (q : b.slots = []) (h : b.queue = [])
    (ram : (Mask.read b.mask (phys cs b.pc)).mmio = false) :
    ∃ bus, b.fetch8 cs op =
      (Memory.read b.mem (phys cs b.pc), { b with pc := b.pc + 1, queue := [], queueOp := op, bus := bus }) := by
  refine ⟨b.bus.cycle ⟨.codeFetch, BitVec.ofNat 20 (phys cs b.pc), Memory.read b.mem (phys cs b.pc), 0⟩, ?_⟩
  simp [fetch8, slot_quiet cs false q, h, fetchNext, memRead, ram, pins]

namespace State

/-- What the early load of an operand leaves behind: `last_ea`, the loaded value, the free-value counter, the outbox. -/
abbrev Trace : Type := Word × Option Word × Nat × List OutEvent

/-- The trace in a state. -/
def trace (s : State) : Trace :=
  (s.cpu.lastEa, s.cpu.loaded, s.board.draws, s.board.events)

theorem rd_silent {s : State} (q : s.Quiet) {w : Width} {seg off : Word}
    (r : s.readable (byteAddrs w seg off) = true) :
    (s.rd w seg off).2.board.draws = s.board.draws ∧ (s.rd w seg off).2.board.events = s.board.events := by
  simp only [readable, List.all_eq_true, Bool.not_eq_true'] at r
  cases w with
  | byte => exact Board.rd8_silent _ seg off q (r _ (List.mem_singleton.mpr rfl))
  | word =>
    have low := Board.rd8_touches s.cpu.sregs.cs seg off q
    obtain ⟨draws, events⟩ := Board.rd8_silent s.cpu.sregs.cs seg off q (r _ (List.mem_cons_self ..))
    obtain ⟨draws', events'⟩ := Board.rd8_silent s.cpu.sregs.cs seg (off + 1) (low.slots.trans q)
      (by rw [low.mask]; exact r _ (List.mem_cons_of_mem _ (List.mem_singleton.mpr rfl)))
    exact ⟨draws'.trans draws, events'.trans events⟩

/-! ### After `k` bytes -/

/-- From `s`, `k` instruction bytes have been taken on the way to `u`; the early load may have happened. -/
structure Took (s u : State) (k : Nat) : Prop where
  cpu   : u.cpu = { s.cpu with size := s.cpu.size + k, lastEa := u.cpu.lastEa, loaded := u.cpu.loaded }
  board : u.board = { s.board with queue := s.board.queue.drop k,
                                   pc := s.board.pc + BitVec.ofNat 16 (k - s.board.queue.length),
                                   queueOp := u.board.queueOp, bus := u.board.bus,
                                   draws := u.board.draws, events := u.board.events }
  host  : u.inputs = s.inputs ∧ u.skipBp = s.skipBp ∧ u.started = s.started

variable {s u : State} {k : Nat}

theorem Took.refl (s : State) : s.Took s 0 := ⟨rfl, by simp, rfl, rfl, rfl⟩

theorem Took.quiet (h : s.Took u k) (q : s.Quiet) : u.Quiet := by
  rw [Quiet, h.board]
  exact q

theorem loadEarly_of_none {bs : List Byte} (h : earlyLoad bs = none) : u.loadEarly bs = u := by
  rw [loadEarly, h]

theorem loadEarly_of_some {bs : List Byte} {w : Width} {m : Mem} (h : earlyLoad bs = some (w, m)) :
    let v := (u.touch (.rm (.mem m))).rd w (u.easeg m) (u.ea m)
    u.loadEarly bs = { v.2 with cpu := { v.2.cpu with loaded := some (v.1.setWidth 16) } } := by
  rw [loadEarly, h]

/-- A read of memory takes no byte. -/
theorem Took.read (q : s.Quiet) (h : s.Took u k) (w : Width) (seg off : Word) : s.Took (u.rd w seg off).2 k := by
  have touched := (rd_touches (h.quiet q) w seg off).rest
  have mem : (u.rd w seg off).2.board.mem = u.board.mem := readPlace_mem (h.quiet q) w (.mem seg off)
  have host : (u.rd w seg off).2 = u.setBoard (u.rd w seg off).2.board := by cases w <;> rfl
  generalize (u.rd w seg off).2 = v at touched mem host
  rw [host]
  refine ⟨h.cpu, ?_, h.host⟩
  rw [mem] at touched
  rw [setBoard_board]
  conv_lhs => rw [touched]
  rw [h.board]

theorem Took.loadEarly (q : s.Quiet) (h : s.Took u k) (bs : List Byte) : s.Took (u.loadEarly bs) k := by
  cases e : earlyLoad bs with
  | none => rwa [loadEarly_of_none e]
  | some a =>
    obtain ⟨w, m⟩ := a
    have touched : s.Took (u.touch (.rm (.mem m))) k := ⟨by rw [touch_eq, h.cpu], h.board, h.host⟩
    obtain ⟨cpu, board, host⟩ := touched.read q w (u.easeg m) (u.ea m)
    rw [loadEarly_of_some e]
    exact ⟨by rw [cpu], board, host⟩

/-- What the early load reads and leaves behind (30_encoding.md R144). -/
theorem Took.loadEarly_trace (q : s.Quiet) (h : s.Took u k) {bs : List Byte} {w : Width} {m : Mem}
    (e : earlyLoad bs = some (w, m)) :
    let v := (u.loadEarly bs).trace
    v.1 = s.ea m ∧ v.2.1.isSome = true ∧
      (s.readable (byteAddrs w (s.easeg m) (s.ea m)) = true →
        v.2 = (some ((s.peek w (s.easeg m) (s.ea m)).setWidth 16), u.board.draws, u.board.events)) := by
  have ea : u.ea m = s.ea m := by rw [State.ea, h.cpu, State.ea]
  have seg : u.easeg m = s.easeg m := by rw [State.easeg, segFor, sreg, h.cpu]; rfl
  have q' : (u.touch (.rm (.mem m))).Quiet := h.quiet q
  rw [loadEarly_of_some e, ea, seg]
  refine ⟨?_, rfl, fun r => ?_⟩
  · simp only [trace, rd_cpu]
    exact ea
  · have r' : (u.touch (.rm (.mem m))).readable (byteAddrs w (s.easeg m) (s.ea m)) = true := by
      rwa [touch_readable, readable, h.board]
    have mem : (u.touch (.rm (.mem m))).board.mem = s.board.mem := by
      rw [touch_board, h.board]
    have value : ((u.touch (.rm (.mem m))).rd w (s.easeg m) (s.ea m)).1 = s.peek w (s.easeg m) (s.ea m) :=
      (readPlace_value q' w (.mem (s.easeg m) (s.ea m)) r').trans (peek_congr mem w _ _)
    obtain ⟨draws, events⟩ := rd_silent q' r'
    simp only [trace, value, draws, events, touch_board]

/-! ### One byte -/

/-- Where the `k`-th byte is, when it is not queued. -/
theorem ipNext_add (h : s.board.queue.length ≤ k) :
    s.ipNext + BitVec.ofNat 16 k = s.board.pc + BitVec.ofNat 16 (k - s.board.queue.length) := by
  obtain ⟨j, rfl⟩ := Nat.exists_eq_add_of_le h
  rw [ipNext, Nat.add_sub_cancel_left, BitVec.ofNat_add, ← BitVec.add_assoc, BitVec.sub_add_cancel]

theorem takeCode_eq {op : QueueOp} {v : Byte} {b : Board} (e : u.board.fetch8 u.cpu.sregs.cs op = (v, b)) :
    u.takeCode op = (v, { u with cpu := { u.cpu with size := u.cpu.size + 1 }, board := b }) := by
  simp only [takeCode, fetch8, e, setBoard]

theorem Took.takeCode (q : s.Quiet) (h : s.Took u k) (op : QueueOp)
    (ram : s.board.queue.length ≤ k →
      (Mask.read s.board.mask (phys (s.sreg .cs) (s.ipNext + BitVec.ofNat 16 k))).mmio = false) :
    (u.takeCode op).1 = s.codeByte k ∧ s.Took (u.takeCode op).2 (k + 1) ∧ (u.takeCode op).2.trace = u.trace := by
  have q' := h.quiet q
  obtain ⟨cpu, board, host⟩ := h
  have queue : u.board.queue = s.board.queue.drop k := by rw [board]
  have cs : u.cpu.sregs.cs = s.sreg .cs := by rw [cpu]; rfl
  rcases Nat.lt_or_ge k s.board.queue.length with lt | ge
  · have head := List.drop_eq_getElem_cons lt
    have pc : k + 1 - s.board.queue.length = k - s.board.queue.length := by omega
    have fetched := Board.fetch8_queued u.cpu.sregs.cs op q' (queue.trans head)
    have byte : s.codeByte k = s.board.queue[k] := by rw [codeByte, List.getElem?_eq_getElem lt]
    rw [takeCode_eq fetched]
    exact ⟨byte.symm, ⟨by rw [cpu]; rfl, by rw [pc, board], host⟩, rfl⟩
  · have empty := queue.trans (List.drop_eq_nil_of_le ge)
    have pc : u.board.pc = s.ipNext + BitVec.ofNat 16 k := by rw [board, ipNext_add ge]
    have next : s.board.pc + BitVec.ofNat 16 (k + 1 - s.board.queue.length) = u.board.pc + 1 := by
      rw [board, Nat.sub_add_comm ge, BitVec.ofNat_add, BitVec.add_assoc]
      rfl
    have mask : u.board.mask = s.board.mask := by rw [board]
    have mem : u.board.mem = s.board.mem := by rw [board]
    obtain ⟨bus, fetched⟩ := Board.fetch8_empty u.cpu.sregs.cs op q' empty (by rw [mask, cs, pc]; exact ram ge)
    have byte : s.codeByte k = Memory.read u.board.mem (phys u.cpu.sregs.cs u.board.pc) := by
      rw [codeByte, List.getElem?_eq_none ge, mem, cs, pc]
      rfl
    rw [takeCode_eq fetched]
    exact ⟨byte.symm, ⟨by rw [cpu]; rfl, by rw [next, List.drop_eq_nil_of_le (Nat.le_succ_of_le ge), board], host⟩, rfl⟩

/-! ### One instruction (30_encoding.md R162) -/

theorem fetchUnit_done {bs : List Byte} {i : Instr} {rest : List Byte} (d : decode bs = .ok (i, rest)) (op : QueueOp)
    (n : Nat) : u.fetchUnit op bs n = some (i, u) := by
  cases n <;> simp only [fetchUnit, d]

theorem fetchUnit_more {bs : List Byte} {e : DecodeError} (d : decode bs = .error e) (op : QueueOp) (n : Nat) :
    u.fetchUnit op bs (n + 1) =
      ((u.loadEarly bs).takeCode op).2.fetchUnit .subsequent (bs ++ [((u.loadEarly bs).takeCode op).1]) n := by
  simp only [fetchUnit, d]

/-- The bytes of an instruction are taken one by one until they decode; what `E` says of the traces on the way, each
step of the loop keeps. -/
theorem Took.fetchUnit (q : s.Quiet) {bs : List Byte} (fetches : s.Fetches bs) {i : Instr} (d : decode bs = .ok (i, []))
    {E : Nat → Trace → Prop}
    (load : ∀ k u, k < bs.length → s.Took u k → E k u.trace → E (k + 1) (u.loadEarly (bs.take k)).trace)
    (n : Nat) {k : Nat} {u : State} (h : s.Took u k) (e : E k u.trace) (le : k ≤ bs.length) (fuel : bs.length ≤ k + n)
    (op : QueueOp) :
    ∃ t, u.fetchUnit op (bs.take k) n = some (i, t) ∧ s.Took t bs.length ∧ E bs.length t.trace := by
  induction n generalizing k u op with
  | zero =>
    obtain rfl : k = bs.length := le_antisymm le fuel
    exact ⟨u, by rw [List.take_length]; exact fetchUnit_done d op 0, h, e⟩
  | succ n ih =>
    rcases Nat.eq_or_lt_of_le le with rfl | lt
    · exact ⟨u, by rw [List.take_length]; exact fetchUnit_done d op _, h, e⟩
    · obtain ⟨_, short⟩ := decode_take_of_lt d lt
      obtain ⟨here, ram⟩ := fetches k lt
      obtain ⟨byte, took, same⟩ := (h.loadEarly q (bs.take k)).takeCode q op ram
      have next : bs.take k ++ [s.codeByte k] = bs.take (k + 1) := by
        rw [List.take_add_one, here]
        rfl
      rw [fetchUnit_more short, byte, next]
      exact ih took (by rw [same]; exact load k u lt h e) lt (by omega) _

/-- The trace `x` is that of the early load of `m` from the state `s`. -/
def Loads (s : State) (w : Width) (m : Mem) (x : Trace) : Prop :=
  x.1 = s.ea m ∧ x.2.1.isSome = true ∧
    (s.readable (byteAddrs w (s.easeg m) (s.ea m)) = true →
      x.2 = (some ((s.peek w (s.easeg m) (s.ea m)).setWidth 16), s.board.draws, s.board.events))

/-- Without a memory operand and immediate bytes the instruction is taken without a trace. -/
theorem fetchUnit_plain (q : s.Quiet) {i : Instr} (wf : i.wf = true) (plain : i.memImm = none)
    (fetches : s.Fetches (encode i)) (op : QueueOp) :
    ∃ t, s.fetchUnit op [] 6 = some (i, t) ∧ s.Took t (encode i).length ∧ t.trace = s.trace := by
  refine Took.fetchUnit (E := fun _ x => x = s.trace) q fetches (decode_encode wf) (fun k u _ _ e => ?_) 6 (.refl s) rfl
    (Nat.zero_le _) (by rw [Nat.zero_add]; exact length_encode_le i) op
  rw [loadEarly_of_none (earlyLoad_take_of_memImm_none wf plain k), e]

/-- Of the trace after `k` bytes, where the load comes after `j` of them: nothing up to there, the load's from there on. -/
def LoadsAfter (s : State) (w : Width) (m : Mem) (j k : Nat) (x : Trace) : Prop :=
  (k ≤ j → x = s.trace) ∧ (j < k → s.Loads w m x)

theorem Took.loadsAfter (q : s.Quiet) (h : s.Took u k) {bs : List Byte} {w : Width} {m : Mem} {j : Nat}
    (here : earlyLoad (bs.take j) = some (w, m)) (elsewhere : k ≠ j → earlyLoad (bs.take k) = none)
    (e : s.LoadsAfter w m j k u.trace) : s.LoadsAfter w m j (k + 1) (u.loadEarly (bs.take k)).trace := by
  obtain ⟨before, after⟩ := e
  by_cases eq : k = j
  · subst eq
    obtain ⟨ea, loaded, value⟩ := h.loadEarly_trace q here
    have same := before le_rfl
    simp only [trace, Prod.mk.injEq] at same
    obtain ⟨-, -, draws, events⟩ := same
    rw [draws, events] at value
    exact ⟨fun le => absurd le (Nat.not_succ_le_self k), fun _ => ⟨ea, loaded, value⟩⟩
  · rw [loadEarly_of_none (elsewhere eq)]
    exact ⟨fun le => before (Nat.le_of_succ_le le), fun lt => after (by omega)⟩

/-- With them it leaves the trace of the one early load. -/
theorem fetchUnit_loads (q : s.Quiet) {i : Instr} (wf : i.wf = true) {w : Width} {m : Mem}
    (imm : i.memImm = some (w, m)) (fetches : s.Fetches (encode i)) (op : QueueOp) :
    ∃ t, s.fetchUnit op [] 6 = some (i, t) ∧ s.Took t (encode i).length ∧ s.Loads w m t.trace := by
  obtain ⟨j, lt, here, elsewhere⟩ := earlyLoad_take_of_memImm wf imm
  obtain ⟨t, taken, took, -, loads⟩ := Took.fetchUnit (E := s.LoadsAfter w m j) q fetches (decode_encode wf)
    (fun k u hk took => took.loadsAfter q here (elsewhere k hk)) 6 (.refl s)
    ⟨fun _ => rfl, fun lt => absurd lt (Nat.not_lt_zero j)⟩ (Nat.zero_le _)
    (by rw [Nat.zero_add]; exact length_encode_le i) op
  exact ⟨t, taken, took, loads lt⟩

/-! ### The step (60_exceptions.md R444) -/

/-- The state in which the first byte of an instruction is taken. -/
def begun (s : State) : State :=
  { cpu := { s.cpu with trapArmed := s.cpu.flags.tf, intInhibit := false, result := .okay, lastCs := s.sreg .cs,
                        lastIp := s.ipNext, pfx := .none, size := 0, loaded := none },
    board := { s.board with queueOp := .idle }, inputs := s.inputs.tail, skipBp := false, started := true }

theorem Took.ipNext (h : s.Took u k) : u.ipNext = s.ipNext + BitVec.ofNat 16 k := by
  have queue : u.board.queue.length = s.board.queue.length - k := by rw [h.board, List.length_drop]
  have pc : u.board.pc = s.board.pc + BitVec.ofNat 16 (k - s.board.queue.length) := by rw [h.board]
  rcases Nat.le_total s.board.queue.length k with le | le
  · rw [ipNext_add le, State.ipNext, queue, pc, Nat.sub_eq_zero_of_le le, BitVec.sub_zero]
  · obtain ⟨j, e⟩ := Nat.exists_eq_add_of_le le
    rw [State.ipNext, queue, pc, State.ipNext, e, Nat.add_sub_cancel_left, Nat.sub_eq_zero_of_le (Nat.le_add_right k j),
      BitVec.ofNat_add]
    bv_omega

theorem Took.begun_cpu (h : s.begun.Took u k) {ea : Word} (e : u.cpu.lastEa = ea) :
    u.cpu = { s.cpu with lastCs := s.sreg .cs, lastIp := s.ipNext, pfx := .none, trapArmed := s.cpu.flags.tf,
                         intInhibit := false, result := .okay, size := k, loaded := u.cpu.loaded, lastEa := ea } := by
  subst e
  have size : s.begun.cpu.size + k = k := Nat.zero_add k
  have cpu := h.cpu
  rwa [size] at cpu

theorem Took.begun_board (h : s.begun.Took u k) :
    u.board = { s.board with queue := s.board.queue.drop k,
                             pc := s.board.pc + BitVec.ofNat 16 (k - s.board.queue.length),
                             queueOp := u.board.queueOp, bus := u.board.bus,
                             locked := s.board.locked || Prefixes.none.lock,
                             draws := u.board.draws, events := u.board.events } := by
  rw [Prefixes.none, Bool.or_false]
  exact h.board

/-- Taking an instruction without prefixes from its first byte on leads to the state in which it executes. -/
theorem exists_fetchedFrom (q : s.Quiet) {i : Instr} (wf : i.wf = true) (fetches : s.Fetches (encode i)) :
    ∃ t, s.begun.fetchUnit .first [] 6 = some (i, t) ∧ t.FetchedFrom s i (encode i).length .none := by
  cases imm : i.memImm with
  | none =>
    obtain ⟨t, taken, took, same⟩ := fetchUnit_plain (s := s.begun) q wf imm fetches .first
    simp only [trace, Prod.mk.injEq] at same
    obtain ⟨ea, loaded, draws, events⟩ := same
    exact ⟨t, taken, {
      cpu := by rw [imm]; exact took.begun_cpu ea
      board := took.begun_board
      loaded := by rw [imm]; exact ⟨loaded, draws, events⟩
      ip := took.ipNext
      host := took.host }⟩
  | some a =>
    obtain ⟨w, m⟩ := a
    obtain ⟨t, taken, took, ea, loaded, value⟩ := fetchUnit_loads (s := s.begun) q wf imm fetches .first
    simp only [trace, Prod.mk.injEq] at value
    exact ⟨t, taken, {
      cpu := by rw [imm]; exact took.begun_cpu ea
      board := took.begun_board
      loaded := by rw [imm]; exact ⟨loaded, value⟩
      ip := took.ipNext
      host := took.host }⟩

/-- What an attempt comes to when it takes an instruction. -/
theorem attempt_of_takeAll (whole : s.cpu.attempts = 0) {n : Nat} {i : Instr} {t : State}
    (e : s.takeAll n = .instr i t) : s.attempt n = t.finishExec i := by
  have same : ({ s with cpu := { s.cpu with attempts := 0 } } : State) = s := by rw [← whole]
  rw [attempt, same, e]

/-- A step that is to take an instruction takes it from its first byte on. -/
theorem step_of_takeAll (h : s.Ready) {i : Instr} {t : State}
    (e : s.begun.takeAll (prefixFuel - 1) = .instr i t) : step s = described (t.finishExec i) := by
  obtain ⟨error, awake, fresh, host, noBreak, watch, whole, -⟩ := h
  let u : State := { s with inputs := s.inputs.tail, skipBp := false, started := true }
  have core : u.stepCore s.skipBp = u.runStep := by
    have code : u.codeMask = s.codeMask := rfl
    have cpu : u.cpu = s.cpu := rfl
    simp only [stepCore, cpu, error, awake, fresh, code, noBreak, watch, Bool.false_and, Bool.false_eq_true, if_false]
  have run : u.runStep = u.beginStep.runFresh := if_neg (Bool.eq_false_iff.mp fresh)
  have ip : u.beginStep.ip = s.ipNext := if_neg (Bool.eq_false_iff.mp fresh)
  have attempts : u.beginStep.cpu.attempts = 0 := whole
  rw [step_alone host whole, core, run, runFresh, ip, attempts]
  exact congrArg described (attempt_of_takeAll (s := s.begun) whole e)

/-! ### Running it, with nothing scheduled -/

theorem innerSlot_quiet (q : s.Quiet) : s.innerSlot = s := congrArg s.setBoard (Board.slot_quiet _ false q)

theorem retire_undescribed (q : s.Quiet) : s.retire.board.undescribed = s.board.undescribed := by
  rw [retire, boundarySlot_quiet, stepFinish_undescribed]
  · rfl
  · exact q
  · exact q

/-- The outcome of a step in which an instruction ran by itself. -/
def retired : Out → Out
  | .next t => .next t.retire
  | .fault f => .fault f
  | .refused r => .refused r

/-- Nothing without a described effect happens in an instruction that runs by itself. -/
theorem described_finishExec (q : s.Quiet) (d : s.board.undescribed = none) (i : Instr) :
    described (s.finishExec i) = retired (exec i s) := by
  rw [finishExec, innerSlot_quiet q]
  cases run : exec i s with
  | next t =>
    obtain ⟨-, -, quiet, -, undescribed, -⟩ := boardFrame i s t q run
    exact described_next ((retire_undescribed quiet).trans (undescribed.trans d))
  | fault f => exact congrArg described (fail_described d f)
  | refused r => rfl

end State

end Sys2Proof.Machine

open Sys2Proof Sys2Proof.Machine

/-- Settles O7: the bytes are taken until they decode, the one early load among them, and the instruction runs. -/
theorem stepRunsDecoded : Obligations.StepRunsDecoded := by
  intro s i ready q wf notPrefix admitted fetches
  obtain ⟨t, taken, fetched⟩ := State.exists_fetchedFrom q wf fetches
  have quiet : t.Quiet := by rw [State.Quiet, fetched.board]; exact q
  have undescribed : t.board.undescribed = none := by rw [fetched.board]; exact ready.described
  have unit : s.begun.takeUnits .first 1 = .instr i t :=
    State.takeUnits_instr 0 taken (by rw [fetched.board, fetched.cpu]; exact admitted) notPrefix
  have all : s.begun.takeAll (State.prefixFuel - 1) = .instr i t := by rw [State.takeAll, unit]
  exact ⟨t, fetched, (State.step_of_takeAll ready all).trans (State.described_finishExec quiet undescribed i)⟩

end

section
/-! PROOFS. The state after reset (10_state.md R43, 70_reset_and_hazards.md R560): what loading the ROM image and marking
the MMIO regions leave in memory and in the mask array, and that they touch nothing else but the outbox. -/

namespace Sys2Proof.Machine

/-! ### Reading and setting a mask flag -/

@[simp] theorem MaskFlags.get_set_same (f : MaskFlags) (v : Bool) (n : MaskName) : (f.set v n).get n = v := by
  cases n <;> rfl

@[simp] theorem MaskFlags.set_set_same (f : MaskFlags) (u v : Bool) (n : MaskName) :
    (f.set u n).set v n = f.set v n := by
  cases n <;> rfl

@[simp] theorem MaskFlags.set_get_same (f : MaskFlags) (n : MaskName) : f.set (f.get n) n = f := by
  cases n <;> rfl

variable {m : List (Nat × MaskFlags)} {a : Nat}

theorem Mask.read_write_same (wf : Mask.wf m = true) (lt : a < memSize) (f : MaskFlags) :
    Mask.read (Mask.write m a f) a = f := by
  rw [Mask.write, if_pos lt]
  exact Sparse.read_write_same f wf

theorem Mask.read_write_other (m : List (Nat × MaskFlags)) {k : Nat} (f : MaskFlags) (ne : a ≠ k) :
    Mask.read (Mask.write m k f) a = Mask.read m a := by
  rw [Mask.write]
  split_ifs
  · exact Sparse.read_write_other f ne
  · rfl

/-- Setting one flag at one address, whether that address exists or not, changes that flag there and nothing else. -/
theorem Mask.read_write_set (wf : Mask.wf m = true) (lt : a < memSize) (k : Nat) (n : MaskName) :
    Mask.read (Mask.write m k ((Mask.read m k).set true n)) a =
      (Mask.read m a).set ((Mask.read m a).get n || a == k) n := by
  by_cases eq : a = k
  · subst eq
    simp [Mask.read_write_same wf lt]
  · simp [Mask.read_write_other m _ eq, beq_false_of_ne eq]

/-! ### The ROM image -/

variable {b : Board}

theorem Board.loadByte_mem (readOnly : Bool) (k : Nat) (v : Byte) :
    (b.loadByte readOnly k v).mem = Memory.write b.mem k v := by
  by_cases lt : k < memSize <;> simp [loadByte, hostWrite, Memory.write, emit, lt]

theorem Board.loadByte_mask (k : Nat) (v : Byte) :
    (b.loadByte true k v).mask = Mask.write b.mask k ((Mask.read b.mask k).set true .rom) := by
  by_cases lt : k < memSize <;> simp [loadByte, hostWrite, Mask.write, MaskFlags.set, emit, lt]

theorem loadRom_mask_wf (l : List (Nat × Byte)) (wf : Mask.wf b.mask = true) : Mask.wf (loadRom l b).mask = true := by
  induction l generalizing b with
  | nil => exact wf
  | cons c l ih =>
    refine ih ?_
    rw [Board.loadByte_mask]
    exact Mask.wf_write wf _ _

/-- Of the pairs with one address the last counts: the image is loaded from the front (R560). -/
theorem read_loadRom_mem (l : List (Nat × Byte)) (wf : Memory.wf b.mem = true) (lt : a < memSize) :
    Memory.read (loadRom l b).mem a = (l.reverse.lookup a).getD (Memory.read b.mem a) := by
  induction l generalizing b with
  | nil => rfl
  | cons c l ih =>
    obtain ⟨k, v⟩ := c
    have kept : Memory.wf (b.loadByte true k v).mem = true := by
      rw [Board.loadByte_mem]; exact Memory.wf_write wf k v
    rw [loadRom, ih kept, Board.loadByte_mem, List.reverse_cons, List.lookup_append]
    by_cases eq : a = k
    · subst eq
      cases e : l.reverse.lookup a <;> simp [wf, lt]
    · simp [Memory.read_write_other b.mem v eq, List.lookup, beq_false_of_ne eq]

/-- A byte is ROM-locked if it was before or the image gives it. -/
theorem read_loadRom_mask (l : List (Nat × Byte)) (wf : Mask.wf b.mask = true) (lt : a < memSize) :
    Mask.read (loadRom l b).mask a =
      (Mask.read b.mask a).set ((Mask.read b.mask a).get .rom || (l.lookup a).isSome) .rom := by
  induction l generalizing b with
  | nil => simp [loadRom]
  | cons c l ih =>
    obtain ⟨k, v⟩ := c
    have kept : Mask.wf (b.loadByte true k v).mask = true := by
      rw [Board.loadByte_mask]; exact Mask.wf_write wf k _
    rw [loadRom, ih kept, Board.loadByte_mask, Mask.read_write_set wf lt]
    cases e : a == k <;> simp [List.lookup, e]

/-! ### The MMIO regions -/

theorem read_markMmio (n k : Nat) (wf : Mask.wf m = true) (lt : a < memSize) :
    Mask.read (markMmio n k m) a =
      (Mask.read m a).set ((Mask.read m a).get .mmio || decide (k ≤ a ∧ a < k + n)) .mmio := by
  induction n generalizing k m with
  | zero =>
    have out : decide (k ≤ a ∧ a < k + 0) = false := decide_eq_false (by omega)
    rw [out, Bool.or_false, MaskFlags.set_get_same, markMmio]
  | succ n ih =>
    have range : (a == k || decide (k + 1 ≤ a ∧ a < k + 1 + n)) = decide (k ≤ a ∧ a < k + (n + 1)) := by
      rw [Bool.eq_iff_iff]
      simp only [Bool.or_eq_true, beq_iff_eq, decide_eq_true_eq]
      omega
    have first := Mask.read_write_set wf lt k .mmio
    have rest := ih (k + 1) (Mask.wf_write wf k ((Mask.read m k).set true .mmio))
    rw [first, MaskFlags.get_set_same, MaskFlags.set_set_same, Bool.or_assoc, range] at rest
    exact rest

/-- A byte is MMIO if it was before or its 4 KiB region is mapped. -/
theorem read_markRegions (l : List (Nat × Option MmioDevice)) (wf : Mask.wf m = true) (lt : a < memSize) :
    Mask.read (markRegions l m) a =
      (Mask.read m a).set ((Mask.read m a).get .mmio || (l.lookup (a / 4096)).isSome) .mmio := by
  induction l generalizing m with
  | nil => simp [markRegions]
  | cons c l ih =>
    obtain ⟨r, d⟩ := c
    have region : decide (r * 4096 ≤ a ∧ a < r * 4096 + 4096) = (a / 4096 == r) := by
      rw [Bool.eq_iff_iff]
      simp only [beq_iff_eq, decide_eq_true_eq]
      omega
    rw [markRegions, ih (Board.markMmio_wf 4096 _ wf), read_markMmio 4096 _ wf lt, region]
    cases e : a / 4096 == r <;> simp [List.lookup, e]

/-! ### Everything else on the board -/

theorem Board.loadByte_frame (readOnly : Bool) (k : Nat) (v : Byte) :
    ∃ mem mask events, b.loadByte readOnly k v = { b with mem := mem, mask := mask, events := events } := by
  unfold loadByte hostWrite
  split
  · exact ⟨_, _, b.events, rfl⟩
  · exact ⟨b.mem, b.mask, _, rfl⟩

theorem loadRom_frame (l : List (Nat × Byte)) (b : Board) :
    ∃ mem mask events, loadRom l b = { b with mem := mem, mask := mask, events := events } := by
  induction l generalizing b with
  | nil => exact ⟨b.mem, b.mask, b.events, rfl⟩
  | cons c l ih =>
    obtain ⟨mem, mask, events, first⟩ := b.loadByte_frame true c.1 c.2
    obtain ⟨mem', mask', events', rest⟩ := ih (b.loadByte true c.1 c.2)
    exact ⟨mem', mask', events', by rw [loadRom, rest, first]⟩

/-- Under any parameters the state after reset is `State.reset`, but for the CPU with its general registers, the
parameters, memory, the mask array and the outbox. -/
theorem State.resetWith_frame (p : Params) : ∃ mem mask events, State.resetWith p =
    { State.reset with
      cpu := Cpu.resetWith p.resetGpr,
      board := { State.reset.board with params := p, mem := mem, mask := mask, events := events } } := by
  obtain ⟨mem, mask, events, loaded⟩ := loadRom_frame p.romImage
    { State.reset.board with params := p, events := (Params.collisions p).map .portCollision }
  exact ⟨mem, markRegions p.mmioMap mask, events,
    congrArg (fun c : Board => { State.reset with
      cpu := Cpu.resetWith p.resetGpr, board := { c with mask := markRegions p.mmioMap c.mask } }) loaded⟩

/-! ### The values that are computed from the state's fields -/

theorem State.reset_ip : State.reset.ip = 0 := by decide

/-- The first fetch is at FFFF0 (R560). -/
theorem State.reset_fetch : phys (State.reset.sreg .cs) State.reset.ip = 0xFFFF0 := by decide

theorem State.reset_flagsWord : State.reset.cpu.flags.word = 0xF002 := by decide

theorem Dma.reset_get (n : BitVec 2) : Dma.reset.get n = .reset := by decide +revert

end Sys2Proof.Machine

open Sys2Proof Sys2Proof.Machine

/-- Settles O6: a byte of memory is read through the image, its mask entry through the image and then the regions. -/
theorem resetMemory : Obligations.ResetMemory := by
  intro p a lt
  constructor
  · exact read_loadRom_mem p.romImage rfl lt
  · refine (read_markRegions p.mmioMap (loadRom_mask_wf p.romImage rfl) lt).trans ?_
    rw [read_loadRom_mask p.romImage rfl lt]
    simp [Mask.read, Sparse.read, MaskFlags.set, MaskFlags.get, MaskFlags.clear]

/-- Settles O5: loading the image and marking the regions change no register, so each has its value in `State.reset`,
and the general registers their parameter. -/
theorem resetRegisters : Obligations.ResetRegisters := by
  refine ⟨rfl, fun p => ?_⟩
  obtain ⟨mem, mask, events, same⟩ := State.resetWith_frame p
  have channels (n : BitVec 2) : (Dma.reset.get n).masked = true ∧ (Dma.reset.get n).tc = false ∧
      (Dma.reset.get n).tcLatched = false ∧ (Dma.reset.get n).request = false := by
    rw [Dma.reset_get]
    exact ⟨rfl, rfl, rfl, rfl⟩
  rw [same]
  exact ⟨rfl, rfl, State.reset_ip, rfl, rfl, State.reset_flagsWord,
    rfl, rfl, rfl, rfl, rfl, rfl,
    rfl, rfl, rfl, rfl, rfl, rfl, rfl,
    rfl, rfl, rfl, rfl,
    channels, rfl, rfl, rfl,
    ⟨rfl, rfl, rfl, rfl, rfl⟩, ⟨rfl, rfl, rfl, rfl, rfl⟩,
    rfl, rfl, rfl, rfl, rfl, rfl, rfl, rfl, rfl,
    State.reset_fetch⟩

end

section
/-! PROOFS. What decodes is well formed, and its encoding is the bytes that were read; as many bytes as the longest
encoding has always decode (30_encoding.md R131, R150, R165). -/

namespace Sys2Proof

/-! ### Fields that are read are written back -/

@[simp] theorem GReg.bits_ofBits (r : BitVec 3) : (GReg.ofBits r).bits = r := by decide +revert
@[simp] theorem Base.bits_ofBits (r : BitVec 3) : (Base.ofBits r).bits = r := by decide +revert
@[simp] theorem segField_ofBits (r : BitVec 3) : segField (r.getLsbD 2) (SReg.ofBits r) = r := by decide +revert

theorem Base.ofBits_ne_bp {r : BitVec 3} (h : r.toNat ≠ 6) : Base.ofBits r ≠ .bp := by
  decide +revert

/-- The fields of a ModR/M byte make up the byte (30_encoding.md R137). -/
theorem modRM_of_fields (m : Byte) :
    BitVec.ofNat 8 (64 * (m.toNat / 64) + 8 * (BitVec.ofNat 3 (m.toNat / 8)).toNat +
      (BitVec.ofNat 3 (m.toNat % 8)).toNat) = m := by
  have lt := m.isLt
  apply BitVec.eq_of_toNat_eq
  simp only [BitVec.toNat_ofNat]
  omega

theorem opc_of_fields (b : Byte) : opc (b.toNat / 8) (b.toNat % 8) = b := by
  rw [opc, Nat.div_add_mod, BitVec.ofNat_toNat, BitVec.setWidth_eq]

/-! ### Reading what is encoded -/

/-- What `f` reads, behind the bytes `pre` that are read already, is a well-formed instruction, and what has been read
of it is its encoding; `n` bytes are enough for `f`. -/
structure Reads (pre : List Byte) (n : Nat) (f : List Byte → DecodeResult) : Prop where
  inverts : ∀ bs i rest, f bs = .ok (i, rest) → i.wf = true ∧ encode i ++ rest = pre ++ bs
  total   : ∀ bs : List Byte, n ≤ bs.length → ∃ i rest, f bs = .ok (i, rest)

variable {pre : List Byte} {n : Nat}

theorem reads_yield {i : Instr} (wf : i.wf = true) (bytes : encode i = pre) : Reads pre n (yield i) where
  inverts bs j rest h := by
    cases h
    exact ⟨wf, by rw [bytes]⟩
  total bs _ := ⟨i, bs, rfl⟩

theorem reads_takeByte {k : Byte → List Byte → DecodeResult} (h : ∀ b, Reads (pre ++ [b]) n (k b)) :
    Reads pre (n + 1) (takeByte k) where
  inverts bs i rest e := by
    obtain ⟨b, more, rfl, done⟩ := takeByte_eq_ok e
    simpa using (h b).inverts more i rest done
  total
    | [], le => absurd le (Nat.not_succ_le_zero n)
    | b :: bs, le => (h b).total bs (Nat.le_of_succ_le_succ le)

theorem reads_takeWord {k : Word → List Byte → DecodeResult} (h : ∀ v, Reads (pre ++ wordBytes v) n (k v)) :
    Reads pre (n + 2) (takeWord k) := by
  refine reads_takeByte fun lo => reads_takeByte fun hi => ?_
  have word := h (mkWord lo hi)
  rwa [wordBytes, Machine.loByte_mkWord, Machine.hiByte_mkWord, ← List.singleton_append, ← List.append_assoc] at word

/-- Two bytes are read as a word, or there are not two. -/
theorem takeWord_cases (bs : List Byte) : bs.length < 2 ∧ (∀ k, takeWord k bs = .error .truncated) ∨
    ∃ v rest, bs = wordBytes v ++ rest ∧ ∀ k, takeWord k bs = k v rest :=
  match bs with
  | [] | [_] => .inl ⟨by simp, fun _ => rfl⟩
  | lo :: hi :: rest => .inr ⟨mkWord lo hi, rest, by simp [wordBytes], fun _ => rfl⟩

/-- The operand of a mode is read with its displacement bytes, or there are too few of these; its bytes are those that
were read (30_encoding.md R140). -/
theorem takeRM_cases {mod : Nat} (h : mod < 4) (rm r : BitVec 3) (bs : List Byte) :
    bs.length < 2 ∧ (∀ k, takeRM mod rm.toNat k bs = .error .truncated) ∨
      ∃ e rest, e.wf = true ∧ BitVec.ofNat 8 (64 * mod + 8 * r.toNat + rm.toNat) :: bs = modRM r e ++ rest ∧
        ∀ k, takeRM mod rm.toNat k bs = k e rest := by
  interval_cases mod
  · rw [Nat.mul_zero, Nat.zero_add]
    by_cases six : rm.toNat = 6
    · rw [six]
      obtain short | ⟨d, rest, rfl, read⟩ := takeWord_cases bs
      · exact .inl ⟨short.1, fun k => by simp [takeRM, short.2]⟩
      · exact .inr ⟨.mem (.direct d), rest, rfl, rfl, fun k => by simp [takeRM, read]⟩
    · exact .inr ⟨.mem (.noDisp (Base.ofBits rm)), bs, bne_iff_ne.mpr (Base.ofBits_ne_bp six),
        by simp [modRM], fun k => by simp [takeRM, six]⟩
  · cases bs with
    | nil => exact .inl ⟨by decide, fun _ => rfl⟩
    | cons d rest =>
      exact .inr ⟨.mem (.disp8 (Base.ofBits rm) d), rest, rfl, by simp [modRM], fun k => by simp [takeRM, takeByte]⟩
  · obtain short | ⟨d, rest, rfl, read⟩ := takeWord_cases bs
    · exact .inl ⟨short.1, fun k => by simp [takeRM, short.2]⟩
    · exact .inr ⟨.mem (.disp16 (Base.ofBits rm) d), rest, rfl, by simp [modRM, wordBytes],
        fun k => by simp [takeRM, read]⟩
  · exact .inr ⟨.reg (GReg.ofBits rm), bs, rfl, by simp [modRM], fun k => by simp [takeRM]⟩

/-- Bytes begin with those of a well-formed operand, which is what is read of them, or are too few for that. -/
theorem takeModRM_cases (bs : List Byte) : bs.length < 3 ∧ (∀ k, takeModRM k bs = .error .truncated) ∨
    ∃ r e rest, e.wf = true ∧ bs = modRM r e ++ rest ∧ ∀ k, takeModRM k bs = k r e rest := by
  cases bs with
  | nil => exact .inl ⟨by decide, fun _ => rfl⟩
  | cons m bs =>
    have lt := m.isLt
    have number : (BitVec.ofNat 3 (m.toNat % 8)).toNat = m.toNat % 8 := by
      rw [BitVec.toNat_ofNat]
      omega
    have operand := takeRM_cases (mod := m.toNat / 64) (by omega) (BitVec.ofNat 3 (m.toNat % 8))
      (BitVec.ofNat 3 (m.toNat / 8)) bs
    rw [modRM_of_fields, number] at operand
    obtain ⟨short, none⟩ | ⟨e, rest, wf, bytes, read⟩ := operand
    · exact .inl ⟨Nat.succ_lt_succ short, fun k => none _⟩
    · exact .inr ⟨_, e, rest, wf, bytes, fun k => read _⟩

theorem reads_takeModRM {k : BitVec 3 → RM → List Byte → DecodeResult}
    (h : ∀ r e, e.wf = true → Reads (pre ++ modRM r e) n (k r e)) : Reads pre (n + 3) (takeModRM k) where
  inverts bs i rest done := by
    obtain ⟨-, short⟩ | ⟨r, e, more, wf, rfl, read⟩ := takeModRM_cases bs
    · rw [short] at done
      cases done
    · rw [read] at done
      simpa using (h r e wf).inverts more i rest done
  total bs le := by
    obtain ⟨short, -⟩ | ⟨r, e, more, wf, rfl, read⟩ := takeModRM_cases bs
    · omega
    · have operand := length_modRM_le r e
      rw [List.length_append] at le
      rw [read]
      exact (h r e wf).total more (by omega)

/-! ### What follows the opcode byte -/

theorem reads_byte (f : Byte → Instr) (wf : ∀ v, (f v).wf = true) (bytes : ∀ v, encode (f v) = pre ++ [v]) :
    Reads pre (n + 1) (takeByte fun v => yield (f v)) :=
  reads_takeByte fun v => reads_yield (wf v) (bytes v)

theorem reads_word (f : Word → Instr) (wf : ∀ v, (f v).wf = true) (bytes : ∀ v, encode (f v) = pre ++ wordBytes v) :
    Reads pre (n + 2) (takeWord fun v => yield (f v)) :=
  reads_takeWord fun v => reads_yield (wf v) (bytes v)

theorem reads_far (f : Word → Word → Instr) (wf : ∀ u v, (f u v).wf = true)
    (bytes : ∀ u v, encode (f u v) = pre ++ wordBytes u ++ wordBytes v) :
    Reads pre (n + 4) (takeWord fun u => takeWord fun v => yield (f u v)) :=
  reads_takeWord fun u => reads_word (f u) (wf u) (bytes u)

theorem reads_modRM (f : BitVec 3 → RM → Instr) (wf : ∀ r e, (f r e).wf = e.wf)
    (bytes : ∀ r e, encode (f r e) = pre ++ modRM r e) : Reads pre (n + 3) (takeModRM fun r e => yield (f r e)) :=
  reads_takeModRM fun r e h => reads_yield ((wf r e).trans h) (bytes r e)

theorem reads_modRM_reg (f : GReg → RM → Instr) (wf : ∀ g e, (f g e).wf = e.wf)
    (bytes : ∀ g e, encode (f g e) = pre ++ modRM g.bits e) :
    Reads pre (n + 3) (takeModRM fun r e => yield (f (GReg.ofBits r) e)) :=
  reads_modRM (fun r e => f (GReg.ofBits r) e) (fun _ e => wf _ e) fun r e => by rw [bytes, GReg.bits_ofBits]

theorem reads_modRM_byte (f : BitVec 3 → RM → Byte → Instr) (wf : ∀ r e v, (f r e v).wf = e.wf)
    (bytes : ∀ r e v, encode (f r e v) = pre ++ modRM r e ++ [v]) :
    Reads pre (n + 4) (takeModRM fun r e => takeByte fun v => yield (f r e v)) :=
  reads_takeModRM fun r e h => reads_byte (f r e) (fun v => (wf r e v).trans h) (bytes r e)

theorem reads_modRM_word (f : BitVec 3 → RM → Word → Instr) (wf : ∀ r e v, (f r e v).wf = e.wf)
    (bytes : ∀ r e v, encode (f r e v) = pre ++ modRM r e ++ wordBytes v) :
    Reads pre (n + 5) (takeModRM fun r e => takeWord fun v => yield (f r e v)) :=
  reads_takeModRM fun r e h => reads_word (f r e) (fun v => (wf r e v).trans h) (bytes r e)

/-! ### The rows of the opcode map (30_encoding.md R150) -/

theorem aluInstr_wf (k : Nat) (f : AluForm) : (aluInstr k f).wf = f.wf := by
  unfold aluInstr
  split <;> rfl

theorem encode_aluInstr {k : Nat} (h : k < 8) (f : AluForm) : encode (aluInstr k f) = encodeAlu k f := by
  interval_cases k <;> rfl

/-- Rows 00 to 3F but for the entries 6 and 7 of each eight. -/
theorem reads_aluRow {k lo : Nat} (hk : k < 8) (hl : lo < 6) : Reads [opc k lo] 5 (aluRow k lo) := by
  have wf (f : AluForm) := aluInstr_wf k f
  have bytes (f : AluForm) := encode_aluInstr hk f
  interval_cases lo
  iterate 2 exact reads_modRM_reg (fun g e => aluInstr k (.rmReg _ e g)) (fun _ _ => wf _) fun _ _ => bytes _
  iterate 2 exact reads_modRM_reg (fun g e => aluInstr k (.regRm _ g e)) (fun _ _ => wf _) fun _ _ => bytes _
  · exact reads_byte (fun i => aluInstr k (.accImm8 i)) (fun _ => wf _) fun _ => bytes _
  · exact reads_word (fun i => aluInstr k (.accImm16 i)) (fun _ => wf _) fun _ => bytes _

theorem reads_lowMisc {k lo : Nat} (hk : k < 8) (hl : lo = 6 ∨ lo = 7) : Reads [opc k lo] 5 (yield (lowMisc k lo)) := by
  obtain rfl | rfl := hl <;> interval_cases k <;> exact reads_yield rfl rfl

theorem reads_jcc {x : Nat} (h : x < 16) (low : Bool) {op : Byte}
    (byte : op = if low then BitVec.ofNat 8 (0x60 + x) else BitVec.ofNat 8 (0x70 + x)) :
    Reads [op] 5 (takeByte fun d => yield (jccInstr x low d)) := by
  subst byte
  interval_cases x <;> exact reads_byte _ (fun _ => rfl) fun _ => rfl

/-- A group of ALU operations with a byte behind the operand; the reg field says which operation (R151). -/
theorem reads_alu_byte (f : RM → Byte → AluForm) {op : Byte} (wf : ∀ e v, (f e v).wf = e.wf)
    (bytes : ∀ k e v, encodeAlu k (f e v) = op :: modRM (BitVec.ofNat 3 k) e ++ [v]) :
    Reads [op] 5 (takeModRM fun r e => takeByte fun v => yield (aluInstr r.toNat (f e v))) :=
  reads_modRM_byte (fun r e v => aluInstr r.toNat (f e v)) (fun _ _ _ => (aluInstr_wf _ _).trans (wf _ _))
    fun r e v => by
      rw [encode_aluInstr r.isLt, bytes, BitVec.ofNat_toNat, BitVec.setWidth_eq]
      rfl

theorem reads_alu_word (f : RM → Word → AluForm) {op : Byte} (wf : ∀ e v, (f e v).wf = e.wf)
    (bytes : ∀ k e v, encodeAlu k (f e v) = op :: modRM (BitVec.ofNat 3 k) e ++ wordBytes v) :
    Reads [op] 5 (takeModRM fun r e => takeWord fun v => yield (aluInstr r.toNat (f e v))) :=
  reads_modRM_word (fun r e v => aluInstr r.toNat (f e v)) (fun _ _ _ => (aluInstr_wf _ _).trans (wf _ _))
    fun r e v => by
      rw [encode_aluInstr r.isLt, bytes, BitVec.ofNat_toNat, BitVec.setWidth_eq]
      rfl

theorem reads_row80 {lo : Nat} (h : lo < 8) : Reads [opc 16 lo] 5 (row80 lo) := by
  interval_cases lo
  · exact reads_alu_byte .rmImm8 (fun _ _ => rfl) fun _ _ _ => rfl
  · exact reads_alu_word .rmImm16 (fun _ _ => rfl) fun _ _ _ => rfl
  · exact reads_alu_byte .rmImm8Alias (fun _ _ => rfl) fun _ _ _ => rfl
  · exact reads_alu_byte .rmImm8Sext (fun _ _ => rfl) fun _ _ _ => rfl
  iterate 2 exact reads_modRM_reg (fun g e => .test (.rmReg _ e g)) (fun _ _ => rfl) fun _ _ => rfl
  iterate 2 exact reads_modRM_reg (fun g e => .xchgRm _ e g) (fun _ _ => rfl) fun _ _ => rfl

/-- MOV from or to a segment register: bit 2 of the reg field is ignored, and kept in the instruction (R156). -/
theorem reads_modRM_seg (f : Bool → SReg → RM → Instr) (wf : ∀ high r e, (f high r e).wf = e.wf)
    (bytes : ∀ high r e, encode (f high r e) = pre ++ modRM (segField high r) e) :
    Reads pre (n + 3) (takeModRM fun r e => yield (f (r.getLsbD 2) (SReg.ofBits r) e)) :=
  reads_modRM (fun r e => f (r.getLsbD 2) (SReg.ofBits r) e) (fun _ _ => wf _ _ _) fun r e => by
    rw [bytes, segField_ofBits]

theorem reads_row88 {lo : Nat} (h : lo < 8) : Reads [opc 17 lo] 5 (row88 lo) := by
  interval_cases lo
  iterate 2 exact reads_modRM_reg (fun g e => .movRmReg _ e g) (fun _ _ => rfl) fun _ _ => rfl
  iterate 2 exact reads_modRM_reg (fun g e => .movRegRm _ g e) (fun _ _ => rfl) fun _ _ => rfl
  · exact reads_modRM_seg (fun high r e => .movRmSeg high e r) (fun _ _ _ => rfl) fun _ _ _ => rfl
  · exact reads_modRM_reg .lea (fun _ _ => rfl) fun _ _ => rfl
  · exact reads_modRM_seg .movSegRm (fun _ _ _ => rfl) fun _ _ _ => rfl
  · exact reads_modRM .popRm (fun _ _ => rfl) fun _ _ => rfl

theorem reads_row90 {lo : Nat} (h : lo < 8) : Reads [opc 18 lo] 5 (yield (row90 lo)) := by
  interval_cases lo <;> exact reads_yield rfl rfl

theorem reads_row98 {lo : Nat} (h : lo < 8) : Reads [opc 19 lo] 5 (row98 lo) := by
  interval_cases lo
  iterate 2 exact reads_yield rfl rfl
  · exact reads_far .callFar (fun _ _ => rfl) fun _ _ => rfl
  all_goals exact reads_yield rfl rfl

theorem reads_rowA0 {lo : Nat} (h : lo < 8) : Reads [opc 20 lo] 5 (rowA0 lo) := by
  interval_cases lo
  iterate 2 exact reads_word (.movAccMem _) (fun _ => rfl) fun _ => rfl
  iterate 2 exact reads_word (.movMemAcc _) (fun _ => rfl) fun _ => rfl
  all_goals exact reads_yield rfl rfl

theorem reads_rowA8 {lo : Nat} (h : lo < 8) : Reads [opc 21 lo] 5 (rowA8 lo) := by
  interval_cases lo
  · exact reads_byte (fun i => .test (.accImm8 i)) (fun _ => rfl) fun _ => rfl
  · exact reads_word (fun i => .test (.accImm16 i)) (fun _ => rfl) fun _ => rfl
  all_goals exact reads_yield rfl rfl

theorem reads_rowC0 {lo : Nat} (h : lo < 8) : Reads [opc 24 lo] 5 (rowC0 lo) := by
  interval_cases lo
  · exact reads_word (.retImm _) (fun _ => rfl) fun _ => rfl
  · exact reads_yield rfl rfl
  · exact reads_word (.retImm _) (fun _ => rfl) fun _ => rfl
  · exact reads_yield rfl rfl
  · exact reads_modRM_reg .les (fun _ _ => rfl) fun _ _ => rfl
  · exact reads_modRM_reg .lds (fun _ _ => rfl) fun _ _ => rfl
  · exact reads_modRM_byte .movRmImm8 (fun _ _ _ => rfl) fun _ _ _ => rfl
  · exact reads_modRM_word .movRmImm16 (fun _ _ _ => rfl) fun _ _ _ => rfl

theorem reads_rowC8 {lo : Nat} (h : lo < 8) : Reads [opc 25 lo] 5 (rowC8 lo) := by
  interval_cases lo
  · exact reads_word (.retfImm _) (fun _ => rfl) fun _ => rfl
  · exact reads_yield rfl rfl
  · exact reads_word (.retfImm _) (fun _ => rfl) fun _ => rfl
  iterate 2 exact reads_yield rfl rfl
  · exact reads_byte .intN (fun _ => rfl) fun _ => rfl
  all_goals exact reads_yield rfl rfl

/-- Group 2 (30_encoding.md R152). -/
theorem encode_shiftInstr (r : BitVec 3) (w : Width) (e : RM) (c : Count) :
    (shiftInstr r.toNat w e c).wf = e.wf ∧ encode (shiftInstr r.toNat w e c) = encodeShift r w e c := by
  obtain ⟨r⟩ := r
  fin_cases r <;> exact ⟨rfl, rfl⟩

theorem reads_rowD0 {lo : Nat} (h : lo < 8) : Reads [opc 26 lo] 5 (rowD0 lo) := by
  interval_cases lo
  iterate 4
    exact reads_modRM (fun r e => shiftInstr r.toNat _ e _) (fun r e => (encode_shiftInstr r _ e _).1)
      fun r e => (encode_shiftInstr r _ e _).2
  · exact reads_byte .aam (fun _ => rfl) fun _ => rfl
  · exact reads_byte .aad (fun _ => rfl) fun _ => rfl
  all_goals exact reads_yield rfl rfl

theorem reads_rowE0 {lo : Nat} (h : lo < 8) : Reads [opc 28 lo] 5 (rowE0 lo) := by
  interval_cases lo <;> exact reads_byte _ (fun _ => rfl) fun _ => rfl

theorem reads_rowE8 {lo : Nat} (h : lo < 8) : Reads [opc 29 lo] 5 (rowE8 lo) := by
  interval_cases lo
  · exact reads_word .callNear (fun _ => rfl) fun _ => rfl
  · exact reads_word .jmpNear (fun _ => rfl) fun _ => rfl
  · exact reads_far .jmpFar (fun _ _ => rfl) fun _ _ => rfl
  · exact reads_byte .jmpShort (fun _ => rfl) fun _ => rfl
  all_goals exact reads_yield rfl rfl

/-- Group 3 (30_encoding.md R153). -/
theorem reads_group3 {w : Width} {e : RM} (h : e.wf = true) (r : BitVec 3) :
    Reads (opc 30 (6 + w.bit) :: modRM r e) 2 (group3 w r e) := by
  obtain ⟨r⟩ := r
  fin_cases r <;> cases w
  · exact reads_byte (fun i => .test (.rmImm8 e i)) (fun _ => h) fun _ => rfl
  · exact reads_word (fun i => .test (.rmImm16 e i)) (fun _ => h) fun _ => rfl
  · exact reads_byte (fun i => .test (.rmImm8Alias e i)) (fun _ => h) fun _ => rfl
  · exact reads_word (fun i => .test (.rmImm16Alias e i)) (fun _ => h) fun _ => rfl
  all_goals exact reads_yield h rfl

theorem reads_rowF0 {lo : Nat} (h : lo < 8) : Reads [opc 30 lo] 5 (rowF0 lo) := by
  interval_cases lo
  iterate 6 exact reads_yield rfl rfl
  · exact reads_takeModRM fun r e wf => reads_group3 (w := .byte) wf r
  · exact reads_takeModRM fun r e wf => reads_group3 (w := .word) wf r

/-- Group 4 (30_encoding.md R154). -/
theorem encode_group4 (r : BitVec 3) (e : RM) : (group4 r e).wf = e.wf ∧ encode (group4 r e) = 0xFE :: modRM r e := by
  obtain ⟨r⟩ := r
  fin_cases r <;> exact ⟨rfl, rfl⟩

/-- Group 5 (30_encoding.md R155). -/
theorem encode_group5 (r : BitVec 3) (e : RM) : (group5 r e).wf = e.wf ∧ encode (group5 r e) = 0xFF :: modRM r e := by
  obtain ⟨r⟩ := r
  fin_cases r <;> exact ⟨rfl, rfl⟩

theorem reads_rowF8 {lo : Nat} (h : lo < 8) : Reads [opc 31 lo] 5 (rowF8 lo) := by
  interval_cases lo
  iterate 6 exact reads_yield rfl rfl
  · exact reads_modRM group4 (fun r e => (encode_group4 r e).1) fun r e => (encode_group4 r e).2
  · exact reads_modRM group5 (fun r e => (encode_group5 r e).1) fun r e => (encode_group5 r e).2

theorem reads_decodeOpcode {hi lo : Nat} (hh : hi < 32) (hl : lo < 8) : Reads [opc hi lo] 5 (decodeOpcode hi lo) := by
  have low {k : Nat} (hk : k < 8) : Reads [opc k lo] 5 (if lo < 6 then aluRow k lo else yield (lowMisc k lo)) := by
    split
    next h => exact reads_aluRow hk h
    next h => exact reads_lowMisc hk (by omega)
  have number : (GReg.ofBits (BitVec.ofNat 3 lo)).bits.toNat = lo := by
    rw [GReg.bits_ofBits, BitVec.toNat_ofNat, Nat.mod_eq_of_lt hl]
  interval_cases hi
  iterate 8 exact low (by decide)
  iterate 4 exact reads_yield rfl (by rw [encode, number])
  · exact reads_jcc (by omega) true rfl
  · exact reads_jcc (x := 8 + lo) (by omega) true (congrArg (BitVec.ofNat 8) (by omega))
  · exact reads_jcc (by omega) false rfl
  · exact reads_jcc (x := 8 + lo) (by omega) false (congrArg (BitVec.ofNat 8) (by omega))
  · exact reads_row80 hl
  · exact reads_row88 hl
  · exact reads_row90 hl
  · exact reads_row98 hl
  · exact reads_rowA0 hl
  · exact reads_rowA8 hl
  · exact reads_byte (.movRegImm8 _) (fun _ => rfl) fun _ => by rw [encode, number]; rfl
  · exact reads_word (.movRegImm16 _) (fun _ => rfl) fun _ => by rw [encode, number]; rfl
  · exact reads_rowC0 hl
  · exact reads_rowC8 hl
  · exact reads_rowD0 hl
  · exact reads_modRM (.esc _) (fun _ _ => rfl) fun _ _ => by
      rw [encode, BitVec.toNat_ofNat, Nat.mod_eq_of_lt hl]; rfl
  · exact reads_rowE0 hl
  · exact reads_rowE8 hl
  · exact reads_rowF0 hl
  · exact reads_rowF8 hl

theorem reads_decode : Reads [] 6 decode :=
  reads_takeByte fun b => by
    have h := b.isLt
    have row := reads_decodeOpcode (hi := b.toNat / 8) (lo := b.toNat % 8) (by omega) (by omega)
    rwa [opc_of_fields] at row

/-! ### Lengths -/

theorem one_le_length_encode {i : Instr} (h : i.wf = true) : 1 ≤ (encode i).length := by
  cases bytes : encode i with
  | nil =>
    have d := decode_encode h
    rw [bytes] at d
    cases d
  | cons b bs => exact Nat.le_add_left 1 bs.length

theorem length_encode_prefix {i : Instr} (h : Machine.isPrefix i = true) : (encode i).length = 1 := by
  cases i with
  | segEs | segCs | segSs | segDs | lock | lockAlias | repnz | rep => rfl
  | _ => cases h

end Sys2Proof

open Sys2Proof Sys2Proof.Machine

/-- Settles O1: the encoding decodes, and what follows it is left alone. -/
theorem decodeOfEncode : Obligations.DecodeOfEncode :=
  fun i rest wf => extends_decode (encode i) i [] rest (decode_encode wf)

/-- Settles O2: each row of the opcode map reads what the encoder writes. -/
theorem encodeOfDecode : Obligations.EncodeOfDecode := reads_decode.inverts

/-- Settles O3: the longest form has a displacement and an immediate word behind the ModR/M byte. -/
theorem encodingLengths : Obligations.EncodingLengths :=
  ⟨fun i wf => ⟨one_le_length_encode wf, length_encode_le i, length_encode_prefix⟩, reads_decode.total⟩

end

section
/-! PROOFS. Taking an instruction behind its prefixes with nothing scheduled (30_encoding.md R131, R135, R161), and the
steps of the model that it takes (log 16). -/

namespace Sys2Proof.Machine

/-! ### A prefix byte (30_encoding.md R135) -/

/-- The prefix bytes that hold the bus, F0 and F1. -/
def locks (i : Instr) : Bool := i == .lock || i == .lockAlias

/-- The state `s` with the prefix bytes `ps` recorded, and the bus held if LOCK is among them; none of their bytes is
taken in it yet. -/
def State.recorded (s : State) (ps : List Instr) : State :=
  { s with
    cpu := { s.cpu with pfx := ps.foldl Prefixes.after s.cpu.pfx }
    board := { s.board with locked := s.board.locked || ps.any locks } }

@[simp] theorem State.recorded_nil (s : State) : s.recorded [] = s := by simp [recorded]

@[simp] theorem State.recorded_recorded (s : State) (ps qs : List Instr) :
    (s.recorded ps).recorded qs = s.recorded (ps ++ qs) := by
  simp [recorded, Bool.or_assoc]

/-- A prefix byte records itself, and LOCK holds the bus. -/
theorem exec_prefix {i : Instr} (h : isPrefix i = true) (s : State) : exec i s = .next (s.recorded [i]) := by
  rw [State.recorded, List.any_cons, List.any_nil, Bool.or_false]
  cases i with
  | lock | lockAlias =>
    rw [show locks _ = true from rfl, Bool.or_true]
    rfl
  | segEs | segCs | segSs | segDs | repnz | rep =>
    rw [show locks _ = false from rfl, Bool.or_false]
    rfl
  | _ => cases h

theorem Prefixes.after_lock (p : Prefixes) (i : Instr) : (p.after i).lock = (p.lock || locks i) := by
  cases i <;> simp [Prefixes.after, locks]

theorem Prefixes.foldl_after_lock (ps : List Instr) (p : Prefixes) :
    (ps.foldl Prefixes.after p).lock = (p.lock || ps.any locks) := by
  induction ps generalizing p with
  | nil => simp
  | cons i ps ih => simp [ih, Prefixes.after_lock, Bool.or_assoc]

/-- Every prefix byte is admitted behind any others, if it is at all. -/
theorem admits_prefix {u : UndocChoice} {i : Instr} (h : isPrefix i = true) (a : admits u .none i = true)
    (p : Prefixes) : admits u p i = true := by
  simpa [admits, h] using a

theorem isMulDiv_alone {i : Instr} (h : isMulDiv i = true) : isString i = false ∧ isPrefix i = false := by
  cases i with
  | mul | imul | div | idiv => exact ⟨rfl, rfl⟩
  | _ => cases h

/-- The encodings that are not admitted (30_encoding.md R158, R159, 41_muldiv_bcd.md R231, 46_processor_control.md R403,
R411, R413). -/
theorem admits_eq_false {u : UndocChoice} {p : Prefixes} {i : Instr}
    (h : u = .fault ∧ i.undocumented = true ∨ lacksSemantics i = true ∨ p.rep.isSome = true ∧ isMulDiv i = true ∨
      u = .fault ∧ p.rep.isSome = true ∧ isString i = false ∧ isPrefix i = false) : admits u p i = false := by
  have none : p.rep.isSome = true → p.rep.isNone = false := by cases p.rep <;> simp
  unfold admits admitsRep
  obtain ⟨rfl, undoc⟩ | lacks | ⟨rep, mulDiv⟩ | ⟨rfl, rep, notString, notPrefix⟩ := h
  · simp [undoc, show (UndocChoice.fault == .execute) = false from rfl]
  · simp [lacks]
  · obtain ⟨notString, notPrefix⟩ := isMulDiv_alone mulDiv
    simp [none rep, mulDiv, notString, notPrefix]
  · simp [none rep, notString, notPrefix, show (UndocChoice.fault == .execute) = false from rfl]

/-- A prefix byte is an encoding of its own without an operand. -/
theorem prefix_plain {i : Instr} (h : isPrefix i = true) : i.wf = true ∧ i.memImm = none := by
  cases i with
  | segEs | segCs | segSs | segDs | lock | lockAlias | repnz | rep => exact ⟨rfl, rfl⟩
  | _ => cases h

theorem length_flatMap_encode {ps : List Instr} (h : ∀ p ∈ ps, isPrefix p = true) :
    (ps.flatMap encode).length = ps.length := by
  induction ps with
  | nil => rfl
  | cons p ps ih =>
    rw [List.flatMap_cons, List.length_append, length_encode_prefix (h p (List.mem_cons_self ..)),
      ih fun q m => h q (List.mem_cons_of_mem p m), List.length_cons, Nat.add_comm]

namespace State

variable {s u v t : State} {k : Nat}

/-! ### Bytes taken in a row -/

theorem Took.trans {j : Nat} (h : s.Took u k) (g : u.Took v j) : s.Took v (k + j) where
  cpu := by rw [g.cpu, h.cpu, Nat.add_assoc]
  board := by
    have pc : s.board.pc + BitVec.ofNat 16 (k - s.board.queue.length) +
        BitVec.ofNat 16 (j - (s.board.queue.length - k)) =
          s.board.pc + BitVec.ofNat 16 (k + j - s.board.queue.length) := by
      rw [BitVec.add_assoc, ← BitVec.ofNat_add]
      congr 2
      omega
    conv_lhs => rw [g.board]
    rw [h.board]
    simp [pc]
  host := ⟨g.host.1.trans h.host.1, g.host.2.1.trans h.host.2.1, g.host.2.2.trans h.host.2.2⟩

/-- Taking bytes does not depend on the prefixes recorded before. -/
theorem Took.recorded (h : s.Took u k) (ps : List Instr) : (s.recorded ps).Took (u.recorded ps) k where
  cpu := by
    have pfx : u.cpu.pfx = s.cpu.pfx := by rw [h.cpu]
    rw [State.recorded, State.recorded, pfx]
    exact congrArg (fun c : Cpu => { c with pfx := ps.foldl Prefixes.after s.cpu.pfx }) h.cpu
  board := by
    have locked : u.board.locked = s.board.locked := by rw [h.board]
    rw [State.recorded, State.recorded, locked]
    exact congrArg (fun b : Board => { b with locked := s.board.locked || ps.any locks }) h.board
  host := h.host

/-- The bytes behind those that are taken come next. -/
theorem Took.fetches {front bs : List Byte} (h : s.Took u front.length) (f : s.Fetches (front ++ bs)) :
    u.Fetches bs := by
  intro k lt
  obtain ⟨byte, ram⟩ := f (front.length + k) (by rw [List.length_append]; omega)
  have ip : u.ipNext + BitVec.ofNat 16 k = s.ipNext + BitVec.ofNat 16 (front.length + k) := by
    rw [h.ipNext, BitVec.ofNat_add, BitVec.add_assoc]
  have queue : u.board.queue = s.board.queue.drop front.length := by rw [h.board]
  have mem : u.board.mem = s.board.mem := by rw [h.board]
  have mask : u.board.mask = s.board.mask := by rw [h.board]
  have cs : u.sreg .cs = s.sreg .cs := by rw [sreg, h.cpu]; rfl
  have same : u.codeByte k = s.codeByte (front.length + k) := by
    simp only [codeByte, queue, List.getElem?_drop, ip, cs, byteAt, mem]
  refine ⟨?_, fun le => ?_⟩
  · rw [same, ← byte, List.getElem?_append_right (Nat.le_add_right _ _), Nat.add_sub_cancel_left]
  · rw [queue, List.length_drop] at le
    rw [mask, cs, ip]
    exact ram (by omega)

theorem Fetches.left {bs more : List Byte} (f : s.Fetches (bs ++ more)) : s.Fetches bs := fun k lt => by
  have here := f k (by rw [List.length_append]; omega)
  rwa [List.getElem?_append_left lt] at here

/-- What the bytes of `i` leave behind, taken from the state `s`. -/
def Traced (s : State) (i : Instr) (x : Trace) : Prop :=
  match i.memImm with
  | none => x = s.trace
  | some (w, m) => s.Loads w m x

theorem exists_fetchUnit (q : s.Quiet) {i : Instr} (wf : i.wf = true) (fetches : s.Fetches (encode i)) (op : QueueOp) :
    ∃ t, s.fetchUnit op [] 6 = some (i, t) ∧ s.Took t (encode i).length ∧ s.Traced i t.trace := by
  unfold Traced
  split
  next imm => exact fetchUnit_plain q wf imm fetches op
  next imm => exact fetchUnit_loads q wf imm fetches op

/-- A load behind bytes that left no trace is that of the state before them. -/
theorem Took.traced (h : s.Took u k) (silent : u.trace = s.trace) {i : Instr} {x : Trace} (r : u.Traced i x) :
    s.Traced i x := by
  unfold Traced at r ⊢
  split at r
  next => rw [r, silent]
  next w m _ =>
    obtain ⟨ea, loaded, value⟩ := r
    have ea' : u.ea m = s.ea m := by rw [State.ea, h.cpu, State.ea]
    have seg : u.easeg m = s.easeg m := by rw [State.easeg, segFor, sreg, h.cpu]; rfl
    have mem : u.board.mem = s.board.mem := by rw [h.board]
    have readable' (as) : u.readable as = s.readable as := by rw [readable, h.board]; rfl
    simp only [trace, Prod.mk.injEq] at silent
    obtain ⟨-, -, draws, events⟩ := silent
    rw [ea', seg, peek_congr mem, draws, events, readable'] at value
    exact ⟨ea.trans ea', loaded, value⟩

/-! ### The decode loop behind prefixes (30_encoding.md R131, R135) -/

/-- The prefix bytes `ps` can be taken one after another. -/
def Admitted (s : State) (ps : List Instr) : Prop :=
  ∀ p ∈ ps, isPrefix p = true ∧ admits s.board.params.undoc .none p = true

theorem Took.admitted (h : s.Took u k) {ps : List Instr} (a : s.Admitted ps) : u.Admitted ps := fun p m => by
  rw [h.board]
  exact a p m

/-- A prefix byte is taken and recorded, and the loop goes on behind it. -/
theorem exists_passed_one {p : Instr} (isPfx : isPrefix p = true) (q : s.Quiet)
    (adm : admits s.board.params.undoc .none p = true) {bs : List Byte} (fetches : s.Fetches (encode p ++ bs))
    (op : QueueOp) :
    ∃ u, (s.recorded [p]).Took u 1 ∧ u.trace = s.trace ∧ u.Fetches bs ∧
      ∀ n, s.takeUnits op (n + 1) = u.takeUnits .subsequent n := by
  obtain ⟨wf, plain⟩ := prefix_plain isPfx
  obtain ⟨t, taken, took, silent⟩ := fetchUnit_plain q wf plain fetches.left op
  rw [length_encode_prefix isPfx] at took
  have params : t.board.params = s.board.params := by rw [took.board]
  have next : t.Fetches bs := Took.fetches (front := encode p) (by rwa [length_encode_prefix isPfx]) fetches
  exact ⟨t.recorded [p], took.recorded [p], silent, next, fun n =>
    takeUnits_prefix n taken (admits_prefix isPfx (by rwa [params]) _) isPfx (exec_prefix isPfx t)⟩

/-- The loop comes through the prefixes `ps` to a state in which what follows them is next. -/
theorem exists_passed {ps : List Instr} (q : s.Quiet) (admitted : s.Admitted ps) {bs : List Byte}
    (fetches : s.Fetches (ps.flatMap encode ++ bs)) (op : QueueOp) :
    ∃ u op', (s.recorded ps).Took u ps.length ∧ u.trace = s.trace ∧ u.Fetches bs ∧
      ∀ n, s.takeUnits op (ps.length + n) = u.takeUnits op' n := by
  induction ps generalizing s op with
  | nil =>
    exact ⟨s, op, by rw [recorded_nil]; exact .refl s, rfl, fetches, fun n => by rw [List.length_nil, Nat.zero_add]⟩
  | cons p ps ih =>
    obtain ⟨isPfx, adm⟩ := admitted p (List.mem_cons_self ..)
    rw [List.flatMap_cons, List.append_assoc] at fetches
    obtain ⟨u, took, silent, next, loop⟩ := exists_passed_one isPfx q adm fetches op
    have admitted' : u.Admitted ps := took.admitted fun p' m => admitted p' (List.mem_cons_of_mem p m)
    obtain ⟨v, op', took', silent', next', loop'⟩ := ih (took.quiet q) admitted' next .subsequent
    refine ⟨v, op', ?_, silent'.trans silent, next', fun n => ?_⟩
    · have all := (took.recorded ps).trans took'
      rwa [recorded_recorded, List.singleton_append, Nat.add_comm] at all
    · rw [List.length_cons, Nat.add_right_comm, loop, loop']

/-- What the loop comes to with the unit `i` that ends it. -/
def lastUnit (i : Instr) (t : State) : Taken :=
  if admits t.board.params.undoc t.cpu.pfx i then .instr i t
  else .stop t (t.fail (.instructionDecodeError t.lastAddr))

theorem lastUnit_state (i : Instr) (t : State) : (lastUnit i t).state = t := by
  unfold lastUnit
  split <;> rfl

theorem takeUnits_last {op : QueueOp} {i : Instr} (n : Nat) (taken : s.fetchUnit op [] 6 = some (i, t))
    (ends : isPrefix i = false ∨ admits t.board.params.undoc t.cpu.pfx i = false) :
    s.takeUnits op (n + 1) = lastUnit i t := by
  by_cases a : admits t.board.params.undoc t.cpu.pfx i = true
  · have notPrefix := ends.resolve_right (by simp [a])
    rw [takeUnits_instr n taken a notPrefix, lastUnit, if_pos a]
  · rw [lastUnit, if_neg a]
    simp [takeUnits, taken, a]

theorem takeAll_of_last {i : Instr} (h : s.takeUnits .first 1 = lastUnit i t) (n : Nat) :
    s.takeAll n = lastUnit i t := by
  unfold lastUnit at h ⊢
  split at h
  next a => rw [takeAll, h, if_pos a]
  next a => rw [takeAll, h, if_neg a]

theorem takeAll_of_more (h : s.takeUnits .first 1 = .more t) (n : Nat) : s.takeAll n = t.takeRest n := by
  rw [takeAll, h]

/-- The units behind a prefix are taken with the bus held where LOCK turns out to be among the prefixes. -/
theorem takeRest_eq {l : Bool} {n : Nat} (h : (s.takeUnits .subsequent n).state.cpu.pfx.lock = l) :
    s.takeRest n = (if l then s.holdBus else s).takeUnits .subsequent n := by
  unfold takeRest
  dsimp only
  cases l with
  | true => rw [if_pos h, if_pos rfl]
  | false => rw [if_neg (Bool.eq_false_iff.mp h), if_neg Bool.false_ne_true]

/-- Where LOCK is among the prefixes it makes no difference that the bus is held before the first of them. -/
theorem holdBus_recorded {ps : List Instr} (held : s.cpu.pfx.lock = true → s.board.locked = true)
    (lock : (ps.foldl Prefixes.after s.cpu.pfx).lock = true) : s.holdBus.recorded ps = s.recorded ps := by
  have locked : (s.board.locked || ps.any locks) = true := by
    rw [Prefixes.foldl_after_lock, Bool.or_eq_true] at lock
    exact (Bool.or_eq_true ..).mpr (lock.imp_left held)
  rw [recorded, recorded, locked]
  rfl

section

variable {ps : List Instr} {i : Instr} (q : s.Quiet) (admitted : s.Admitted ps)
include q admitted

/-- Not all of the prefixes are taken by a loop of at most as many units. -/
theorem exists_takeUnits_more {bs : List Byte} (fetches : s.Fetches (ps.flatMap encode ++ bs)) (op : QueueOp) {n : Nat}
    (le : n ≤ ps.length) : ∃ u, s.takeUnits op n = .more u := by
  rw [← List.take_append_drop n ps, List.flatMap_append, List.append_assoc] at fetches
  obtain ⟨u, op', -, -, -, loop⟩ := exists_passed q (fun p m => admitted p (List.mem_of_mem_take m)) fetches op
  have more := loop 0
  rw [List.length_take, Nat.min_eq_left le] at more
  exact ⟨u, more⟩

/-- With one more unit the loop comes to what follows them. -/
theorem exists_takeUnits_last (wf : i.wf = true)
    (ends : isPrefix i = false ∨ admits s.board.params.undoc (ps.foldl Prefixes.after s.cpu.pfx) i = false)
    (fetches : s.Fetches (ps.flatMap encode ++ encode i)) (op : QueueOp) :
    ∃ t, (∀ n, ps.length < n → s.takeUnits op n = lastUnit i t) ∧
      (s.recorded ps).Took t (ps.length + (encode i).length) ∧ (s.recorded ps).Traced i t.trace := by
  obtain ⟨u, op', passed, silent, next, loop⟩ := exists_passed q admitted fetches op
  obtain ⟨t, taken, took, traced⟩ := exists_fetchUnit (passed.quiet q) wf next op'
  have all := passed.trans took
  refine ⟨t, fun n lt => ?_, all, passed.traced silent traced⟩
  obtain ⟨m, rfl⟩ := Nat.exists_eq_add_of_lt lt
  rw [Nat.add_assoc, loop]
  exact takeUnits_last m taken (by rw [all.board, all.cpu]; exact ends)

end

/-- Behind the first of the prefixes too the loop comes to what follows them, with the bus held as for all of them. -/
theorem exists_takeRest_last {ps : List Instr} {i : Instr} (q : s.Quiet) (admitted : s.Admitted ps)
    (held : s.cpu.pfx.lock = true → s.board.locked = true) (wf : i.wf = true)
    (ends : isPrefix i = false ∨ admits s.board.params.undoc (ps.foldl Prefixes.after s.cpu.pfx) i = false)
    (fetches : s.Fetches (ps.flatMap encode ++ encode i)) :
    ∃ t, (∀ n, ps.length < n → s.takeRest n = lastUnit i t) ∧
      (s.recorded ps).Took t (ps.length + (encode i).length) ∧ (s.recorded ps).Traced i t.trace := by
  obtain ⟨t, last, took, traced⟩ := exists_takeUnits_last q admitted wf ends fetches .subsequent
  have rest (n : Nat) (lt : ps.length < n) :
      s.takeRest n = (if (ps.foldl Prefixes.after s.cpu.pfx).lock then s.holdBus else s).takeUnits .subsequent n :=
    takeRest_eq (by rw [last n lt, lastUnit_state, took.cpu]; rfl)
  cases lock : (ps.foldl Prefixes.after s.cpu.pfx).lock with
  | false =>
    rw [lock] at rest
    exact ⟨t, fun n lt => (rest n lt).trans (last n lt), took, traced⟩
  | true =>
    rw [lock] at rest
    obtain ⟨u, last', took', traced'⟩ :=
      exists_takeUnits_last (s := s.holdBus) q admitted wf ends fetches .subsequent
    rw [holdBus_recorded held lock] at took' traced'
    exact ⟨u, fun n lt => (rest n lt).trans (last' n lt), took', traced'⟩

variable {ps : List Instr} {i : Instr}

/-- What comes behind the first of several prefixes, and how the attempt at an instruction goes on there. -/
theorem exists_first {p : Instr} (q : s.Quiet) (admitted : s.Admitted (p :: ps)) {bs : List Byte}
    (fetches : s.Fetches ((p :: ps).flatMap encode ++ bs)) :
    ∃ u, (s.recorded [p]).Took u 1 ∧ u.trace = s.trace ∧ u.Quiet ∧ u.Admitted ps ∧
      u.Fetches (ps.flatMap encode ++ bs) ∧ ∀ n, s.takeAll n = u.takeRest n := by
  obtain ⟨isPfx, adm⟩ := admitted p (List.mem_cons_self ..)
  rw [List.flatMap_cons, List.append_assoc] at fetches
  obtain ⟨u, took, silent, next, loop⟩ := exists_passed_one isPfx q adm fetches .first
  exact ⟨u, took, silent, took.quiet q, took.admitted fun p' m => admitted p' (List.mem_cons_of_mem p m), next,
    takeAll_of_more (loop 0)⟩

theorem exists_takeAll_more (q : s.Quiet) (admitted : s.Admitted ps) {bs : List Byte}
    (fetches : s.Fetches (ps.flatMap encode ++ bs)) {n : Nat} (lt : n < ps.length) : ∃ u, s.takeAll n = .more u := by
  cases ps with
  | nil => exact absurd lt (Nat.not_lt_zero n)
  | cons p ps =>
    obtain ⟨u, took, -, q', admitted', next, all⟩ := exists_first q admitted fetches
    have le := Nat.le_of_lt_succ lt
    rw [all]
    obtain ⟨e, -⟩ | e := takeRest_cases u n
    · rw [e]
      exact exists_takeUnits_more q' admitted' next .subsequent le
    · rw [e]
      exact exists_takeUnits_more (s := u.holdBus) q' admitted' next .subsequent le

/-- From the first byte on an attempt at enough units comes to what follows the prefixes. -/
theorem exists_takeAll_last (q : s.Quiet) (admitted : s.Admitted ps) (none : s.cpu.pfx = .none) (wf : i.wf = true)
    (ends : isPrefix i = false ∨ admits s.board.params.undoc (ps.foldl Prefixes.after .none) i = false)
    (fetches : s.Fetches (ps.flatMap encode ++ encode i)) :
    ∃ t, (∀ n, ps.length ≤ n → s.takeAll n = lastUnit i t) ∧
      (s.recorded ps).Took t (ps.length + (encode i).length) ∧ (s.recorded ps).Traced i t.trace := by
  rw [← none] at ends
  cases ps with
  | nil =>
    obtain ⟨t, last, took, traced⟩ := exists_takeUnits_last q admitted wf ends fetches .first
    exact ⟨t, fun n _ => takeAll_of_last (last 1 Nat.one_pos) n, took, traced⟩
  | cons p ps =>
    obtain ⟨u, first, silent, q', admitted', next, all⟩ := exists_first q admitted fetches
    have params : u.board.params = s.board.params := by rw [first.board]; rfl
    have pfx : u.cpu.pfx = s.cpu.pfx.after p := by rw [first.cpu]; rfl
    have held : u.cpu.pfx.lock = true → u.board.locked = true := by
      rw [pfx, none, Prefixes.after_lock, first.board]
      simp +contextual [recorded, Prefixes.none]
    obtain ⟨t, last, took, traced⟩ := exists_takeRest_last q' admitted' held wf (by rwa [params, pfx]) next
    have whole := first.recorded ps
    rw [recorded_recorded, List.singleton_append] at whole
    refine ⟨t, fun n le => (all n).trans (last n le), ?_, whole.traced silent traced⟩
    have both := whole.trans took
    rwa [← Nat.add_assoc, Nat.add_comm 1] at both

/-! ### The steps of the model that an instruction takes (log 16) -/

/-- The state in which an instruction is attempted once more, after `k` attempts that did not take enough units. -/
def retrying (s : State) (k : Nat) : State := { s.begun with cpu := { s.begun.cpu with attempts := k } }

/-- Every attempt begins in the same state. -/
theorem retrying_begun (whole : s.cpu.attempts = 0) (k : Nat) :
    ({ s.retrying k with cpu := { (s.retrying k).cpu with attempts := 0 } } : State) = s.begun := by
  rw [← whole]
  rfl

/-- The states between the attempts, from the one before the first on. -/
def between (s : State) : Nat → State
  | 0 => s
  | k + 1 => s.retrying (k + 1)

/-- Each attempt takes `prefixFuel` units more than the one before it. -/
theorem step_between (h : s.Ready) (k : Nat) :
    step (s.between k) = described ((s.retrying k).attempt (prefixFuel * (k + 1) - 1)) := by
  obtain ⟨error, awake, fresh, host, noBreak, watch, whole, -⟩ := h
  cases k with
  | zero =>
    let u : State := { s with inputs := s.inputs.tail, skipBp := false, started := true }
    have core : u.stepCore s.skipBp = u.runStep := by
      have code : u.codeMask = s.codeMask := rfl
      have cpu : u.cpu = s.cpu := rfl
      simp only [stepCore, cpu, error, awake, fresh, code, noBreak, watch, Bool.false_and, Bool.false_eq_true, if_false]
    have run : u.runStep = u.beginStep.runFresh := if_neg (Bool.eq_false_iff.mp fresh)
    have ip : u.beginStep.ip = s.ipNext := if_neg (Bool.eq_false_iff.mp fresh)
    have attempts : u.beginStep.cpu.attempts = 0 := whole
    have first : s.begun = s.retrying 0 := (retrying_begun whole 0).symm
    rw [between, step_alone host whole, core, run, runFresh, ip, attempts, ← first]
    rfl
  | succ k =>
    have ip : (s.retrying (k + 1)).ip = s.ipNext := if_neg (Bool.eq_false_iff.mp fresh)
    rw [between, step_again (Nat.succ_ne_zero k), runFresh, ip]
    rfl

theorem attempt_retrying_more (whole : s.cpu.attempts = 0) {n : Nat} (e : s.begun.takeAll n = .more t) (k : Nat) :
    (s.retrying k).attempt n = .next (s.retrying (k + 1)) := by
  rw [attempt, retrying_begun whole, e]
  rfl

/-- What an attempt comes to that takes the last unit `i`. -/
def runUnit (i : Instr) (t : State) : Out :=
  if admits t.board.params.undoc t.cpu.pfx i then t.finishExec i else t.fail (.instructionDecodeError t.lastAddr)

theorem attempt_retrying_last (whole : s.cpu.attempts = 0) {n : Nat} {i : Instr}
    (e : s.begun.takeAll n = lastUnit i t) (k : Nat) : (s.retrying k).attempt n = runUnit i t := by
  unfold lastUnit at e
  rw [attempt, retrying_begun whole, e, runUnit]
  split_ifs <;> rfl

theorem after_one (s : State) : s.after 1 = step s := by
  rw [after]
  cases step s <;> rfl

/-- Steps that lead through the states `x` one after another. -/
theorem after_chain {x : Nat → State} {m : Nat} (h : ∀ k < m, step (x k) = .next (x (k + 1))) :
    (x 0).after (m + 1) = step (x m) := by
  induction m generalizing x with
  | zero => exact after_one (x 0)
  | succ m ih =>
    have rest := ih (x := fun k => x (k + 1)) fun k lt => h (k + 1) (Nat.succ_lt_succ lt)
    rw [after, h 0 (Nat.succ_pos m)]
    exact rest

/-- Too few units for all of the prefixes are taken in each step but the last (log 16). -/
theorem after_attempts (h : s.Ready) {len : Nat} {i : Instr}
    (more : ∀ n < len, ∃ u, s.begun.takeAll n = .more u) (last : ∀ n, len ≤ n → s.begun.takeAll n = lastUnit i t) :
    s.after (len / prefixFuel + 1) = described (runUnit i t) := by
  have whole := h.whole
  have idle : s.begun.board.undescribed = none := h.described
  have short (k : Nat) (lt : k < len / prefixFuel) : step (s.between k) = .next (s.between (k + 1)) := by
    have units := Nat.mul_le_of_le_div _ _ _ (Nat.succ_le_of_lt lt)
    obtain ⟨u, e⟩ := more (prefixFuel * (k + 1) - 1) (by rw [Nat.mul_comm]; unfold prefixFuel at *; omega)
    rw [step_between h, attempt_retrying_more whole e]
    exact described_next idle
  have enough : len ≤ prefixFuel * (len / prefixFuel + 1) - 1 :=
    Nat.le_sub_one_of_lt (Nat.lt_mul_div_succ len (by decide))
  rw [show s = s.between 0 from rfl, after_chain short, step_between h, attempt_retrying_last whole (last _ enough)]

/-! ### The instruction behind its prefixes -/

/-- What the bytes of an instruction with its prefixes lead to is the state in which it executes. -/
theorem Took.fetchedFrom {ps : List Instr} {i : Instr} {n : Nat} (took : (s.begun.recorded ps).Took t n)
    (traced : (s.begun.recorded ps).Traced i t.trace) : t.FetchedFrom s i n (ps.foldl Prefixes.after .none) := by
  have size : (s.begun.recorded ps).cpu.size + n = n := Nat.zero_add n
  have lock : (ps.foldl Prefixes.after Prefixes.none).lock = ps.any locks := Prefixes.foldl_after_lock ps .none
  have cpu (ea : Word) (e : t.cpu.lastEa = ea) :
      t.cpu = { s.cpu with lastCs := s.sreg .cs, lastIp := s.ipNext, pfx := ps.foldl Prefixes.after .none,
                           trapArmed := s.cpu.flags.tf, intInhibit := false, result := .okay, size := n,
                           loaded := t.cpu.loaded, lastEa := ea } := by
    have cpu := took.cpu
    rwa [size, e] at cpu
  have board := took.board
  cases imm : i.memImm with
  | none =>
    simp only [Traced, imm, trace, Prod.mk.injEq] at traced
    obtain ⟨ea, loaded, draws, events⟩ := traced
    exact {
      cpu := by rw [imm]; exact cpu _ ea
      board := by rwa [lock]
      loaded := by rw [imm]; exact ⟨loaded, draws, events⟩
      ip := took.ipNext
      host := took.host }
  | some a =>
    obtain ⟨w, m⟩ := a
    simp only [Traced, imm] at traced
    obtain ⟨ea, loaded, value⟩ := traced
    simp only [trace, Prod.mk.injEq] at value
    exact {
      cpu := by rw [imm]; exact cpu _ ea
      board := by rwa [lock]
      loaded := by rw [imm]; exact ⟨loaded, value⟩
      ip := took.ipNext
      host := took.host }

/-- The steps at an instruction behind its prefixes, of which the last comes to it. -/
theorem exists_after {ps : List Instr} {i : Instr} (h : s.Ready) (q : s.Quiet) (admitted : s.Admitted ps)
    (wf : i.wf = true)
    (ends : isPrefix i = false ∨ admits s.board.params.undoc (ps.foldl Prefixes.after .none) i = false)
    (fetches : s.Fetches (ps.flatMap encode ++ encode i)) :
    ∃ t, t.FetchedFrom s i (ps.flatMap encode ++ encode i).length (ps.foldl Prefixes.after .none) ∧
      (ps.length < prefixFuel → step s = described (runUnit i t)) ∧
      s.after (ps.length / prefixFuel + 1) = described (runUnit i t) := by
  obtain ⟨t, last, took, traced⟩ := exists_takeAll_last (s := s.begun) q admitted rfl wf ends fetches
  have steps := after_attempts h (fun n lt => exists_takeAll_more (s := s.begun) q admitted fetches lt) last
  refine ⟨t, ?_, fun lt => ?_, steps⟩
  · rw [List.length_append, length_flatMap_encode fun p m => (admitted p m).1]
    exact took.fetchedFrom traced
  · rwa [Nat.div_eq_of_lt lt, after_one] at steps

end State
end Sys2Proof.Machine

open Sys2Proof Sys2Proof.Machine

/-- Settles O8: in an attempt at enough units the prefixes are recorded one after another and the instruction runs in
the state that they lead to. -/
theorem stepRunsPrefixed : Obligations.StepRunsPrefixed := by
  intro s ps i ready q prefixes wf notPrefix admitted fetches
  obtain ⟨t, fetched, short, steps⟩ := State.exists_after ready q prefixes wf (.inl notPrefix) fetches
  have quiet : t.Quiet := by rw [State.Quiet, fetched.board]; exact q
  have undescribed : t.board.undescribed = none := by rw [fetched.board]; exact ready.described
  have run : described (State.runUnit i t) = State.retired (exec i t) := by
    rw [State.runUnit, if_pos (by rw [fetched.board, fetched.cpu]; exact admitted),
      State.described_finishExec quiet undescribed i]
  rw [run] at short steps
  exact ⟨t, fetched, short, steps⟩

/-- Settles O9: the unit that is not admitted ends the attempt, and the fault names the first byte. -/
theorem refusedEncodingsFault : Obligations.RefusedEncodingsFault := by
  intro s ps i ready q prefixes wf fetches rep refused stop
  have notAdmitted := admits_eq_false refused
  obtain ⟨t, fetched, short, steps⟩ := State.exists_after ready q prefixes wf (.inr notAdmitted) fetches
  have undescribed : t.board.undescribed = none := by rw [fetched.board]; exact ready.described
  have run : described (State.runUnit i t) = stop := by
    rw [State.runUnit, if_neg (by rw [fetched.board, fetched.cpu, notAdmitted]; exact Bool.false_ne_true),
      State.fail_described undescribed, State.lastAddr, fetched.cpu]
    rfl
  rw [run] at short steps
  exact ⟨short, steps⟩

end

section
/-! PROOFS. The bus held by LOCK (20_memory.md R103, 46_processor_control.md R400): whatever the other agents ask for,
no DMA transfer falls, and the only bytes of memory that change are those the CPU stores to. -/

namespace Sys2Proof.Machine

namespace Board

variable {A : Effects} {b c e : Board} {as bs : List Nat}

/-- No access but one to a port lets a DMA transfer fall while the bus is held. -/
theorem Moves.untouched (m : b.Moves A c) (p : A.ports = false) (h : b.locked = true) :
    c.locked = true ∧ ∀ n, (b.dma.get n).Untouched (c.dma.get n) := by
  induction m with
  | refl => exact ⟨h, fun _ => .refl _⟩
  | rd8 _ cs seg off ih =>
    have k := rd8_held ih.1 cs seg off
    exact ⟨k.locked, fun n => (ih.2 n).trans (k.dma n)⟩
  | wr8 _ cs seg off v ih =>
    have k := wr8_held ih.1 cs seg off v
    exact ⟨k.locked, fun n => (ih.2 n).trans (k.dma n)⟩
  | spend _ _ ih | flush _ _ _ ih => exact ih
  | ioRead _ q | ioWrite _ q => exact absurd (p.symm.trans q) Bool.false_ne_true
  | lock _ _ ih => exact ⟨rfl, ih.2⟩

/-- The bus is still held, and no byte outside `as` has changed; of the rest of the board nothing is said. -/
structure HeldStores (as : List Nat) (b c : Board) : Prop where
  locked : c.locked = true
  mem    : ∀ a, a ∉ as → Memory.read c.mem a = Memory.read b.mem a

theorem HeldStores.start (h : b.locked = true) : b.HeldStores as b := ⟨h, fun _ _ => rfl⟩

theorem HeldStores.mono (d : b.HeldStores as c) (p : as ⊆ bs) : b.HeldStores bs c :=
  ⟨d.locked, fun a n => d.mem a fun m => n (p m)⟩

/-- An access with the bus held follows. -/
theorem HeldStores.access (d : b.HeldStores as c) (k : c.Held bs e) (p : bs ⊆ as) : b.HeldStores as e :=
  ⟨k.locked, fun a n => (k.mem a fun m => n (p m)).trans (d.mem a n)⟩

theorem HeldStores.read (d : b.HeldStores as c) (k : c.Held [] e) : b.HeldStores as e := d.access k (List.nil_subset as)

/-- A change of neither the lock nor memory follows. -/
theorem HeldStores.other (d : b.HeldStores as c) (l : e.locked = c.locked) (m : e.mem = c.mem) : b.HeldStores as e :=
  ⟨l.trans d.locked, fun a n => (congrArg (Memory.read · a) m).trans (d.mem a n)⟩

/-- An access to a port changes no memory. -/
theorem HeldStores.port {cs : Word} (d : b.HeldStores as c) (k : c.PortCycle cs e) : b.HeldStores as e := by
  have slot := d.read (slot_held d.locked cs false)
  obtain ⟨f, st, a, v, r, rfl⟩ := k
  exact slot.other (by rw [pins, r]) (by rw [pins, r])

end Board

namespace State

variable {s t u : State} {as : List Nat}

/-! ### Accesses that store nothing -/

theorem rd_held (h : s.board.locked = true) (w : Width) (seg off : Word) : s.board.Held [] (s.rd w seg off).2.board :=
  match w with
  | .byte => Board.rd8_held h _ seg off
  | .word => Board.rd16_held h _ seg off

section

variable (d : s.board.HeldStores as t.board)
include d

theorem held_rd (w : Width) (seg off : Word) : s.board.HeldStores as (t.rd w seg off).2.board :=
  d.read (rd_held d.locked w seg off)

theorem held_pop16 : s.board.HeldStores as t.pop16.2.board := held_rd d .word _ _

theorem held_readPlace (w : Width) (p : Place) : s.board.HeldStores as (t.readPlace w p).2.board :=
  match p with
  | .reg _ | .imm _ => d
  | .mem seg off => held_rd d w seg off

theorem held_readLoaded (w : Width) (p : Place) : s.board.HeldStores as (t.readLoaded w p).2.board := by
  unfold readLoaded
  split
  · exact d
  · exact held_readPlace d w p

theorem held_touch (o : Operand) : s.board.HeldStores as (t.touch o).board := by
  rw [touch_board]
  exact d

theorem held_load (w : Width) (o : Operand) : s.board.HeldStores as (t.load w o).2.board :=
  held_readPlace (held_touch d o) w _

theorem held_fetchPair (w : Width) (x y : Operand) : s.board.HeldStores as (t.fetchPair w x y).2.2.board :=
  held_readPlace (held_readLoaded (held_touch (held_touch d x) y) w _) w _

theorem held_compare (w : Width) (x y : Operand) (f : Flags → BitVec w.bits → BitVec w.bits → BitVec w.bits × Flags) :
    s.board.HeldStores as (t.compare w x y f).board :=
  held_fetchPair d w x y

theorem held_readFar (e : RM) : s.board.HeldStores as (t.readFar e).2.2.board :=
  held_rd (held_rd (held_touch d (.rm e)) .word _ _) .word _ _

theorem held_inPort {w : Width} {port : Word} (h : inPort w port t = .next u) : s.board.HeldStores as u.board := by
  unfold inPort at h
  split at h
  · cases h
  next lo e =>
    have first := d.port (Board.ioRead_cycle e)
    cases w with
    | byte => cases h; exact first
    | word =>
      dsimp only at h
      split at h
      · cases h
      next hi k => cases h; exact first.port (Board.ioRead_cycle k)

theorem held_outPort {w : Width} {port : Word} (h : outPort w port t = .next u) : s.board.HeldStores as u.board := by
  unfold outPort at h
  split at h
  · cases h
  next b e =>
    have first := d.port (Board.ioWrite_cycle e)
    cases w with
    | byte => cases h; exact first
    | word =>
      dsimp only at h
      split at h
      · cases h
      next c k => cases h; exact first.port (Board.ioWrite_cycle k)

/-! ### Changes of the CPU and of the queue -/

theorem held_flushTo (ip : Word) : s.board.HeldStores as (t.flushTo ip).board := d.other rfl rfl

theorem held_jumpNear (ip : Word) : s.board.HeldStores as (t.jumpNear ip).board := held_flushTo d ip

theorem held_jumpFar (cs ip : Word) : s.board.HeldStores as (t.jumpFar cs ip).board := held_flushTo d ip

theorem held_setFlags (f : Flags) : s.board.HeldStores as (t.setFlags f).board := d

theorem held_jumpIf (c : Bool) (x : Byte) : s.board.HeldStores as (t.jumpIf c x).board := by
  unfold jumpIf
  split
  · exact held_jumpNear d _
  · exact d

theorem held_inhibit : s.board.HeldStores as t.inhibit.board := by
  unfold inhibit
  split <;> exact d

theorem held_setReg (w : Width) (g : GReg) (v : BitVec w.bits) : s.board.HeldStores as (t.setReg w g v).board := by
  rw [setReg_board]
  exact d

/-- The end of MUL, IMUL, and of DIV and IDIV where they do not trap. -/
theorem held_setAcc (w : Width) (hi lo : BitVec w.bits) (f : Flags) (k : Nat) :
    s.board.HeldStores as (((t.setAcc w hi lo).setFlags f).spend k).board := by
  cases w <;> exact d.other rfl rfl

theorem held_retNear (extra : Word) : s.board.HeldStores as (t.retNear extra).board := (held_pop16 d).other rfl rfl

theorem held_retFar (extra : Word) : s.board.HeldStores as (t.retFar extra).board :=
  (held_pop16 (held_pop16 d)).other rfl rfl

theorem held_iret : s.board.HeldStores as t.iret.board := (held_pop16 (held_pop16 (held_pop16 d))).other rfl rfl

/-! ### Stores -/

theorem held_wr (w : Width) (seg off : Word) (v : BitVec w.bits) (k : byteAddrs w seg off ⊆ as) :
    s.board.HeldStores as (t.wr w seg off v).board :=
  match w with
  | .byte => d.access (Board.wr8_held d.locked _ seg off v) k
  | .word => d.access (Board.wr16_held d.locked _ seg off v) k

theorem held_writePlace {w : Width} {p : Place} (v : BitVec w.bits) (k : p.addrs w ⊆ as) :
    s.board.HeldStores as (t.writePlace w p v).board :=
  match p with
  | .reg g => held_setReg d w g v
  | .mem seg off => held_wr d w seg off v k
  | .imm _ => d

theorem held_binary {w : Width} {x : Operand} (k : (t.place x).addrs w ⊆ as) (y : Operand)
    (f : Flags → BitVec w.bits → BitVec w.bits → BitVec w.bits × Flags) :
    s.board.HeldStores as (t.binary w x y f).board :=
  held_writePlace (held_fetchPair d w x y) _ k

theorem held_unary {w : Width} {x : Operand} (k : (t.place x).addrs w ⊆ as)
    (f : Flags → BitVec w.bits → BitVec w.bits × Flags) : s.board.HeldStores as (t.unary w x f).board :=
  held_writePlace (held_load d w x) _ k

theorem held_store {w : Width} {x : Operand} (k : (t.place x).addrs w ⊆ as) (v : BitVec w.bits) :
    s.board.HeldStores as (t.store w x v).board :=
  held_writePlace (held_touch d x) v k

theorem held_shiftRotate {w : Width} {e : RM} {c : Count} (k : t.count c ≠ 0 → (t.place (.rm e)).addrs w ⊆ as)
    (step : BitVec w.bits × Bool → BitVec w.bits × Bool) (fl : Flags → BitVec w.bits → BitVec w.bits → Bool → Flags)
    (n : Nat) : s.board.HeldStores as (t.shiftRotate w e c step fl n).board := by
  have read := held_load d w (.rm e)
  unfold shiftRotate
  dsimp only
  split
  · exact read
  next z => exact (held_writePlace read _ (k z)).other rfl rfl

end

/-- A repetition stores what its element stores. -/
theorem held_runString {i : Instr} {c : Bool} {prim : State → State} (l : s.board.locked = true)
    (d : s.iterates = true → s.board.HeldStores as (prim s).board) :
    s.board.HeldStores as (s.runString i c prim).board := by
  have iteration (k : RepKind) (it : s.iterates = true) : s.board.HeldStores as (s.repIterate i k c prim).board := by
    rw [repIterate_board]
    exact d it
  unfold runString
  split
  next k => exact d (by simp [iterates, k])
  next k hk =>
    split
    next r =>
      split
      · exact (Board.HeldStores.start l).other rfl rfl
      next n => exact iteration k (by simpa [iterates, hk, r] using n)
    next r =>
      split
      · exact .start l
      next z => exact iteration k (by simpa [iterates, hk, r] using z)

/-! ### The stack (43_data_transfer.md R280) -/

/-- From `s`, `k` words have been pushed on the way to `t` with the bus held, and nothing else has been stored. -/
structure HeldPushes (k : Nat) (s t : State) : Prop where
  ss     : t.sreg .ss = s.sreg .ss
  sp     : t.reg16 .sp = s.reg16 .sp - BitVec.ofNat 16 (2 * k)
  stores : s.board.HeldStores (s.stackAddrs k) t.board

theorem HeldPushes.start (d : s.board.HeldStores [] t.board) (ss : t.sreg .ss = s.sreg .ss)
    (sp : t.reg16 .sp = s.reg16 .sp) : s.HeldPushes 0 t := ⟨ss, by simp [sp], d⟩

theorem HeldPushes.push16 {k : Nat} (h : s.HeldPushes k t) (v : Word) : s.HeldPushes (k + 1) (t.push16 v) := by
  have sp : t.reg16 .sp - 2 = s.reg16 .sp - BitVec.ofNat 16 (2 * (k + 1)) := by
    rw [h.sp, Nat.mul_succ, BitVec.ofNat_add, BitVec.sub_sub]
    rfl
  refine ⟨h.ss, sp, ?_⟩
  have before := h.stores.mono (List.subset_append_left _ (byteAddrs .word (t.sreg .ss) (t.reg16 .sp - 2)))
  have pushed : s.board.HeldStores _ (t.push16 v).board :=
    before.access (Board.wr16_held before.locked _ _ _ v) (List.subset_append_right _ _)
  rw [h.ss, sp] at pushed
  exact pushed

section

variable (h : s.HeldPushes 0 t)
include h

theorem HeldPushes.callNear (ip : Word) : s.board.HeldStores (s.stackAddrs 1) (t.callNear ip).board :=
  held_jumpNear (h.push16 _).stores ip

theorem HeldPushes.callFar (cs ip : Word) : s.board.HeldStores (s.stackAddrs 2) (t.callFar cs ip).board :=
  held_jumpFar ((h.push16 _).push16 _).stores cs ip

/-- Interrupt entry stores three words (60_exceptions.md R440) and reads the vector. -/
theorem HeldPushes.enter (n : Byte) (ret : Word) : s.board.HeldStores (s.stackAddrs 3) (t.enter n ret).board := by
  have pushed := (((h.push16 t.cpu.flags.word).push16 (t.sreg .cs)).push16 ret).stores
  have masked := held_setFlags pushed { t.cpu.flags with intf := false, tf := false }
  have vector := held_rd (held_rd masked .word 0 (4 * n.setWidth 16)) .word 0 (4 * n.setWidth 16 + 2)
  exact held_flushTo vector _

theorem HeldPushes.finishDiv {w : Width} {r : Option (BitVec w.bits × BitVec w.bits)}
    (k : r.isNone = true → s.stackAddrs 3 ⊆ as) : s.board.HeldStores as (Machine.finishDiv w r t).board := by
  cases r with
  | none => exact (h.enter 0 _).mono (k rfl)
  | some _ => exact held_setAcc (h.stores.mono (List.nil_subset as)) w _ _ _ _

end

end State

open State in
/-- With the bus held an instruction that answers stores to its own addresses only, whatever the other agents do. -/
theorem exec_held {i : Instr} {s t : State} (l : s.board.locked = true) (h : exec i s = .next t) :
    s.board.HeldStores (storedAddrs i s) t.board := by
  have whole (as : List Nat) : as ⊆ as := List.Subset.refl as
  have same (as : List Nat) : s.board.HeldStores as s.board := .start l
  have own : s.HeldPushes 0 s := .start (.start l) rfl rfl
  have load (w : Width) (o : Operand) : s.HeldPushes 0 (s.load w o).2 :=
    .start (held_load (same _) w o) (by simp [sreg]) (by simp [reg16])
  cases i with
  | add f | adc f | sub f | sbb f => cases h; exact held_binary (same _) (whole _) _ _
  | and f | or f | xor f => cases h; exact (held_binary (same _) (whole _) _ _).other rfl rfl
  | cmp f => cases h; exact held_compare (same _) _ _ _ _
  | test f => cases h; exact (held_compare (same _) _ _ _ _).other rfl rfl
  | incReg g | decReg g => cases h; exact held_unary (x := .reg g) (same []) (whole []) _
  | incRm _ _ | decRm _ _ | not _ _ | neg _ _ => cases h; exact held_unary (same _) (whole _) _
  | mul w e | imul w e => cases h; exact held_setAcc (held_load (same _) w (.rm e)) w _ _ _ _
  | div w e | idiv w e => cases h; exact (load w (.rm e)).finishDiv fun r => subset_of_pos r _ _
  | aam base =>
    cases h
    split
    next z => exact (own.enter 0 _).mono (subset_of_pos (beq_iff_eq.mpr z) _ _)
    next z => exact (same _).other rfl rfl
  | rol w e c | ror w e c | rcl w e c | rcr w e c | shl w e c | shr w e c | setmo w e c | sar w e c =>
    cases h; exact held_shiftRotate (same _) (fun z => subset_of_not z [] _) _ _ _
  | movRmReg _ _ _ | movRmImm8 _ _ _ | movRmImm16 _ _ _ | movRmSeg _ _ _ =>
    cases h; exact held_store (same _) (whole _) _
  | movRegRm w g e => cases h; exact held_setReg (held_load (same _) w (.rm e)) w g _
  | movAccMem w off => cases h; exact held_setReg (held_rd (same _) w _ off) w _ _
  | movMemAcc w off => cases h; exact held_wr (same _) w _ off _ (whole _)
  | movSegRm _ r e => cases h; exact held_inhibit (held_load (same _) .word (.rm e))
  | pushReg _ | pushSeg _ | pushf => cases h; exact (own.push16 _).stores
  | pushRm _ e =>
    cases e with
    | reg g => cases h; exact (own.push16 _).stores
    | mem m => cases h; exact ((load .word (.rm (.mem m))).push16 _).stores
  | popReg _ | popf => cases h; exact held_pop16 (same _)
  | popRm _ e => cases h; exact held_writePlace (held_pop16 (held_touch (same _) (.rm e))) _ (whole _)
  | popSeg r => cases h; exact held_inhibit (held_pop16 (same _))
  | xchgRm w e g => cases h; exact held_setReg (held_writePlace (held_load (same _) w (.rm e)) _ (whole _)) w g _
  | lea g e => cases h; exact held_touch (same _) (.rm e)
  | lds g e | les g e => cases h; exact held_readFar (same _) e
  | xlat => cases h; exact held_rd (same _) .byte _ _
  | inImm _ _ | inDx _ => exact held_inPort (same _) h
  | outImm _ _ | outDx _ => exact held_outPort (same _) h
  | movsb | movsw =>
    cases h
    exact held_runString l fun it => held_wr (held_rd (same _) _ _ _) _ _ _ _ (subset_of_pos it _ _)
  | stosb | stosw => cases h; exact held_runString l fun it => held_wr (same _) _ _ _ _ (subset_of_pos it _ _)
  | cmpsb | cmpsw => cases h; exact held_runString l fun _ => held_rd (held_rd (same _) _ _ _) _ _ _
  | scasb | lodsb => cases h; exact held_runString l fun _ => held_rd (same _) .byte _ _
  | scasw | lodsw => cases h; exact held_runString l fun _ => held_rd (same _) .word _ _
  | jo _ _ | jno _ _ | jb _ _ | jnb _ _ | jz _ _ | jnz _ _ | jbe _ _ | ja _ _ | js _ _ | jns _ _ | jp _ _ | jnp _ _
  | jl _ _ | jge _ _ | jle _ _ | jg _ _ | jcxz _ => cases h; exact held_jumpIf (same _) _ _
  | loopnz _ | loopz _ | loop _ => cases h; exact held_jumpIf (t := s.decCx) (same _) _ _
  | jmpRm e => cases h; exact held_jumpNear (held_load (same _) .word (.rm e)) _
  | jmpFarRm e =>
    cases e with
    | reg g => cases h
    | mem m => cases h; exact held_jumpFar (held_readFar (same _) (.mem m)) _ _
  | callNear d => cases h; exact own.callNear _
  | callFar off seg => cases h; exact own.callFar _ _
  | callRm e => cases h; exact (load .word (.rm e)).callNear _
  | callFarRm e =>
    cases e with
    | reg g => cases h
    | mem m =>
      cases h
      exact (HeldPushes.start (held_readFar (same _) (.mem m)) (by simp [sreg]) (by simp [reg16])).callFar _ _
  | ret _ | retImm _ _ => cases h; exact held_retNear (same _) _
  | retf _ | retfImm _ _ => cases h; exact held_retFar (same _) _
  | iret => cases h; exact held_iret (same _)
  | int3 | intN _ => cases h; exact own.enter _ _
  | into =>
    cases h
    split
    next o => exact (own.enter 4 _).mono (subset_of_pos o _ _)
    · exact same _
  | hlt =>
    rw [exec, execHlt] at h
    split at h <;> cases h
    exact same _
  | wait => cases h; split <;> exact (same _).other rfl rfl
  | sti => cases h; exact held_inhibit (same _)
  | esc _ _ e =>
    cases e with
    | reg g => cases h; exact same _
    | mem m => cases h; exact held_load (same _) .word (.rm (.mem m))
  | fe2 _ | fe3 _ | fe4 _ | fe5 _ | fe6 _ | fe7 _ => cases h
  | lock | lockAlias => cases h; exact ⟨rfl, fun _ _ => rfl⟩
  | daa | das | aaa | aas | aad _ | movRegImm8 _ _ | movRegImm16 _ _ | xchgAx _ | lahf | salc | sahf | cbw | cwd
  | jmpShort _ | jmpNear _ | jmpFar _ _ | nop | cmc | clc | stc | cld | std | cli | segEs | segCs | segSs | segDs
  | repnz | rep => cases h; exact (same _).other rfl rfl

namespace State

variable {s t : State}

/-! ### Taking an instruction with the bus held -/

theorem loadEarly_held (h : s.board.locked = true) (bs : List Byte) : s.board.Held [] (s.loadEarly bs).board := by
  unfold loadEarly
  split
  · exact .refl h
  next w m _ => exact rd_held (s := s.touch (.rm (.mem m))) h w _ _

theorem fetchUnit_held (h : s.board.locked = true) (op : QueueOp) (bs : List Byte) (n : Nat) {i : Instr}
    (e : s.fetchUnit op bs n = some (i, t)) : s.board.Held [] t.board := by
  induction n generalizing s op bs with
  | zero =>
    unfold fetchUnit at e
    split at e <;> cases e
    exact .refl h
  | succ n ih =>
    unfold fetchUnit at e
    split at e
    · cases e
      exact .refl h
    · have load := loadEarly_held h bs
      have byte := Board.fetch8_held load.locked (s.loadEarly bs).cpu.sregs.cs op
      exact (load.trans byte).trans (ih byte.locked _ _ e)

theorem recorded_held (h : s.board.locked = true) (ps : List Instr) : s.board.Held [] (s.recorded ps).board :=
  .of_eq h (by rw [recorded, h, Bool.true_or]) rfl rfl

theorem takeUnits_held (h : s.board.locked = true) (op : QueueOp) (n : Nat) :
    s.board.Held [] (s.takeUnits op n).state.board := by
  induction n generalizing s op with
  | zero => exact .refl h
  | succ n ih =>
    unfold takeUnits
    split
    · exact .refl h
    next i t e =>
      have unit := fetchUnit_held h op [] 6 e
      split
      · split
        next isPfx =>
          rw [exec_prefix isPfx]
          have recorded := recorded_held unit.locked [i]
          exact (unit.trans recorded).trans (ih recorded.locked _)
        · exact unit
      · exact unit

/-- No event that is sampled takes or lets go the bus. -/
theorem stepFinish_locked (s : State) : s.stepFinish.board.locked = s.board.locked := by
  obtain e | e | ⟨l, p, n, e⟩ := s.stepFinish_cases <;> rw [e]
  exact ((Does.start _).enter Effects.entry_enters n _).board.locked rfl

theorem retire_locked (s : State) : s.retire.board.locked = false :=
  (stepFinish_locked _).trans (Board.slot_locked _ _ _)

end State

end Sys2Proof.Machine

open Sys2Proof Sys2Proof.Machine

/-- Settles O54: no access to memory lets a DMA transfer fall while the bus is held, nor does a slot, and the bus is
held from the first prefix byte on where LOCK is among the prefixes. -/
theorem prefixesAndLock : Obligations.PrefixesAndLock := by
  unfold Obligations.PrefixesAndLock
  intro unserved stored
  refine ⟨fun s i isPfx => ⟨s.recorded [i], exec_prefix isPfx s, rfl, ?_⟩, fun s n => ⟨fun lock => ?_, fun free => ?_⟩,
    fun s h => ⟨fun op bs n i t e => ?_, ?_, fun i t e => ?_⟩, State.retire_locked⟩
  · simp [State.recorded, locks, Bool.or_assoc]
  · obtain ⟨-, free⟩ | e := s.takeRest_cases n
    · rw [free] at lock
      cases lock
    · obtain ⟨locked, dma, mem⟩ := State.takeUnits_held (s := s.holdBus) rfl .subsequent n
      rw [e]
      exact ⟨locked, dma, mem⟩
  · exact State.takeRest_eq free
  · obtain ⟨locked, dma, mem⟩ := State.fetchUnit_held h op bs n e
    exact ⟨locked, dma, mem⟩
  · obtain ⟨locked, dma, mem⟩ := Board.slot_held h s.cpu.sregs.cs false
    exact ⟨locked, dma, mem⟩
  · obtain ⟨locked, mem⟩ := exec_held h e
    have moves := (exec_does e).board
    rw [State.located_eq] at moves
    exact ⟨locked, fun notPort => (moves.untouched notPort h).2, mem⟩

end
